-- ==== Sys2Proof/Word.lean ====
section
/-! DEFINITION. The word types of the NJ516 and the shape of its numbered record tables. -/

namespace Sys2Proof

/-- A data byte of a link frame, or a one-byte operand. -/
abbrev Byte := BitVec 8

/-- One 8-bit sample code of a highway, 0 to 255 (R14). -/
abbrev Code := BitVec 8

/-- A step value of a key half, and every two-byte operand (R17, 12.2). -/
abbrev Word16 := BitVec 16

/-- A generator state, a seed, a nonce, or a frame count (R1, R17, R25). -/
abbrev Word32 := BitVec 32

/-- A numbered set of records, each number at most once: pairs in rising order of their number.
An unlisted number holds no record, or the default record its reader names. -/
abbrev Table (α : Type) := List (Nat × α)

end Sys2Proof
end

