-- ==== Sys2Proof/Syntax.lean ====
section
/-! DEFINITION. The steps of the NJ516: one constructor of Instr for each row of spec/opcode_table.json.
A command's operands stand as its frame carries them (12.2): raw bytes and words, not yet checked. -/

namespace Sys2Proof

/-- The three command links; coded A 0, B 1, M 2 (R184). -/
inductive Link where
  | a | b | m
  deriving DecidableEq, Repr

/-- The two directions of a privacy context (R90). -/
inductive Dir where
  | tx | rx
  deriving DecidableEq, Repr

/-- The link symbols that have no row of their own (R161): an invalid symbol, IDLE, FRAME_BEGIN, a data byte, FRAME_END. -/
inductive OtherSymbol where
  | invalid | idle | frameBegin | data (b : Byte) | frameEnd
  deriving DecidableEq, Repr

/-- What an orphan deadline stands on: a path or a bridge (R179). -/
inductive OrphanRef where
  | path (id : Nat) | bridge (id : Nat)
  deriving DecidableEq, Repr

/-- An optional operand: a presence byte, then the value's own width (12.2). -/
structure Opt (n : Nat) where
  present : Byte
  value : BitVec n
  deriving DecidableEq, Repr

/-- A stored record as SET_EXTENSION and each LOAD_EXTENSIONS entry carry it (12.2). -/
structure StoredOps where
  ext : Word16
  seed : Word32
  step : Word16
  access : Byte
  conference : Byte
  slot : Word16
  deriving DecidableEq, Repr

/-- A key block (12.3). -/
structure KeyBlock where
  txSeed : Word32
  txStep : Word16
  rxSeed : Word32
  rxStep : Word16
  deriving DecidableEq, Repr

/-- The epoch lengths and leads of an open, in seconds, in the order of the frame (5.3). -/
structure TimingOps where
  txEpoch : Word16
  rxEpoch : Word16
  txLead : Word16
  rxLead : Word16
  deriving DecidableEq, Repr

/-- OPEN_TIE's operands (5.3). -/
structure OpenTieOps where
  station : Word16
  tie : Byte
  privacy : Byte
  keys : KeyBlock
  timing : TimingOps
  deriving DecidableEq, Repr

/-- A path named with an optional opening stamp (5.5, 6.4). -/
structure PathRefOps where
  path : Word16
  stamp : Opt 32
  deriving DecidableEq, Repr

/-- A bridge named with an optional bridge stamp (R127). -/
structure BridgeRefOps where
  bridge : Byte
  stamp : Opt 32
  deriving DecidableEq, Repr

/-- READ_PATH's name: a form byte and a number (12.2). -/
structure ReadPathOps where
  form : Byte
  number : Word16
  deriving DecidableEq, Repr

/-- One half of STAGE_KEY (6.4, 12.2). -/
structure HalfOps where
  present : Byte
  seed : Word32
  step : Word16
  epoch : Opt 16
  lead : Opt 16
  deriving DecidableEq, Repr

/-- STAGE_KEY's operands (6.4). -/
structure StageKeyOps where
  ref : PathRefOps
  tx : HalfOps
  rx : HalfOps
  deriving DecidableEq, Repr

/-- SET_GUARD's operands (R123). -/
structure SetGuardOps where
  ref : PathRefOps
  ceiling : Word16
  limit : Word16
  enabled : Byte
  deriving DecidableEq, Repr

/-- Three two-byte parameters of one command: SET_ADMISSION (R64) and SET_PRIVACY_DEFAULTS (R124). -/
structure ThreeOps where
  first : Word16
  second : Word16
  third : Word16
  deriving DecidableEq, Repr

/-- ADD_LEG's operands (8.3). -/
structure AddLegOps where
  ref : BridgeRefOps
  kind : Byte
  station : Word16
  tie : Byte
  privacy : Byte
  keys : KeyBlock
  timing : TimingOps
  gain : Byte
  mode : Byte
  deriving DecidableEq, Repr

/-- REMOVE_LEG's operands (R135). -/
structure RemoveLegOps where
  ref : BridgeRefOps
  path : Word16
  deriving DecidableEq, Repr

/-- SET_LEG's operands (R138). -/
structure SetLegOps where
  ref : BridgeRefOps
  path : Word16
  gain : Byte
  mode : Byte
  deriving DecidableEq, Repr

/-- SET_TALKER's operands (R139). -/
structure SetTalkerOps where
  ref : BridgeRefOps
  threshold : Word16
  deriving DecidableEq, Repr

/-- A survey entry as SET_SURVEY carries it (12.2). -/
structure SurveyEntryOps where
  kind : Byte
  number : Word16
  point : Byte
  deriving DecidableEq, Repr

/-- SET_SURVEY's operands (R148); count is the count byte of the frame. -/
structure SetSurveyOps where
  count : Byte
  entries : List SurveyEntryOps
  mode : Byte
  trigger : Byte
  ctx : Byte
  dir : Byte
  window : Word16
  low : Word16
  high : Word16
  report : Byte
  deriving DecidableEq, Repr

/-- LOAD_EXTENSIONS's operands (R40); count is the count byte of the frame. -/
structure LoadOps where
  count : Byte
  entries : List StoredOps
  deriving DecidableEq, Repr

/-- SET_EVENTS's eight enables in the order of the class table (R171). -/
structure EnableOps where
  admission : Byte
  path : Byte
  key : Byte
  sync : Byte
  bridge : Byte
  survey : Byte
  highway : Byte
  link : Byte
  deriving DecidableEq, Repr

/-- ANSWER's operands (R53). -/
structure AnswerOps where
  ext : Word16
  response : Word32
  deriving DecidableEq, Repr

/-- FRAME_START's inputs: the station codes of the frame that begins (an unlisted slot carries the idle code),
and the two orders the manual leaves to the moment: whether the frame's processing is taken before the steps due at its
start (R72), and whether the survey's work comes after the triggers of that frame (R156). -/
structure FrameOps where
  codes : List (Nat × Code)
  workFirst : Bool
  surveyLater : Bool
  deriving DecidableEq, Repr

/-- The steps of the part, in the order of spec/opcode_table.json. -/
inductive Instr where
  | powerOnReset
  | startUpLoad
  | startCountProgramDone
  | frameStart (o : FrameOps)
  | preambleEnd (ctx : Nat)
  | keyDueWarning (ctx : Nat) (d : Dir)
  | rollover (ctx : Nat) (d : Dir)
  | huntReport (ctx : Nat)
  | guardWindowEnd (ctx : Nat)
  | bridgeWindowBoundary (bridge : Nat)
  | surveyEntryComplete
  | challengeExpiry (ext : Nat)
  | lockoutExpiry (ext : Nat)
  | orphanDeadline (r : OrphanRef)
  | programComplete
  | eraseComplete
  | loadEntryComplete
  | tieFrameArrival (highway : Nat) (codes : List Code)
  | highwayLostSilent (highway : Nat)
  | highwayRestore (highway : Nat)
  | alignReceived (l : Link)
  | linkAligning (l : Link)
  | startReceived (l : Link)
  | otherSymbolReceived (l : Link) (sym : OtherSymbol)
  | linkDown (l : Link)
  | holdOnReceived (l : Link)
  | holdOffReceived (l : Link)
  | commandFrameReceived (l : Link) (bytes : List Byte)
  | outboundFrameStart (l : Link)
  | badFrameCommand (l : Link) (bytes : List Byte)
  | readPart (l : Link) (tag : Byte)
  | setLink (l : Link) (tag : Byte) (threshold : Word16)
  | setEvents (l : Link) (tag : Byte) (o : EnableOps)
  | setExtension (l : Link) (tag : Byte) (o : StoredOps)
  | eraseExtension (l : Link) (tag : Byte) (ext : Word16)
  | loadExtensions (l : Link) (tag : Byte) (o : LoadOps)
  | readExtension (l : Link) (tag : Byte) (ext : Word16)
  | collectChanges (l : Link) (tag : Byte)
  | challenge (l : Link) (tag : Byte) (ext : Word16)
  | answer (l : Link) (tag : Byte) (o : AnswerOps)
  | release (l : Link) (tag : Byte) (ext : Word16)
  | unlock (l : Link) (tag : Byte) (ext : Word16)
  | setAdmission (l : Link) (tag : Byte) (o : ThreeOps)
  | openTie (l : Link) (tag : Byte) (o : OpenTieOps)
  | clearPath (l : Link) (tag : Byte) (o : PathRefOps)
  | readPath (l : Link) (tag : Byte) (o : ReadPathOps)
  | resetTraffic (l : Link) (tag : Byte)
  | stageKey (l : Link) (tag : Byte) (o : StageKeyOps)
  | readContext (l : Link) (tag : Byte) (ctx : Byte)
  | resyncTx (l : Link) (tag : Byte) (o : PathRefOps)
  | setGuard (l : Link) (tag : Byte) (o : SetGuardOps)
  | setPrivacyDefaults (l : Link) (tag : Byte) (o : ThreeOps)
  | openBridge (l : Link) (tag : Byte) (threshold : Opt 16)
  | addLeg (l : Link) (tag : Byte) (o : AddLegOps)
  | removeLeg (l : Link) (tag : Byte) (o : RemoveLegOps)
  | setLeg (l : Link) (tag : Byte) (o : SetLegOps)
  | setTalker (l : Link) (tag : Byte) (o : SetTalkerOps)
  | closeBridge (l : Link) (tag : Byte) (o : BridgeRefOps)
  | readBridge (l : Link) (tag : Byte) (bridge : Byte)
  | setSurvey (l : Link) (tag : Byte) (o : SetSurveyOps)
  | startSurvey (l : Link) (tag : Byte)
  | stopSurvey (l : Link) (tag : Byte)
  | readSurvey (l : Link) (tag : Byte)
  | adopt (l : Link) (tag : Byte) (former : Byte)
  | setOrphanHold (l : Link) (tag : Byte) (seconds : Word16)
  deriving DecidableEq, Repr

end Sys2Proof
end

