-- ==== Sys2Proof/Machine/Bytes.lean ====
section
/-! DEFINITION. Numbers as bytes of a link frame, most significant byte first (12), and back. -/

namespace Sys2Proof

/-- A two-byte number, most significant byte first. -/
def bytes16 (x : Word16) : List Byte := [x.extractLsb' 8 8, x.extractLsb' 0 8]

/-- A four-byte number, most significant byte first. -/
def bytes32 (x : Word32) : List Byte :=
  [x.extractLsb' 24 8, x.extractLsb' 16 8, x.extractLsb' 8 8, x.extractLsb' 0 8]

/-- A number in one, two or four bytes. -/
def num8 (n : Nat) : List Byte := [BitVec.ofNat 8 n]
def num16 (n : Nat) : List Byte := bytes16 (BitVec.ofNat 16 n)
def num32 (n : Nat) : List Byte := bytes32 (BitVec.ofNat 32 n)

/-- A yes-or-no value or a presence byte: 1 or 0 (R186). -/
def flag8 (b : Bool) : List Byte := [if b then 1 else 0]

/-- A link's code: A 0, B 1, M 2 (R184). -/
def Link.code : Link → Nat
  | .a => 0 | .b => 1 | .m => 2

/-- The first byte, and the bytes after it. -/
def read8 (b : List Byte) : Byte × List Byte := (b.headD 0, b.drop 1)

/-- The first two bytes as one number, and the bytes after them. -/
def read16 (b : List Byte) : Word16 × List Byte := (b.headD 0 ++ (b.drop 1).headD 0, b.drop 2)

/-- The first four bytes as one number, and the bytes after them. -/
def read32 (b : List Byte) : Word32 × List Byte :=
  (((b.headD 0 ++ (b.drop 1).headD 0) ++ ((b.drop 2).headD 0 ++ (b.drop 3).headD 0) : BitVec 32), b.drop 4)

end Sys2Proof
end

