-- ==== Sys2Proof/Config.lean ====
section
/-! DEFINITION. The capacities and the identity of the part (00_scope.md 0.4, R174). The manual leaves no value
after a step undefined, so there is no free value here. -/

namespace Sys2Proof.Config

/-- Extensions, station slots, tie slots, tie highways, slots of a tie highway (0.4). -/
def extensions : Nat := 2048
def stationSlots : Nat := 512
def tieSlots : Nat := 256
def tieHighways : Nat := 8
def slotsPerTie : Nat := 32

/-- Path records, contexts, bridges, legs of a bridge, legs of the pool (0.4). -/
def paths : Nat := 384
def contexts : Nat := 192
def bridges : Nat := 32
def legsPerBridge : Nat := 8
def legPool : Nat := 128

/-- Survey list entries, command queue, overrun list, event queue (0.4, 10). -/
def surveyEntries : Nat := 8
def commandQueue : Nat := 16
def overrunList : Nat := 16
def eventQueue : Nat := 32

/-- Frames of a second (0.7) and frames of a store operation (R32). -/
def framesPerSecond : Nat := 8000
def storeFrames : Nat := 16

/-- Family code, part code and revision number that READ_PART returns (R174). -/
def family : Nat := 9
def part : Nat := 516
def revision : Nat := 1

end Sys2Proof.Config
end

