-- ==== Sys2Proof/WellFormed.lean ====
section
/-! DEFINITION. Which terms of Instr stand for a step that can reach the part. A command's bytes and words fill their
fields whatever they hold (the owner's checks refuse bad values, R186); what can be ill-formed is a number of the
part's own steps outside its range, a list whose length its count does not give, or a frame without a byte. -/

namespace Sys2Proof

/-- Slots rise strictly and lie below `n`. -/
def risingBelow (n : Nat) : List (Nat × Code) → Bool
  | [] => true
  | [(k, _)] => decide (k < n)
  | (k, _) :: (j, c) :: t => decide (k < j) && risingBelow n ((j, c) :: t)

/-- The step can reach the part. -/
def Instr.wellFormed : Instr → Bool
  | .frameStart o => risingBelow Config.stationSlots o.codes
  | .preambleEnd i => decide (i < Config.contexts)
  | .keyDueWarning i _ => decide (i < Config.contexts)
  | .rollover i _ => decide (i < Config.contexts)
  | .huntReport i => decide (i < Config.contexts)
  | .guardWindowEnd i => decide (i < Config.contexts)
  | .bridgeWindowBoundary b => decide (b < Config.bridges)
  | .challengeExpiry e => decide (e < Config.extensions)
  | .lockoutExpiry e => decide (e < Config.extensions)
  | .orphanDeadline (.path p) => decide (p < Config.paths)
  | .orphanDeadline (.bridge b) => decide (b < Config.bridges)
  | .tieFrameArrival h _ => decide (h < Config.tieHighways)
  | .highwayLostSilent h => decide (h < Config.tieHighways)
  | .highwayRestore h => decide (h < Config.tieHighways)
  | .commandFrameReceived _ b => decide (0 < b.length)
  | .badFrameCommand _ b => decide (0 < b.length)
  | .loadExtensions _ _ o => decide (o.entries.length = o.count.toNat) && decide (1 + 12 * o.entries.length < 256)
  | .setSurvey _ _ o => decide (o.entries.length = o.count.toNat) && decide (12 + 4 * o.entries.length < 256)
  | .powerOnReset | .startUpLoad | .startCountProgramDone | .surveyEntryComplete | .programComplete | .eraseComplete
  | .loadEntryComplete | .alignReceived _ | .linkAligning _ | .startReceived _ | .otherSymbolReceived _ _
  | .linkDown _ | .holdOnReceived _ | .holdOffReceived _ | .outboundFrameStart _ | .readPart _ _ | .setLink _ _ _
  | .setEvents _ _ _ | .setExtension _ _ _ | .eraseExtension _ _ _ | .readExtension _ _ _ | .collectChanges _ _
  | .challenge _ _ _ | .answer _ _ _ | .release _ _ _ | .unlock _ _ _ | .setAdmission _ _ _ | .openTie _ _ _
  | .clearPath _ _ _ | .readPath _ _ _ | .resetTraffic _ _ | .stageKey _ _ _ | .readContext _ _ _ | .resyncTx _ _ _
  | .setGuard _ _ _ | .setPrivacyDefaults _ _ _ | .openBridge _ _ _ | .addLeg _ _ _ | .removeLeg _ _ _
  | .setLeg _ _ _ | .setTalker _ _ _ | .closeBridge _ _ _ | .readBridge _ _ _ | .startSurvey _ _ | .stopSurvey _ _
  | .readSurvey _ _ | .adopt _ _ _ | .setOrphanHold _ _ _ => true

end Sys2Proof
end

