-- ==== Sys2Proof/Decode.lean ====
section
/-! DEFINITION. The command frames of 12.1 and 12.2: the frame check of R185, reading a frame as a command, and
writing a command as its frame. No row of spec/opcode_table.json has bits, so decodeTableWord answers none. -/

namespace Sys2Proof

/-! ## The frame check -/

/-- The operand length a kind requires (12.2, R184); a count operand is read from the frame (R185). -/
def requiredLength (kind : Nat) (ops : List Byte) : Nat :=
  match kind with
  | 1 => 0 | 2 => 2 | 3 => 8 | 4 => 12 | 5 => 2
  | 6 => 1 + 12 * (ops.headD 0).toNat
  | 7 => 2 | 8 => 0 | 9 => 2 | 10 => 6 | 11 => 2 | 12 => 2 | 13 => 6 | 14 => 24 | 15 => 7 | 16 => 3 | 17 => 0
  | 18 => 33 | 19 => 1 | 20 => 7 | 21 => 12 | 22 => 6 | 23 => 3 | 24 => 33 | 25 => 8 | 26 => 10 | 27 => 8 | 28 => 6
  | 29 => 1
  | 30 => 12 + 4 * (ops.headD 0).toNat
  | 31 => 0 | 32 => 0 | 33 => 0 | 34 => 1 | 35 => 2
  | _ => 0

/-- A frame is refused BAD_FRAME: fewer than three bytes, an unknown kind, or a length that does not agree (R185). -/
def badFrame : List Byte → Bool
  | kind :: _ :: len :: ops =>
    !(decide (1 ≤ kind.toNat) && decide (kind.toNat ≤ 35)) || decide (len.toNat ≠ ops.length)
      || decide (ops.length ≠ requiredLength kind.toNat ops)
  | _ => true

/-- The kind byte of a frame, and its tag, 0 where the frame has none (R185). -/
def frameKind (f : List Byte) : Byte := f.headD 0
def frameTag (f : List Byte) : Byte := (f.drop 1).headD 0

/-! ## Reading operands -/

def readOpt16 (b : List Byte) : Opt 16 × List Byte :=
  let (p, b) := read8 b
  let (v, b) := read16 b
  (⟨p, v⟩, b)

def readOpt32 (b : List Byte) : Opt 32 × List Byte :=
  let (p, b) := read8 b
  let (v, b) := read32 b
  (⟨p, v⟩, b)

def readStored (b : List Byte) : StoredOps × List Byte :=
  let (ext, b) := read16 b
  let (seed, b) := read32 b
  let (step, b) := read16 b
  let (access, b) := read8 b
  let (conference, b) := read8 b
  let (slot, b) := read16 b
  (⟨ext, seed, step, access, conference, slot⟩, b)

def readKeys (b : List Byte) : KeyBlock × List Byte :=
  let (txSeed, b) := read32 b
  let (txStep, b) := read16 b
  let (rxSeed, b) := read32 b
  let (rxStep, b) := read16 b
  (⟨txSeed, txStep, rxSeed, rxStep⟩, b)

def readTiming (b : List Byte) : TimingOps × List Byte :=
  let (txEpoch, b) := read16 b
  let (rxEpoch, b) := read16 b
  let (txLead, b) := read16 b
  let (rxLead, b) := read16 b
  (⟨txEpoch, rxEpoch, txLead, rxLead⟩, b)

def readPathRef (b : List Byte) : PathRefOps × List Byte :=
  let (path, b) := read16 b
  let (stamp, b) := readOpt32 b
  (⟨path, stamp⟩, b)

def readBridgeRef (b : List Byte) : BridgeRefOps × List Byte :=
  let (bridge, b) := read8 b
  let (stamp, b) := readOpt32 b
  (⟨bridge, stamp⟩, b)

def readHalf (b : List Byte) : HalfOps × List Byte :=
  let (present, b) := read8 b
  let (seed, b) := read32 b
  let (step, b) := read16 b
  let (epoch, b) := readOpt16 b
  let (lead, b) := readOpt16 b
  (⟨present, seed, step, epoch, lead⟩, b)

def readThree (b : List Byte) : ThreeOps × List Byte :=
  let (first, b) := read16 b
  let (second, b) := read16 b
  let (third, b) := read16 b
  (⟨first, second, third⟩, b)

def readSurveyEntry (b : List Byte) : SurveyEntryOps × List Byte :=
  let (kind, b) := read8 b
  let (number, b) := read16 b
  let (point, b) := read8 b
  (⟨kind, number, point⟩, b)

/-- `n` members one after another. -/
def readMany {α : Type} (read : List Byte → α × List Byte) : Nat → List Byte → List α × List Byte
  | 0, b => ([], b)
  | n + 1, b =>
    let (x, b) := read b
    let (xs, b) := readMany read n b
    (x :: xs, b)

def readOpenTie (b : List Byte) : OpenTieOps :=
  let (station, b) := read16 b
  let (tie, b) := read8 b
  let (privacy, b) := read8 b
  let (keys, b) := readKeys b
  let (timing, _) := readTiming b
  ⟨station, tie, privacy, keys, timing⟩

def readAddLeg (b : List Byte) : AddLegOps :=
  let (ref, b) := readBridgeRef b
  let (kind, b) := read8 b
  let (station, b) := read16 b
  let (tie, b) := read8 b
  let (privacy, b) := read8 b
  let (keys, b) := readKeys b
  let (timing, b) := readTiming b
  let (gain, b) := read8 b
  let (mode, _) := read8 b
  ⟨ref, kind, station, tie, privacy, keys, timing, gain, mode⟩

def readStageKey (b : List Byte) : StageKeyOps :=
  let (ref, b) := readPathRef b
  let (tx, b) := readHalf b
  let (rx, _) := readHalf b
  ⟨ref, tx, rx⟩

def readSetGuard (b : List Byte) : SetGuardOps :=
  let (ref, b) := readPathRef b
  let (ceiling, b) := read16 b
  let (limit, b) := read16 b
  let (enabled, _) := read8 b
  ⟨ref, ceiling, limit, enabled⟩

def readSetLeg (b : List Byte) : SetLegOps :=
  let (ref, b) := readBridgeRef b
  let (path, b) := read16 b
  let (gain, b) := read8 b
  let (mode, _) := read8 b
  ⟨ref, path, gain, mode⟩

def readLoad (b : List Byte) : LoadOps :=
  let (count, b) := read8 b
  ⟨count, (readMany readStored count.toNat b).1⟩

def readSetSurvey (b : List Byte) : SetSurveyOps :=
  let (count, b) := read8 b
  let (entries, b) := readMany readSurveyEntry count.toNat b
  let (mode, b) := read8 b
  let (trigger, b) := read8 b
  let (ctx, b) := read8 b
  let (dir, b) := read8 b
  let (window, b) := read16 b
  let (low, b) := read16 b
  let (high, b) := read16 b
  let (report, _) := read8 b
  ⟨count, entries, mode, trigger, ctx, dir, window, low, high, report⟩

def readEnables (b : List Byte) : EnableOps :=
  let (c0, b) := read8 b
  let (c1, b) := read8 b
  let (c2, b) := read8 b
  let (c3, b) := read8 b
  let (c4, b) := read8 b
  let (c5, b) := read8 b
  let (c6, b) := read8 b
  let (c7, _) := read8 b
  ⟨c0, c1, c2, c3, c4, c5, c6, c7⟩

/-- The command a frame of link `l` carries, by its kind (R184, 12.2); none where R185 refuses the frame. -/
def decodeCommand (l : Link) (f : List Byte) : Option Instr :=
  if badFrame f then none
  else
    let t := frameTag f
    let b := f.drop 3
    match (frameKind f).toNat with
    | 1 => some (.readPart l t)
    | 2 => some (.setLink l t (read16 b).1)
    | 3 => some (.setEvents l t (readEnables b))
    | 4 => some (.setExtension l t (readStored b).1)
    | 5 => some (.eraseExtension l t (read16 b).1)
    | 6 => some (.loadExtensions l t (readLoad b))
    | 7 => some (.readExtension l t (read16 b).1)
    | 8 => some (.collectChanges l t)
    | 9 => some (.challenge l t (read16 b).1)
    | 10 => some (.answer l t ⟨(read16 b).1, (read32 (read16 b).2).1⟩)
    | 11 => some (.release l t (read16 b).1)
    | 12 => some (.unlock l t (read16 b).1)
    | 13 => some (.setAdmission l t (readThree b).1)
    | 14 => some (.openTie l t (readOpenTie b))
    | 15 => some (.clearPath l t (readPathRef b).1)
    | 16 => some (.readPath l t ⟨(read8 b).1, (read16 (read8 b).2).1⟩)
    | 17 => some (.resetTraffic l t)
    | 18 => some (.stageKey l t (readStageKey b))
    | 19 => some (.readContext l t (read8 b).1)
    | 20 => some (.resyncTx l t (readPathRef b).1)
    | 21 => some (.setGuard l t (readSetGuard b))
    | 22 => some (.setPrivacyDefaults l t (readThree b).1)
    | 23 => some (.openBridge l t (readOpt16 b).1)
    | 24 => some (.addLeg l t (readAddLeg b))
    | 25 => some (.removeLeg l t ⟨(readBridgeRef b).1, (read16 (readBridgeRef b).2).1⟩)
    | 26 => some (.setLeg l t (readSetLeg b))
    | 27 => some (.setTalker l t ⟨(readBridgeRef b).1, (read16 (readBridgeRef b).2).1⟩)
    | 28 => some (.closeBridge l t (readBridgeRef b).1)
    | 29 => some (.readBridge l t (read8 b).1)
    | 30 => some (.setSurvey l t (readSetSurvey b))
    | 31 => some (.startSurvey l t)
    | 32 => some (.stopSurvey l t)
    | 33 => some (.readSurvey l t)
    | 34 => some (.adopt l t (read8 b).1)
    | 35 => some (.setOrphanHold l t (read16 b).1)
    | _ => none

/-- The command that a word spells by the table's bits: no row of the table has bits (log entry 11). -/
def decodeTableWord (_nbits _w : Nat) : Option Instr := none

/-! ## Writing operands -/

def writeOpt16 (o : Opt 16) : List Byte := o.present :: bytes16 o.value

def writeOpt32 (o : Opt 32) : List Byte := o.present :: bytes32 o.value

def writeStored (o : StoredOps) : List Byte :=
  bytes16 o.ext ++ (bytes32 o.seed ++ (bytes16 o.step ++ ([o.access] ++ ([o.conference] ++ bytes16 o.slot))))

def writeKeys (k : KeyBlock) : List Byte :=
  bytes32 k.txSeed ++ (bytes16 k.txStep ++ (bytes32 k.rxSeed ++ bytes16 k.rxStep))

def writeTiming (t : TimingOps) : List Byte :=
  bytes16 t.txEpoch ++ (bytes16 t.rxEpoch ++ (bytes16 t.txLead ++ bytes16 t.rxLead))

def writePathRef (r : PathRefOps) : List Byte := bytes16 r.path ++ writeOpt32 r.stamp

def writeBridgeRef (r : BridgeRefOps) : List Byte := [r.bridge] ++ writeOpt32 r.stamp

def writeHalf (h : HalfOps) : List Byte :=
  [h.present] ++ (bytes32 h.seed ++ (bytes16 h.step ++ (writeOpt16 h.epoch ++ writeOpt16 h.lead)))

def writeThree (o : ThreeOps) : List Byte := bytes16 o.first ++ (bytes16 o.second ++ bytes16 o.third)

def writeSurveyEntry (e : SurveyEntryOps) : List Byte := [e.kind] ++ (bytes16 e.number ++ [e.point])

def writeOpenTie (o : OpenTieOps) : List Byte :=
  bytes16 o.station ++ ([o.tie] ++ ([o.privacy] ++ (writeKeys o.keys ++ writeTiming o.timing)))

def writeAddLeg (o : AddLegOps) : List Byte :=
  writeBridgeRef o.ref ++ ([o.kind] ++ (bytes16 o.station ++ ([o.tie] ++ ([o.privacy] ++
    (writeKeys o.keys ++ (writeTiming o.timing ++ ([o.gain] ++ [o.mode])))))))

def writeStageKey (o : StageKeyOps) : List Byte := writePathRef o.ref ++ (writeHalf o.tx ++ writeHalf o.rx)

def writeSetGuard (o : SetGuardOps) : List Byte :=
  writePathRef o.ref ++ (bytes16 o.ceiling ++ (bytes16 o.limit ++ [o.enabled]))

def writeSetLeg (o : SetLegOps) : List Byte :=
  writeBridgeRef o.ref ++ (bytes16 o.path ++ ([o.gain] ++ [o.mode]))

/-- The members of a list one after another. -/
def writeMany {α : Type} (write : α → List Byte) : List α → List Byte
  | [] => []
  | x :: xs => write x ++ writeMany write xs

def writeLoad (o : LoadOps) : List Byte := [o.count] ++ writeMany writeStored o.entries

def writeSetSurvey (o : SetSurveyOps) : List Byte :=
  [o.count] ++ (writeMany writeSurveyEntry o.entries ++ ([o.mode] ++ ([o.trigger] ++ ([o.ctx] ++ ([o.dir] ++
    (bytes16 o.window ++ (bytes16 o.low ++ (bytes16 o.high ++ [o.report]))))))))

def writeEnables (o : EnableOps) : List Byte :=
  [o.admission, o.path, o.key, o.sync, o.bridge, o.survey, o.highway, o.link]

/-- A command frame's data bytes: kind, tag, operand length, operands (12.1). -/
def commandFrame (kind : Byte) (tag : Byte) (ops : List Byte) : List Byte :=
  kind :: tag :: BitVec.ofNat 8 ops.length :: ops

/-- The link a command comes on, its kind, its tag and its operand bytes; none for the steps that are no command. -/
def encodeOperands : Instr → Option (Link × Byte × Byte × List Byte)
  | .readPart l t => some (l, 1, t, [])
  | .setLink l t x => some (l, 2, t, bytes16 x)
  | .setEvents l t o => some (l, 3, t, writeEnables o)
  | .setExtension l t o => some (l, 4, t, writeStored o)
  | .eraseExtension l t x => some (l, 5, t, bytes16 x)
  | .loadExtensions l t o => some (l, 6, t, writeLoad o)
  | .readExtension l t x => some (l, 7, t, bytes16 x)
  | .collectChanges l t => some (l, 8, t, [])
  | .challenge l t x => some (l, 9, t, bytes16 x)
  | .answer l t o => some (l, 10, t, bytes16 o.ext ++ bytes32 o.response)
  | .release l t x => some (l, 11, t, bytes16 x)
  | .unlock l t x => some (l, 12, t, bytes16 x)
  | .setAdmission l t o => some (l, 13, t, writeThree o)
  | .openTie l t o => some (l, 14, t, writeOpenTie o)
  | .clearPath l t o => some (l, 15, t, writePathRef o)
  | .readPath l t o => some (l, 16, t, [o.form] ++ bytes16 o.number)
  | .resetTraffic l t => some (l, 17, t, [])
  | .stageKey l t o => some (l, 18, t, writeStageKey o)
  | .readContext l t x => some (l, 19, t, [x])
  | .resyncTx l t o => some (l, 20, t, writePathRef o)
  | .setGuard l t o => some (l, 21, t, writeSetGuard o)
  | .setPrivacyDefaults l t o => some (l, 22, t, writeThree o)
  | .openBridge l t o => some (l, 23, t, writeOpt16 o)
  | .addLeg l t o => some (l, 24, t, writeAddLeg o)
  | .removeLeg l t o => some (l, 25, t, writeBridgeRef o.ref ++ bytes16 o.path)
  | .setLeg l t o => some (l, 26, t, writeSetLeg o)
  | .setTalker l t o => some (l, 27, t, writeBridgeRef o.ref ++ bytes16 o.threshold)
  | .closeBridge l t o => some (l, 28, t, writeBridgeRef o)
  | .readBridge l t x => some (l, 29, t, [x])
  | .setSurvey l t o => some (l, 30, t, writeSetSurvey o)
  | .startSurvey l t => some (l, 31, t, [])
  | .stopSurvey l t => some (l, 32, t, [])
  | .readSurvey l t => some (l, 33, t, [])
  | .adopt l t x => some (l, 34, t, [x])
  | .setOrphanHold l t x => some (l, 35, t, bytes16 x)
  | .powerOnReset | .startUpLoad | .startCountProgramDone | .frameStart _ | .preambleEnd _ | .keyDueWarning _ _
  | .rollover _ _ | .huntReport _ | .guardWindowEnd _ | .bridgeWindowBoundary _ | .surveyEntryComplete
  | .challengeExpiry _ | .lockoutExpiry _ | .orphanDeadline _ | .programComplete | .eraseComplete | .loadEntryComplete
  | .tieFrameArrival _ _ | .highwayLostSilent _ | .highwayRestore _ | .alignReceived _ | .linkAligning _
  | .startReceived _ | .otherSymbolReceived _ _ | .linkDown _ | .holdOnReceived _ | .holdOffReceived _
  | .commandFrameReceived _ _ | .outboundFrameStart _ | .badFrameCommand _ _ => none

/-- A command as the link it comes on and the data bytes of its frame; none for the steps that are no command. -/
def encodeCommand (i : Instr) : Option (Link × List Byte) :=
  match encodeOperands i with
  | some (l, kind, tag, ops) => some (l, commandFrame kind tag ops)
  | none => none

end Sys2Proof
end

