-- ==== Sys2Proof/Machine/State.lean ====
section
/-! DEFINITION. The state of the NJ516 as plain data: every piece of state the manual names (INVENTORY.md lists
them with their rules), a few fields of the model's own, and the machine right after a power-on reset. -/

namespace Sys2Proof.Machine

/-! ## Highways (01) -/

/-- The slip indication of a delivered tie frame (R3, R8). -/
inductive Slip where
  | normal | repeated | deleted
  deriving DecidableEq, Repr

/-- One tie highway's entry of a read: its 32 codes and the slip indication that came with them (R3). -/
structure TieRead where
  codes : List Code
  slip : Slip
  deriving DecidableEq, Repr

/-- The codes of one frame, of every slot (R3). A station slot not listed carries the idle code. -/
structure FrameCodes where
  station : Table Code
  tie : List TieRead
  deriving DecidableEq, Repr

/-- A tie frame of idle codes (R10, R11). -/
def idleFrame : List Code := List.replicate Config.slotsPerTie 0

/-- The frame buffer after a reset (R3, R13). -/
def FrameCodes.idle : FrameCodes :=
  { station := [], tie := List.replicate Config.tieHighways { codes := idleFrame, slip := .normal } }

/-- The receive state of one tie highway (1.3). `emptyRun` 4 and `restoreRun` 8 are the model's marks that
HIGHWAY_LOST_SILENT or HIGHWAY_RESTORE is due (log entry 14). -/
structure Highway where
  up : Bool
  store : List (List Code)
  deleted : Bool
  lastDelivered : List Code
  emptyRun : Nat
  restoreRun : Nat
  arrived : Bool
  deriving DecidableEq, Repr

/-- A tie highway after a reset (R13). -/
def Highway.reset : Highway :=
  { up := true, store := [idleFrame], deleted := false, lastDelivered := idleFrame,
    emptyRun := 0, restoreRun := 0, arrived := false }

/-- What of the current frame's processing is still to be done: the model's own (log entries 3, 4).
`surveyOwed` holds the codes the receive directions delivered in this frame, by tie slot. -/
structure FrameWork where
  held : Bool
  surveyLater : Bool
  surveyOwed : Option (Table Code)
  deriving DecidableEq, Repr

/-- Nothing of the frame's processing is left to do. -/
def FrameWork.done : FrameWork := { held := false, surveyLater := false, surveyOwed := none }

/-! ## Extension store and table (03), admission (04) -/

/-- Tie access of an extension's class (R30, R75). -/
inductive TieAccess where
  | none | any | privateOnly
  deriving DecidableEq, Repr

/-- The stored fields of an extension (3.1). -/
structure Stored where
  seed : Word32
  step : Word16
  access : TieAccess
  conference : Bool
  slot : Nat
  deriving DecidableEq, Repr

/-- The admission state with what is present only in it: the admission record while ADMITTED, the lockout
remaining while LOCKED (R49). A remaining count of 0 is the model's mark that LOCKOUT_EXPIRY is due (log entry 14). -/
inductive Standing where
  | vacant
  | idle
  | admitted (since : Word32) (by_ : Link)
  | locked (remaining : Nat)
  deriving DecidableEq, Repr

/-- A pending challenge (R51). -/
structure Challenge where
  nonce : Word32
  issuer : Link
  expiry : Word32
  deriving DecidableEq, Repr

/-- An extension's record (R30). -/
structure Ext where
  stored : Option Stored
  standing : Standing
  programming : Bool
  failures : Nat
  challenge : Option Challenge
  expired : Bool
  path : Option Nat
  deriving DecidableEq, Repr

/-- A VACANT extension as the start-up load leaves it (R33); an unlisted index holds this record. -/
def Ext.vacant : Ext :=
  { stored := none, standing := .vacant, programming := false, failures := 0, challenge := none,
    expired := false, path := none }

/-- What the programming engine is doing (R32, R40). `load entries at_` programs entry number `at_` (from 0). -/
inductive Job where
  | startCount (value : Word32)
  | program (ext : Nat) (rec_ : Stored)
  | erase (ext : Nat)
  | load (entries : List StoredOps) (at_ : Nat) (ext : Nat) (rec_ : Stored)
  deriving DecidableEq, Repr

/-- A store operation in progress and the frame starts left to its completion; 0 says that its completion is due. -/
structure Engine where
  job : Job
  remaining : Nat
  deriving DecidableEq, Repr

/-- Where the start-up stands (R33 to R35): the reset has been made and the load has not begun; the start count
program runs; the load has ended. -/
inductive Boot where
  | reset | loading | ended
  deriving DecidableEq, Repr

/-! ## Paths (05) and controllers (11) -/

/-- The controller field (11.1). -/
inductive Controller where
  | control (l : Link)
  | orphan (former : Link) (deadline : Word32)
  deriving DecidableEq, Repr

/-- The privacy of a path that holds a tie slot; PRIVATE names its context (R69). -/
inductive Privacy where
  | clear
  | priv (ctx : Nat)
  deriving DecidableEq, Repr

/-- A path's kind with the fields its kind has (5.1). -/
inductive PathKind where
  | tie (station ext tieSlot : Nat) (privacy : Privacy)
  | bridgeStation (station ext bridge : Nat)
  | bridgeTie (tieSlot : Nat) (privacy : Privacy) (bridge : Nat)
  deriving DecidableEq, Repr

/-- A path record in use (R69). -/
structure Path where
  kind : PathKind
  controller : Controller
  opened : Word32
  deriving DecidableEq, Repr

/-! ## Privacy contexts (06, 07) -/

/-- A staged key half; lengths and leads in frames, present as R103 records them. -/
structure Staged where
  seed : Word32
  step : Word16
  length : Option Nat
  lead : Option Nat
  deriving DecidableEq, Repr

/-- What the two directions of a context have alike (6.1). `owed` is the number of advances of the current frame still
to be made, `warnDue` says that KEY_DUE_WARNING is due: both the model's own (log entry 14). -/
structure DirState where
  seed : Word32
  step : Word16
  gen : Word32
  f : Nat
  epoch : Nat
  length : Nat
  lead : Nat
  staged : Option Staged
  owed : Nat
  warnDue : Bool
  deriving DecidableEq, Repr

/-- The transmit phase (6.1). -/
inductive TxPhase where
  | preamble (sent : Nat)
  | running
  deriving DecidableEq, Repr

/-- A hunt's four values (7.2), and the model's mark that HUNT_REPORT is due (log entry 14). -/
structure Hunt where
  run : Nat
  elapsed : Nat
  endSeen : Bool
  reported : Bool
  reportDue : Bool
  deriving DecidableEq, Repr

/-- A hunt as it begins (R112). -/
def Hunt.start : Hunt := { run := 0, elapsed := 0, endSeen := false, reported := false, reportDue := false }

/-- The receive phase (6.1). -/
inductive RxPhase where
  | hunt (h : Hunt)
  | running
  deriving DecidableEq, Repr

/-- The transmit direction. -/
structure TxState where
  phase : TxPhase
  dir : DirState
  deriving DecidableEq, Repr

/-- The receive direction with its guard state (6.1). A guard count of 64 is the model's mark that GUARD_WINDOW_END is
due (log entry 14). -/
structure RxState where
  phase : RxPhase
  dir : DirState
  last : Code
  guardSum : Nat
  guardCount : Nat
  strikes : Nat
  deriving DecidableEq, Repr

/-- The four attention flags (R106). -/
structure Attention where
  keyDue : Bool
  keyStale : Bool
  syncLost : Bool
  huntTimeout : Bool
  deriving DecidableEq, Repr

/-- No attention flag is set. -/
def Attention.clear : Attention := { keyDue := false, keyStale := false, syncLost := false, huntTimeout := false }

/-- A context record in use (R90). -/
structure Context where
  path : Nat
  tieSlot : Nat
  tx : TxState
  rx : RxState
  ceiling : Nat
  strikesLimit : Nat
  guardOn : Bool
  flags : Attention
  deriving DecidableEq, Repr

/-! ## Bridges (08) -/

/-- A leg's mode (8.1). -/
inductive Mode where
  | talk | listen
  deriving DecidableEq, Repr

/-- A leg's slot, with its privacy for a tie slot (8.1). -/
inductive LegSlot where
  | station (slot : Nat)
  | tie (slot : Nat) (privacy : Privacy)
  deriving DecidableEq, Repr

/-- A leg in use (8.1). -/
structure Leg where
  path : Nat
  slot : LegSlot
  gain : Nat
  mode : Mode
  staged : Option (Nat × Mode)
  sum : Nat
  deriving DecidableEq, Repr

/-- An OPEN bridge (8.1); a window count of 64 is the model's mark that BRIDGE_WINDOW_BOUNDARY is due (log entry 14). -/
structure Bridge where
  controller : Controller
  opened : Word32
  threshold : Nat
  staged : Option Nat
  windowCount : Nat
  talker : Option Nat
  legs : List Leg
  deriving DecidableEq, Repr

/-! ## Level survey (09) -/

/-- A slot of the survey list: station or tie. -/
inductive SurveySlot where
  | station (slot : Nat)
  | tie (slot : Nat)
  deriving DecidableEq, Repr

/-- A survey entry: its slot, and whether its point is CLEAR (LINE otherwise). -/
structure SurveyEntry where
  slot : SurveySlot
  clearPoint : Bool
  deriving DecidableEq, Repr

/-- The survey's trigger setting (9.1). -/
inductive Trigger where
  | immediate
  | rollover (ctx : Nat) (d : Dir)
  | syncLost (ctx : Nat)
  deriving DecidableEq, Repr

/-- The report setting (9.1). -/
inductive Report where
  | inside | outside | all
  deriving DecidableEq, Repr

/-- The survey's state; a measurement holds its entry, sum, peak and frames counted (R151). Frames counted equal to the
window are the model's mark that SURVEY_ENTRY_COMPLETE is due (log entry 14). -/
inductive SurveyState where
  | stopped
  | standby
  | measuring (entry sum peak counted : Nat)
  deriving DecidableEq, Repr

/-- A latest-result record (R152). -/
structure SurveyResult where
  mean : Nat
  peak : Nat
  at_ : Word32
  outside : Bool
  deriving DecidableEq, Repr

/-- The level survey (9.1, R151, R152); results are by entry number, from 1. -/
structure Survey where
  entries : List SurveyEntry
  repeating : Bool
  trigger : Trigger
  window : Nat
  low : Nat
  high : Nat
  report : Report
  state : SurveyState
  results : Table SurveyResult
  deriving DecidableEq, Repr

/-- The survey after a reset (R147). -/
def Survey.reset : Survey :=
  { entries := [], repeating := false, trigger := .immediate, window := 64, low := 0, high := 3952,
    report := .all, state := .stopped, results := [] }

/-! ## Events and responses (10, 12) -/

/-- Why a proof failed (R57). -/
inductive FailCause where
  | wrongAnswer | expired
  deriving DecidableEq, Repr

/-- Why a lockout ended (R67). -/
inductive UnlockCause where
  | timer | command
  deriving DecidableEq, Repr

/-- Why an extension left ADMITTED (R62). -/
inductive DeadmitCause where
  | release | recheckFailed | expired
  deriving DecidableEq, Repr

/-- Why a path was cleared (R84). -/
inductive ClearCause where
  | command | deadmitted | orphanExpired | bridgeClosed
  deriving DecidableEq, Repr

/-- Why a tie highway was declared LOST (R10). -/
inductive LostCause where
  | overrun | silent
  deriving DecidableEq, Repr

/-- Why a link went DOWN (R163). -/
inductive DownCause where
  | lineError | partnerRestart
  deriving DecidableEq, Repr

/-- Why a receive direction left RUNNING, with what GUARD reports (R125). -/
inductive SyncCause where
  | guard (mean limit : Nat)
  | highway
  deriving DecidableEq, Repr

/-- The events of 12.5 with the fields their rules give them; the frame count stamp stands in `Event`. -/
inductive EventKind where
  | admitted (ext : Nat) (by_ : Link)
  | admissionFailed (ext : Nat) (failures : Nat) (locked : Bool)
  | lockedOut (ext : Nat) (cause : FailCause) (remaining : Nat)
  | unlocked (ext : Nat) (cause : UnlockCause)
  | deadmitted (ext : Nat) (cause : DeadmitCause) (path : Option Nat)
  | pathCleared (id : Nat) (kind : PathKind) (opened : Word32) (cause : ClearCause)
  | pathOrphaned (former : Link) (ties bridges legs : Nat) (deadline : Word32)
  | orphansAdopted (adopter former : Link) (ties bridges legs : Nat)
  | keyDue (ctx path : Nat) (d : Dir) (epoch remaining : Nat)
  | keyRolled (ctx path : Nat) (d : Dir) (epoch : Nat) (stale : Bool) (lengthSec leadSec : Nat)
  | rxAligned (ctx path tieSlot elapsed : Nat) (deleted : Bool)
  | syncLost (ctx path tieSlot : Nat) (cause : SyncCause) (epoch f : Nat)
  | huntTimeout (ctx path tieSlot elapsed : Nat)
  | talker (bridge : Nat) (now : Option (Nat × Nat)) (before : Option Nat) (removed : Bool)
  | surveyResult (entry : Nat) (e : SurveyEntry) (r : SurveyResult) (window low high : Nat)
  | tieSlip (highway : Nat) (deleted : Bool)
  | tieLost (highway : Nat) (cause : LostCause)
  | tieRestored (highway : Nat)
  | linkChange (l : Link) (down : Option DownCause)
  | eventsLost (first : Word32)
  deriving DecidableEq, Repr

/-- An event as it was queued: its kind and fields, and its frame count stamp (R188, R189). -/
structure Event where
  kind : EventKind
  stamp : Word32
  deriving DecidableEq, Repr

/-- The result codes (12.4), in the order of their numbers. -/
inductive Result where
  | ok | partial_ | replaced | badFrame | badOperand | notPermitted | notController | overrun | noSecret | locked
  | challengePending | noChallenge | tooLate | wrongAnswer | storeBusy | inService | slotTaken | noExtension
  | notAdmitted | class_ | privacyConflict | slotInUse | noPath | noContext | notPrivate | noBridge | bridgeFull
  | noLeg | emptyList
  deriving DecidableEq, Repr

/-- A response: the kind and tag as received, the result, and the body bytes as built when it was placed (R188). -/
structure Response where
  kind : Byte
  tag : Byte
  result : Result
  body : List Byte
  deriving DecidableEq, Repr

/-! ## Link ports (10) -/

/-- The link states (R162). -/
inductive LinkState where
  | down | aligning | up
  deriving DecidableEq, Repr

/-- The control symbols a port sends on its own (R162, R167). -/
inductive Control where
  | start | holdOn | holdOff
  deriving DecidableEq, Repr

/-- A command taken and not yet complete (R168); `earlier` marks it as belonging to an earlier session (R164). -/
structure InProgress where
  kind : Byte
  tag : Byte
  earlier : Bool
  deriving DecidableEq, Repr

/-- One enable for each event class (R171). -/
structure Enables where
  admission : Bool
  path : Bool
  key : Bool
  sync : Bool
  bridge : Bool
  survey : Bool
  highway : Bool
  link : Bool
  deriving DecidableEq, Repr

/-- Every class is enabled (R165, R166). -/
def Enables.all : Enables :=
  { admission := true, path := true, key := true, sync := true, bridge := true, survey := true, highway := true,
    link := true }

/-- A link port (10). `receiving` holds the data bytes of a frame in the middle of reception; `sending` the frame the
transmitter last began; `lastControl` the last control symbol of this session. -/
structure Port where
  state : LinkState
  alignRun : Nat
  invalidRun : Nat
  partnerHold : Bool
  ownHold : Bool
  threshold : Nat
  queue : List (List Byte)
  receiving : Option (List Byte)
  inProgress : Option InProgress
  response : Option Response
  overrun : List Byte
  events : List Event
  lost : Option Word32
  enables : Enables
  changes : List Nat
  sending : Option (List Byte)
  lastControl : Option Control
  deriving DecidableEq, Repr

/-- A port after a reset (R166). -/
def Port.reset : Port :=
  { state := .down, alignRun := 0, invalidRun := 0, partnerHold := false, ownHold := false, threshold := 12,
    queue := [], receiving := none, inProgress := none, response := none, overrun := [], events := [], lost := none,
    enables := Enables.all, changes := [], sending := none, lastControl := none }

end Sys2Proof.Machine

namespace Sys2Proof.Machine

/-- The state of the part (INVENTORY.md), and the queue of steps waiting. -/
structure State where
  pending : List Instr
  boot : Boot
  frameCount : Word32
  buffer : FrameCodes
  reading : FrameCodes
  highways : List Highway
  drivenStation : Table Code
  drivenTie : Table Code
  work : FrameWork
  extStore : Table Stored
  startRecord : Option Word32
  startCount : Word32
  engine : Option Engine
  nonce : Option Word32
  exts : Table Ext
  slotMap : Table Nat
  failLimit : Nat
  challengeWindow : Nat
  lockoutTime : Nat
  paths : Table Path
  stationOcc : Table Nat
  tieOcc : Table Nat
  ctxs : Table Context
  huntTime : Nat
  guardCeiling : Nat
  guardStrikes : Nat
  bridges : Table Bridge
  survey : Survey
  orphanHold : Nat
  portA : Port
  portB : Port
  portM : Port
  deriving DecidableEq, Repr

/-- Why the part stops. The manual describes no stop; these guard laws of the manual, in states that no run reaches
(log entry 12). -/
inductive Fault where
  /-- Raised by OPEN_TIE and ADD_LEG when every path record is in use although the slots and the leg are free, which
  R69 says cannot arise: no reachable state raises it. Safe: the model stops where the manual gives nothing. -/
  | noFreePathRecord
  /-- Raised by CHALLENGE when the nonce generator holds no state although the command's link is UP, which R25 says cannot
  arise. Safe. -/
  | nonceNotSeeded
  /-- Raised by ANSWER when an extension with no stored secret has a pending challenge, which R51 says cannot arise.
  Safe. -/
  | challengeWithoutSecret
  deriving DecidableEq, Repr

/-- Why a step is refused. No step of this model refuses. -/
inductive Refusal where
  /-- An arm of exec that has no meaning yet: no arm of this model raises it. Safe. -/
  | notModelled (mnemonic : String)
  deriving DecidableEq, Repr

/-- The part right after a power-on reset, before the start-up load (R13, R46, R66, R89, R109, R126, R146, R147, R160,
R166, R183). The extension store holds no record and no start count (DESIGN CHOICE, log entry 1). -/
def State.reset : State :=
  { pending := [], boot := .reset, frameCount := 0, buffer := FrameCodes.idle, reading := FrameCodes.idle,
    highways := List.replicate Config.tieHighways Highway.reset, drivenStation := [], drivenTie := [],
    work := FrameWork.done, extStore := [], startRecord := none, startCount := 0, engine := none, nonce := none,
    exts := [], slotMap := [], failLimit := 3, challengeWindow := 4, lockoutTime := 60, paths := [], stationOcc := [],
    tieOcc := [], ctxs := [], huntTime := 3, guardCeiling := 600, guardStrikes := 3, bridges := [],
    survey := Survey.reset, orphanHold := 30, portA := Port.reset, portB := Port.reset, portM := Port.reset }

end Sys2Proof.Machine
end

