-- ==== Sys2Proof/Machine/Table.lean ====
section
/-! DEFINITION. Reading and writing the numbered record tables, in their one canonical form. -/

namespace Sys2Proof

/-- The record of number `i`, if one is listed. -/
def Table.find {α : Type} : Table α → Nat → Option α
  | [], _ => none
  | (k, v) :: t, i => if k = i then some v else Table.find t i

/-- The table with record `i` written. -/
def Table.put {α : Type} : Table α → Nat → α → Table α
  | [], i, v => [(i, v)]
  | (k, w) :: t, i, v =>
    if i < k then (i, v) :: (k, w) :: t else if i = k then (i, v) :: t else (k, w) :: Table.put t i v

/-- The table with no record `i`. -/
def Table.del {α : Type} : Table α → Nat → Table α
  | [], _ => []
  | (k, v) :: t, i => if k = i then Table.del t i else (k, v) :: Table.del t i

/-- The numbers that have a record, rising. -/
def Table.keys {α : Type} (t : Table α) : List Nat := t.map Prod.fst

/-- The table with every record changed by `f`. -/
def Table.mapAll {α : Type} (t : Table α) (f : α → α) : Table α := t.map fun e => (e.1, f e.2)

/-- The table with record `i`, if there is one, changed by `f`. -/
def Table.change {α : Type} (t : Table α) (i : Nat) (f : α → α) : Table α :=
  t.map fun e => (e.1, if e.1 = i then f e.2 else e.2)

/-- The canonical form: numbers strictly rising. -/
def Table.sorted {α : Type} : Table α → Bool
  | [] => true
  | [_] => true
  | (k, _) :: (j, w) :: t => decide (k < j) && Table.sorted ((j, w) :: t)

/-- The lowest number below `n` that has no record. -/
def Table.lowestFree {α : Type} (t : Table α) (n : Nat) : Option Nat :=
  (List.range n).find? fun i => (Table.find t i).isNone

/-- Write code `c` for slot `i` of a frame, where an unlisted slot carries the idle code: the idle code is not listed. -/
def Table.putCode (t : Table Code) (i : Nat) (c : Code) : Table Code :=
  if c = 0 then Table.del t i else Table.put t i c

/-- The code of slot `i` of a frame; an unlisted slot carries the idle code (R16). -/
def Table.code (t : Table Code) (i : Nat) : Code := (Table.find t i).getD 0

/-- The set of indices with `i` added, rising and without duplicates (R44). -/
def insertIndex : List Nat → Nat → List Nat
  | [], i => [i]
  | k :: t, i => if i < k then i :: k :: t else if i = k then k :: t else k :: insertIndex t i

/-- The indices stand strictly rising. -/
def risingIndices : List Nat → Bool
  | [] => true
  | [_] => true
  | k :: j :: t => decide (k < j) && risingIndices (j :: t)

end Sys2Proof
end

