-- ==== Sys2Proof/Machine/Formats.lean ====
section
/-! DEFINITION. The layouts of 12: result codes, event codes and classes, event bodies, and the frames a port sends.
Where R187 leaves a width or a code to reading, log entry 10 says what is read. -/

namespace Sys2Proof.Machine

/-- Result codes (12.4). -/
def Result.code : Result → Nat
  | .ok => 0 | .partial_ => 1 | .replaced => 2 | .badFrame => 3 | .badOperand => 4 | .notPermitted => 5
  | .notController => 6 | .overrun => 7 | .noSecret => 8 | .locked => 9 | .challengePending => 10
  | .noChallenge => 11 | .tooLate => 12 | .wrongAnswer => 13 | .storeBusy => 14 | .inService => 15
  | .slotTaken => 16 | .noExtension => 17 | .notAdmitted => 18 | .class_ => 19 | .privacyConflict => 20
  | .slotInUse => 21 | .noPath => 22 | .noContext => 23 | .notPrivate => 24 | .noBridge => 25 | .bridgeFull => 26
  | .noLeg => 27 | .emptyList => 28

/-- The links a command kind is accepted on (10.5). -/
def permitted (kind : Nat) (l : Link) : Bool :=
  match kind with
  | 1 | 2 | 3 | 7 | 8 | 11 | 15 | 16 | 19 | 28 | 29 => true
  | 4 | 5 | 6 | 12 | 13 | 17 | 22 | 30 | 31 | 32 | 33 | 35 => decide (l = .m)
  | 9 | 10 | 14 | 18 | 20 | 21 | 23 | 24 | 25 | 26 | 27 | 34 => decide (l ≠ .m)
  | _ => false

/-- A link's code as a byte of a body. -/
def linkByte (l : Link) : List Byte := num8 l.code

/-- A direction's code: TX 0, RX 1 (R189). -/
def dirByte : Dir → List Byte
  | .tx => [0] | .rx => [1]

/-- An optional number of one or two bytes, after its presence byte; zeros where absent (R187). -/
def optNum8 : Option Nat → List Byte
  | some n => [1] ++ num8 n
  | none => [0, 0]

def optNum16 : Option Nat → List Byte
  | some n => [1] ++ num16 n
  | none => [0, 0, 0]

/-- A privacy's code, and the context index it names (R186). -/
def Privacy.code : Privacy → Nat
  | .clear => 0 | .priv _ => 1

def Privacy.ctx : Privacy → Option Nat
  | .clear => none | .priv i => some i

/-- The fields a path's kind gives (5.1). -/
def PathKind.code : PathKind → Nat
  | .tie .. => 0 | .bridgeStation .. => 1 | .bridgeTie .. => 2

def PathKind.station : PathKind → Option Nat
  | .tie s _ _ _ => some s | .bridgeStation s _ _ => some s | .bridgeTie .. => none

def PathKind.ext : PathKind → Option Nat
  | .tie _ e _ _ => some e | .bridgeStation _ e _ => some e | .bridgeTie .. => none

def PathKind.tieSlot : PathKind → Option Nat
  | .tie _ _ t _ => some t | .bridgeStation .. => none | .bridgeTie t _ _ => some t

def PathKind.privacy : PathKind → Option Privacy
  | .tie _ _ _ p => some p | .bridgeStation .. => none | .bridgeTie _ p _ => some p

def PathKind.ctx (k : PathKind) : Option Nat := k.privacy.bind Privacy.ctx

def PathKind.bridge : PathKind → Option Nat
  | .tie .. => none | .bridgeStation _ _ b => some b | .bridgeTie _ _ b => some b

/-- A controller field in a body: orphaned indication, link, deadline (R187). -/
def controllerBytes : Controller → List Byte
  | .control l => [0] ++ linkByte l ++ num32 0
  | .orphan l d => [1] ++ linkByte l ++ bytes32 d

/-- One survey result (12.3): entry number, slot, point, and the record if there is one. -/
def surveyResultBytes (i : Nat) (e : SurveyEntry) (r : Option SurveyResult) : List Byte :=
  num8 i
    ++ (match e.slot with
        | .station n => num8 0 ++ num16 n
        | .tie n => num8 1 ++ num16 n)
    ++ flag8 e.clearPoint
    ++ (match r with
        | some r => [1] ++ num16 r.mean ++ num16 r.peak ++ bytes32 r.at_ ++ flag8 r.outside
        | none => [0] ++ num16 0 ++ num16 0 ++ num32 0 ++ [0])

/-- Event codes (12.5). -/
def EventKind.code : EventKind → Nat
  | .admitted .. => 1 | .admissionFailed .. => 2 | .lockedOut .. => 3 | .unlocked .. => 4 | .deadmitted .. => 5
  | .pathCleared .. => 6 | .pathOrphaned .. => 7 | .orphansAdopted .. => 8 | .keyDue .. => 9 | .keyRolled .. => 10
  | .rxAligned .. => 11 | .syncLost .. => 12 | .huntTimeout .. => 13 | .talker .. => 14 | .surveyResult .. => 15
  | .tieSlip .. => 16 | .tieLost .. => 17 | .tieRestored .. => 18 | .linkChange .. => 19 | .eventsLost .. => 20

/-- Whether a port's enables let an event of this kind be queued: its class's enable (R171). EVENTS_LOST belongs to no
class and cannot be disabled (R170). -/
def EventKind.enabled (e : Enables) : EventKind → Bool
  | .admitted .. | .admissionFailed .. | .lockedOut .. | .unlocked .. | .deadmitted .. => e.admission
  | .pathCleared .. | .pathOrphaned .. | .orphansAdopted .. => e.path
  | .keyDue .. | .keyRolled .. => e.key
  | .rxAligned .. | .syncLost .. | .huntTimeout .. => e.sync
  | .talker .. => e.bridge
  | .surveyResult .. => e.survey
  | .tieSlip .. | .tieLost .. | .tieRestored .. => e.highway
  | .linkChange .. => e.link
  | .eventsLost .. => true

/-- Cause codes, in the order in which their rules name the values (R189). -/
def FailCause.code : FailCause → Nat
  | .wrongAnswer => 0 | .expired => 1
def UnlockCause.code : UnlockCause → Nat
  | .timer => 0 | .command => 1
def DeadmitCause.code : DeadmitCause → Nat
  | .release => 0 | .recheckFailed => 1 | .expired => 2
def ClearCause.code : ClearCause → Nat
  | .command => 0 | .deadmitted => 1 | .orphanExpired => 2 | .bridgeClosed => 3
def LostCause.code : LostCause → Nat
  | .overrun => 0 | .silent => 1
def DownCause.code : DownCause → Nat
  | .lineError => 0 | .partnerRestart => 1

/-- An event's body (12.5, R187). SYNC_LOST's mean and strikes limit, which R125 gives for GUARD alone, stand after a
presence byte: a cause byte does not spare it (R187). -/
def EventKind.body : EventKind → List Byte
  | .admitted e l => num16 e ++ linkByte l
  | .admissionFailed e n locked => num16 e ++ [0] ++ num8 n ++ flag8 locked
  | .lockedOut e c n => num16 e ++ num8 c.code ++ num32 n
  | .unlocked e c => num16 e ++ num8 c.code
  | .deadmitted e c p => num16 e ++ num8 c.code ++ optNum16 p
  | .pathCleared id k opened c =>
    num16 id ++ num8 k.code ++ bytes32 opened ++ num8 c.code ++ num16 (k.station.getD 0) ++ num16 (k.ext.getD 0)
      ++ num8 (k.tieSlot.getD 0) ++ optNum8 k.ctx ++ num8 (k.bridge.getD 0)
  | .pathOrphaned l t b g d => linkByte l ++ num16 t ++ num8 b ++ num8 g ++ bytes32 d
  | .orphansAdopted l x t b g => linkByte l ++ linkByte x ++ num16 t ++ num8 b ++ num8 g
  | .keyDue i p d e r => num8 i ++ num16 p ++ dirByte d ++ num32 e ++ num32 r
  | .keyRolled i p d e stale n lead =>
    num8 i ++ num16 p ++ dirByte d ++ num32 e ++ flag8 stale ++ num16 n ++ num16 lead
  | .rxAligned i p t n deleted => num8 i ++ num16 p ++ num8 t ++ num32 n ++ flag8 deleted
  | .syncLost i p t c e f =>
    num8 i ++ num16 p ++ num8 t
      ++ (match c with
          | .guard mean limit => [0] ++ num32 e ++ num32 f ++ [1] ++ num16 mean ++ num16 limit
          | .highway => [1] ++ num32 e ++ num32 f ++ [0] ++ num16 0 ++ num16 0)
  | .huntTimeout i p t n => num8 i ++ num16 p ++ num8 t ++ num32 n
  | .talker b now before removed =>
    num8 b
      ++ (match now with
          | some (p, mean) => [1] ++ num16 p ++ num16 mean
          | none => [0] ++ num16 0 ++ num16 0)
      ++ optNum16 before ++ flag8 removed
  | .surveyResult i e r w lo hi => surveyResultBytes i e (some r) ++ num16 w ++ num16 lo ++ num16 hi
  | .tieSlip h deleted => num8 h ++ flag8 deleted
  | .tieLost h c => num8 h ++ num8 c.code
  | .tieRestored h => num8 h
  | .linkChange l (some c) => linkByte l ++ [0] ++ num8 c.code
  | .linkChange l none => linkByte l ++ [1] ++ [0]
  | .eventsLost n => bytes32 n

/-- An event frame's data bytes (12.1). -/
def Event.frame (e : Event) : List Byte :=
  [2] ++ num8 e.kind.code ++ bytes32 e.stamp ++ num8 e.kind.body.length ++ e.kind.body

/-- A response frame's data bytes (12.1). -/
def Response.frame (r : Response) : List Byte :=
  [1] ++ [r.kind] ++ [r.tag] ++ num8 r.result.code ++ num8 r.body.length ++ r.body

/-- An OVERRUN answer for a tag: kind byte 0 and an empty body (R185). -/
def overrunAnswer (tag : Byte) : List Byte :=
  Response.frame { kind := 0, tag := tag, result := .overrun, body := [] }

end Sys2Proof.Machine
end

