-- ==== Sys2Proof/Machine/Sample.lean ====
section
/-! DEFINITION. The log-8 sample code (1.7) and the keystream arithmetic (02). -/

namespace Sys2Proof.Machine

/-- The idle code (R16). -/
def idleCode : Code := 0

/-- Sign of a code: true for codes 128 to 255 (R14). -/
def codeSign (c : Code) : Bool := decide (128 ≤ c.toNat)

/-- Segment of a code, 0 to 7 (R14). -/
def codeSegment (c : Code) : Nat := c.toNat % 128 / 16

/-- Step of a code, 0 to 15 (R14). -/
def codeStep (c : Code) : Nat := c.toNat % 16

/-- Decoded magnitude of a code, 0 to 3952 (R14). -/
def magnitude (c : Code) : Nat := (16 + codeStep c) * 2 ^ codeSegment c - 16

/-- Linear value of a code (R14). -/
def decodeSample (c : Code) : Int := if codeSign c then -(magnitude c : Int) else (magnitude c : Int)

/-- A linear value clamped to the range of the code (R15 step 1). -/
def clampLinear (x : Int) : Int := if x < -3952 then -3952 else if 3952 < x then 3952 else x

/-- The largest segment of 0 to `e` whose lower edge is not above `m` (R15 step 4). -/
def segmentBelow (m : Nat) : Nat → Nat
  | 0 => 0
  | e + 1 => if 16 * 2 ^ (e + 1) - 16 ≤ m then e + 1 else segmentBelow m e

/-- A linear value encoded to a code (R15). -/
def encodeSample (x : Int) : Code :=
  let y := clampLinear x
  let m := y.natAbs
  let e := segmentBelow m 7
  let step := (m + 16) / 2 ^ e - 16
  BitVec.ofNat 8 ((if y < 0 then 128 else 0) + 16 * e + step)

/-- One generator step with the increment 2 × step + 1 (R17). -/
def keyStep (step : Word16) (s : Word32) : Word32 := s * 743605#32 + BitVec.ofNat 32 (2 * step.toNat + 1)

/-- A seed stepped `n` times: the generator's state at frame index `n` (R20). -/
def keySteps (step : Word16) (seed : Word32) : Nat → Word32
  | 0 => seed
  | n + 1 => keyStep step (keySteps step seed n)

/-- The keystream byte of a state: its top eight bits (R18). -/
def keyByte (s : Word32) : Code := s.extractLsb' 24 8

/-- A code scrambled with a keystream byte (R19). -/
def scramble (c k : Code) : Code := c + k

/-- A received code descrambled with a keystream byte (R19). -/
def descramble (s k : Code) : Code := s - k

/-- The response expected of a telephone that holds the secret, for a nonce (R23). -/
def expectedResponse (seed : Word32) (step : Word16) (nonce : Word32) : Word32 :=
  let s1 := keyStep step (seed + nonce)
  let s2 := keyStep step s1
  let s3 := keyStep step s2
  let s4 := keyStep step s3
  ((keyByte s1 ++ keyByte s2) ++ (keyByte s3 ++ keyByte s4) : BitVec 32)

/-- One step of the nonce generator (R26). -/
def nonceStep (n : Word32) : Word32 := n * 743605#32 + 81007#32

/-- The nonce generator's seed for a start count (R25). -/
def nonceSeed (count : Word32) : Word32 := count * 65537#32 + 1#32

end Sys2Proof.Machine
end

