-- ==== Sys2Proof/Machine/Ops.lean ====
section
/-! DEFINITION. The operations several blocks share: ports and records by number, the event queues, the change sets,
and the taking of a command with the placing of its response. -/

namespace Sys2Proof.Machine

/-! ## Ports -/

/-- The port of link `l`. -/
def State.port (s : State) : Link → Port
  | .a => s.portA | .b => s.portB | .m => s.portM

/-- The state with the port of link `l` replaced. -/
def State.setPort (s : State) (l : Link) (p : Port) : State :=
  match l with
  | .a => { s with portA := p } | .b => { s with portB := p } | .m => { s with portM := p }

/-- The state with the port of link `l` changed by `f`. -/
def State.onPort (s : State) (l : Link) (f : Port → Port) : State := s.setPort l (f (s.port l))

/-- The state with all three ports changed by `f`. -/
def State.onPorts (s : State) (f : Port → Port) : State :=
  { s with portA := f s.portA, portB := f s.portB, portM := f s.portM }

/-- The two call-processor links. -/
def callLinks : List Link := [.a, .b]

/-- All three links. -/
def allLinks : List Link := [.a, .b, .m]

/-- The links other than `l`. -/
def otherLinks (l : Link) : List Link := allLinks.filter (fun k => decide (k ≠ l))

/-! ## Events (R170 to R172) -/

/-- A port after an event has been routed to it: queued if the link is UP and the class enabled, lost if the queue is
full (R170). -/
def Port.queueEvent (p : Port) (e : Event) : Port :=
  if p.state = .up ∧ EventKind.enabled p.enables e.kind = true then
    if p.events.length < Config.eventQueue then { p with events := p.events ++ [e] }
    else { p with lost := some (p.lost.getD e.stamp) }
  else p

/-- Raise an event on each of the links, stamped with the current frame count; a link that is not UP receives nothing. -/
def raiseOn (k : EventKind) : List Link → State → State
  | [], s => s
  | l :: ls, s => raiseOn k ls (s.onPort l fun p => p.queueEvent { kind := k, stamp := s.frameCount })

/-- The links "the controller" means in a routing: the controlling link, or for an orphan every call-processor link
(R85, R175). -/
def Controller.links : Controller → List Link
  | .control l => [l]
  | .orphan _ _ => callLinks

/-- The links an event caused by a challenge goes to (R67). -/
def challengeLinks (s : State) (issuer : Link) : List Link :=
  if (s.port issuer).state = .up then [issuer] else callLinks

/-! ## Change sets (R44) -/

/-- Every link's change set gains the extension. -/
def noteChange (i : Nat) (s : State) : State := s.onPorts fun p => { p with changes := insertIndex p.changes i }

/-! ## Records by number -/

/-- The record of extension `i`; an unlisted one is VACANT (R33). -/
def State.ext (s : State) (i : Nat) : Ext := (Table.find s.exts i).getD Ext.vacant

/-- The state with extension `i`'s record written; a record that is the default one is not listed. -/
def State.setExt (s : State) (i : Nat) (e : Ext) : State :=
  { s with exts := if e = Ext.vacant then Table.del s.exts i else Table.put s.exts i e }

/-- Tie highway `h`. -/
def State.highway (s : State) (h : Nat) : Highway := s.highways.getD h Highway.reset

/-- The state with tie highway `h` replaced; no highway beyond the part's eight. -/
def State.setHighway (s : State) (h : Nat) (x : Highway) : State := { s with highways := s.highways.set h x }

/-- The tie highway of a tie slot, and the slot's place on it (1.2). -/
def tieHighway (slot : Nat) : Nat := slot / Config.slotsPerTie
def tiePlace (slot : Nat) : Nat := slot % Config.slotsPerTie

/-- The code of a station slot, and of a tie slot, in the frame buffer (R3, R4). -/
def State.stationCode (s : State) (slot : Nat) : Code := Table.code s.buffer.station slot
def State.tieRead (s : State) (h : Nat) : TieRead := s.buffer.tie.getD h { codes := idleFrame, slip := .normal }
def State.tieCode (s : State) (slot : Nat) : Code := (s.tieRead (tieHighway slot)).codes.getD (tiePlace slot) idleCode

/-- The legs in use in all bridges together (R128). -/
def State.legsInUse (s : State) : Nat := (s.bridges.map fun e => e.2.legs.length).sum

/-! ## Time -/

/-- A number of seconds in frames (0.7). -/
def seconds (n : Nat) : Nat := n * Config.framesPerSecond

/-- The frame count `d` frames from now (R1). -/
def State.after (s : State) (d : Nat) : Word32 := s.frameCount + BitVec.ofNat 32 d

/-! ## Taking a command and answering it (R167, R168) -/

/-- What a command's owner answers. -/
inductive Reply where
  /-- The command completes with a result and a body. -/
  | done (result : Result) (body : List Byte) (s : State)
  /-- The command's response waits for the store engine (R168). -/
  | waits (s : State)
  /-- The part stops: a law of the manual does not hold in this state. -/
  | stops (why : Fault)

/-- A refusal: an empty body, and nothing changed (R188). -/
def refuse (r : Result) (s : State) : Reply := .done r [] s

/-- The port after a response has been placed in its response slot. -/
def Port.place (p : Port) (kind tag : Byte) (r : Result) (body : List Byte) : Port :=
  { p with response := some { kind := kind, tag := tag, result := r, body := body } }

/-- A port can take a command: the link is UP, no command is in progress, and the response slot is empty (R168). -/
def Port.ready (p : Port) : Bool :=
  decide (p.state = .up) && p.inProgress.isNone && p.response.isNone

/-- A port sets its own hold against its queue, and sends HOLD_ON or HOLD_OFF where the hold changes (R167). -/
def Port.setOwnHold (p : Port) (hold : Bool) : Port :=
  if p.ownHold = hold then p
  else { p with ownHold := hold, lastControl := some (if hold then .holdOn else .holdOff) }

/-- A port after a frame has been received whole on an UP link: queued, or its tag to the overrun list (R167, R185). -/
def Port.frameReceived (p : Port) (f : List Byte) : Port :=
  if p.queue.length < Config.commandQueue then
    let p := { p with queue := p.queue ++ [f] }
    if p.threshold ≤ p.queue.length then p.setOwnHold true else p
  else if p.overrun.length < Config.overrunList then { p with overrun := p.overrun ++ [frameTag f] }
  else p

/-- A port whose runs a valid symbol other than ALIGN has ended (R163). -/
def Port.validSymbol (p : Port) : Port := { p with alignRun := 0, invalidRun := 0 }

/-- A port that takes the head of its queue; below the threshold it releases its own hold (R167, R168). -/
def Port.takeHead (p : Port) : Port :=
  let p := { p with queue := p.queue.drop 1 }
  if p.queue.length < p.threshold then p.setOwnHold false else p

/-- The port that takes frame `f`, if it can: the head of its queue, or, where the queue is empty, the frame as it is
received (log entry 6). -/
def Port.take (p : Port) (f : List Byte) : Option Port :=
  if p.ready then
    match p.queue with
    | [] => some (Port.takeHead (Port.frameReceived { p.validSymbol with receiving := none } f))
    | g :: _ => if g = f then some p.takeHead else none
  else none

/-- A command whose response waits is marked in progress (R168); one that completes has its response placed. -/
def answerCommand (l : Link) (kind tag : Byte) : Reply → Host.Outcome State Fault Refusal
  | .done r body s => .next (s.onPort l fun p => p.place kind tag r body)
  | .waits s => .next (s.onPort l fun p => { p with inProgress := some { kind := kind, tag := tag, earlier := false } })
  | .stops f => .fault f

/-- Link `l` takes the command frame of `kind`, `tag` and `ops` if it can, checks the frame and the link (R168), and
hands it to its owner. A frame the port cannot take now is not taken, and nothing changes. -/
def takeCommand (l : Link) (kind tag : Byte) (ops : List Byte) (s : State) (owner : State → Reply) :
    Host.Outcome State Fault Refusal :=
  match (s.port l).take (commandFrame kind tag ops) with
  | none => .next s
  | some p =>
    let s := s.setPort l p
    if badFrame (commandFrame kind tag ops) then answerCommand l kind tag (refuse .badFrame s)
    else if permitted kind.toNat l then answerCommand l kind tag (owner s)
    else answerCommand l kind tag (refuse .notPermitted s)

/-- A command in progress completes: its response is placed, or discarded if it belongs to an earlier session
(R164, R168). -/
def completeCommand (l : Link) (r : Result) (body : List Byte) (s : State) : State :=
  s.onPort l fun p =>
    match p.inProgress with
    | some c =>
      if c.earlier then { p with inProgress := none }
      else { (p.place c.kind c.tag r body) with inProgress := none }
    | none => p

end Sys2Proof.Machine
end

