-- ==== Sys2Proof/Machine/Operands.lean ====
section
/-! DEFINITION. Operands as their owners read them: ranges, enumerations and presence bytes checked (R186), values
clamped. -/

namespace Sys2Proof.Machine

/-- A number outside `lo` to `hi` clamped to the nearest end. -/
def clampTo (lo hi n : Nat) : Nat := if n < lo then lo else if hi < n then hi else n

/-- A yes-or-no value (R186). -/
def yesNo (b : Byte) : Option Bool := if b = 0 then some false else if b = 1 then some true else none

/-- An optional operand: absent, present, or a bad presence byte (R186). -/
def optValue {n : Nat} (o : Opt n) : Option (Option (BitVec n)) :=
  if o.present = 0 then some none else if o.present = 1 then some (some o.value) else none

/-- A tie access: NONE 0, ANY 1, PRIVATE_ONLY 2 (R186). -/
def tieAccess (b : Byte) : Option TieAccess :=
  if b = 0 then some .none else if b = 1 then some .any else if b = 2 then some .privateOnly else none

/-- A tie access's code. -/
def TieAccess.code : TieAccess → Nat
  | .none => 0 | .any => 1 | .privateOnly => 2

/-- A leg's mode: TALK 0, LISTEN 1. -/
def legMode (b : Byte) : Option Mode := if b = 0 then some .talk else if b = 1 then some .listen else none

/-- A mode's code. -/
def Mode.code : Mode → Nat
  | .talk => 0 | .listen => 1

/-- A former controller: A 0, B 1 (R181, R184). -/
def formerLink (b : Byte) : Option Link := if b = 0 then some .a else if b = 1 then some .b else none

/-- A number below `n`, of a wider operand. -/
def below (n : Nat) (x : Nat) : Option Nat := if x < n then some x else none

/-- A stored record's index and fields, if every field is in range (R36); seeds and steps are taken as given. -/
def readRecord (o : StoredOps) : Option (Nat × Stored) := do
  let ext ← below Config.extensions o.ext.toNat
  let slot ← below Config.stationSlots o.slot.toNat
  let access ← tieAccess o.access
  let conference ← yesNo o.conference
  pure (ext, { seed := o.seed, step := o.step, access := access, conference := conference, slot := slot })

/-- Epoch lengths and leads in seconds as an open takes them: each length clamped to 1 to 300, then each lead to its
length less one (R73). -/
structure Timing where
  txEpoch : Nat
  rxEpoch : Nat
  txLead : Nat
  rxLead : Nat
  deriving DecidableEq, Repr

/-- The timing an open takes (R73). -/
def takeTiming (t : TimingOps) : Timing :=
  let tx := clampTo 1 300 t.txEpoch.toNat
  let rx := clampTo 1 300 t.rxEpoch.toNat
  { txEpoch := tx, rxEpoch := rx, txLead := clampTo 0 (tx - 1) t.txLead.toNat,
    rxLead := clampTo 0 (rx - 1) t.rxLead.toNat }

/-- The four clamped values in the order of the frame (R76). -/
def Timing.bytes (t : Timing) : List Byte := num16 t.txEpoch ++ num16 t.rxEpoch ++ num16 t.txLead ++ num16 t.rxLead

/-- The part of a response that only a PRIVATE open has: context index and the values taken (R76, R133). -/
def privateBytes : Option Nat → Timing → List Byte
  | some i, t => [1] ++ num8 i ++ t.bytes
  | none, _ => [0] ++ num8 0 ++ num16 0 ++ num16 0 ++ num16 0 ++ num16 0

/-- Whether a stamp, if given, is the opening frame count (R83, R131). -/
def stampMatches (stamp : Option Word32) (opened : Word32) : Bool :=
  match stamp with
  | some x => decide (x = opened)
  | none => true

/-- The requested survey window rounded down to 32, 64, 128 or 256 (R148). -/
def surveyWindow (n : Nat) : Nat := if 256 ≤ n then 256 else if 128 ≤ n then 128 else if 64 ≤ n then 64 else 32

/-- A survey entry with its ranges checked (R148). -/
def readEntry (o : SurveyEntryOps) : Option SurveyEntry := do
  let point ← yesNo o.point
  if o.kind = 0 then
    let n ← below Config.stationSlots o.number.toNat
    pure { slot := .station n, clearPoint := point }
  else if o.kind = 1 then
    let n ← below Config.tieSlots o.number.toNat
    pure { slot := .tie n, clearPoint := point }
  else none

/-- Every entry of a list, if all are good. -/
def readEntries : List SurveyEntryOps → Option (List SurveyEntry)
  | [] => some []
  | o :: os => do
    let e ← readEntry o
    let es ← readEntries os
    pure (e :: es)

/-- A survey trigger: IMMEDIATE 0, ROLLOVER 1, SYNC_LOST 2, with the operands that apply to it (R148, R186). -/
def readTrigger (kind ctx dir : Byte) : Option Trigger :=
  if kind = 0 then some .immediate
  else if kind = 1 then do
    let i ← below Config.contexts ctx.toNat
    let d ← yesNo dir
    pure (.rollover i (if d then .rx else .tx))
  else if kind = 2 then do
    let i ← below Config.contexts ctx.toNat
    pure (.syncLost i)
  else none

/-- A report setting: INSIDE 0, OUTSIDE 1, ALL 2. -/
def readReport (b : Byte) : Option Report :=
  if b = 0 then some .inside else if b = 1 then some .outside else if b = 2 then some .all else none

/-- A report setting's code. -/
def Report.code : Report → Nat
  | .inside => 0 | .outside => 1 | .all => 2

end Sys2Proof.Machine
end

