-- ==== Sys2Proof/Machine/Flags.lean ====
section
/-! DEFINITION. The attention flags of a context (R106, R107) and a link's event enables (R171). -/

namespace Sys2Proof.Machine

/-- The context with KEY_DUE set (R101). -/
def Context.flagKeyDue (c : Context) : Context := { c with flags := { c.flags with keyDue := true } }

/-- The context with KEY_STALE set (R99). -/
def Context.flagKeyStale (c : Context) : Context := { c with flags := { c.flags with keyStale := true } }

/-- The context with SYNC_LOST set (R119, R122). -/
def Context.flagSyncLost (c : Context) : Context := { c with flags := { c.flags with syncLost := true } }

/-- The context with HUNT_TIMEOUT set (R115). -/
def Context.flagHuntTimeout (c : Context) : Context := { c with flags := { c.flags with huntTimeout := true } }

/-- The four flags as a body carries them (R107). -/
def Attention.bytes (a : Attention) : List Byte :=
  flag8 a.keyDue ++ flag8 a.keyStale ++ flag8 a.syncLost ++ flag8 a.huntTimeout

/-- The eight enables a SET_EVENTS carries, if each is yes or no (R171). -/
def readEnableFlags (o : EnableOps) : Option Enables := do
  let admission ← yesNo o.admission
  let path ← yesNo o.path
  let key ← yesNo o.key
  let sync ← yesNo o.sync
  let bridge ← yesNo o.bridge
  let survey ← yesNo o.survey
  let highway ← yesNo o.highway
  let link ← yesNo o.link
  pure { admission := admission, path := path, key := key, sync := sync, bridge := bridge, survey := survey,
         highway := highway, link := link }

/-- The eight enables as a body carries them. -/
def Enables.bytes (e : Enables) : List Byte :=
  flag8 e.admission ++ flag8 e.path ++ flag8 e.key ++ flag8 e.sync ++ flag8 e.bridge ++ flag8 e.survey
    ++ flag8 e.highway ++ flag8 e.link

end Sys2Proof.Machine
end

