-- ==== Sys2Proof/Machine/Survey.lean ====
section
/-! DEFINITION. The level survey's work: measuring, completing an entry, and triggers (09). -/

namespace Sys2Proof.Machine

/-- The code the survey measures for an entry; `clear` holds the codes the receive directions delivered in this frame,
by the tie slot of their context (R150). -/
def surveyCode (s : State) (clear : Table Code) (e : SurveyEntry) : Code :=
  match e.slot with
  | .station n => s.stationCode n
  | .tie n => if e.clearPoint then (Table.find clear n).getD (s.tieCode n) else s.tieCode n

/-- The survey's work on a frame while MEASURING: the magnitude to the sum, the peak, and one frame counted (R151). -/
def surveyCount (clear : Table Code) (s : State) : State :=
  match s.survey.state with
  | .measuring i sum peak counted =>
    match s.survey.entries[i - 1]? with
    | some e =>
      let m := magnitude (surveyCode s clear e)
      { s with survey := { s.survey with state := .measuring i (sum + m) (max peak m) (counted + 1) } }
    | none => s
  | .stopped | .standby => s

/-- Whether the report setting admits a verdict (R152). -/
def Report.admits (r : Report) (outside : Bool) : Bool :=
  match r with
  | .inside => !outside
  | .outside => outside
  | .all => true

/-- The state after entry `i` has completed (R152 step 3). -/
def Survey.nextState (v : Survey) (i : Nat) : SurveyState :=
  if i < v.entries.length then .measuring (i + 1) 0 0 0
  else if v.repeating then .measuring 1 0 0 0
  else if v.trigger = .immediate then .stopped
  else .standby

/-- The entry being measured completes when its window is full: record, report, next entry (R152, R153). -/
def surveyComplete (s : State) : State :=
  match s.survey.state with
  | .measuring i sum peak counted =>
    if s.survey.window ≤ counted then
      match s.survey.entries[i - 1]? with
      | some e =>
        let mean := sum / s.survey.window
        let outside := !(decide (s.survey.low ≤ mean) && decide (mean ≤ s.survey.high))
        let r : SurveyResult := { mean := mean, peak := peak, at_ := s.frameCount, outside := outside }
        let v := s.survey
        let s := { s with survey := { v with results := Table.put v.results i r, state := v.nextState i } }
        if v.report.admits outside then raiseOn (.surveyResult i e r v.window v.low v.high) [.m] s else s
      | none => s
    else s
  | .stopped | .standby => s

/-- A trigger handed over by the privacy unit (R155). A completion that the survey's work on this frame has already
reached is taken before it (R159). -/
def surveyTrigger (t : Trigger) (s : State) : State :=
  if s.survey.trigger = t then
    let s := surveyComplete s
    match s.survey.state with
    | .stopped => s
    | .standby | .measuring .. => { s with survey := { s.survey with state := .measuring 1 0 0 0 } }
  else s

/-- The survey's work on this frame where it was left until after the triggers, then a completion that is due
(R152, R156). -/
def surveyDue (s : State) : State :=
  let s :=
    match s.work.surveyOwed with
    | some clear => surveyCount clear { s with work := { s.work with surveyOwed := none } }
    | none => s
  surveyComplete s

end Sys2Proof.Machine
end

