-- ==== Sys2Proof/Machine/Privacy.lean ====
section
/-! DEFINITION. The privacy unit: directions, advances and rollovers (06), preamble, hunt, alignment, slips and the
sync guard (07). -/

namespace Sys2Proof.Machine

/-! ## One direction -/

/-- A direction that is not RUNNING: no index, no epoch, the generator at the seed in force (R95). -/
def DirState.rest (d : DirState) : DirState :=
  { d with f := 0, epoch := 0, gen := d.seed, owed := 0, warnDue := false }

/-- An epoch start: the seed stepped once, index 1 (R95). -/
def DirState.epochStart (d : DirState) (epoch : Nat) : DirState :=
  { d with gen := keyStep d.step d.seed, f := 1, epoch := epoch }

/-- An advance that is no rollover (R96); at the warning index, with nothing staged and a lead above 0, KEY_DUE_WARNING
becomes due (R101). -/
def DirState.plainAdvance (d : DirState) : DirState :=
  { d with gen := keyStep d.step d.gen, f := d.f + 1,
           warnDue := d.warnDue || (decide (0 < d.lead) && decide (d.f + 1 = d.length - d.lead) && d.staged.isNone) }

/-- The epoch number after another; after 4294967295 it returns to 1 (R96). -/
def nextEpoch (n : Nat) : Nat := if n < 4294967295 then n + 1 else 1

/-- A rollover of the direction: fresh with the staged half, stale without one (R98, R99). -/
def DirState.roll (d : DirState) : DirState :=
  match d.staged with
  | some h =>
    DirState.epochStart
      { d with seed := h.seed, step := h.step, length := h.length.getD d.length, lead := h.lead.getD d.lead,
               staged := none }
      (nextEpoch d.epoch)
  | none => d.epochStart (nextEpoch d.epoch)

/-- One advance in the full sense of R96. -/
def DirState.advance (d : DirState) : DirState := if d.f < d.length then d.plainAdvance else d.roll

/-- The direction `n` advances on. -/
def DirState.ahead : Nat → DirState → DirState
  | 0, d => d
  | n + 1, d => DirState.ahead n d.advance

/-- Make the owed advances of this frame up to a rollover, which is a step of its own; what is left stays owed. -/
def DirState.makeOwed : Nat → DirState → DirState
  | 0, d => { d with owed := 0 }
  | n + 1, d => if d.f < d.length then DirState.makeOwed n d.plainAdvance else { d with owed := n + 1 }

/-! ## Contexts -/

/-- A direction of a context, and the context with it replaced. -/
def Context.dir (c : Context) : Dir → DirState
  | .tx => c.tx.dir | .rx => c.rx.dir

def Context.setDir (c : Context) (d : Dir) (x : DirState) : Context :=
  match d with
  | .tx => { c with tx := { c.tx with dir := x } }
  | .rx => { c with rx := { c.rx with dir := x } }

/-- A direction is RUNNING. -/
def Context.running (c : Context) : Dir → Bool
  | .tx => decide (c.tx.phase = .running)
  | .rx => decide (c.rx.phase = .running)

/-- The links a context's events go to: those of its path's controller (R108, R125). -/
def contextLinks (s : State) (c : Context) : List Link :=
  match Table.find s.paths c.path with
  | some p => p.controller.links
  | none => []

/-- The state with context `i` written. -/
def State.setCtx (s : State) (i : Nat) (c : Context) : State := { s with ctxs := Table.put s.ctxs i c }

/-- A direction as an open writes it (R91). -/
def DirState.opened (seed : Word32) (step : Word16) (lengthSec leadSec : Nat) : DirState :=
  { seed := seed, step := step, gen := seed, f := 0, epoch := 0, length := seconds lengthSec, lead := seconds leadSec,
    staged := none, owed := 0, warnDue := false }

/-- A context as it is allocated (R91). -/
def openContext (s : State) (path tieSlot : Nat) (k : KeyBlock) (t : Timing) : Context :=
  { path := path, tieSlot := tieSlot,
    tx := { phase := .preamble 0, dir := DirState.opened k.txSeed k.txStep t.txEpoch t.txLead },
    rx := { phase := .hunt Hunt.start, dir := DirState.opened k.rxSeed k.rxStep t.rxEpoch t.rxLead, last := 0,
            guardSum := 0, guardCount := 0, strikes := 0 },
    ceiling := s.guardCeiling, strikesLimit := s.guardStrikes, guardOn := true, flags := Attention.clear }

/-- A receive direction that leaves RUNNING for a new hunt (R95, R112). -/
def RxState.newHunt (r : RxState) : RxState :=
  { phase := .hunt Hunt.start, dir := r.dir.rest, last := 0, guardSum := 0, guardCount := 0, strikes := 0 }

/-! ## A frame's work -/

/-- The transmit direction's work in a frame, given the code toward the tie slot: the direction after, and the code to
drive (R81, R97, R110). The epoch start that ends a preamble and a rollover are steps of their own; the code is the one
they give. -/
def txFrame (t : TxState) (code : Code) : TxState × Code :=
  match t.phase with
  | .preamble sent =>
    if sent < 23 then ({ t with phase := .preamble (sent + 1) }, 90)
    else if sent = 23 then ({ t with phase := .preamble 24 }, 165)
    else ({ t with dir := { t.dir with owed := 1 } }, scramble code (keyByte (t.dir.epochStart 1).gen))
  | .running => ({ t with dir := DirState.makeOwed 1 t.dir }, scramble code (keyByte (DirState.ahead 1 t.dir).gen))

/-- What a receive direction's work in a frame gives: the direction after, the code it delivers, if any, and for an
alignment its hunt elapsed and whether the frame was DELETED. -/
structure RxResult where
  rx : RxState
  delivered : Option Code
  aligned : Option (Nat × Bool)
  deriving DecidableEq, Repr

/-- The guard counts a delivered code, if it is enabled (R121). -/
def RxState.count (r : RxState) (guardOn : Bool) (c : Code) : RxState :=
  if guardOn then { r with guardSum := r.guardSum + magnitude c, guardCount := r.guardCount + 1 } else r

/-- The hunt after it has examined a code (R113); on a LOST highway the code is another than 90 and 165. -/
def Hunt.examine (h : Hunt) (lost : Bool) (code : Code) : Hunt :=
  if lost then { h with run := 0 }
  else if code = 90 then { h with run := min 8 (h.run + 1) }
  else if code = 165 then (if h.run = 8 then { h with endSeen := true } else { h with run := 0 })
  else { h with run := 0 }

/-- A HUNT frame without the end-seen marker: elapsed, report check, examination (R113, R115). -/
def Hunt.frame (h : Hunt) (huntTime : Nat) (lost : Bool) (code : Code) : Hunt :=
  let h := { h with elapsed := min 240000 (h.elapsed + 1) }
  let h := if seconds huntTime ≤ h.elapsed ∧ h.reported = false then { h with reportDue := true } else h
  h.examine lost code

/-- An alignment: epoch 1 from the first frame, or from the second with a frame deleted (R114). -/
def RxState.align (r : RxState) (guardOn deleted : Bool) (code : Code) : RxState × Code :=
  let d := r.dir.epochStart 1
  let d := if deleted then d.advance else d
  let c := descramble code (keyByte d.gen)
  (RxState.count { phase := .running, dir := d, last := c, guardSum := 0, guardCount := 0, strikes := 0 } guardOn c, c)

/-- A RUNNING frame in which the direction makes `n` advances (R116). -/
def RxState.receive (r : RxState) (guardOn : Bool) (n : Nat) (code : Code) : RxState × Code :=
  let c := descramble code (keyByte (DirState.ahead n r.dir).gen)
  (RxState.count { r with dir := DirState.makeOwed n r.dir, last := c } guardOn c, c)

/-- The receive direction's work in a frame, given its tie code and slip indication (R113, R114, R116). -/
def rxFrame (huntTime : Nat) (lost guardOn : Bool) (code : Code) (slip : Slip) (r : RxState) : RxResult :=
  match r.phase with
  | .running =>
    match slip with
    | .normal => let x := r.receive guardOn 1 code; { rx := x.1, delivered := some x.2, aligned := none }
    | .deleted => let x := r.receive guardOn 2 code; { rx := x.1, delivered := some x.2, aligned := none }
    | .repeated => { rx := r, delivered := some r.last, aligned := none }
  | .hunt h =>
    if h.endSeen then
      match slip with
      | .normal =>
        let x := r.align guardOn false code
        { rx := x.1, delivered := some x.2, aligned := some (h.elapsed, false) }
      | .deleted =>
        let x := r.align guardOn true code
        { rx := x.1, delivered := some x.2, aligned := some (h.elapsed, true) }
      | .repeated => { rx := r, delivered := none, aligned := none }
    else { rx := { r with phase := .hunt (h.frame huntTime lost code) }, delivered := none, aligned := none }

/-! ## Steps of a frame's work -/

/-- PREAMBLE_END: a direction whose frame found 24 preamble frames sent makes its epoch start (R95, R110). -/
def preambleEnd (i : Nat) (s : State) : State :=
  match Table.find s.ctxs i with
  | some c =>
    match c.tx.phase with
    | .preamble sent =>
      if 24 ≤ sent ∧ 0 < c.tx.dir.owed then
        s.setCtx i { c with tx := { phase := .running, dir := { c.tx.dir.epochStart 1 with owed := 0 } } }
      else s
    | .running => s
  | none => s

/-- KEY_DUE_WARNING: the flag and the event of an advance to the warning index (R101, R106, R108). -/
def keyDueWarning (i : Nat) (d : Dir) (s : State) : State :=
  match Table.find s.ctxs i with
  | some c =>
    let x := c.dir d
    if c.running d ∧ x.warnDue = true then
      raiseOn (.keyDue i c.path d x.epoch x.lead) (contextLinks s c)
        (s.setCtx i (c.setDir d { x with warnDue := false }).flagKeyDue)
    else s
  | none => s

/-- ROLLOVER: an advance from the last index of the epoch, then what of the frame's advances is left (R98 to R100,
R116, R155). -/
def rollover (i : Nat) (d : Dir) (s : State) : State :=
  match Table.find s.ctxs i with
  | some c =>
    let x := c.dir d
    if c.running d ∧ 0 < x.owed ∧ x.length ≤ x.f then
      let y := x.roll
      let c' := c.setDir d (DirState.makeOwed (x.owed - 1) y)
      let c' := if x.staged.isNone then c'.flagKeyStale else c'
      let s' := s.setCtx i c'
      surveyTrigger (.rollover i d)
        (raiseOn
          (.keyRolled i c.path d y.epoch x.staged.isNone (y.length / Config.framesPerSecond)
            (y.lead / Config.framesPerSecond))
          (contextLinks s c) s')
    else s
  | none => s

/-- HUNT_REPORT: the reported marker, the flag and the event of a hunt that has lasted the hunt report time (R115). -/
def huntReport (i : Nat) (s : State) : State :=
  match Table.find s.ctxs i with
  | some c =>
    match c.rx.phase with
    | .hunt h =>
      if h.reportDue then
        raiseOn (.huntTimeout i c.path c.tieSlot h.elapsed) (contextLinks s c)
          (s.setCtx i
            (Context.flagHuntTimeout
              { c with rx := { c.rx with phase := .hunt { h with reported := true, reportDue := false } } }))
      else s
    | .running => s
  | none => s

/-- The receive direction of context `c` leaves RUNNING: a new hunt, SYNC_LOST's flag and event, and the survey's
trigger (R112, R119, R122, R125). -/
def loseSync (i : Nat) (c : Context) (cause : SyncCause) (s : State) : State :=
  surveyTrigger (.syncLost i)
    (raiseOn (.syncLost i c.path c.tieSlot cause c.rx.dir.epoch c.rx.dir.f) (contextLinks s c)
      (s.setCtx i (Context.flagSyncLost { c with rx := c.rx.newHunt })))

/-- The steps that context `i`'s advances of the frame have made due: the transmit direction's, then the receive
direction's (R97, R116). -/
def keyAdvances (i : Nat) (s : State) : State :=
  let s := rollover i .tx (keyDueWarning i .tx s)
  rollover i .rx (keyDueWarning i .rx s)

/-- Context `i` is RUNNING and its guard window has counted its 64th frame (R121). -/
def windowFull (i : Nat) (s : State) : Bool :=
  match Table.find s.ctxs i with
  | some c => c.running .rx && decide (64 ≤ c.rx.guardCount)
  | none => false

/-- Context `i`'s guard window is judged: its mean against the ceiling, the strikes against their limit (R121, R122). -/
def judgeWindow (i : Nat) (s : State) : State :=
  match Table.find s.ctxs i with
  | some c =>
    let mean := c.rx.guardSum / 64
    let strikes := if c.ceiling < mean then c.rx.strikes + 1 else 0
    if c.ceiling < mean ∧ c.strikesLimit ≤ strikes then loseSync i c (.guard mean c.strikesLimit) s
    else s.setCtx i { c with rx := { c.rx with guardSum := 0, guardCount := 0, strikes := strikes } }
  | none => s

/-- GUARD_WINDOW_END: the 64th counted frame ends the window, which is judged (R121, R122). The advances of that frame
come first, in both directions: their KEY events, then SYNC_LOST (R97, R116, R125). -/
def guardWindowEnd (i : Nat) (s : State) : State := if windowFull i s then judgeWindow i (keyAdvances i s) else s

/-- All the steps that context `i`'s work in a frame has made due, in the order of that work (R125). -/
def contextDue (i : Nat) (s : State) : State := guardWindowEnd i (huntReport i (keyAdvances i (preambleEnd i s)))

/-- A tie highway's loss as context `i` meets it (R119). -/
def contextLoss (h : Nat) (i : Nat) (s : State) : State :=
  match Table.find s.ctxs i with
  | some c =>
    if tieHighway c.tieSlot = h then
      match c.rx.phase with
      | .running => loseSync i c .highway s
      | .hunt x => s.setCtx i { c with rx := { c.rx with phase := .hunt { x with run := 0, endSeen := false } } }
    else s
  | none => s

/-- The state after one operation for each of the numbers, in order. -/
def forEach (f : Nat → State → State) : List Nat → State → State
  | [], s => s
  | i :: is, s => forEach f is (f i s)

/-- A tie highway's loss at every context, in ascending index (R119). -/
def privacyLoss (h : Nat) (s : State) : State := forEach (contextLoss h) (Table.keys s.ctxs) s

end Sys2Proof.Machine
end

