-- ==== Sys2Proof/Machine/Highways.lean ====
section
/-! DEFINITION. The tie highways: arrivals, deliveries, slips, loss and restoration (1.3, 1.4). -/

namespace Sys2Proof.Machine

/-- What a tie highway delivers at a frame start, and its state after (R8, R11). The fourth empty start gives idle codes
and makes HIGHWAY_LOST_SILENT due. -/
def Highway.deliver (x : Highway) : Highway × TieRead :=
  if x.up then
    match x.store with
    | f :: rest =>
      ({ x with store := rest, deleted := false, lastDelivered := f, emptyRun := 0, arrived := false },
        { codes := f, slip := if x.deleted then .deleted else .normal })
    | [] =>
      if x.emptyRun < 3 then
        ({ x with emptyRun := x.emptyRun + 1, arrived := false }, { codes := x.lastDelivered, slip := .repeated })
      else ({ x with emptyRun := 4, arrived := false }, { codes := idleFrame, slip := .normal })
  else
    ({ x with restoreRun := if x.arrived then x.restoreRun else 0, arrived := false },
      { codes := idleFrame, slip := .normal })

/-- TIE_SLIP for each delivery that was a slip, from highway `h` on (R9). -/
def raiseSlips (h : Nat) : List TieRead → State → State
  | [], s => s
  | r :: rs, s =>
    raiseSlips (h + 1) rs
      (match r.slip with
        | .normal => s
        | .repeated => raiseOn (.tieSlip h false) allLinks s
        | .deleted => raiseOn (.tieSlip h true) allLinks s)

/-- The highway as a loss leaves it (R10). -/
def Highway.lose (x : Highway) : Highway :=
  { x with up := false, store := [], deleted := false, lastDelivered := idleFrame, emptyRun := 0, restoreRun := 0,
           arrived := false }

/-- A tie highway is declared LOST: TIE_LOST first, then the privacy unit's contexts (R10, R119). -/
def declareLost (h : Nat) (cause : LostCause) (s : State) : State :=
  privacyLoss h (raiseOn (.tieLost h cause) allLinks (s.setHighway h (s.highway h).lose))

/-- An arrival at an UP highway's elastic store; none where it declares the highway LOST (R7). -/
def Highway.arrive (x : Highway) (f : List Code) : Option Highway :=
  match x.store with
  | _ :: g :: _ => if x.deleted then none else some { x with store := [g, f], deleted := true }
  | store => some { x with store := store ++ [f] }

/-- TIE_FRAME_ARRIVAL: a complete frame arrives; a frame of another length than 32 codes is incomplete and is discarded
(R6, R7, R11). The eighth arrival in a row on a LOST highway makes HIGHWAY_RESTORE due. -/
def tieArrival (h : Nat) (f : List Code) (s : State) : State :=
  if f.length = Config.slotsPerTie then
    let x := s.highway h
    if x.up then
      match x.arrive f with
      | some y => s.setHighway h { y with arrived := true }
      | none => if h < s.highways.length then declareLost h .overrun s else s
    else if x.restoreRun < 7 then s.setHighway h { x with restoreRun := x.restoreRun + 1, arrived := true }
    else s.setHighway h { x with restoreRun := 8, store := [f], arrived := true }
  else s

/-- HIGHWAY_LOST_SILENT: the fourth empty frame start in a row (R8, R10). -/
def lostSilent (h : Nat) (s : State) : State :=
  if (s.highway h).up ∧ 4 ≤ (s.highway h).emptyRun then declareLost h .silent s else s

/-- HIGHWAY_RESTORE: the highway is UP with the frame just arrived in its store (R12). -/
def restoreHighway (h : Nat) (s : State) : State :=
  let x := s.highway h
  if x.up = false ∧ 8 ≤ x.restoreRun then
    raiseOn (.tieRestored h) allLinks
      (s.setHighway h { x with up := true, deleted := false, emptyRun := 0, restoreRun := 0 })
  else s

/-- The eight tie highways by number. -/
def tieNumbers : List Nat := List.range Config.tieHighways

end Sys2Proof.Machine
end

