-- ==== Sys2Proof/Machine/Paths.lean ====
section
/-! DEFINITION. The path map: opening and clearing paths (05), and the bridge unit's part of a clearing (08). -/

namespace Sys2Proof.Machine

/-- A station or tie slot is free in the occupancy (R70). -/
def State.stationFree (s : State) (slot : Nat) : Bool := (Table.find s.stationOcc slot).isNone
def State.tieFree (s : State) (slot : Nat) : Bool := (Table.find s.tieOcc slot).isNone

/-- The lowest free path record, context and bridge (R69, R77, R129). -/
def State.freePath (s : State) : Option Nat := Table.lowestFree s.paths Config.paths
def State.freeCtx (s : State) : Option Nat := Table.lowestFree s.ctxs Config.contexts
def State.freeBridge (s : State) : Option Nat := Table.lowestFree s.bridges Config.bridges

/-- The extension's path in use, written or removed (R30). -/
def setExtPath (i : Nat) (p : Option Nat) (s : State) : State := s.setExt i { s.ext i with path := p }

/-- Write the path record and the occupancy of its slots, and the path in use of its extension (R76, R78). -/
def writePath (id : Nat) (p : Path) (s : State) : State :=
  let s := { s with paths := Table.put s.paths id p }
  let s := match p.kind.station with
    | some slot => { s with stationOcc := Table.put s.stationOcc slot id }
    | none => s
  let s := match p.kind.tieSlot with
    | some slot => { s with tieOcc := Table.put s.tieOcc slot id }
    | none => s
  match p.kind.ext with
  | some e => setExtPath e (some id) s
  | none => s

/-- The leg on path `id` leaves bridge `b`; a designated talker's designation ends with it, with TALKER of cause
REMOVED (R134, R143). Answers the state with the leg gone, and the event still to be raised, with its links. -/
def dropLeg (id b : Nat) (s : State) : State × Option (EventKind × List Link) :=
  match Table.find s.bridges b with
  | some x =>
    let legs := x.legs.filter fun g => decide (g.path ≠ id)
    if x.talker = some id then
      ({ s with bridges := Table.put s.bridges b { x with legs := legs, talker := none } },
        some (.talker b none (some id) true, x.controller.links))
    else ({ s with bridges := Table.put s.bridges b { x with legs := legs } }, none)
  | none => (s, none)

/-- Free the slots and the context of a path, and its record; its extension's path in use is removed (R84 steps 1, 2,
4, 5). -/
def freePathRecord (id : Nat) (p : Path) (s : State) : State :=
  let s := match p.kind.station with
    | some slot => { s with stationOcc := Table.del s.stationOcc slot }
    | none => s
  let s := match p.kind.tieSlot with
    | some slot => { s with tieOcc := Table.del s.tieOcc slot }
    | none => s
  let s := match p.kind.ctx with
    | some i => { s with ctxs := Table.del s.ctxs i }
    | none => s
  let s := match p.kind.ext with
    | some e => setExtPath e none s
    | none => s
  { s with paths := Table.del s.paths id }

/-- Raise an event that may be there. -/
def raiseIf (e : Option (EventKind × List Link)) (s : State) : State :=
  match e with
  | some (k, ls) => raiseOn k ls s
  | none => s

/-- The clearing rule: the path's slots, context, leg, extension and record are freed, and PATH_CLEARED is raised, before
any TALKER (R84, R85). -/
def clearPath (id : Nat) (cause : ClearCause) (s : State) : State :=
  match Table.find s.paths id with
  | some p =>
    let s := freePathRecord id p s
    let d := match p.kind.bridge with
      | some b => dropLeg id b s
      | none => (s, none)
    raiseIf d.2 (raiseOn (.pathCleared id p.kind p.opened cause) p.controller.links d.1)
  | none => s

/-- A bridge is closed: its legs' paths cleared in list order, then the record FREE (R137). -/
def closeBridge (b : Nat) (cause : ClearCause) (s : State) : State :=
  match Table.find s.bridges b with
  | some x =>
    let s := forEach (fun p => clearPath p cause) (x.legs.map Leg.path) s
    { s with bridges := Table.del s.bridges b }
  | none => s

/-- Whether a controller field lets link `l` change what it controls: the controlling link only (R102, R131). -/
def Controller.isLink (c : Controller) (l : Link) : Bool :=
  match c with
  | .control k => decide (k = l)
  | .orphan _ _ => false

/-- Whether link `l` may clear what the field controls: its controller, link M, or for an orphan any link (R83, R136). -/
def Controller.mayClear (c : Controller) (l : Link) : Bool :=
  match c with
  | .control k => decide (k = l) || decide (l = .m)
  | .orphan _ _ => true

/-- The tie path an extension's tie access permits (R75). -/
def tieRefusal (a : TieAccess) (priv : Bool) : Option Result :=
  match a with
  | .none => some .class_
  | .any => none
  | .privateOnly => if priv then none else some .privacyConflict

/-- The extension's tie access and conference allowance, from its working copy (R47); NONE and no where it has none. -/
def Ext.access (e : Ext) : TieAccess := (e.stored.map Stored.access).getD .none
def Ext.conference (e : Ext) : Bool := (e.stored.map Stored.conference).getD false

/-- The extension is ADMITTED. -/
def Ext.isAdmitted (e : Ext) : Bool :=
  match e.standing with
  | .admitted _ _ => true
  | .vacant | .idle | .locked _ => false

end Sys2Proof.Machine
end

