-- ==== Sys2Proof/Machine/Admission.lean ====
section
/-! DEFINITION. The admission unit: failures, lockouts and the de-admission cascade (04). -/

namespace Sys2Proof.Machine

/-- An extension that has left ADMITTED: DEADMITTED, then the clearing of its path (R62 steps 2, 3). -/
def cascade (i : Nat) (cause : DeadmitCause) (links : List Link) (path : Option Nat) (s : State) : State :=
  let s := raiseOn (.deadmitted i cause path) links s
  match path with
  | some p => clearPath p .deadmitted s
  | none => s

/-- The extension's record after a failure: the challenge gone, the count one more, LOCKED at the fail limit and IDLE
below it (R55 to R57). -/
def Ext.fail (e : Ext) (cause : FailCause) (failLimit lockout : Nat) : Ext :=
  { e with challenge := none, failures := e.failures + 1,
           standing := if failLimit ≤ e.failures + 1 then .locked lockout else .idle,
           expired := e.expired || decide (cause = .expired) }

/-- The de-admission cause of a failure (R55, R56). -/
def FailCause.deadmit : FailCause → DeadmitCause
  | .wrongAnswer => .recheckFailed | .expired => .expired

/-- A failure of extension `i`'s challenge, with its events in order: ADMISSION_FAILED for an expiry, LOCKED_OUT,
DEADMITTED, then the clearing's (R55 to R57, R62). -/
def failChallenge (i : Nat) (ch : Challenge) (cause : FailCause) (s : State) : State :=
  let e := s.ext i
  let n := e.failures + 1
  let lockedNow := decide (s.failLimit ≤ n)
  let links := challengeLinks s ch.issuer
  let lockout := seconds s.lockoutTime
  let s := s.setExt i (e.fail cause s.failLimit lockout)
  let s := if e.isAdmitted || lockedNow then noteChange i s else s
  let s := if cause = .expired then raiseOn (.admissionFailed i n lockedNow) links s else s
  let s := if lockedNow then raiseOn (.lockedOut i cause lockout) (links ++ [.m]) s else s
  if e.isAdmitted then cascade i cause.deadmit links e.path s else s

/-- CHALLENGE_EXPIRY: the challenge whose expiry frame has begun expires (R56). -/
def challengeExpiry (i : Nat) (s : State) : State :=
  match (s.ext i).challenge with
  | some ch => if ch.expiry = s.frameCount then failChallenge i ch .expired s else s
  | none => s

/-- A LOCKED extension's lockout ends: IDLE, failure count 0 (R59, R60). -/
def endLockout (i : Nat) (cause : UnlockCause) (s : State) : State :=
  raiseOn (.unlocked i cause) allLinks (noteChange i (s.setExt i { s.ext i with standing := .idle, failures := 0 }))

/-- LOCKOUT_EXPIRY: the remaining count has reached 0 (R59). -/
def lockoutExpiry (i : Nat) (s : State) : State :=
  match (s.ext i).standing with
  | .locked 0 => endLockout i .timer s
  | .locked (_ + 1) | .vacant | .idle | .admitted _ _ => s

/-- A frame start's count of a lockout (R59). -/
def Ext.frame (e : Ext) : Ext :=
  match e.standing with
  | .locked n => { e with standing := .locked (n - 1) }
  | .vacant | .idle | .admitted _ _ => e

/-- A failure count as a new fail limit leaves it (R65). -/
def Ext.adjust (limit : Nat) (e : Ext) : Ext :=
  match e.standing with
  | .locked _ => { e with failures := limit }
  | .vacant | .idle | .admitted _ _ => if limit ≤ e.failures then { e with failures := limit - 1 } else e

/-- Admission state codes (12.3). -/
def Standing.code : Standing → Nat
  | .vacant => 0 | .idle => 1 | .admitted _ _ => 2 | .locked _ => 3

end Sys2Proof.Machine
end

