-- ==== Sys2Proof/Machine/Controllers.lean ====
section
/-! DEFINITION. Controllers, orphans and adoption (11). -/

namespace Sys2Proof.Machine

/-- The path is a TIE path. -/
def Path.isTie (p : Path) : Bool :=
  match p.kind with
  | .tie .. => true
  | .bridgeStation .. | .bridgeTie .. => false

/-- How many paths of a table satisfy `f`. -/
def countPaths (f : Path → Bool) (t : Table Path) : Nat := (t.filter fun e => f e.2).length

/-- How many bridges of a table satisfy `f`. -/
def countBridges (f : Bridge → Bool) (t : Table Bridge) : Nat := (t.filter fun e => f e.2).length

/-- A controller field is replaced by another in every path and bridge that carries a field satisfying `f` (R69, R127). -/
def recontrol (f : Controller → Bool) (c : Controller) (s : State) : State :=
  { s with
    paths := Table.mapAll s.paths fun p => if f p.controller then { p with controller := c } else p,
    bridges := Table.mapAll s.bridges fun b => if f b.controller then { b with controller := c } else b }

/-- The loss of call-processor link `l`: its paths and bridges are orphaned with one deadline, or cleared at once under
an orphan hold of 0 (R176 to R178). -/
def controllerLoss (l : Link) (s : State) : State :=
  let mine : Controller → Bool := fun c => decide (c = .control l)
  let ties := (s.paths.filter fun e => e.2.isTie && mine e.2.controller).map Prod.fst
  let legs := countPaths (fun p => !p.isTie && mine p.controller) s.paths
  let brs := (s.bridges.filter fun e => mine e.2.controller).map Prod.fst
  let deadline := s.after (seconds s.orphanHold)
  let s := recontrol mine (.orphan l deadline) s
  if s.orphanHold = 0 then
    forEach (fun b => closeBridge b .orphanExpired) brs (forEach (fun p => clearPath p .orphanExpired) ties s)
  else if ties.length + brs.length = 0 then s
  else raiseOn (.pathOrphaned l ties.length brs.length legs deadline) (otherLinks l) s

/-- The controller field is an orphan's whose deadline is the current frame count. -/
def Controller.passes (c : Controller) (now : Word32) : Bool :=
  match c with
  | .control _ => false
  | .orphan _ d => decide (d = now)

/-- ORPHAN_DEADLINE: an orphaned TIE path is cleared, or an orphaned bridge closed, at its deadline; a leg path passes
only with its bridge (R179). -/
def orphanDeadline (r : OrphanRef) (s : State) : State :=
  match r with
  | .path id =>
    match Table.find s.paths id with
    | some p => if p.isTie && p.controller.passes s.frameCount then clearPath id .orphanExpired s else s
    | none => s
  | .bridge b =>
    match Table.find s.bridges b with
    | some x => if x.controller.passes s.frameCount then closeBridge b .orphanExpired s else s
    | none => s

/-- The controller field is that of an orphan of link `x`. -/
def Controller.isOrphanOf (x : Link) (c : Controller) : Bool :=
  match c with
  | .control _ => false
  | .orphan former _ => decide (former = x)

end Sys2Proof.Machine
end

