-- ==== Sys2Proof/Machine/Links.lean ====
section
/-! DEFINITION. The link ports: symbols, link states, frames in and out (10). -/

namespace Sys2Proof.Machine

/-- A port that enters UP (R165). -/
def Port.goUp (p : Port) : Port :=
  { p with state := .up, alignRun := 0, invalidRun := 0, partnerHold := false, ownHold := false, threshold := 12,
           queue := [], receiving := none, response := none, overrun := [], events := [], lost := none,
           enables := Enables.all, changes := List.range Config.extensions, sending := none,
           lastControl := some .start }

/-- A port that enters DOWN from UP: its command in progress is marked as of an earlier session (R163, R164). -/
def Port.goDown (p : Port) : Port :=
  { p with state := .down, alignRun := 0, invalidRun := 0, partnerHold := false, ownHold := false, queue := [],
           receiving := none, inProgress := p.inProgress.map fun c => { c with earlier := true }, response := none,
           overrun := [], events := [], lost := none, sending := none, lastControl := none }

/-- Link `l` enters UP, and LINK_CHANGE goes to the others that are UP (R165, R173). -/
def linkUp (l : Link) (s : State) : State := raiseOn (.linkChange l none) (otherLinks l) (s.onPort l Port.goUp)

/-- Link `l` enters DOWN from UP: LINK_CHANGE, then for a call-processor link the loss of its paths and bridges
(R164, R173). -/
def linkDown (l : Link) (cause : DownCause) (s : State) : State :=
  let s := raiseOn (.linkChange l (some cause)) (otherLinks l) (s.onPort l Port.goDown)
  if l = .m then s else controllerLoss l s

/-- Why an UP link is to go DOWN, if it is (R163). -/
def Port.downCause (p : Port) : Option DownCause :=
  if p.state = .up then
    if 16 ≤ p.invalidRun then some .lineError else if 64 ≤ p.alignRun then some .partnerRestart else none
  else none

/-- LINK_DOWN (R163, R164). -/
def linkDownDue (l : Link) (s : State) : State :=
  match (s.port l).downCause with
  | some c => linkDown l c s
  | none => s

/-- A port in DOWN whose alignment run has reached 64 enters ALIGNING (R162). -/
def Port.align (p : Port) : Port := if p.state = .down ∧ 64 ≤ p.alignRun then { p with state := .aligning } else p

/-- LINK_ALIGNING (R162). -/
def linkAligningDue (l : Link) (s : State) : State := s.onPort l Port.align

/-- A port that receives ALIGN (R162, R163). -/
def Port.alignSymbol (p : Port) : Port :=
  match p.state with
  | .down => { p with alignRun := min 64 (p.alignRun + 1) }
  | .aligning => p
  | .up => { p with alignRun := min 64 (p.alignRun + 1), invalidRun := 0, receiving := none }

/-- A port that receives a symbol other than ALIGN and START in DOWN or ALIGNING (R162). -/
def Port.breakAlignment (p : Port) : Port := { p with state := .down, alignRun := 0 }

/-- A port in UP that receives one of the symbols without a row of their own (R161, R163). -/
def Port.upSymbol (p : Port) : OtherSymbol → Port
  | .invalid => { p with invalidRun := min 16 (p.invalidRun + 1), alignRun := 0, receiving := none }
  | .idle => p.validSymbol
  | .frameBegin => { p.validSymbol with receiving := some [] }
  | .data b => { p.validSymbol with receiving := p.receiving.map fun f => f ++ [b] }
  | .frameEnd =>
    match p.receiving with
    | some (b :: f) => Port.frameReceived { p.validSymbol with receiving := none } (b :: f)
    | some [] | none => { p.validSymbol with receiving := none }

/-- A port that receives one of those symbols in any state. -/
def Port.otherSymbol (p : Port) (sym : OtherSymbol) : Port :=
  match p.state with
  | .up => p.upSymbol sym
  | .down | .aligning => p.breakAlignment

/-- A port that receives a whole frame: FRAME_BEGIN, the bytes, FRAME_END (R161, R163, R167). -/
def Port.wholeFrame (p : Port) (f : List Byte) : Port :=
  match p.state with
  | .up =>
    let p := { p.validSymbol with receiving := none }
    match f with
    | [] => p
    | b :: rest => p.frameReceived (b :: rest)
  | .down | .aligning => p.breakAlignment

/-- A port that receives HOLD_ON or HOLD_OFF (R161, R169). -/
def Port.holdSymbol (p : Port) (hold : Bool) : Port :=
  match p.state with
  | .up => { p.validSymbol with partnerHold := hold }
  | .down | .aligning => p.breakAlignment

/-- Before the start-up load ends the ports take no transition and count no run (R166). -/
def whenLoaded (f : State → State) (s : State) : State := if s.boot = .ended then f s else s

/-- A START: a port in ALIGNING enters UP; in UP it is taken as IDLE (R162, R163). -/
def startSymbol (l : Link) (s : State) : State :=
  match (s.port l).state with
  | .aligning => linkUp l s
  | .up => s.onPort l Port.validSymbol
  | .down => s.onPort l Port.breakAlignment

/-- A port whose transmitter begins a frame, if the partner hold is released and something waits: the oldest overrun
tag, the response, or the oldest event; an event that leaves a queue whose lost marker is set makes room for
EVENTS_LOST (R169, R170). -/
def Port.begin (p : Port) (now : Word32) : Port :=
  if p.state = .up ∧ p.partnerHold = false then
    match p.overrun with
    | t :: ts => { p with overrun := ts, sending := some (overrunAnswer t) }
    | [] =>
      match p.response with
      | some r => { p with response := none, sending := some r.frame }
      | none =>
        match p.events with
        | e :: es =>
          match p.lost with
          | some n =>
            { p with events := es ++ [{ kind := .eventsLost n, stamp := now }], lost := none, sending := some e.frame }
          | none => { p with events := es, sending := some e.frame }
        | [] => p
  else p

end Sys2Proof.Machine
end

