-- ==== Sys2Proof/Machine/Mixing.lean ====
section
/-! DEFINITION. The bridge unit's work in a frame: inputs, contributions, outputs, windows and the talker (8.6, 8.7). -/

namespace Sys2Proof.Machine

/-- A leg's input, given the codes the receive directions delivered in this frame by tie slot; 0 while a private leg's
receive direction is not RUNNING (R140). -/
def legInput (s : State) (heard : Table Code) (g : Leg) : Int :=
  match g.slot with
  | .station n => decodeSample (s.stationCode n)
  | .tie n .clear => decodeSample (s.tieCode n)
  | .tie n (.priv _) => decodeSample (Table.code heard n)

/-- A leg's contribution: its input times its gain, divided by 16 and truncated toward zero; 0 for LISTEN (R141). -/
def contribution (g : Leg) (x : Int) : Int :=
  match g.mode with
  | .talk => (x * (g.gain : Int)).tdiv 16
  | .listen => 0

/-- The linear sum for the leg at place `k`: the contributions of every other leg of the list (R141). -/
def sumOfOthers (contribs : List Int) (k : Nat) : Int := (contribs.eraseIdx k).sum

/-- The output code for the leg at place `k` (R141, R15). -/
def legOutput (contribs : List Int) (k : Nat) : Code := encodeSample (sumOfOthers contribs k)

/-- Drive a code on a station slot or a tie slot in this frame (R5). -/
def driveStation (slot : Nat) (c : Code) (s : State) : State :=
  { s with drivenStation := Table.put s.drivenStation slot c }
def driveTie (slot : Nat) (c : Code) (s : State) : State := { s with drivenTie := Table.put s.drivenTie slot c }

/-- A context's transmit direction takes a code and drives what it returns on the tie slot (R81, R110, R141). -/
def transmit (i slot : Nat) (code : Code) (s : State) : State :=
  match Table.find s.ctxs i with
  | some c =>
    let x := txFrame c.tx code
    driveTie slot x.2 (s.setCtx i { c with tx := x.1 })
  | none => s

/-- Send a leg its output (R141). -/
def sendLeg (g : Leg) (c : Code) (s : State) : State :=
  match g.slot with
  | .station n => driveStation n c s
  | .tie n .clear => driveTie n c s
  | .tie n (.priv i) => transmit i n c s

/-- Send every leg its output, from place `k` on. -/
def sendLegs (contribs : List Int) : Nat → List Leg → State → State
  | _, [], s => s
  | k, g :: gs, s => sendLegs contribs (k + 1) gs (sendLeg g (legOutput contribs k) s)

/-- A leg whose input has been added to its window sum (R140). -/
def Leg.measure (g : Leg) (x : Int) : Leg := { g with sum := g.sum + x.natAbs }

/-- Bridge `b`'s work in a frame: inputs measured, outputs sent, one frame of the window counted (R140 to R142). -/
def bridgeFrame (heard : Table Code) (b : Nat) (s : State) : State :=
  match Table.find s.bridges b with
  | some x =>
    let inputs := x.legs.map (legInput s heard)
    let contribs := List.zipWith contribution x.legs inputs
    let x' := { x with legs := List.zipWith Leg.measure x.legs inputs, windowCount := x.windowCount + 1 }
    sendLegs contribs 0 x.legs { s with bridges := Table.put s.bridges b x' }
  | none => s

/-- The talker chosen among the legs: the first TALK leg of the highest mean at or above the threshold (R142). -/
def chooseTalker (threshold : Nat) : List Leg → Option (Nat × Nat)
  | [] => none
  | g :: gs =>
    let later := chooseTalker threshold gs
    if g.mode = .talk ∧ threshold ≤ g.sum / 64 then
      match later with
      | some (p, m) => if g.sum / 64 < m then some (p, m) else some (g.path, g.sum / 64)
      | none => some (g.path, g.sum / 64)
    else later

/-- A leg at a window boundary: staged gain and mode applied, window sum 0 (R142). -/
def Leg.boundary (g : Leg) : Leg :=
  match g.staged with
  | some (gain, mode) => { g with gain := gain, mode := mode, staged := none, sum := 0 }
  | none => { g with sum := 0 }

/-- BRIDGE_WINDOW_BOUNDARY: the talker is chosen, staged settings applied, sums and count cleared (R142, R143). -/
def bridgeBoundary (b : Nat) (s : State) : State :=
  match Table.find s.bridges b with
  | some x =>
    if 64 ≤ x.windowCount then
      let choice := chooseTalker x.threshold x.legs
      let x' := { x with legs := x.legs.map Leg.boundary, threshold := x.staged.getD x.threshold, staged := none,
                         windowCount := 0, talker := choice.map Prod.fst }
      let s := { s with bridges := Table.put s.bridges b x' }
      if choice.map Prod.fst = x.talker then s
      else raiseOn (.talker b choice x.talker false) x.controller.links s
    else s
  | none => s

end Sys2Proof.Machine
end

