-- ==== Sys2Proof/Machine/Store.lean ====
section
/-! DEFINITION. The extension store, its programming engine and the start-up load (03). -/

namespace Sys2Proof.Machine

/-- The checks of a record that is to be programmed, in order (R36). -/
def checkRecord (o : StoredOps) (s : State) : Except Result (Nat × Stored) :=
  match readRecord o with
  | none => .error .badOperand
  | some (i, r) =>
    if (s.ext i).isAdmitted || (s.ext i).challenge.isSome then .error .inService
    else
      match Table.find s.slotMap r.slot with
      | some j => if j = i then .ok (i, r) else .error .slotTaken
      | none => .ok (i, r)

/-- The engine begins a job on extension `i`'s record slot: the slot is erased first, its marker with it, and the
programming marker is set (R32, R37). -/
def beginJob (i : Nat) (job : Job) (s : State) : State :=
  let s := { s with extStore := Table.del s.extStore i, engine := some { job := job, remaining := Config.storeFrames } }
  s.setExt i { s.ext i with programming := true }

/-- The station-slot map without extension `i`'s entry (R31). -/
def unbind (i : Nat) (m : Table Nat) : Table Nat := m.filter fun e => decide (e.2 ≠ i)

/-- The part of a completed program that R38 gives for its extension, less the response. -/
def finishProgram (i : Nat) (r : Stored) (s : State) : State :=
  let e := s.ext i
  let s := { s with extStore := Table.put s.extStore i r, slotMap := Table.put (unbind i s.slotMap) r.slot i,
                    engine := none }
  let s := s.setExt i { e with stored := some r, standing := .idle, failures := 0, expired := false,
                               programming := false }
  if e.standing = .idle then s else noteChange i s

/-- The part of a completed erase that R39 gives, less the response. -/
def finishErase (i : Nat) (s : State) : State :=
  let e := s.ext i
  let s := { s with slotMap := unbind i s.slotMap, engine := none }
  let s := s.setExt i { e with stored := none, standing := .vacant, failures := 0, expired := false,
                               programming := false }
  if e.standing = .vacant then s else noteChange i s

/-- What comes of the entry number `k` of a bulk load at its turn: the load is over, the entry is refused, or its program
is begun (R40). -/
inductive Turn where
  | over
  | refused (why : Result)
  | begun (s : State)

/-- An entry's turn: first the load's own check against the earlier entries, then the checks of R36 (R40). -/
def loadTurn (entries : List StoredOps) (k : Nat) (s : State) : Turn :=
  match entries[k]? with
  | none => .over
  | some o =>
    if (entries.take k).any fun p => decide (p.ext = o.ext) then .refused .badOperand
    else
      match checkRecord o s with
      | .error why => .refused why
      | .ok (i, r) => .begun (beginJob i (.load entries k i r) s)

/-- The body of PARTIAL: the entries not programmed and the refusal of the first of them (R41, R188). -/
def partialBody (entries : List StoredOps) (k : Nat) (why : Result) : List Byte :=
  num8 (entries.length - k) ++ num8 why.code

/-- PROGRAM_COMPLETE (R38). -/
def programComplete (s : State) : State :=
  match s.engine with
  | some ⟨.program i r, 0⟩ => completeCommand .m .ok [] (finishProgram i r s)
  | _ => s

/-- ERASE_COMPLETE (R39). -/
def eraseComplete (s : State) : State :=
  match s.engine with
  | some ⟨.erase i, 0⟩ => completeCommand .m .ok [] (finishErase i s)
  | _ => s

/-- Whether link M's command in progress belongs to an earlier session (R42, R164). -/
def loadCutShort (s : State) : Bool :=
  match s.portM.inProgress with
  | some c => c.earlier
  | none => true

/-- LOAD_ENTRY_COMPLETE: the entry's program completes, and the next entry is checked and begun or the load responds; a
load of an earlier session goes no further (R40 to R42). -/
def loadEntryComplete (s : State) : State :=
  match s.engine with
  | some ⟨.load entries k i r, 0⟩ =>
    let s := finishProgram i r s
    if loadCutShort s then completeCommand .m .ok [] s
    else
      match loadTurn entries (k + 1) s with
      | .over => completeCommand .m .ok [] s
      | .refused why => completeCommand .m .partial_ (partialBody entries (k + 1) why) s
      | .begun s => s
  | _ => s

/-- An extension as the start-up load puts it in the table (R33). -/
def Ext.loaded (r : Stored) : Ext := { Ext.vacant with stored := some r, standing := .idle }

/-- The extension table and station-slot map from the present records in ascending order; a record whose slot a lower
index has taken is treated as absent (R33). -/
def buildTable : List (Nat × Stored) → Table Ext × Table Nat → Table Ext × Table Nat
  | [], t => t
  | (i, r) :: rest, (exts, m) =>
    buildTable rest
      (match Table.find m r.slot with
        | some _ => (exts, m)
        | none => (Table.put exts i (Ext.loaded r), Table.put m r.slot i))

/-- The start-up load ends: the nonce generator is seeded and the ports may leave DOWN (R25, R34). -/
def endLoad (count : Word32) (s : State) : State := { s with boot := .ended, nonce := some (nonceSeed count) }

/-- START_UP_LOAD: table and map are built and the start count program begins; at the ceiling the load ends at once
(R33, R34). -/
def startUpLoad (s : State) : State :=
  if s.boot = .reset then
    let t := buildTable s.extStore ([], [])
    let s := { s with exts := t.1, slotMap := t.2 }
    let count := s.startRecord.getD 0
    if count = 4294967295 then endLoad count { s with startCount := count }
    else
      { s with startCount := count + 1, startRecord := none, boot := .loading,
               engine := some { job := .startCount (count + 1), remaining := Config.storeFrames } }
  else s

/-- START_COUNT_PROGRAM_DONE (R34). -/
def startCountDone (s : State) : State :=
  match s.engine with
  | some ⟨.startCount v, 0⟩ => endLoad v { s with startRecord := some v, engine := none }
  | _ => s

/-- A power-on reset: every block in its reset state, the store as it stands. A record slot or start count record in the
middle of a program or erase is absent, as the operation erased it first (R32, R166); so is one whose completion is due but not taken (log entry
21). -/
def powerOnReset (s : State) : State :=
  { State.reset with pending := s.pending, extStore := s.extStore, startRecord := s.startRecord }

end Sys2Proof.Machine
end

