-- ==== Sys2Proof/Machine/Frame.lean ====
section
/-! DEFINITION. A frame: its start, its processing, and the steps that are due. Log entries 2 to 5 say in which order
things the manual leaves to either order are taken. -/

namespace Sys2Proof.Machine

/-! ## The processing of a frame (R71) -/

/-- Context `i`'s receive work, and the codes delivered so far by tie slot: the idle code of a direction that delivers
none (R82, R113, R114, R116, R118). -/
def receiveContext (i : Nat) (x : State × Table Code) : State × Table Code :=
  let s := x.1
  match Table.find s.ctxs i with
  | some c =>
    let h := tieHighway c.tieSlot
    let r := rxFrame s.huntTime (!(s.highway h).up) c.guardOn (s.tieCode c.tieSlot) (s.tieRead h).slip c.rx
    let s' := s.setCtx i { c with rx := r.rx }
    let s' := match r.aligned with
      | some (n, deleted) => raiseOn (.rxAligned i c.path c.tieSlot n deleted) (contextLinks s c) s'
      | none => s'
    (s', Table.put x.2 c.tieSlot (r.delivered.getD idleCode))
  | none => x

/-- Every context's receive work, in ascending index. -/
def receiveContexts : List Nat → State × Table Code → State × Table Code
  | [], x => x
  | i :: is, x => receiveContexts is (receiveContext i x)

/-- A direct tie path's work (R80 to R82). -/
def tiePathFrame (heard : Table Code) (id : Nat) (s : State) : State :=
  match Table.find s.paths id with
  | some p =>
    match p.kind with
    | .tie station _ tieSlot .clear =>
      driveStation station (s.tieCode tieSlot) (driveTie tieSlot (s.stationCode station) s)
    | .tie station _ tieSlot (.priv i) =>
      driveStation station (Table.code heard tieSlot) (transmit i tieSlot (s.stationCode station) s)
    | .bridgeStation .. | .bridgeTie .. => s
  | none => s

/-- The whole of a frame's processing: receive directions, direct paths, bridges, survey. -/
def processFrame (s : State) : State :=
  let s := { s with drivenStation := [], drivenTie := [] }
  let x := receiveContexts (Table.keys s.ctxs) (s, [])
  let heard := x.2
  let s := forEach (tiePathFrame heard) (Table.keys x.1.paths) x.1
  let s := forEach (bridgeFrame heard) (Table.keys s.bridges) s
  if s.work.surveyLater then { s with work := { s.work with surveyOwed := some heard } } else surveyCount heard s

/-- The current frame's processing begins, if it has not. -/
def beginWork (s : State) : State :=
  if s.work.held then processFrame { s with work := { s.work with held := false } } else s

/-! ## Steps that are due -/

/-- The steps the frame's work has made due: contexts, bridges, survey. Survey work left for later is done here, after
the triggers of contexts and before anything due at the frame's start (log entries 4, 20). -/
def workDue (s : State) : State :=
  let s := forEach contextDue (Table.keys s.ctxs) s
  let s := forEach bridgeBoundary (Table.keys s.bridges) s
  surveyDue s

/-- The steps due at the frame's start: highways, store, lockouts, challenges, orphans. -/
def startDue (s : State) : State :=
  let s := forEach lostSilent tieNumbers s
  let s := startCountDone (loadEntryComplete (eraseComplete (programComplete s)))
  let s := forEach lockoutExpiry (Table.keys s.exts) s
  let s := forEach challengeExpiry (Table.keys s.exts) s
  let s := forEach (fun id => orphanDeadline (.path id)) (Table.keys s.paths) s
  forEach (fun b => orphanDeadline (.bridge b)) (Table.keys s.bridges) s

/-- One link's due step: DOWN from UP, or ALIGNING from DOWN (R162, R163). -/
def linkDue (l : Link) (s : State) : State :=
  whenLoaded (fun s => if (s.port l).state = .up then linkDownDue l s else linkAligningDue l s) s

/-- The links' due steps and the highways' restorations. -/
def symbolDue (s : State) : State :=
  let s := forEach restoreHighway tieNumbers s
  linkDue .m (linkDue .b (linkDue .a s))

/-- Every step that is due is taken: no other step comes before them but a power-on reset (R58, R71; log entries 2,
21). -/
def settle (s : State) : State := symbolDue (startDue (workDue (beginWork (startUpLoad s))))

/-- Nothing is due. -/
def Quiet (s : State) : Prop := settle s = s

/-! ## The start of a frame -/

/-- The station codes of a frame as the buffer holds them: no idle code listed, no slot beyond the part's. -/
def stationCodes : List (Nat × Code) → Table Code → Table Code
  | [], t => t
  | (k, c) :: rest, t => stationCodes rest (if k < Config.stationSlots then Table.putCode t k c else t)

/-- The engine one frame on (R32). -/
def Engine.frame (e : Engine) : Engine := { e with remaining := e.remaining - 1 }

/-- A frame start, up to the beginning of its processing: the codes taken become the frame buffer, the count rises, each
tie highway delivers, slips are reported, and every timer that counts frames moves (R1, R3, R8, R9, R11, R26, R32,
R59). -/
def beginFrame (o : FrameOps) (s : State) : State :=
  let deliveries := s.highways.map Highway.deliver
  let reads := deliveries.map Prod.snd
  raiseSlips 0 reads
    { s with
      frameCount := s.frameCount + 1,
      buffer := s.reading,
      reading := { station := stationCodes o.codes [], tie := reads },
      highways := deliveries.map Prod.fst,
      nonce := s.nonce.map nonceStep,
      engine := s.engine.map Engine.frame,
      exts := Table.mapAll s.exts Ext.frame,
      work := { held := true, surveyLater := o.surveyLater, surveyOwed := none } }

end Sys2Proof.Machine
end

