-- ==== Sys2Proof/Machine/LinkSteps.lean ====
section
/-! DEFINITION. The meanings of the link symbols and frames (10.1 to 10.3), and of READ_PART, SET_LINK and SET_EVENTS. -/

namespace Sys2Proof.Machine

/-- A port changed by a symbol or a frame, once the start-up load has ended (R166). -/
def onLoadedPort (l : Link) (f : Port → Port) (s : State) : State := whenLoaded (fun s => s.onPort l f) (settle s)

/-- ALIGN_RECEIVED (R162, R163). -/
def execAlignReceived (l : Link) (s : State) : Host.Outcome State Fault Refusal :=
  .next (onLoadedPort l Port.alignSymbol s)

/-- LINK_ALIGNING (R162). -/
def execLinkAligning (l : Link) (s : State) : Host.Outcome State Fault Refusal :=
  .next (whenLoaded (linkAligningDue l) s)

/-- START_RECEIVED (R162, R163, R165). -/
def execStartReceived (l : Link) (s : State) : Host.Outcome State Fault Refusal :=
  .next (whenLoaded (startSymbol l) (settle s))

/-- OTHER_SYMBOL_RECEIVED (R162, R163, R167). -/
def execOtherSymbolReceived (l : Link) (sym : OtherSymbol) (s : State) : Host.Outcome State Fault Refusal :=
  .next (onLoadedPort l (fun p => p.otherSymbol sym) s)

/-- LINK_DOWN (R163, R164). -/
def execLinkDown (l : Link) (s : State) : Host.Outcome State Fault Refusal := .next (whenLoaded (linkDownDue l) s)

/-- HOLD_ON_RECEIVED (R169). -/
def execHoldOnReceived (l : Link) (s : State) : Host.Outcome State Fault Refusal :=
  .next (onLoadedPort l (fun p => p.holdSymbol true) s)

/-- HOLD_OFF_RECEIVED (R169). -/
def execHoldOffReceived (l : Link) (s : State) : Host.Outcome State Fault Refusal :=
  .next (onLoadedPort l (fun p => p.holdSymbol false) s)

/-- COMMAND_FRAME_RECEIVED (R162, R163, R167). -/
def execCommandFrameReceived (l : Link) (f : List Byte) (s : State) : Host.Outcome State Fault Refusal :=
  .next (onLoadedPort l (fun p => p.wholeFrame f) s)

/-- OUTBOUND_FRAME_START (R169, R170). -/
def execOutboundFrameStart (l : Link) (s : State) : Host.Outcome State Fault Refusal :=
  let s := settle s
  .next (s.onPort l fun p => p.begin s.frameCount)

/-- BAD_FRAME_COMMAND: a taken frame that R185 refuses completes at once with BAD_FRAME. -/
def execBadFrameCommand (l : Link) (f : List Byte) (s : State) : Host.Outcome State Fault Refusal :=
  let s := settle s
  if badFrame f = true ∧ f ≠ [] then
    match (s.port l).take f with
    | none => .next s
    | some p => answerCommand l (frameKind f) (frameTag f) (refuse .badFrame (s.setPort l p))
  else .next s

/-- A command's meaning: everything due is taken, then the command is taken by its port and carried out by its owner. -/
def command (i : Instr) (s : State) (owner : State → Reply) : Host.Outcome State Fault Refusal :=
  match encodeOperands i with
  | some (l, kind, tag, ops) => takeCommand l kind tag ops (settle s) owner
  | none => .next s

/-- READ_PART's answer (R174). -/
def ownReadPart (l : Link) (s : State) : Reply :=
  .done .ok
    (num8 Config.family ++ num16 Config.part ++ num8 Config.revision ++ bytes32 s.startCount ++ linkByte l
      ++ num16 Config.extensions ++ num16 Config.paths ++ num16 Config.contexts ++ num16 Config.bridges
      ++ num16 Config.legsPerBridge ++ num16 Config.legPool ++ num16 Config.surveyEntries ++ num16 Config.commandQueue
      ++ num16 Config.eventQueue) s

/-- READ_PART (R174). -/
def execReadPart (l : Link) (t : Byte) (s : State) : Host.Outcome State Fault Refusal :=
  command (.readPart l t) s (ownReadPart l)

/-- SET_LINK's answer: the threshold clamped and written, the own hold set against the queue (R167). -/
def ownSetLink (l : Link) (x : Word16) (s : State) : Reply :=
  let n := clampTo 4 15 x.toNat
  .done .ok (num16 n)
    (s.onPort l fun p => Port.setOwnHold { p with threshold := n } (decide (n ≤ p.queue.length)))

/-- SET_LINK (R167). -/
def execSetLink (l : Link) (t : Byte) (x : Word16) (s : State) : Host.Outcome State Fault Refusal :=
  command (.setLink l t x) s (ownSetLink l x)

/-- SET_EVENTS's answer (R171). -/
def ownSetEvents (l : Link) (o : EnableOps) (s : State) : Reply :=
  match readEnableFlags o with
  | some e => .done .ok e.bytes (s.onPort l fun p => { p with enables := e })
  | none => refuse .badOperand s

/-- SET_EVENTS (R171). -/
def execSetEvents (l : Link) (t : Byte) (o : EnableOps) (s : State) : Host.Outcome State Fault Refusal :=
  command (.setEvents l t o) s (ownSetEvents l o)

end Sys2Proof.Machine
end

