-- ==== Sys2Proof/Machine/PathCommands.lean ====
section
/-! DEFINITION. The meanings of OPEN_TIE, CLEAR_PATH, READ_PATH and RESET_TRAFFIC (05). -/

namespace Sys2Proof.Machine

/-- OPEN_TIE's operands as read: station slot, tie slot, PRIVATE or not (R73). -/
def readOpenTieOps (o : OpenTieOps) : Option (Nat × Nat × Bool) := do
  let station ← below Config.stationSlots o.station.toNat
  let priv ← yesNo o.privacy
  pure (station, o.tie.toNat, priv)

/-- OPEN_TIE's refusal, in the order of its checks (R74, R75), or the extension it opens for. -/
def checkOpenTie (station tie : Nat) (priv : Bool) (s : State) : Except Result Nat :=
  if s.stationFree station && s.tieFree tie then
    match Table.find s.slotMap station with
    | none => .error .noExtension
    | some e =>
      if (s.ext e).isAdmitted then
        match tieRefusal (s.ext e).access priv with
        | some why => .error why
        | none => if priv && s.freeCtx.isNone then .error .noContext else .ok e
      else .error .notAdmitted
  else .error .slotInUse

/-- A context is allocated to a path that is PRIVATE: the lowest free one; answers the path's privacy (R77, R91). -/
def allocate (priv : Bool) (id tie : Nat) (k : KeyBlock) (t : Timing) (s : State) : State × Privacy :=
  if priv then
    match s.freeCtx with
    | some i => (s.setCtx i (openContext s id tie k t), .priv i)
    | none => (s, .clear)
  else (s, .clear)

/-- An OPEN_TIE that has passed its checks opens the path in one operation (R76). -/
def openTiePath (l : Link) (id station e tie : Nat) (priv : Bool) (k : KeyBlock) (t : Timing) (s : State) : Reply :=
  let x := allocate priv id tie k t s
  .done .ok (num16 id ++ bytes32 s.frameCount ++ privateBytes x.2.ctx t)
    (writePath id { kind := .tie station e tie x.2, controller := .control l, opened := s.frameCount } x.1)

/-- OPEN_TIE's answer (R73 to R76). -/
def ownOpenTie (l : Link) (o : OpenTieOps) (s : State) : Reply :=
  match readOpenTieOps o with
  | none => refuse .badOperand s
  | some (station, tie, priv) =>
    match checkOpenTie station tie priv s with
    | .error why => refuse why s
    | .ok e =>
      match s.freePath with
      | none => .stops .noFreePathRecord
      | some id => openTiePath l id station e tie priv o.keys (takeTiming o.timing) s

/-- OPEN_TIE (R73 to R76). -/
def execOpenTie (l : Link) (t : Byte) (o : OpenTieOps) (s : State) : Host.Outcome State Fault Refusal :=
  command (.openTie l t o) s (ownOpenTie l o)

/-- A path named by id and optional stamp: BAD_OPERAND, then NO_PATH (R83, R102). -/
def namedPath (r : PathRefOps) (s : State) : Except Result (Nat × Path) :=
  match below Config.paths r.path.toNat, optValue r.stamp with
  | some id, some stamp =>
    match Table.find s.paths id with
    | some p => if stampMatches stamp p.opened then .ok (id, p) else .error .noPath
    | none => .error .noPath
  | _, _ => .error .badOperand

/-- CLEAR_PATH's answer (R83, R84). -/
def ownClearPath (l : Link) (o : PathRefOps) (s : State) : Reply :=
  match namedPath o s with
  | .error why => refuse why s
  | .ok (id, p) =>
    if p.controller.mayClear l then .done .ok (num16 id ++ optNum8 p.kind.ctx) (clearPath id .command s)
    else refuse .notController s

/-- CLEAR_PATH (R83, R84). -/
def execClearPath (l : Link) (t : Byte) (o : PathRefOps) (s : State) : Host.Outcome State Fault Refusal :=
  command (.clearPath l t o) s (ownClearPath l o)

/-- The path a READ_PATH names, by path id, station slot or tie slot (R87). -/
def readPathName (o : ReadPathOps) (s : State) : Except Result Nat :=
  let n := o.number.toNat
  if o.form = 0 then (if n < Config.paths then .ok n else .error .badOperand)
  else if o.form = 1 then
    if n < Config.stationSlots then
      match Table.find s.stationOcc n with
      | some id => .ok id
      | none => .error .noPath
    else .error .badOperand
  else if o.form = 2 then
    if n < Config.tieSlots then
      match Table.find s.tieOcc n with
      | some id => .ok id
      | none => .error .noPath
    else .error .badOperand
  else .error .badOperand

/-- A path record as READ_PATH gives it (R87, R187). -/
def pathBytes (id : Nat) (p : Path) : List Byte :=
  num16 id ++ num8 p.kind.code ++ bytes32 p.opened ++ num16 (p.kind.station.getD 0) ++ num16 (p.kind.ext.getD 0)
    ++ num8 (p.kind.tieSlot.getD 0) ++ num8 ((p.kind.privacy.map Privacy.code).getD 0) ++ num8 (p.kind.ctx.getD 0)
    ++ num8 (p.kind.bridge.getD 0) ++ controllerBytes p.controller

/-- READ_PATH's answer (R87). -/
def ownReadPath (o : ReadPathOps) (s : State) : Reply :=
  match readPathName o s with
  | .error why => refuse why s
  | .ok id =>
    match Table.find s.paths id with
    | some p => .done .ok (pathBytes id p) s
    | none => refuse .noPath s

/-- READ_PATH (R87). -/
def execReadPath (l : Link) (t : Byte) (o : ReadPathOps) (s : State) : Host.Outcome State Fault Refusal :=
  command (.readPath l t o) s (ownReadPath o)

/-- The survey as RESET_TRAFFIC leaves it: a pass in progress starts again at entry 1 (R88, R160). -/
def Survey.restart (v : Survey) : Survey :=
  match v.state with
  | .measuring .. => { v with state := .measuring 1 0 0 0 }
  | .stopped | .standby => v

/-- Every path, occupancy entry, context, leg and bridge is freed, without events, and no extension has a path in use
(R88). -/
def clearTraffic (s : State) : State :=
  let exts := s.exts.filterMap fun x =>
    let e := { x.2 with path := none }
    if e = Ext.vacant then none else some (x.1, e)
  { s with paths := [], stationOcc := [], tieOcc := [], ctxs := [], bridges := [], exts := exts,
           survey := s.survey.restart }

/-- RESET_TRAFFIC's answer: the path records and bridges that were in use (R88). -/
def ownResetTraffic (s : State) : Reply :=
  .done .ok (num16 s.paths.length ++ num8 s.bridges.length) (clearTraffic s)

/-- RESET_TRAFFIC (R88). -/
def execResetTraffic (l : Link) (t : Byte) (s : State) : Host.Outcome State Fault Refusal :=
  command (.resetTraffic l t) s ownResetTraffic

end Sys2Proof.Machine
end

