-- ==== Sys2Proof/Machine/PrivacyCommands.lean ====
section
/-! DEFINITION. The meanings of STAGE_KEY, READ_CONTEXT, RESYNC_TX, SET_GUARD and SET_PRIVACY_DEFAULTS (06, 07). -/

namespace Sys2Proof.Machine

/-- The context of a path the command's link controls: BAD_OPERAND, NO_PATH, NOT_CONTROLLER, NOT_PRIVATE in that order
(R102). A path whose context is missing, which R77 rules out, is answered as one that has none. -/
def controlledContext (l : Link) (r : PathRefOps) (s : State) : Except Result (Nat × Context) :=
  match namedPath r s with
  | .error why => .error why
  | .ok (_, p) =>
    if p.controller.isLink l then
      match p.kind.ctx with
      | some i =>
        match Table.find s.ctxs i with
        | some c => .ok (i, c)
        | none => .error .notPrivate
      | none => .error .notPrivate
    else .error .notController

/-- Seconds of a number of frames. -/
def inSeconds (n : Nat) : Nat := n / Config.framesPerSecond

/-- The half of a STAGE_KEY as read: bad, absent, or present with its optional epoch length and lead (R186). -/
def readHalfOps (h : HalfOps) : Option (Option (Option Word16 × Option Word16)) :=
  if h.present = 0 then some none
  else if h.present = 1 then do
    let epoch ← optValue h.epoch
    let lead ← optValue h.lead
    pure (some (epoch, lead))
  else none

/-- A staged half: the epoch length if one was given, and the lead if one was given or if the lead in force had to be
clamped (R103). -/
def stageHalf (h : HalfOps) (epoch lead : Option Word16) (d : DirState) : Staged :=
  let given := epoch.map fun x => clampTo 1 300 x.toNat
  let effective := given.getD (inSeconds d.length)
  let takenLead :=
    match lead with
    | some x => some (clampTo 0 (effective - 1) x.toNat)
    | none =>
      match given with
      | some n => if n ≤ inSeconds d.lead then some (n - 1) else none
      | none => none
  { seed := h.seed, step := h.step, length := given.map seconds, lead := takenLead.map seconds }

/-- The staged half of a direction as a body carries it: presence, effective epoch length and lead (R103, R104, R107). -/
def stagedBytes (d : DirState) : List Byte :=
  match d.staged with
  | some h => [1] ++ num16 (inSeconds (h.length.getD d.length)) ++ num16 (inSeconds (h.lead.getD d.lead))
  | none => [0] ++ num16 0 ++ num16 0

/-- A direction with its staged half replaced by what a STAGE_KEY carries for it (R104). -/
def DirState.stage (d : DirState) (h : HalfOps) (x : Option (Option Word16 × Option Word16)) : DirState :=
  { d with staged := x.map fun y => stageHalf h y.1 y.2 d }

/-- STAGE_KEY's answer (R102 to R104). -/
def ownStageKey (l : Link) (o : StageKeyOps) (s : State) : Reply :=
  match readHalfOps o.tx, readHalfOps o.rx with
  | some tx, some rx =>
    match controlledContext l o.ref s with
    | .error why => refuse why s
    | .ok (i, c) =>
      let was := c.tx.dir.staged.isSome || c.rx.dir.staged.isSome
      let c' := (c.setDir .tx (c.tx.dir.stage o.tx tx)).setDir .rx (c.rx.dir.stage o.rx rx)
      .done (if was then .replaced else .ok) (num8 i ++ stagedBytes c'.tx.dir ++ stagedBytes c'.rx.dir) (s.setCtx i c')
  | _, _ => refuse .badOperand s

/-- STAGE_KEY (R102 to R104). -/
def execStageKey (l : Link) (t : Byte) (o : StageKeyOps) (s : State) : Host.Outcome State Fault Refusal :=
  command (.stageKey l t o) s (ownStageKey l o)

/-- A direction's index, epoch number, epoch length and lead in force, and its staged half, as READ_CONTEXT gives them
(R107). -/
def directionBytes (d : DirState) : List Byte :=
  num32 d.f ++ num32 d.epoch ++ num16 (inSeconds d.length) ++ num16 (inSeconds d.lead) ++ stagedBytes d

/-- Whether the path that holds a context is a tie leg: 0 for a TIE path, 1 for a leg (R107). -/
def legIndication (s : State) (c : Context) : List Byte :=
  match Table.find s.paths c.path with
  | some p => flag8 (decide (p.kind.bridge.isSome = true))
  | none => [0]

/-- A context as READ_CONTEXT gives it, without keys and generators (R107). -/
def contextBytes (s : State) (i : Nat) (c : Context) : List Byte :=
  num8 i ++ num16 c.path ++ num8 c.tieSlot ++ legIndication s c
    ++ (match c.tx.phase with
        | .preamble n => [0] ++ num8 n
        | .running => [1] ++ num8 0)
    ++ directionBytes c.tx.dir
    ++ (match c.rx.phase with
        | .hunt h => [0] ++ num8 h.run ++ num32 h.elapsed
        | .running => [1] ++ num8 0 ++ num32 0)
    ++ directionBytes c.rx.dir
    ++ num32 c.rx.guardSum ++ num8 c.rx.guardCount ++ num8 c.rx.strikes ++ num16 c.ceiling ++ num16 c.strikesLimit
    ++ flag8 c.guardOn ++ c.flags.bytes

/-- READ_CONTEXT's answer: the context as it stands, and its four flags cleared (R107). -/
def ownReadContext (x : Byte) (s : State) : Reply :=
  match below Config.contexts x.toNat with
  | none => refuse .badOperand s
  | some i =>
    match Table.find s.ctxs i with
    | none => refuse .noPath s
    | some c => .done .ok (contextBytes s i c) (s.setCtx i { c with flags := Attention.clear })

/-- READ_CONTEXT (R107). -/
def execReadContext (l : Link) (t : Byte) (x : Byte) (s : State) : Host.Outcome State Fault Refusal :=
  command (.readContext l t x) s (ownReadContext x)

/-- The transmit direction restarted in PREAMBLE (R95, R111). -/
def TxState.resync (t : TxState) : TxState := { phase := .preamble 0, dir := t.dir.rest }

/-- RESYNC_TX's answer: the phase, epoch number and index the direction had (R111). -/
def ownResyncTx (l : Link) (o : PathRefOps) (s : State) : Reply :=
  match controlledContext l o s with
  | .error why => refuse why s
  | .ok (i, c) =>
    let phase := match c.tx.phase with
      | .preamble _ => num8 0
      | .running => num8 1
    .done .ok (num8 i ++ phase ++ num32 c.tx.dir.epoch ++ num32 c.tx.dir.f) (s.setCtx i { c with tx := c.tx.resync })

/-- RESYNC_TX (R111). -/
def execResyncTx (l : Link) (t : Byte) (o : PathRefOps) (s : State) : Host.Outcome State Fault Refusal :=
  command (.resyncTx l t o) s (ownResyncTx l o)

/-- SET_GUARD's answer: the settings clamped and written, the window and strikes cleared (R123). -/
def ownSetGuard (l : Link) (o : SetGuardOps) (s : State) : Reply :=
  match yesNo o.enabled with
  | none => refuse .badOperand s
  | some on =>
    match controlledContext l o.ref s with
    | .error why => refuse why s
    | .ok (i, c) =>
      let ceiling := clampTo 64 3952 o.ceiling.toNat
      let limit := clampTo 1 15 o.limit.toNat
      .done .ok (num8 i ++ num16 ceiling ++ num16 limit ++ flag8 on)
        (s.setCtx i { c with ceiling := ceiling, strikesLimit := limit, guardOn := on,
                             rx := { c.rx with guardSum := 0, guardCount := 0, strikes := 0 } })

/-- SET_GUARD (R123). -/
def execSetGuard (l : Link) (t : Byte) (o : SetGuardOps) (s : State) : Host.Outcome State Fault Refusal :=
  command (.setGuard l t o) s (ownSetGuard l o)

/-- SET_PRIVACY_DEFAULTS's answer (R124). -/
def ownSetPrivacyDefaults (o : ThreeOps) (s : State) : Reply :=
  let hunt := clampTo 1 30 o.first.toNat
  let ceiling := clampTo 64 3952 o.second.toNat
  let limit := clampTo 1 15 o.third.toNat
  .done .ok (num16 hunt ++ num16 ceiling ++ num16 limit)
    { s with huntTime := hunt, guardCeiling := ceiling, guardStrikes := limit }

/-- SET_PRIVACY_DEFAULTS (R124). -/
def execSetPrivacyDefaults (l : Link) (t : Byte) (o : ThreeOps) (s : State) : Host.Outcome State Fault Refusal :=
  command (.setPrivacyDefaults l t o) s (ownSetPrivacyDefaults o)

end Sys2Proof.Machine
end

