-- ==== Sys2Proof/Machine/BridgeCommands.lean ====
section
/-! DEFINITION. The meanings of the conference bridge commands (08). -/

namespace Sys2Proof.Machine

/-- A bridge as OPEN_BRIDGE opens it: no leg, no talker, window count 0 (R129). -/
def Bridge.opening (l : Link) (now : Word32) (threshold : Nat) : Bridge :=
  { controller := .control l, opened := now, threshold := threshold, staged := none, windowCount := 0, talker := none,
    legs := [] }

/-- OPEN_BRIDGE's answer: the lowest FREE bridge opened; a threshold not given is 200, one above 3952 is clamped (R129). -/
def ownOpenBridge (l : Link) (o : Opt 16) (s : State) : Reply :=
  match optValue o with
  | none => refuse .badOperand s
  | some given =>
    let threshold := (given.map fun x => clampTo 0 3952 x.toNat).getD 200
    match s.freeBridge with
    | none => refuse .noBridge s
    | some b =>
      .done .ok (num8 b ++ bytes32 s.frameCount ++ num16 threshold)
        { s with bridges := Table.put s.bridges b (Bridge.opening l s.frameCount threshold) }

/-- OPEN_BRIDGE (R129). -/
def execOpenBridge (l : Link) (t : Byte) (o : Opt 16) (s : State) : Host.Outcome State Fault Refusal :=
  command (.openBridge l t o) s (ownOpenBridge l o)

/-- A bridge named by id and optional stamp: BAD_OPERAND, then NO_BRIDGE (R131, R135, R136). -/
def namedBridge (r : BridgeRefOps) (s : State) : Except Result (Nat × Bridge) :=
  match below Config.bridges r.bridge.toNat, optValue r.stamp with
  | some b, some stamp =>
    match Table.find s.bridges b with
    | some x => if stampMatches stamp x.opened then .ok (b, x) else .error .noBridge
    | none => .error .noBridge
  | _, _ => .error .badOperand

/-- A bridge the command's link controls (R131, R135). -/
def controlledBridge (l : Link) (r : BridgeRefOps) (s : State) : Except Result (Nat × Bridge) :=
  match namedBridge r s with
  | .error why => .error why
  | .ok (b, x) => if x.controller.isLink l then .ok (b, x) else .error .notController

/-- What is to join a bridge: a station slot, or a tie slot CLEAR or PRIVATE (R130). -/
inductive NewLeg where
  | station (slot : Nat)
  | tie (slot : Nat) (priv : Bool)
  deriving DecidableEq, Repr

/-- ADD_LEG's leg as read; operands that do not apply are ignored (R130, R186). -/
def readNewLeg (o : AddLegOps) : Option NewLeg :=
  if o.kind = 0 then do
    let slot ← below Config.stationSlots o.station.toNat
    pure (.station slot)
  else if o.kind = 1 then do
    let priv ← yesNo o.privacy
    pure (.tie o.tie.toNat priv)
  else none

/-- The tie accesses of the extensions of a bridge's station legs, read through their paths (R132). -/
def stationAccesses (s : State) (x : Bridge) : List TieAccess :=
  x.legs.filterMap fun g =>
    match Table.find s.paths g.path with
    | some p => p.kind.ext.map fun e => (s.ext e).access
    | none => none

/-- A bridge holds a tie leg; a CLEAR tie leg. -/
def Leg.isTie (g : Leg) : Bool :=
  match g.slot with
  | .station _ => false
  | .tie _ _ => true

def Leg.isClearTie (g : Leg) : Bool :=
  match g.slot with
  | .station _ | .tie _ (.priv _) => false
  | .tie _ .clear => true

/-- The class rule and the privacy rule of a station leg (R132). -/
def stationLegRefusal (x : Bridge) (e : Ext) : Option Result :=
  if !e.conference || (decide (e.access = .none) && x.legs.any Leg.isTie) then some .class_
  else if decide (e.access = .privateOnly) && x.legs.any Leg.isClearTie then some .privacyConflict
  else none

/-- The class rule and the privacy rule of a tie leg (R132). -/
def tieLegRefusal (s : State) (x : Bridge) (priv : Bool) : Option Result :=
  if (stationAccesses s x).any fun a => decide (a = .none) then some .class_
  else if !priv && (stationAccesses s x).any (fun a => decide (a = .privateOnly)) then some .privacyConflict
  else none

/-- ADD_LEG's checks from 3 on, for a bridge it may change (R131); answers the extension of a station leg. -/
def checkNewLeg (x : Bridge) (g : NewLeg) (s : State) : Except Result (Option Nat) :=
  if Config.legsPerBridge ≤ x.legs.length then .error .bridgeFull
  else if Config.legPool ≤ s.legsInUse then .error .noLeg
  else
    match g with
    | .station slot =>
      if s.stationFree slot then
        match Table.find s.slotMap slot with
        | none => .error .noExtension
        | some e =>
          if (s.ext e).isAdmitted then
            match stationLegRefusal x (s.ext e) with
            | some why => .error why
            | none => .ok (some e)
          else .error .notAdmitted
      else .error .slotInUse
    | .tie slot priv =>
      if s.tieFree slot then
        match tieLegRefusal s x priv with
        | some why => .error why
        | none => if priv && s.freeCtx.isNone then .error .noContext else .ok none
      else .error .slotInUse

/-- The leg's path kind and slot, and the state with its context allocated (R77, R78, R133). -/
def placeLeg (b id : Nat) (g : NewLeg) (e : Option Nat) (k : KeyBlock) (t : Timing) (s : State) :
    State × PathKind × LegSlot :=
  match g with
  | .station slot => (s, .bridgeStation slot (e.getD 0) b, .station slot)
  | .tie slot priv =>
    let x := allocate priv id slot k t s
    (x.1, .bridgeTie slot x.2 b, .tie slot x.2)

/-- An ADD_LEG that has passed its checks adds the leg in one operation (R78, R133). -/
def joinLeg (b : Nat) (x : Bridge) (id : Nat) (g : NewLeg) (e : Option Nat) (k : KeyBlock) (t : Timing) (gain : Nat)
    (mode : Mode) (s : State) : Reply :=
  let y := placeLeg b id g e k t s
  let p : Path := { kind := y.2.1, controller := x.controller, opened := s.frameCount }
  let leg : Leg := { path := id, slot := y.2.2, gain := gain, mode := mode, staged := none, sum := 0 }
  let s' := writePath id p y.1
  .done .ok
    (num16 id ++ bytes32 s.frameCount ++ num8 (x.legs.length + 1) ++ num8 gain ++ privateBytes y.2.1.ctx t)
    { s' with bridges := Table.put s'.bridges b { x with legs := x.legs ++ [leg] } }

/-- ADD_LEG's answer (R130 to R133). -/
def ownAddLeg (l : Link) (o : AddLegOps) (s : State) : Reply :=
  match readNewLeg o, legMode o.mode with
  | some g, some mode =>
    match controlledBridge l o.ref s with
    | .error why => refuse why s
    | .ok (b, x) =>
      match checkNewLeg x g s with
      | .error why => refuse why s
      | .ok e =>
        match s.freePath with
        | none => .stops .noFreePathRecord
        | some id => joinLeg b x id g e o.keys (takeTiming o.timing) (clampTo 0 32 o.gain.toNat) mode s
  | _, _ => refuse .badOperand s

/-- ADD_LEG (R130 to R133). -/
def execAddLeg (l : Link) (t : Byte) (o : AddLegOps) (s : State) : Host.Outcome State Fault Refusal :=
  command (.addLeg l t o) s (ownAddLeg l o)

/-- A leg of a bridge the command's link controls, with the path id checked first of all (R135). -/
def controlledLeg (l : Link) (r : BridgeRefOps) (path : Word16) (s : State) : Except Result (Nat × Bridge × Leg) :=
  match below Config.paths path.toNat with
  | none => .error .badOperand
  | some id =>
    match controlledBridge l r s with
    | .error why => .error why
    | .ok (b, x) =>
      match x.legs.find? fun g => decide (g.path = id) with
      | some g => .ok (b, x, g)
      | none => .error .noPath

/-- The context index of a leg's slot, if it is a PRIVATE tie slot. -/
def LegSlot.ctx : LegSlot → Option Nat
  | .station _ => none
  | .tie _ p => p.ctx

/-- REMOVE_LEG's answer (R135). -/
def ownRemoveLeg (l : Link) (o : RemoveLegOps) (s : State) : Reply :=
  match controlledLeg l o.ref o.path s with
  | .error why => refuse why s
  | .ok (_, _, g) => .done .ok (num16 g.path ++ optNum8 g.slot.ctx) (clearPath g.path .command s)

/-- REMOVE_LEG (R135). -/
def execRemoveLeg (l : Link) (t : Byte) (o : RemoveLegOps) (s : State) : Host.Outcome State Fault Refusal :=
  command (.removeLeg l t o) s (ownRemoveLeg l o)

/-- A leg with its staged values written, if it is the one on path `id` (R138). -/
def Leg.stage (id gain : Nat) (mode : Mode) (g : Leg) : Leg :=
  if g.path = id then { g with staged := some (gain, mode) } else g

/-- SET_LEG's answer (R138). DESIGN CHOICE: OK carries the gain and the mode taken as REPLACED does; R138 names "the
values taken" beside REPLACED alone (log entry 19). -/
def ownSetLeg (l : Link) (o : SetLegOps) (s : State) : Reply :=
  match legMode o.mode with
  | none => refuse .badOperand s
  | some mode =>
    match controlledLeg l o.ref o.path s with
    | .error why => refuse why s
    | .ok (b, x, g) =>
      let gain := clampTo 0 32 o.gain.toNat
      .done (if g.staged.isSome then .replaced else .ok) (num8 gain ++ num8 mode.code)
        { s with bridges := Table.put s.bridges b { x with legs := x.legs.map (Leg.stage g.path gain mode) } }

/-- SET_LEG (R138). -/
def execSetLeg (l : Link) (t : Byte) (o : SetLegOps) (s : State) : Host.Outcome State Fault Refusal :=
  command (.setLeg l t o) s (ownSetLeg l o)

/-- SET_TALKER's answer (R139). -/
def ownSetTalker (l : Link) (o : SetTalkerOps) (s : State) : Reply :=
  match controlledBridge l o.ref s with
  | .error why => refuse why s
  | .ok (b, x) =>
    let threshold := clampTo 0 3952 o.threshold.toNat
    .done (if x.staged.isSome then .replaced else .ok) (num16 threshold)
      { s with bridges := Table.put s.bridges b { x with staged := some threshold } }

/-- SET_TALKER (R139). -/
def execSetTalker (l : Link) (t : Byte) (o : SetTalkerOps) (s : State) : Host.Outcome State Fault Refusal :=
  command (.setTalker l t o) s (ownSetTalker l o)

/-- CLOSE_BRIDGE's answer (R136, R137). -/
def ownCloseBridge (l : Link) (o : BridgeRefOps) (s : State) : Reply :=
  match namedBridge o s with
  | .error why => refuse why s
  | .ok (b, x) =>
    if x.controller.mayClear l then .done .ok (num8 x.legs.length) (closeBridge b .bridgeClosed s)
    else refuse .notController s

/-- CLOSE_BRIDGE (R136, R137). -/
def execCloseBridge (l : Link) (t : Byte) (o : BridgeRefOps) (s : State) : Host.Outcome State Fault Refusal :=
  command (.closeBridge l t o) s (ownCloseBridge l o)

/-- A leg as READ_BRIDGE gives it (R144). -/
def legBytes (g : Leg) : List Byte :=
  num16 g.path
    ++ (match g.slot with
        | .station n => num16 n ++ [0] ++ [0] ++ [0]
        | .tie n p => num16 n ++ [1] ++ num8 p.code ++ num8 (p.ctx.getD 0))
    ++ num8 g.gain ++ num8 g.mode.code
    ++ (match g.staged with
        | some (gain, mode) => [1] ++ num8 gain ++ num8 mode.code
        | none => [0, 0, 0])
    ++ num32 g.sum

/-- A bridge as READ_BRIDGE gives it (R144, R187). -/
def bridgeBytes (b : Nat) (x : Bridge) : List Byte :=
  num8 b ++ bytes32 x.opened ++ controllerBytes x.controller ++ num16 x.threshold ++ optNum16 x.staged
    ++ num8 x.windowCount ++ optNum16 x.talker ++ num8 x.legs.length ++ writeMany legBytes x.legs

/-- READ_BRIDGE's answer (R144). -/
def ownReadBridge (x : Byte) (s : State) : Reply :=
  match below Config.bridges x.toNat with
  | none => refuse .badOperand s
  | some b =>
    match Table.find s.bridges b with
    | none => refuse .noBridge s
    | some y => .done .ok (bridgeBytes b y) s

/-- READ_BRIDGE (R144). -/
def execReadBridge (l : Link) (t : Byte) (x : Byte) (s : State) : Host.Outcome State Fault Refusal :=
  command (.readBridge l t x) s (ownReadBridge x)

end Sys2Proof.Machine
end

