-- ==== Sys2Proof/Machine/ExtensionCommands.lean ====
section
/-! DEFINITION. The meanings of the extension store, extension table and admission commands (03, 04). -/

namespace Sys2Proof.Machine

/-- SET_EXTENSION's answer: the checks, then a program of 16 frames (R36, R37). -/
def ownSetExtension (o : StoredOps) (s : State) : Reply :=
  match checkRecord o s with
  | .error why => refuse why s
  | .ok (i, r) => .waits (beginJob i (.program i r) s)

/-- SET_EXTENSION (R36, R37). -/
def execSetExtension (l : Link) (t : Byte) (o : StoredOps) (s : State) : Host.Outcome State Fault Refusal :=
  command (.setExtension l t o) s (ownSetExtension o)

/-- ERASE_EXTENSION's answer (R39). -/
def ownEraseExtension (x : Word16) (s : State) : Reply :=
  match below Config.extensions x.toNat with
  | none => refuse .badOperand s
  | some i =>
    if (s.ext i).isAdmitted || (s.ext i).challenge.isSome then refuse .inService s
    else .waits (beginJob i (.erase i) s)

/-- ERASE_EXTENSION (R39). -/
def execEraseExtension (l : Link) (t : Byte) (x : Word16) (s : State) : Host.Outcome State Fault Refusal :=
  command (.eraseExtension l t x) s (ownEraseExtension x)

/-- LOAD_EXTENSIONS's answer: the count checked, then the first entry's turn (R40, R41). -/
def ownLoadExtensions (o : LoadOps) (s : State) : Reply :=
  if o.count.toNat = 0 ∨ 16 < o.count.toNat then refuse .badOperand s
  else
    match loadTurn o.entries 0 s with
    | .over => .done .ok [] s
    | .refused why => .done .partial_ (partialBody o.entries 0 why) s
    | .begun s => .waits s

/-- LOAD_EXTENSIONS (R40, R41). -/
def execLoadExtensions (l : Link) (t : Byte) (o : LoadOps) (s : State) : Host.Outcome State Fault Refusal :=
  command (.loadExtensions l t o) s (ownLoadExtensions o)

/-- An extension's record as READ_EXTENSION gives it, without its secret (R43, 12.3). -/
def extensionBytes (i : Nat) (e : Ext) : List Byte :=
  num16 i ++ num8 e.standing.code ++ flag8 e.programming ++ flag8 e.expired ++ num8 e.failures
    ++ (match e.standing with
        | .locked n => num32 n
        | .vacant | .idle | .admitted _ _ => num32 0)
    ++ (match e.challenge with
        | some c => [1] ++ bytes32 c.nonce ++ linkByte c.issuer ++ bytes32 c.expiry
        | none => [0] ++ num32 0 ++ num8 0 ++ num32 0)
    ++ (match e.standing with
        | .admitted since by_ => [1] ++ bytes32 since ++ linkByte by_
        | .vacant | .idle | .locked _ => [0] ++ num32 0 ++ num8 0)
    ++ optNum16 e.path
    ++ (match e.stored with
        | some r => [1] ++ num8 r.access.code ++ flag8 r.conference ++ num16 r.slot
        | none => [0] ++ num8 0 ++ num8 0 ++ num16 0)

/-- READ_EXTENSION's answer (R43). -/
def ownReadExtension (x : Word16) (s : State) : Reply :=
  match below Config.extensions x.toNat with
  | none => refuse .badOperand s
  | some i => .done .ok (extensionBytes i (s.ext i)) s

/-- READ_EXTENSION (R43). -/
def execReadExtension (l : Link) (t : Byte) (x : Word16) (s : State) : Host.Outcome State Fault Refusal :=
  command (.readExtension l t x) s (ownReadExtension x)

/-- Numbers of two bytes one after another. -/
def numList16 (l : List Nat) : List Byte := writeMany num16 l

/-- COLLECT_CHANGES's answer: the lowest 32 indices of the link's change set, removed and returned (R45). -/
def ownCollectChanges (l : Link) (s : State) : Reply :=
  let all := (s.port l).changes
  let taken := all.take 32
  let left := all.drop 32
  .done .ok (num8 taken.length ++ numList16 taken ++ flag8 (!left.isEmpty))
    (s.onPort l fun p => { p with changes := left })

/-- COLLECT_CHANGES (R45). -/
def execCollectChanges (l : Link) (t : Byte) (s : State) : Host.Outcome State Fault Refusal :=
  command (.collectChanges l t) s (ownCollectChanges l)

/-- CHALLENGE's refusal, in the order of its checks (R50). -/
def challengeRefusal (e : Ext) : Option Result :=
  if e.programming then some .storeBusy
  else
    match e.standing with
    | .vacant => some .noSecret
    | .locked _ => some .locked
    | .idle | .admitted _ _ => if e.challenge.isSome then some .challengePending else none

/-- CHALLENGE's answer: the current nonce with an expiry, and the generator stepped (R27, R50, R51). -/
def ownChallenge (l : Link) (x : Word16) (s : State) : Reply :=
  match below Config.extensions x.toNat with
  | none => refuse .badOperand s
  | some i =>
    match challengeRefusal (s.ext i) with
    | some why => refuse why s
    | none =>
      match s.nonce with
      | none => .stops .nonceNotSeeded
      | some n =>
        let expiry := s.after (seconds s.challengeWindow)
        let c : Challenge := { nonce := n, issuer := l, expiry := expiry }
        .done .ok (bytes32 n ++ bytes32 expiry)
          (State.setExt { s with nonce := some (nonceStep n) } i { s.ext i with challenge := some c, expired := false })

/-- CHALLENGE (R50, R51). -/
def execChallenge (l : Link) (t : Byte) (x : Word16) (s : State) : Host.Outcome State Fault Refusal :=
  command (.challenge l t x) s (ownChallenge l x)

/-- A matching ANSWER (R54). -/
def answerMatch (l : Link) (i : Nat) (c : Challenge) (s : State) : Reply :=
  let e := { s.ext i with challenge := none, failures := 0, expired := false }
  if e.isAdmitted then .done .ok (num8 2 ++ num8 1) (s.setExt i e)
  else
    .done .ok (num8 2 ++ num8 0)
      (raiseOn (.admitted i l) (challengeLinks s c.issuer)
        (noteChange i (s.setExt i { e with standing := .admitted s.frameCount l })))

/-- A mismatching ANSWER (R55, R57). -/
def answerMismatch (i : Nat) (c : Challenge) (s : State) : Reply :=
  let n := (s.ext i).failures + 1
  .done .wrongAnswer (num8 n ++ flag8 (decide (s.failLimit ≤ n))) (failChallenge i c .wrongAnswer s)

/-- ANSWER's answer (R53); the expected response comes from the challenge's nonce and the working copy's secret
(R23, R24). -/
def ownAnswer (l : Link) (o : AnswerOps) (s : State) : Reply :=
  match below Config.extensions o.ext.toNat with
  | none => refuse .badOperand s
  | some i =>
    match (s.ext i).challenge with
    | none => refuse (if (s.ext i).expired then .tooLate else .noChallenge) s
    | some c =>
      match (s.ext i).stored with
      | none => .stops .challengeWithoutSecret
      | some r =>
        if o.response = expectedResponse r.seed r.step c.nonce then answerMatch l i c s else answerMismatch i c s

/-- ANSWER (R53 to R55). -/
def execAnswer (l : Link) (t : Byte) (o : AnswerOps) (s : State) : Host.Outcome State Fault Refusal :=
  command (.answer l t o) s (ownAnswer l o)

/-- RELEASE's answer: an ADMITTED extension becomes IDLE through the cascade (R61, R62). -/
def ownRelease (x : Word16) (s : State) : Reply :=
  match below Config.extensions x.toNat with
  | none => refuse .badOperand s
  | some i =>
    let e := s.ext i
    if e.isAdmitted then
      .done .ok [] (cascade i .release callLinks e.path (noteChange i (s.setExt i { e with standing := .idle })))
    else refuse .notAdmitted s

/-- RELEASE (R61). -/
def execRelease (l : Link) (t : Byte) (x : Word16) (s : State) : Host.Outcome State Fault Refusal :=
  command (.release l t x) s (ownRelease x)

/-- UNLOCK's answer (R60). -/
def ownUnlock (x : Word16) (s : State) : Reply :=
  match below Config.extensions x.toNat with
  | none => refuse .badOperand s
  | some i =>
    match (s.ext i).standing with
    | .locked _ => .done .ok (num8 1) (endLockout i .command s)
    | .vacant | .idle | .admitted _ _ => .done .ok (num8 (s.ext i).standing.code) s

/-- UNLOCK (R60). -/
def execUnlock (l : Link) (t : Byte) (x : Word16) (s : State) : Host.Outcome State Fault Refusal :=
  command (.unlock l t x) s (ownUnlock x)

/-- SET_ADMISSION's answer: the three values clamped and written, the failure counts adjusted (R64, R65). -/
def ownSetAdmission (o : ThreeOps) (s : State) : Reply :=
  let limit := clampTo 1 7 o.first.toNat
  let window := clampTo 1 15 o.second.toNat
  let lockout := clampTo 10 600 o.third.toNat
  .done .ok (num16 limit ++ num16 window ++ num16 lockout)
    { s with failLimit := limit, challengeWindow := window, lockoutTime := lockout,
             exts := Table.mapAll s.exts (Ext.adjust limit) }

/-- SET_ADMISSION (R64, R65). -/
def execSetAdmission (l : Link) (t : Byte) (o : ThreeOps) (s : State) : Host.Outcome State Fault Refusal :=
  command (.setAdmission l t o) s (ownSetAdmission o)

end Sys2Proof.Machine
end

