-- ==== Sys2Proof/Machine/FrameSteps.lean ====
section
/-! DEFINITION. The meanings of the reset, start-up, frame and tie highway steps, and of the steps the part takes by
itself. A step that is not due does not happen: the state stays as it is (log entry 2). -/

namespace Sys2Proof.Machine

/-- POWER_ON_RESET (R32, R166). DESIGN CHOICE: it takes no due step first, so a store operation whose completion is due
and has not been taken is interrupted; R32 does not say which comes first in frame n + 16 (log entry 21). -/
def execPowerOnReset (s : State) : Host.Outcome State Fault Refusal := .next (powerOnReset s)

/-- START_UP_LOAD (R33, R34). -/
def execStartUpLoad (s : State) : Host.Outcome State Fault Refusal := .next (startUpLoad s)

/-- START_COUNT_PROGRAM_DONE (R34, R25). -/
def execStartCountProgramDone (s : State) : Host.Outcome State Fault Refusal := .next (startCountDone (workDue s))

/-- FRAME_START: what the last frame left due is taken, then the frame begins; its processing follows at once or after
steps due at its start, as the sender says (R1, R71, R72). -/
def execFrameStart (o : FrameOps) (s : State) : Host.Outcome State Fault Refusal :=
  let s := beginFrame o (settle s)
  .next (if o.workFirst then beginWork s else s)

/-- PREAMBLE_END (R95, R110). -/
def execPreambleEnd (i : Nat) (s : State) : Host.Outcome State Fault Refusal := .next (preambleEnd i (beginWork s))

/-- KEY_DUE_WARNING (R101). -/
def execKeyDueWarning (i : Nat) (d : Dir) (s : State) : Host.Outcome State Fault Refusal :=
  .next (keyDueWarning i d (beginWork s))

/-- ROLLOVER (R98 to R100). -/
def execRollover (i : Nat) (d : Dir) (s : State) : Host.Outcome State Fault Refusal :=
  .next (rollover i d (beginWork s))

/-- HUNT_REPORT (R115). -/
def execHuntReport (i : Nat) (s : State) : Host.Outcome State Fault Refusal := .next (huntReport i (beginWork s))

/-- GUARD_WINDOW_END (R121, R122). -/
def execGuardWindowEnd (i : Nat) (s : State) : Host.Outcome State Fault Refusal :=
  .next (guardWindowEnd i (beginWork s))

/-- BRIDGE_WINDOW_BOUNDARY (R142). -/
def execBridgeWindowBoundary (b : Nat) (s : State) : Host.Outcome State Fault Refusal :=
  .next (bridgeBoundary b (beginWork s))

/-- SURVEY_ENTRY_COMPLETE (R152). -/
def execSurveyEntryComplete (s : State) : Host.Outcome State Fault Refusal := .next (surveyDue (beginWork s))

/-- CHALLENGE_EXPIRY (R56). The steps of a frame's work that has begun come first (R72). -/
def execChallengeExpiry (i : Nat) (s : State) : Host.Outcome State Fault Refusal :=
  .next (challengeExpiry i (workDue s))

/-- LOCKOUT_EXPIRY (R59). -/
def execLockoutExpiry (i : Nat) (s : State) : Host.Outcome State Fault Refusal := .next (lockoutExpiry i (workDue s))

/-- ORPHAN_DEADLINE (R179). -/
def execOrphanDeadline (r : OrphanRef) (s : State) : Host.Outcome State Fault Refusal :=
  .next (orphanDeadline r (workDue s))

/-- PROGRAM_COMPLETE (R38). -/
def execProgramComplete (s : State) : Host.Outcome State Fault Refusal := .next (programComplete (workDue s))

/-- ERASE_COMPLETE (R39). -/
def execEraseComplete (s : State) : Host.Outcome State Fault Refusal := .next (eraseComplete (workDue s))

/-- LOAD_ENTRY_COMPLETE (R40, R41, R42). -/
def execLoadEntryComplete (s : State) : Host.Outcome State Fault Refusal := .next (loadEntryComplete (workDue s))

/-- TIE_FRAME_ARRIVAL (R6, R7, R11). -/
def execTieFrameArrival (h : Nat) (f : List Code) (s : State) : Host.Outcome State Fault Refusal :=
  .next (tieArrival h f (settle s))

/-- HIGHWAY_LOST_SILENT (R10). DESIGN CHOICE: once the frame's processing has begun, survey work left for later is done
before the loss and its triggers; R156 lets either come first, and a loss taken before the processing begins hands its
triggers over first (log entry 20). -/
def execHighwayLostSilent (h : Nat) (s : State) : Host.Outcome State Fault Refusal :=
  .next (lostSilent h (workDue s))

/-- HIGHWAY_RESTORE (R12). -/
def execHighwayRestore (h : Nat) (s : State) : Host.Outcome State Fault Refusal := .next (restoreHighway h s)

end Sys2Proof.Machine
end

