-- ==== Sys2Proof/Machine/SurveyCommands.lean ====
section
/-! DEFINITION. The meanings of the level survey commands (09), of ADOPT and of SET_ORPHAN_HOLD (11). -/

namespace Sys2Proof.Machine

/-- Survey state codes (R187). -/
def SurveyState.code : SurveyState → Nat
  | .stopped => 0 | .standby => 1 | .measuring .. => 2

/-- Two entries of a list have the same slot and the same point (R148). -/
def hasDuplicate : List SurveyEntry → Bool
  | [] => false
  | e :: es => es.any (fun x => decide (x = e)) || hasDuplicate es

/-- SET_SURVEY's settings as taken: checked, the window rounded down, the limits clamped and put in order (R148). The
state and the results are those of the survey before. -/
def readSettings (o : SetSurveyOps) (v : Survey) : Option Survey :=
  if o.count.toNat = 0 ∨ Config.surveyEntries < o.count.toNat then none
  else do
    let entries ← readEntries o.entries
    let repeating ← yesNo o.mode
    let trigger ← readTrigger o.trigger o.ctx o.dir
    let report ← readReport o.report
    if hasDuplicate entries then none
    else
      let low := clampTo 0 3952 o.low.toNat
      let high := clampTo 0 3952 o.high.toNat
      pure { v with entries := entries, repeating := repeating, trigger := trigger, window := surveyWindow o.window.toNat,
                    low := min low high, high := max low high, report := report }

/-- The state in which an accepted SET_SURVEY leaves the survey, under the new trigger (R149). -/
def stateAfterSettings (before : SurveyState) (t : Trigger) : SurveyState :=
  match before with
  | .stopped => .stopped
  | .standby | .measuring .. => if t = .immediate then .measuring 1 0 0 0 else .standby

/-- SET_SURVEY's answer (R148, R149). -/
def ownSetSurvey (o : SetSurveyOps) (s : State) : Reply :=
  match readSettings o s.survey with
  | none => refuse .badOperand s
  | some v =>
    let v := { v with results := [], state := stateAfterSettings s.survey.state v.trigger }
    .done .ok (num16 v.window ++ num16 v.low ++ num16 v.high ++ num8 v.state.code) { s with survey := v }

/-- SET_SURVEY (R148, R149). -/
def execSetSurvey (l : Link) (t : Byte) (o : SetSurveyOps) (s : State) : Host.Outcome State Fault Refusal :=
  command (.setSurvey l t o) s (ownSetSurvey o)

/-- START_SURVEY's answer (R154). -/
def ownStartSurvey (s : State) : Reply :=
  if s.survey.entries.isEmpty then refuse .emptyList s
  else
    let after : SurveyState := if s.survey.trigger = .immediate then .measuring 1 0 0 0 else .standby
    .done .ok (num8 after.code) { s with survey := { s.survey with state := after } }

/-- START_SURVEY (R154). -/
def execStartSurvey (l : Link) (t : Byte) (s : State) : Host.Outcome State Fault Refusal :=
  command (.startSurvey l t) s ownStartSurvey

/-- STOP_SURVEY's answer (R157). -/
def ownStopSurvey (s : State) : Reply :=
  .done .ok (num8 s.survey.state.code) { s with survey := { s.survey with state := .stopped } }

/-- STOP_SURVEY (R157). -/
def execStopSurvey (l : Link) (t : Byte) (s : State) : Host.Outcome State Fault Refusal :=
  command (.stopSurvey l t) s ownStopSurvey

/-- A survey entry as a body carries it (12.2). -/
def entryBytes (e : SurveyEntry) : List Byte :=
  (match e.slot with
    | .station n => num8 0 ++ num16 n
    | .tie n => num8 1 ++ num16 n) ++ flag8 e.clearPoint

/-- The trigger as a body carries it: kind, context index, direction (R158). -/
def Trigger.bytes : Trigger → List Byte
  | .immediate => [0, 0, 0]
  | .rollover i d => [1] ++ num8 i ++ dirByte d
  | .syncLost i => [2] ++ num8 i ++ [0]

/-- The latest results of the entries from number `i` on. -/
def resultList (t : Table SurveyResult) : Nat → List SurveyEntry → List Byte
  | _, [] => []
  | i, e :: es => surveyResultBytes i e (Table.find t i) ++ resultList t (i + 1) es

/-- The survey as READ_SURVEY gives it (R158, R188). -/
def surveyBytes (v : Survey) : List Byte :=
  num8 v.entries.length ++ writeMany entryBytes v.entries ++ flag8 v.repeating ++ v.trigger.bytes ++ num16 v.window
    ++ num16 v.low ++ num16 v.high ++ num8 v.report.code ++ num8 v.state.code
    ++ (match v.state with
        | .measuring i sum peak n => num8 i ++ num32 sum ++ num16 peak ++ num8 n
        | .stopped | .standby => num8 0 ++ num32 0 ++ num16 0 ++ num8 0)
    ++ resultList v.results 1 v.entries

/-- READ_SURVEY's answer (R158). -/
def ownReadSurvey (s : State) : Reply := .done .ok (surveyBytes s.survey) s

/-- READ_SURVEY (R158). -/
def execReadSurvey (l : Link) (t : Byte) (s : State) : Host.Outcome State Fault Refusal :=
  command (.readSurvey l t) s ownReadSurvey

/-- ADOPT's answer: every orphan of the former controller comes under the adopting link's control (R181, R182). -/
def ownAdopt (l : Link) (x : Byte) (s : State) : Reply :=
  match formerLink x with
  | none => refuse .badOperand s
  | some former =>
    let theirs := Controller.isOrphanOf former
    let ties := countPaths (fun p => p.isTie && theirs p.controller) s.paths
    let legs := countPaths (fun p => !p.isTie && theirs p.controller) s.paths
    let bridges := countBridges (fun b => theirs b.controller) s.bridges
    .done .ok (num16 ties ++ num8 bridges ++ num8 legs)
      (raiseOn (.orphansAdopted l former ties bridges legs) (otherLinks l) (recontrol theirs (.control l) s))

/-- ADOPT (R181, R182). -/
def execAdopt (l : Link) (t : Byte) (x : Byte) (s : State) : Host.Outcome State Fault Refusal :=
  command (.adopt l t x) s (ownAdopt l x)

/-- SET_ORPHAN_HOLD's answer (R180). -/
def ownSetOrphanHold (x : Word16) (s : State) : Reply :=
  let n := clampTo 0 120 x.toNat
  .done .ok (num16 n) { s with orphanHold := n }

/-- SET_ORPHAN_HOLD (R180). -/
def execSetOrphanHold (l : Link) (t : Byte) (x : Word16) (s : State) : Host.Outcome State Fault Refusal :=
  command (.setOrphanHold l t x) s (ownSetOrphanHold x)

end Sys2Proof.Machine
end

