-- ==== Sys2Proof/Machine/Dispatch.lean ====
section
/-! DEFINITION. The effect of every step of the part on everything but the queue: one arm per row of
spec/opcode_table.json. -/

namespace Sys2Proof.Machine

/-- The effect of a step on everything but the queue of waiting steps. -/
def exec (i : Instr) (s : State) : Host.Outcome State Fault Refusal :=
  match i with
  | .powerOnReset => Sys2Proof.Machine.execPowerOnReset s
  | .startUpLoad => Sys2Proof.Machine.execStartUpLoad s
  | .startCountProgramDone => Sys2Proof.Machine.execStartCountProgramDone s
  | .frameStart o => Sys2Proof.Machine.execFrameStart o s
  | .preambleEnd ctx => Sys2Proof.Machine.execPreambleEnd ctx s
  | .keyDueWarning ctx d => Sys2Proof.Machine.execKeyDueWarning ctx d s
  | .rollover ctx d => Sys2Proof.Machine.execRollover ctx d s
  | .huntReport ctx => Sys2Proof.Machine.execHuntReport ctx s
  | .guardWindowEnd ctx => Sys2Proof.Machine.execGuardWindowEnd ctx s
  | .bridgeWindowBoundary bridge => Sys2Proof.Machine.execBridgeWindowBoundary bridge s
  | .surveyEntryComplete => Sys2Proof.Machine.execSurveyEntryComplete s
  | .challengeExpiry ext => Sys2Proof.Machine.execChallengeExpiry ext s
  | .lockoutExpiry ext => Sys2Proof.Machine.execLockoutExpiry ext s
  | .orphanDeadline r => Sys2Proof.Machine.execOrphanDeadline r s
  | .programComplete => Sys2Proof.Machine.execProgramComplete s
  | .eraseComplete => Sys2Proof.Machine.execEraseComplete s
  | .loadEntryComplete => Sys2Proof.Machine.execLoadEntryComplete s
  | .tieFrameArrival highway codes => Sys2Proof.Machine.execTieFrameArrival highway codes s
  | .highwayLostSilent highway => Sys2Proof.Machine.execHighwayLostSilent highway s
  | .highwayRestore highway => Sys2Proof.Machine.execHighwayRestore highway s
  | .alignReceived l => Sys2Proof.Machine.execAlignReceived l s
  | .linkAligning l => Sys2Proof.Machine.execLinkAligning l s
  | .startReceived l => Sys2Proof.Machine.execStartReceived l s
  | .otherSymbolReceived l sym => Sys2Proof.Machine.execOtherSymbolReceived l sym s
  | .linkDown l => Sys2Proof.Machine.execLinkDown l s
  | .holdOnReceived l => Sys2Proof.Machine.execHoldOnReceived l s
  | .holdOffReceived l => Sys2Proof.Machine.execHoldOffReceived l s
  | .commandFrameReceived l bytes => Sys2Proof.Machine.execCommandFrameReceived l bytes s
  | .outboundFrameStart l => Sys2Proof.Machine.execOutboundFrameStart l s
  | .badFrameCommand l bytes => Sys2Proof.Machine.execBadFrameCommand l bytes s
  | .readPart l tag => Sys2Proof.Machine.execReadPart l tag s
  | .setLink l tag threshold => Sys2Proof.Machine.execSetLink l tag threshold s
  | .setEvents l tag o => Sys2Proof.Machine.execSetEvents l tag o s
  | .setExtension l tag o => Sys2Proof.Machine.execSetExtension l tag o s
  | .eraseExtension l tag ext => Sys2Proof.Machine.execEraseExtension l tag ext s
  | .loadExtensions l tag o => Sys2Proof.Machine.execLoadExtensions l tag o s
  | .readExtension l tag ext => Sys2Proof.Machine.execReadExtension l tag ext s
  | .collectChanges l tag => Sys2Proof.Machine.execCollectChanges l tag s
  | .challenge l tag ext => Sys2Proof.Machine.execChallenge l tag ext s
  | .answer l tag o => Sys2Proof.Machine.execAnswer l tag o s
  | .release l tag ext => Sys2Proof.Machine.execRelease l tag ext s
  | .unlock l tag ext => Sys2Proof.Machine.execUnlock l tag ext s
  | .setAdmission l tag o => Sys2Proof.Machine.execSetAdmission l tag o s
  | .openTie l tag o => Sys2Proof.Machine.execOpenTie l tag o s
  | .clearPath l tag o => Sys2Proof.Machine.execClearPath l tag o s
  | .readPath l tag o => Sys2Proof.Machine.execReadPath l tag o s
  | .resetTraffic l tag => Sys2Proof.Machine.execResetTraffic l tag s
  | .stageKey l tag o => Sys2Proof.Machine.execStageKey l tag o s
  | .readContext l tag ctx => Sys2Proof.Machine.execReadContext l tag ctx s
  | .resyncTx l tag o => Sys2Proof.Machine.execResyncTx l tag o s
  | .setGuard l tag o => Sys2Proof.Machine.execSetGuard l tag o s
  | .setPrivacyDefaults l tag o => Sys2Proof.Machine.execSetPrivacyDefaults l tag o s
  | .openBridge l tag threshold => Sys2Proof.Machine.execOpenBridge l tag threshold s
  | .addLeg l tag o => Sys2Proof.Machine.execAddLeg l tag o s
  | .removeLeg l tag o => Sys2Proof.Machine.execRemoveLeg l tag o s
  | .setLeg l tag o => Sys2Proof.Machine.execSetLeg l tag o s
  | .setTalker l tag o => Sys2Proof.Machine.execSetTalker l tag o s
  | .closeBridge l tag o => Sys2Proof.Machine.execCloseBridge l tag o s
  | .readBridge l tag bridge => Sys2Proof.Machine.execReadBridge l tag bridge s
  | .setSurvey l tag o => Sys2Proof.Machine.execSetSurvey l tag o s
  | .startSurvey l tag => Sys2Proof.Machine.execStartSurvey l tag s
  | .stopSurvey l tag => Sys2Proof.Machine.execStopSurvey l tag s
  | .readSurvey l tag => Sys2Proof.Machine.execReadSurvey l tag s
  | .adopt l tag former => Sys2Proof.Machine.execAdopt l tag former s
  | .setOrphanHold l tag seconds => Sys2Proof.Machine.execSetOrphanHold l tag seconds s

end Sys2Proof.Machine
end

