-- ==== Sys2Proof/Machine/Step.lean ====
section
/-! DEFINITION. One step of the part: the step at the front of the queue is carried out. -/

namespace Sys2Proof.Machine

/-- The step at the front of the queue is taken from it and carried out; on an empty queue the part idles: it stands as
it is until something reaches it (log entry 11). -/
def step (s : State) : Host.Outcome State Fault Refusal :=
  match s.pending with
  | [] => .next s
  | c :: rest => exec c { s with pending := rest }

/-- The state with the step a word spells at the front of the queue. No row of spec/opcode_table.json has bits, so no
word spells one, and the state stays as it is (log entry 11). -/
def State.withFetchWord (s : State) (nbits w : Nat) : State :=
  match decodeTableWord nbits w with
  | some i => { s with pending := i :: s.pending }
  | none => s

end Sys2Proof.Machine
end

