-- ==== Sys2Proof/Safety.lean ====
section
/-! DEFINITION. The words the claims are stated in: a command that its port takes, when nothing is due,
and the laws of the manual that every state of a run keeps. -/

namespace Sys2Proof.Machine

/-! ## A command that its port takes -/

/-- Once everything due has been taken, link `l` can take the frame of command `i`, and `p` is the port that has taken
it (R168). -/
def TakenBy (i : Instr) (s : State) (l : Link) (p : Port) : Prop :=
  match encodeCommand i with
  | some (k, f) => k = l ∧ ((settle s).port l).take f = some p
  | none => False

/-- The state an owner works on: everything due taken, and the command taken by its port. -/
def State.taking (s : State) (l : Link) (p : Port) : State := (settle s).setPort l p

/-- The state with a response placed in link `l`'s response slot (R168). -/
def State.answer (s : State) (l : Link) (kind tag : Byte) (r : Result) (body : List Byte) : State :=
  s.onPort l fun p => { p with response := some { kind := kind, tag := tag, result := r, body := body } }

/-- The state with a command of link `l` marked in progress, its response awaited (R168). -/
def State.await (s : State) (l : Link) (kind tag : Byte) : State :=
  s.onPort l fun p => { p with inProgress := some { kind := kind, tag := tag, earlier := false } }

/-- The links each command is accepted on, by name (10.5); false for a step that is no command. -/
def acceptedOn : Instr → Link → Bool
  | .readPart _ _, _ | .setLink _ _ _, _ | .setEvents _ _ _, _ | .readExtension _ _ _, _ | .collectChanges _ _, _
  | .release _ _ _, _ | .clearPath _ _ _, _ | .readPath _ _ _, _ | .readContext _ _ _, _ | .closeBridge _ _ _, _
  | .readBridge _ _ _, _ => true
  | .setExtension _ _ _, l | .eraseExtension _ _ _, l | .loadExtensions _ _ _, l | .unlock _ _ _, l
  | .setAdmission _ _ _, l | .resetTraffic _ _, l | .setPrivacyDefaults _ _ _, l | .setSurvey _ _ _, l
  | .startSurvey _ _, l | .stopSurvey _ _, l | .readSurvey _ _, l | .setOrphanHold _ _ _, l => decide (l = .m)
  | .challenge _ _ _, l | .answer _ _ _, l | .openTie _ _ _, l | .stageKey _ _ _, l | .resyncTx _ _ _, l
  | .setGuard _ _ _, l | .openBridge _ _ _, l | .addLeg _ _ _, l | .removeLeg _ _ _, l | .setLeg _ _ _, l
  | .setTalker _ _ _, l | .adopt _ _ _, l => decide (l ≠ .m)
  | .powerOnReset, _ | .startUpLoad, _ | .startCountProgramDone, _ | .frameStart _, _ | .preambleEnd _, _
  | .keyDueWarning _ _, _ | .rollover _ _, _ | .huntReport _, _ | .guardWindowEnd _, _ | .bridgeWindowBoundary _, _
  | .surveyEntryComplete, _ | .challengeExpiry _, _ | .lockoutExpiry _, _ | .orphanDeadline _, _ | .programComplete, _
  | .eraseComplete, _ | .loadEntryComplete, _ | .tieFrameArrival _ _, _ | .highwayLostSilent _, _
  | .highwayRestore _, _ | .alignReceived _, _ | .linkAligning _, _ | .startReceived _, _
  | .otherSymbolReceived _ _, _ | .linkDown _, _ | .holdOnReceived _, _ | .holdOffReceived _, _
  | .commandFrameReceived _ _, _ | .outboundFrameStart _, _ | .badFrameCommand _ _, _ => false

/-! ## When nothing is due -/

/-- A direction that makes advances in a frame has nothing of them left: none owed, no warning due (R96, R101). -/
def DirState.made (d : DirState) : Prop := d.owed = 0 ∧ d.warnDue = false

/-- A context has no step due: no epoch start at its preamble's end, no advance or warning left, no hunt report, and no
full guard window (R95, R101, R110, R115, R121). -/
def Context.nothingDue (c : Context) : Prop :=
  (match c.tx.phase with
    | .preamble n => n < 24 ∨ c.tx.dir.owed = 0
    | .running => c.tx.dir.made)
    ∧ (match c.rx.phase with
      | .hunt h => h.reportDue = false
      | .running => c.rx.dir.made ∧ c.rx.guardCount < 64)

/-- No step of the frame's work is due: it has begun, and no context, bridge or survey entry has a step left (R95, R101,
R115, R121, R142, R152; log entries 3, 4, 14). -/
def WorkSettled (s : State) : Prop :=
  s.work.held = false ∧ s.work.surveyOwed = none
    ∧ (∀ i c, Table.find s.ctxs i = some c → c.nothingDue)
    ∧ (∀ b x, Table.find s.bridges b = some x → x.windowCount < 64)
    ∧ ∀ i sum peak n, s.survey.state = .measuring i sum peak n → n < s.survey.window

/-- No step is due at the frame's start: no fourth empty start of an UP highway, no store operation at its end, no lockout
run out, and no challenge or orphan at its frame (R8, R32, R34, R56, R59, R179). -/
def StartSettled (s : State) : Prop :=
  (∀ x ∈ s.highways, x.up = true → x.emptyRun < 4)
    ∧ (∀ g, s.engine = some g → 0 < g.remaining)
    ∧ (∀ i, (s.ext i).standing ≠ .locked 0 ∧ ∀ ch, (s.ext i).challenge = some ch → ch.expiry ≠ s.frameCount)
    ∧ (∀ id p x d, Table.find s.paths id = some p → p.kind.code = 0 → p.controller = .orphan x d → d ≠ s.frameCount)
    ∧ ∀ b y x d, Table.find s.bridges b = some y → y.controller = .orphan x d → d ≠ s.frameCount

/-- Nothing is due: the start-up load has begun, no step of the frame's work or start is due, no LOST highway has its
eighth arrival, and no link has a run at its end (R12, R33, R162, R163). -/
def NothingDue (s : State) : Prop :=
  s.boot ≠ .reset ∧ WorkSettled s ∧ StartSettled s
    ∧ (∀ x ∈ s.highways, x.up = false → x.restoreRun < 8)
    ∧ ∀ l, s.boot = .ended →
      ((s.port l).state = .up → (s.port l).invalidRun < 16 ∧ (s.port l).alignRun < 64)
        ∧ ((s.port l).state = .down → (s.port l).alignRun < 64)

/-! ## What an open and a named record are -/

/-- `i` is the lowest number below `n` without a record. -/
def Lowest {α : Type} (t : Table α) (n i : Nat) : Prop :=
  i < n ∧ Table.find t i = none ∧ ∀ j, j < i → Table.find t j ≠ none

/-- A reference names the path `id`, with record `p`: in range, in use, and its stamp, if given, the opening's (R83). -/
def PathNamed (r : PathRefOps) (s : State) (id : Nat) (p : Path) : Prop :=
  r.path.toNat = id ∧ id < 384 ∧ Table.find s.paths id = some p
    ∧ (r.stamp.present = 0 ∨ (r.stamp.present = 1 ∧ r.stamp.value = p.opened))

/-- A reference names the bridge `b`, with record `x` (R127). -/
def BridgeNamed (r : BridgeRefOps) (s : State) (b : Nat) (x : Bridge) : Prop :=
  r.bridge.toNat = b ∧ b < 32 ∧ Table.find s.bridges b = some x
    ∧ (r.stamp.present = 0 ∨ (r.stamp.present = 1 ∧ r.stamp.value = x.opened))

/-- A taken command is answered with a refusal: an empty body, and nothing else changes (R168, R188). -/
def RefusedWith (i : Instr) (s : State) (l : Link) (p : Port) (kind tag : Byte) (why : Result) : Prop :=
  exec i s = .next ((s.taking l p).answer l kind tag why [])

/-- Why a reference names no path: BAD_OPERAND out of range or with a bad presence byte, NO_PATH for a free record or
another stamp (R83, R102). -/
def PathUnnamed (r : PathRefOps) (s : State) (why : Result) : Prop :=
  (why = .badOperand ∧ (384 ≤ r.path.toNat ∨ 2 ≤ r.stamp.present.toNat))
    ∨ (why = .noPath ∧ r.path.toNat < 384 ∧ r.stamp.present.toNat < 2 ∧ ∀ id q, ¬PathNamed r s id q)

/-- Why a reference names no bridge: BAD_OPERAND, or NO_BRIDGE (R131, R135, R136). -/
def BridgeUnnamed (r : BridgeRefOps) (s : State) (why : Result) : Prop :=
  (why = .badOperand ∧ (32 ≤ r.bridge.toNat ∨ 2 ≤ r.stamp.present.toNat))
    ∨ (why = .noBridge ∧ r.bridge.toNat < 32 ∧ r.stamp.present.toNat < 2 ∧ ∀ b x, ¬BridgeNamed r s b x)

/-- Why link `l` may not work on the context of a path, by the checks of R102 in order. -/
def ContextRefusal (r : PathRefOps) (l : Link) (s : State) (why : Result) : Prop :=
  PathUnnamed r s why
    ∨ ∃ id q, PathNamed r s id q
        ∧ ((why = .notController ∧ q.controller ≠ .control l)
          ∨ (why = .notPrivate ∧ q.controller = .control l ∧ q.kind.ctx = none))

/-- Why link `l` may not change a bridge: it is not named, or it is not under the link's control (R131, R135, R139). -/
def BridgeRefusal (r : BridgeRefOps) (l : Link) (s : State) (why : Result) : Prop :=
  BridgeUnnamed r s why ∨ ∃ b x, BridgeNamed r s b x ∧ why = .notController ∧ x.controller ≠ .control l

/-- ADD_LEG's operands but its bridge's are in range: a station slot of the part or a tie leg's privacy, and a mode
(R130). -/
def AddLegReadable (o : AddLegOps) : Prop :=
  ((o.kind = 0 ∧ o.station.toNat < 512) ∨ (o.kind = 1 ∧ o.privacy.toNat < 2)) ∧ o.mode.toNat < 2

/-- The epoch length and lead, in seconds, that an open takes for one direction: the length 1 to 300, then the lead at
most the length less 1 (R73). -/
def epochTaken (epoch : Word16) : Nat := max 1 (min 300 epoch.toNat)
def leadTaken (epoch lead : Word16) : Nat := min (epochTaken epoch - 1) lead.toNat

/-- One direction as a context starts with it: the key half and timing taken, nothing staged, no index, no epoch, the
generator at the seed (R91, R95). -/
def startedDir (seed : Word32) (step epoch lead : Word16) : DirState :=
  { seed := seed, step := step, gen := seed, f := 0, epoch := 0, length := 8000 * epochTaken epoch,
    lead := 8000 * leadTaken epoch lead, staged := none, owed := 0, warnDue := false }

/-- A context as it is allocated to path `id` on tie slot `tie`: tx in PREAMBLE, rx in HUNT, the guard on with the
defaults (R77, R91). -/
def startedContext (s : State) (id tie : Nat) (k : KeyBlock) (t : TimingOps) : Context :=
  { path := id, tieSlot := tie,
    tx := { phase := .preamble 0, dir := startedDir k.txSeed k.txStep t.txEpoch t.txLead },
    rx :=
      { phase := .hunt { run := 0, elapsed := 0, endSeen := false, reported := false, reportDue := false },
        dir := startedDir k.rxSeed k.rxStep t.rxEpoch t.rxLead, last := 0, guardSum := 0, guardCount := 0,
        strikes := 0 },
    ceiling := s.guardCeiling, strikesLimit := s.guardStrikes, guardOn := true,
    flags := { keyDue := false, keyStale := false, syncLost := false, huntTimeout := false } }

/-- The context's part of an open's response: absent, or the context's index and the four values taken (R76). -/
def noContextBytes : List Byte := List.replicate 10 0
def contextTakenBytes (i : Nat) (t : TimingOps) : List Byte :=
  [1] ++ num8 i ++ num16 (epochTaken t.txEpoch) ++ num16 (epochTaken t.rxEpoch) ++ num16 (leadTaken t.txEpoch t.txLead)
    ++ num16 (leadTaken t.rxEpoch t.rxLead)

/-! ## The laws -/

/-- No queue of a port holds more than it can: 16 command frames, 16 overrun tags, 32 events (R167, R170). -/
def PortBounds (s : State) : Prop :=
  ∀ l ∈ allLinks,
    (s.port l).queue.length ≤ 16 ∧ (s.port l).overrun.length ≤ 16 ∧ (s.port l).events.length ≤ 32

/-- The law of one direction: while RUNNING 1 ≤ f ≤ L, otherwise f and the epoch are 0; the generator is the seed in
force stepped f times; L is 8000 to 2400000 frames and the lead at most L − 8000, in force and staged (R90, R95, R96). -/
def DirLaw (running : Bool) (d : DirState) : Prop :=
  d.gen = keySteps d.step d.seed d.f
    ∧ (running = true → 1 ≤ d.f ∧ d.f ≤ d.length)
    ∧ (running = false → d.f = 0 ∧ d.epoch = 0)
    ∧ 8000 ≤ d.length ∧ d.length ≤ 2400000 ∧ d.lead + 8000 ≤ d.length ∧ d.lead % 8000 = 0
    ∧ ∀ h ∈ d.staged,
        8000 ≤ h.length.getD d.length ∧ h.length.getD d.length ≤ 2400000
          ∧ h.lead.getD d.lead + 8000 ≤ h.length.getD d.length ∧ h.lead.getD d.lead % 8000 = 0

/-- Every direction of every context keeps its law. -/
def GeneratorLaw (s : State) : Prop :=
  ∀ e ∈ s.ctxs, DirLaw (e.2.running .tx) e.2.tx.dir ∧ DirLaw (e.2.running .rx) e.2.rx.dir

/-- The occupancy names exactly the path that holds a slot, and slots are in range; so no slot is in two paths (R70). -/
def OccupancyLaw (s : State) : Prop :=
  (∀ slot id, Table.find s.stationOcc slot = some id ↔
      ∃ p, Table.find s.paths id = some p ∧ p.kind.station = some slot)
    ∧ (∀ slot id, Table.find s.tieOcc slot = some id ↔
      ∃ p, Table.find s.paths id = some p ∧ p.kind.tieSlot = some slot)
    ∧ (∀ slot id, Table.find s.stationOcc slot = some id → slot < 512)
    ∧ (∀ slot id, Table.find s.tieOcc slot = some id → slot < 256)

/-- A path has a context exactly when it is PRIVATE, and each context in use belongs to exactly one path, whose tie slot
it holds (R77, R90). -/
def ContextLaw (s : State) : Prop :=
  (∀ i c, Table.find s.ctxs i = some c →
      ∃ p, Table.find s.paths c.path = some p ∧ p.kind.ctx = some i ∧ p.kind.tieSlot = some c.tieSlot)
    ∧ (∀ id p i, Table.find s.paths id = some p → p.kind.ctx = some i →
      ∃ c, Table.find s.ctxs i = some c ∧ c.path = id)

/-- The leg slot of a leg path. -/
def PathKind.legSlot : PathKind → Option LegSlot
  | .tie .. => none
  | .bridgeStation n _ _ => some (.station n)
  | .bridgeTie n p _ => some (.tie n p)

/-- Legs and leg paths answer to each other and carry their bridge's controller; a bridge has at most 8 legs, all bridges
together at most 128 (R69, R128, R175). -/
def BridgeLaw (s : State) : Prop :=
  Table.sorted s.bridges = true ∧ s.legsInUse ≤ 128
    ∧ (∀ b x, Table.find s.bridges b = some x →
        x.legs.length ≤ 8 ∧ (x.legs.map Leg.path).Nodup
          ∧ ∀ g ∈ x.legs, ∃ p, Table.find s.paths g.path = some p ∧ p.kind.bridge = some b
              ∧ p.kind.legSlot = some g.slot ∧ p.controller = x.controller)
    ∧ (∀ id p b, Table.find s.paths id = some p → p.kind.bridge = some b →
        ∃ x, Table.find s.bridges b = some x ∧ ∃ g ∈ x.legs, g.path = id)

/-- A controller field that stands under control names a call-processor link that is UP (R175). -/
def Controller.stands (s : State) : Controller → Prop
  | .control l => l ≠ .m ∧ (s.port l).state = .up
  | .orphan _ _ => True

/-- Every path and bridge is under the control of a call-processor link that is UP, or is an orphan (R175). -/
def ControllerLaw (s : State) : Prop :=
  (∀ e ∈ s.paths, e.2.controller.stands s) ∧ (∀ e ∈ s.bridges, e.2.controller.stands s)

/-- The extension the engine's operation is on, and the slot it is to be bound to (R37). -/
def Job.target : Job → Option (Nat × Option Nat)
  | .startCount _ => none
  | .program i r => some (i, some r.slot)
  | .erase i => some (i, none)
  | .load _ _ i r => some (i, some r.slot)

/-- The law of one extension's record: LOCKED exactly when the failures equal the limit, below it otherwise; no challenge
on a LOCKED or VACANT extension; stored fields exactly where it is not VACANT (R30, R51, R57). -/
def ExtLaw (limit : Nat) (e : Ext) : Prop :=
  match e.standing with
  | .vacant => e.failures < limit ∧ e.challenge = none ∧ e.stored = none
  | .idle => e.failures < limit ∧ e.stored ≠ none
  | .admitted _ l => e.failures < limit ∧ e.stored ≠ none ∧ l ≠ .m
  | .locked _ => e.failures = limit ∧ e.challenge = none ∧ e.stored ≠ none

/-- Every extension keeps its law; one that a store operation is on carries the programming marker and no challenge; no
operation is under way before the start-up load (R32, R37, R57). -/
def AdmissionLaw (s : State) : Prop :=
  1 ≤ s.failLimit ∧ (∀ e ∈ s.exts, ExtLaw s.failLimit e.2)
    ∧ (s.boot = .reset → s.engine = none)
    ∧ ∀ g ∈ s.engine, ∀ x ∈ g.job.target,
        (s.ext x.1).programming = true ∧ (s.ext x.1).challenge = none ∧ (s.ext x.1).isAdmitted = false

/-- Every path that names a station slot names the ADMITTED extension bound to it, and is that extension's path in use; a
slot that a store operation is to bind is bound to no other extension (R31, R36, R47, R62, R70). -/
def StationLaw (s : State) : Prop :=
  (∀ id p slot, Table.find s.paths id = some p → p.kind.station = some slot →
      ∃ e, p.kind.ext = some e ∧ (s.ext e).isAdmitted = true ∧ (s.ext e).path = some id
        ∧ Table.find s.slotMap slot = some e)
    ∧ (∀ e id, (s.ext e).path = some id →
      ∃ p, Table.find s.paths id = some p ∧ p.kind.ext = some e ∧ p.kind.station ≠ none)
    ∧ (s.boot = .reset → s.paths = [])
    ∧ (∀ slot e, Table.find s.slotMap slot = some e → ∃ r, (s.ext e).stored = some r ∧ r.slot = slot)
    ∧ ∀ g ∈ s.engine, ∀ x ∈ g.job.target, ∀ slot ∈ x.2, ∀ e ∈ Table.find s.slotMap slot, e = x.1

/-- Once a link is UP the start-up load has ended, and once it has ended the nonce generator is seeded (R25, R166). -/
def StartLaw (s : State) : Prop :=
  (∀ l ∈ allLinks, (s.port l).state = .up → s.boot = .ended) ∧ (s.boot = .ended → s.nonce ≠ none)

/-- Every table stands in its canonical form, each change set rises without duplicates, and there are eight tie
highways, with eight entries in the frame buffer (R3, R44, 1.3). -/
def Canonical (s : State) : Prop :=
  Table.sorted s.exts = true ∧ Table.sorted s.extStore = true ∧ Table.sorted s.slotMap = true
    ∧ Table.sorted s.paths = true ∧ Table.sorted s.stationOcc = true ∧ Table.sorted s.tieOcc = true
    ∧ Table.sorted s.ctxs = true ∧ Table.sorted s.bridges = true ∧ Table.sorted s.drivenStation = true
    ∧ Table.sorted s.drivenTie = true ∧ Table.sorted s.buffer.station = true ∧ Table.sorted s.reading.station = true
    ∧ Table.sorted s.survey.results = true
    ∧ s.highways.length = 8 ∧ s.buffer.tie.length = 8 ∧ s.reading.tie.length = 8
    ∧ ∀ l ∈ allLinks, risingIndices (s.port l).changes = true

/-- All the laws together. -/
structure Laws (s : State) : Prop where
  ports : PortBounds s
  generators : GeneratorLaw s
  occupancy : OccupancyLaw s
  contexts : ContextLaw s
  bridges : BridgeLaw s
  controllers : ControllerLaw s
  admission : AdmissionLaw s
  stations : StationLaw s
  start : StartLaw s
  canonical : Canonical s

end Sys2Proof.Machine
end

