-- ==== Sys2Proof/Certificates/Slice0/Obligations.lean ====
section
/-! DEFINITION. The claims about the NJ516, for the provers. `s.taking l p` is the state once everything due has been
taken and link `l`'s port has taken the command (`p` is that port); `.answer` places a response there. -/

open Sys2Proof Sys2Proof.Machine

/-! ## Steps, frames and the taking of commands -/

/-- The step at the front of the queue is carried out on the queue's rest; on an empty queue the part idles (the
model's choice, log entry 11). -/
def Obligations.StepRunsTheFrontCommand : Prop :=
  (∀ (c : Instr) (rest : List Instr) (s : State), s.pending = c :: rest → step s = exec c { s with pending := rest })
    ∧ ∀ s : State, s.pending = [] → step s = .next s

/-- Every well-formed command is read back from its frame, whatever its operands (12.1, 12.2). Every frame that is
read as a command is that command's frame: no byte of it is dropped (12.1, 12.2, R185). Operand order and widths
within a frame are read from the command's rule and 12.2. -/
def Obligations.FramesAndCommandsAgree : Prop :=
  (∀ (i : Instr) (l : Link) (f : List Byte),
    i.wellFormed = true → encodeCommand i = some (l, f) → decodeCommand l f = some i)
    ∧ (∀ (l : Link) (f : List Byte) (i : Instr),
    decodeCommand l f = some i → encodeCommand i = some (l, f) ∧ i.wellFormed = true)

/-- A port takes the frame at the head of its queue exactly when its link is UP, nothing is in progress and its
response slot is empty (R168); below the threshold it then releases its own hold (R167). A frame that reaches an
empty queue is taken as it arrives (log entry 6). A command whose port cannot take it now is not taken, and nothing
changes but what was due (log entries 2, 6). `lastControl` is the model's own field (log entry 15). Where nothing is
due, taking what is due changes nothing, so there a command's or a step's effect is its own alone; what is due is
said by the model's marks (log entries 2, 14). -/
def Obligations.PortTakesTheHeadOfItsQueue : Prop :=
  ((∀ (p : Port) (f : List Byte), p.state ≠ .up ∨ p.inProgress ≠ none ∨ p.response ≠ none → p.take f = none)
    ∧ (∀ (p : Port) (f g : List Byte) (rest : List (List Byte)), p.queue = g :: rest → g ≠ f → p.take f = none)
    ∧ (∀ (p : Port) (f : List Byte) (rest : List (List Byte)),
        p.state = .up → p.inProgress = none → p.response = none → p.queue = f :: rest →
        p.take f = some
          (if rest.length < p.threshold ∧ p.ownHold = true then
            { p with queue := rest, ownHold := false, lastControl := some .holdOff }
          else { p with queue := rest }))
    ∧ ∀ (p : Port) (f : List Byte),
        p.state = .up → p.inProgress = none → p.response = none → p.queue = [] → 4 ≤ p.threshold →
        p.take f = some
          (if p.ownHold = true then
            { p with alignRun := 0, invalidRun := 0, receiving := none, ownHold := false,
                     lastControl := some .holdOff }
          else { p with alignRun := 0, invalidRun := 0, receiving := none }))
    ∧ (∀ (i : Instr) (s : State) (l : Link) (f : List Byte),
    encodeCommand i = some (l, f) → ((settle s).port l).take f = none → exec i s = .next (settle s))
    ∧ ∀ s : State, NothingDue s → beginWork s = s ∧ workDue s = s ∧ Quiet s

/-- A taken command that is carried out is answered once, on its own link, with its own kind and tag: at once, or it
is marked in progress; no other link's response or command in progress changes (R168, R185). -/
def Obligations.EveryTakenCommandIsAnsweredOnce : Prop :=
  ∀ (i : Instr) (s t : State) (l : Link) (p : Port) (kind tag : Byte) (ops : List Byte),
    encodeOperands i = some (l, kind, tag, ops) → TakenBy i s l p → exec i s = .next t →
      ((∃ r body, (t.port l).response = some { kind := kind, tag := tag, result := r, body := body }
            ∧ (t.port l).inProgress = none)
          ∨ ((t.port l).response = none
            ∧ (t.port l).inProgress = some { kind := kind, tag := tag, earlier := false }))
        ∧ ∀ k, k ≠ l → (t.port k).response = ((settle s).port k).response
            ∧ (t.port k).inProgress = ((settle s).port k).inProgress

/-- A command answered with a refusal carries an empty body and changes nothing (R168, R188); OK, PARTIAL, REPLACED
and WRONG_ANSWER are no such refusals. A command on a link it is not accepted on is answered NOT_PERMITTED and
changes nothing (R168, 10.5). -/
def Obligations.RefusedCommandChangesNothing : Prop :=
  (∀ (i : Instr) (s t : State) (l : Link) (p : Port) (kind tag : Byte) (ops : List Byte) (r : Response),
    encodeOperands i = some (l, kind, tag, ops) → TakenBy i s l p → exec i s = .next t →
      (t.port l).response = some r → r.result ∉ [.ok, .partial_, .replaced, .wrongAnswer] →
      t = (s.taking l p).answer l kind tag r.result [])
    ∧ (∀ (i : Instr) (s : State) (l : Link) (p : Port) (kind tag : Byte) (ops : List Byte),
    i.wellFormed = true → encodeOperands i = some (l, kind, tag, ops) → TakenBy i s l p → acceptedOn i l = false →
      exec i s = .next ((s.taking l p).answer l kind tag .notPermitted []))

/-- A taken frame that the frame check refuses is answered BAD_FRAME with its kind byte and its tag byte, 0 where it
has none, and changes nothing (R168, R185). What the frame check refuses: fewer than three bytes, a kind outside 1 to
35, a length byte that is not the number of operand bytes, or a number of operand bytes that the kind does not have;
the counted kinds count from the frame (R185, 12.2). -/
def Obligations.BadFrameIsAnswered : Prop :=
  (∀ (s : State) (l : Link) (kind : Byte) (rest : List Byte) (p : Port),
    badFrame (kind :: rest) = true → ((settle s).port l).take (kind :: rest) = some p →
      exec (.badFrameCommand l (kind :: rest)) s
        = .next ((s.taking l p).answer l kind (rest.headD 0) .badFrame []))
    ∧ ((∀ f : List Byte, f.length < 3 → badFrame f = true)
    ∧ (∀ (k t n : Byte) (ops : List Byte), k.toNat = 0 ∨ 35 < k.toNat → badFrame (k :: t :: n :: ops) = true)
    ∧ (∀ (k t n : Byte) (ops : List Byte), n.toNat ≠ ops.length → badFrame (k :: t :: n :: ops) = true)
    ∧ (∀ (k t n : Byte) (ops : List Byte), 1 ≤ k.toNat → k.toNat ≤ 35 → n.toNat = ops.length →
        badFrame (k :: t :: n :: ops) = decide (ops.length ≠
          if k.toNat = 6 then 1 + 12 * (ops.headD 0).toNat
          else if k.toNat = 30 then 12 + 4 * (ops.headD 0).toNat
          else ([0, 0, 2, 8, 12, 2, 0, 2, 0, 2, 6, 2, 2, 6, 24, 7, 3, 0, 33, 1, 7, 12, 6, 3, 33, 8, 10, 8, 6, 1, 0, 0,
                 0, 0, 1, 2] : List Nat).getD k.toNat 0)))

/-! ## Laws that every step keeps -/

/-- The queues' bounds are kept by every step (R167, R170). -/
def Obligations.StepKeepsPortBounds : Prop := ∀ s t : State, PortBounds s → step s = .next t → PortBounds t

/-- The law of indices and generators is kept by every step (R90, R95, R96). -/
def Obligations.StepKeepsGeneratorLaw : Prop := ∀ s t : State, GeneratorLaw s → step s = .next t → GeneratorLaw t

/-- The occupancy law is kept by every step: no slot is in two paths (R70). -/
def Obligations.StepKeepsOccupancyLaw : Prop := ∀ s t : State, OccupancyLaw s → step s = .next t → OccupancyLaw t

/-- The law of contexts and PRIVATE paths is kept by every step (R77). -/
def Obligations.StepKeepsContextLaw : Prop := ∀ s t : State, ContextLaw s → step s = .next t → ContextLaw t

/-- The law of legs and leg paths is kept by every step (R69, R128, R175). -/
def Obligations.StepKeepsBridgeLaw : Prop := ∀ s t : State, BridgeLaw s → step s = .next t → BridgeLaw t

/-- The controller law is kept by every step (R175). -/
def Obligations.StepKeepsControllerLaw : Prop := ∀ s t : State, ControllerLaw s → step s = .next t → ControllerLaw t

/-- The admission law is kept by every step (R30, R51, R57). -/
def Obligations.StepKeepsAdmissionLaw : Prop := ∀ s t : State, AdmissionLaw s → step s = .next t → AdmissionLaw t

/-- Every path that names a station slot goes on naming the ADMITTED extension bound to it (R47, R62, R70). -/
def Obligations.StepKeepsStationLaw : Prop := ∀ s t : State, Laws s → step s = .next t → StationLaw t

/-- The canonical form of the tables and change sets, and the start-up law, are kept by every step (R3, R25, R44,
R166). -/
def Obligations.StepKeepsCanonicalForm : Prop :=
  ∀ s t : State, Canonical s → StartLaw s → step s = .next t → Canonical t ∧ StartLaw t

/-- Every law holds right after a power-on reset. The store that State.reset keeps is empty (log entry 1); no law
rests on that. -/
def Obligations.ResetHasTheLaws : Prop := Laws State.reset

/-- While the laws hold no step stops: an open that has found its slots and leg free finds a free path record (R69),
a CHALLENGE finds a seeded generator (R25), an ANSWER finds a secret (R51). -/
def Obligations.NoStepStopsUnderTheLaws : Prop :=
  ∀ s : State, Laws s → ∃ t, step s = .next t

/-! ## Reset and start-up -/

/-- What a power-on reset leaves (R13, R46, R66, R89, R109, R126, R146, R147, R160, R166, R183), and what it keeps:
the store and the start count record (R46). Fields of the model's own stand as log entry 18 says. That a completion
of a store operation which is due and not yet taken is not taken first is the model's choice (log entry 21). -/
def Obligations.PowerOnResetLeaves : Prop :=
  ∀ s : State, ∃ t, exec .powerOnReset s = .next t
    ∧ t.extStore = s.extStore ∧ t.startRecord = s.startRecord ∧ t.pending = s.pending
    ∧ t.boot = .reset ∧ t.frameCount = 0 ∧ t.engine = none ∧ t.nonce = none ∧ t.exts = [] ∧ t.slotMap = []
    ∧ (∀ h, h < 8 → t.highways[h]? = some
        { up := true, store := [List.replicate 32 0], deleted := false, lastDelivered := List.replicate 32 0,
          emptyRun := 0, restoreRun := 0, arrived := false })
    ∧ t.highways.length = 8
    ∧ (∀ slot, t.stationCode slot = 0) ∧ (∀ slot, slot < 256 → t.tieCode slot = 0)
    ∧ (∀ h, h < 8 → (t.tieRead h).slip = .normal)
    ∧ t.drivenStation = [] ∧ t.drivenTie = []
    ∧ t.paths = [] ∧ t.stationOcc = [] ∧ t.tieOcc = [] ∧ t.ctxs = [] ∧ t.bridges = []
    ∧ t.failLimit = 3 ∧ t.challengeWindow = 4 ∧ t.lockoutTime = 60
    ∧ t.huntTime = 3 ∧ t.guardCeiling = 600 ∧ t.guardStrikes = 3 ∧ t.orphanHold = 30
    ∧ t.survey = { entries := [], repeating := false, trigger := .immediate, window := 64, low := 0, high := 3952,
                   report := .all, state := .stopped, results := [] }
    ∧ ∀ l, t.port l =
        { state := .down, alignRun := 0, invalidRun := 0, partnerHold := false, ownHold := false, threshold := 12,
          queue := [], receiving := none, inProgress := none, response := none, overrun := [], events := [],
          lost := none,
          enables := { admission := true, path := true, key := true, sync := true, bridge := true, survey := true,
                       highway := true, link := true },
          changes := [], sending := none, lastControl := none }

/-- The start-up load builds the table and the map: an index is IDLE with its present record exactly when no lower
index of the table has taken its slot, and VACANT otherwise; then the start count program begins, or at the ceiling
the load ends with the nonce generator seeded (R31, R33, R34, R25). Nothing else changes. The start count program's
completion writes the start count record, seeds the nonce generator and ends the load; nothing else changes (R25,
R34). The step as the model takes it, due right after the reset, is log entry 9. An engine with 0 frames remaining is
the model's mark of a due step (log entry 14). -/
def Obligations.StartUpLoadBuildsTheTable : Prop :=
  (∀ s : State, s.boot = .reset → Table.sorted s.extStore = true → ∃ t, exec .startUpLoad s = .next t
    ∧ (∀ i r, (t.ext i).stored = some r ↔
        Table.find s.extStore i = some r ∧ ∀ j, j < i → ∀ q, (t.ext j).stored = some q → q.slot ≠ r.slot)
    ∧ (∀ i, t.ext i =
        { stored := (t.ext i).stored, standing := if (t.ext i).stored = none then .vacant else .idle,
          programming := false, failures := 0, challenge := none, expired := false, path := none })
    ∧ (∀ n i, Table.find t.slotMap n = some i ↔ ∃ r, (t.ext i).stored = some r ∧ r.slot = n)
    ∧ (s.startRecord.getD 0 ≠ 4294967295 →
        t = { s with exts := t.exts, slotMap := t.slotMap, boot := .loading, startRecord := none,
                     startCount := s.startRecord.getD 0 + 1,
                     engine := some { job := .startCount (s.startRecord.getD 0 + 1), remaining := 16 } })
    ∧ (s.startRecord.getD 0 = 4294967295 →
        t = { s with exts := t.exts, slotMap := t.slotMap, boot := .ended, startCount := 4294967295,
                     nonce := some (4294967295 * 65537 + 1) }))
    ∧ (∀ (s : State) (v : Word32), (workDue s).engine = some { job := .startCount v, remaining := 0 } →
    exec .startCountProgramDone s
      = .next { workDue s with boot := .ended, startRecord := some v, engine := none, nonce := some (v * 65537 + 1) })

/-! ## Frames and highways -/

/-- A frame start: the count rises by one, the codes taken replace the frame buffer and the new frame's codes are
read, every UP highway delivers, the nonce generator, the store engine and every lockout move by one frame, and every
slip raises TIE_SLIP on every link (R1, R3, R9, R26, R32, R59); the records that commands own do not change. The
codes taken during a frame stand in `reading` until its end (log entry 13); whether the frame's processing comes at
once is an operand (log entry 3); the events come in a fixed order (log entry 5). -/
def Obligations.FrameStartMovesTheFrame : Prop :=
  ∀ (s : State) (o : FrameOps), risingBelow 512 o.codes = true → ∃ t, exec (.frameStart o) s = .next t
    ∧ t.frameCount = (settle s).frameCount + 1
    ∧ t.buffer = (settle s).reading
    ∧ (∀ slot, Table.code t.reading.station slot = Table.code o.codes slot)
    ∧ t.reading.tie = (settle s).highways.map (fun x => x.deliver.2)
    ∧ t.highways = (settle s).highways.map (fun x => x.deliver.1)
    ∧ t.nonce = (settle s).nonce.map (fun n => n * 743605 + 81007)
    ∧ t.engine = (settle s).engine.map (fun g => { g with remaining := g.remaining - 1 })
    ∧ (∀ i n, ((settle s).ext i).standing = .locked n → t.ext i = { (settle s).ext i with standing := .locked (n - 1) })
    ∧ (∀ i, (∀ n, ((settle s).ext i).standing ≠ .locked n) → t.ext i = (settle s).ext i)
    ∧ t.paths = (settle s).paths ∧ t.stationOcc = (settle s).stationOcc ∧ t.tieOcc = (settle s).tieOcc
    ∧ t.slotMap = (settle s).slotMap ∧ t.extStore = (settle s).extStore ∧ t.startRecord = (settle s).startRecord
    ∧ t.startCount = (settle s).startCount ∧ t.boot = (settle s).boot ∧ t.pending = (settle s).pending
    ∧ t.failLimit = (settle s).failLimit ∧ t.challengeWindow = (settle s).challengeWindow
    ∧ t.lockoutTime = (settle s).lockoutTime ∧ t.huntTime = (settle s).huntTime
    ∧ t.guardCeiling = (settle s).guardCeiling ∧ t.guardStrikes = (settle s).guardStrikes
    ∧ t.orphanHold = (settle s).orphanHold
    ∧ (o.workFirst = false →
        t = t.reading.tie.zipIdx.foldl
          (fun u x => match x.1.slip with
            | .normal => u
            | .repeated => raiseOn (.tieSlip x.2 false) [.a, .b, .m] u
            | .deleted => raiseOn (.tieSlip x.2 true) [.a, .b, .m] u)
          { t with portA := (settle s).portA, portB := (settle s).portB, portM := (settle s).portM })
    ∧ ∀ l, ((t.port l).state = ((settle s).port l).state ∧ (t.port l).queue = ((settle s).port l).queue
        ∧ (t.port l).response = ((settle s).port l).response ∧ (t.port l).changes = ((settle s).port l).changes)

/-- What an UP tie highway delivers at a frame start: the oldest frame held, DELETED where a frame was deleted before
it; with none held the last frame again, and at the fourth empty start the idle codes, as NORMAL (R8). A LOST highway
delivers idle codes as NORMAL, and a start with no arrival since the last clears the restore run (R11). A complete
frame that arrives at an UP highway is stored; at a full store it deletes the older one, and a second deletion before
the delivery declares the highway LOST with cause OVERRUN; on a LOST highway it counts toward restoration (R6, R7,
R10, R11, R12). A frame that is not complete has no effect. The runs of 4 and 8 are the model's marks of a due step
(log entry 14). -/
def Obligations.TieHighwayStoresAndDelivers : Prop :=
  ((∀ (x : Highway) (f : List Code) (rest : List (List Code)), x.up = true → x.store = f :: rest →
      x.deliver.2 = { codes := f, slip := if x.deleted then .deleted else .normal }
        ∧ x.deliver.1 = { x with store := rest, deleted := false, lastDelivered := f, emptyRun := 0, arrived := false })
    ∧ (∀ x : Highway, x.up = true → x.store = [] → x.emptyRun < 3 →
      x.deliver.2 = { codes := x.lastDelivered, slip := .repeated }
        ∧ x.deliver.1 = { x with emptyRun := x.emptyRun + 1, arrived := false })
    ∧ (∀ x : Highway, x.up = true → x.store = [] → x.emptyRun = 3 →
      x.deliver.2 = { codes := List.replicate 32 0, slip := .normal }
        ∧ x.deliver.1 = { x with emptyRun := 4, arrived := false })
    ∧ ∀ x : Highway, x.up = false →
      x.deliver.2 = { codes := List.replicate 32 0, slip := .normal }
        ∧ x.deliver.1 = { x with restoreRun := if x.arrived then x.restoreRun else 0, arrived := false })
    ∧ (∀ (s : State) (h : Nat) (x : Highway) (f : List Code), (settle s).highways[h]? = some x →
    (f.length ≠ 32 → exec (.tieFrameArrival h f) s = .next (settle s))
    ∧ (f.length = 32 →
      (∀ held, x.up = true → x.store = held → held.length ≤ 1 →
        exec (.tieFrameArrival h f) s
          = .next ((settle s).setHighway h { x with store := held ++ [f], arrived := true }))
      ∧ (∀ a b, x.up = true → x.store = [a, b] → x.deleted = false →
        exec (.tieFrameArrival h f) s
          = .next ((settle s).setHighway h { x with store := [b, f], deleted := true, arrived := true }))
      ∧ (∀ a b, x.up = true → x.store = [a, b] → x.deleted = true →
        exec (.tieFrameArrival h f) s
          = .next (privacyLoss h (raiseOn (.tieLost h .overrun) [.a, .b, .m] ((settle s).setHighway h
              { up := false, store := [], deleted := false, lastDelivered := List.replicate 32 0, emptyRun := 0,
                restoreRun := 0, arrived := false }))))
      ∧ (x.up = false → x.restoreRun < 7 →
        exec (.tieFrameArrival h f) s
          = .next ((settle s).setHighway h { x with restoreRun := x.restoreRun + 1, arrived := true }))
      ∧ (x.up = false → x.restoreRun = 7 →
        exec (.tieFrameArrival h f) s
          = .next ((settle s).setHighway h { x with restoreRun := 8, store := [f], arrived := true }))))

/-- The fourth empty start declares an UP highway LOST with cause SILENT, TIE_LOST before the contexts' events; the
eighth arrival restores a LOST one with the frame just arrived in its store, and raises TIE_RESTORED (R8, R10, R12).
A highway's loss takes every RUNNING receive direction on it into a new hunt with SYNC_LOST set, clears the run and
the end-seen marker of one that hunts, and leaves transmit directions, keys and other highways' contexts (R112,
R119). The runs of 4 and 8 are the model's marks of a due step (log entry 14). Contexts are met in ascending index;
each RUNNING direction's SYNC_LOST of cause HIGHWAY, with the epoch number and index it had, goes to the links of its
path's controller and is handed to the level survey (R119, R125, R155). That survey work still owed to the frame
comes before a SILENT loss and its trigger is the model's choice (log entry 20). -/
def Obligations.HighwayLossReachesItsContexts : Prop :=
  ((∀ (s : State) (h : Nat) (x : Highway), (workDue s).highways[h]? = some x → x.up = true → x.emptyRun = 4 →
      exec (.highwayLostSilent h) s
        = .next (privacyLoss h (raiseOn (.tieLost h .silent) [.a, .b, .m] ((workDue s).setHighway h
            { up := false, store := [], deleted := false, lastDelivered := List.replicate 32 0, emptyRun := 0,
              restoreRun := 0, arrived := false }))))
    ∧ ∀ (s : State) (h : Nat) (x : Highway), s.highways[h]? = some x → x.up = false → x.restoreRun = 8 →
      exec (.highwayRestore h) s
        = .next (raiseOn (.tieRestored h) [.a, .b, .m]
            (s.setHighway h { x with up := true, deleted := false, emptyRun := 0, restoreRun := 0 })))
    ∧ (∀ (s : State) (h i : Nat) (c : Context), Table.sorted s.ctxs = true → Table.find s.ctxs i = some c →
    (c.tieSlot / 32 ≠ h → Table.find (privacyLoss h s).ctxs i = some c)
    ∧ (c.tieSlot / 32 = h → c.rx.phase = .running →
      Table.find (privacyLoss h s).ctxs i = some
        { c with
          flags := { c.flags with syncLost := true },
          rx :=
            { phase := .hunt { run := 0, elapsed := 0, endSeen := false, reported := false, reportDue := false },
              dir := { c.rx.dir with f := 0, epoch := 0, gen := c.rx.dir.seed, owed := 0, warnDue := false },
              last := 0, guardSum := 0, guardCount := 0, strikes := 0 } })
    ∧ ∀ x, c.tieSlot / 32 = h → c.rx.phase = .hunt x →
      Table.find (privacyLoss h s).ctxs i
        = some { c with rx := { c.rx with phase := .hunt { x with run := 0, endSeen := false } } })
    ∧ ∀ (s : State) (h : Nat),
      privacyLoss h s = (Table.keys s.ctxs).foldl
        (fun u i =>
          match Table.find u.ctxs i with
          | none => u
          | some c =>
            if c.tieSlot / 32 = h then
              match c.rx.phase with
              | .running =>
                surveyTrigger (.syncLost i)
                  (raiseOn (.syncLost i c.path c.tieSlot .highway c.rx.dir.epoch c.rx.dir.f)
                    (((Table.find u.paths c.path).map fun p => p.controller.links).getD [])
                    (u.setCtx i
                      { c with
                        flags := { c.flags with syncLost := true },
                        rx :=
                          { phase :=
                              .hunt { run := 0, elapsed := 0, endSeen := false, reported := false, reportDue := false },
                            dir := { c.rx.dir with f := 0, epoch := 0, gen := c.rx.dir.seed, owed := 0, warnDue := false },
                            last := 0, guardSum := 0, guardCount := 0, strikes := 0 } }))
              | .hunt x =>
                u.setCtx i { c with rx := { c.rx with phase := .hunt { x with run := 0, endSeen := false } } }
            else u)
        s

/-- In a frame's processing a CLEAR TIE path whose slots no other path or leg holds exchanges its two codes as
received (R4, R5, R80). A slot that no path and no leg holds is left undriven (R5). A PRIVATE TIE path that alone
holds its slots and context drives on its tie slot what the transmit direction returns for the station code, and on
its station slot what the receive direction delivers for the tie code, the idle code where it delivers none (R81,
R82); the transmit direction returns 90 for the first 23 preamble frames, 165 for the 24th, and while RUNNING the
code scrambled with the byte of its new index (R20, R97, R110). The frame after the 24th returns the code scrambled
with the first byte of the half in force and leaves the epoch start owed; a frame at an epoch's end returns it
scrambled with the first byte of the half then in force and leaves the rollover owed (R96 to R99, R110); what is owed
is the model's mark of a due step (log entry 14). A frame start whose processing is done at once is one whose
processing is held, with it done (log entry 3). -/
def Obligations.FrameDrivesTheHeldSlots : Prop :=
  (∀ (s : State) (id station ext tie : Nat) (p : Path),
    Table.find s.paths id = some p → p.kind = .tie station ext tie .clear →
    (∀ e ∈ s.paths, e.1 ≠ id → e.2.kind.station ≠ some station ∧ e.2.kind.tieSlot ≠ some tie) →
    Table.sorted s.paths = true →
    (∀ e ∈ s.bridges, ∀ g ∈ e.2.legs, g.slot ≠ .station station ∧ ∀ v, g.slot ≠ .tie tie v) →
      Table.find (processFrame s).drivenTie tie = some (s.stationCode station)
        ∧ Table.find (processFrame s).drivenStation station = some (s.tieCode tie))
    ∧ (∀ s : State,
    (∀ station, (∀ e ∈ s.paths, e.2.kind.station ≠ some station) →
        (∀ e ∈ s.bridges, ∀ g ∈ e.2.legs, g.slot ≠ .station station) →
        Table.find (processFrame s).drivenStation station = none)
      ∧ ∀ tie, (∀ e ∈ s.paths, e.2.kind.tieSlot ≠ some tie) →
        (∀ e ∈ s.bridges, ∀ g ∈ e.2.legs, ∀ v, g.slot ≠ .tie tie v) →
        Table.find (processFrame s).drivenTie tie = none)
    ∧ (∀ (s : State) (id i station ext tie : Nat) (p : Path) (c : Context),
      Table.find s.paths id = some p → p.kind = .tie station ext tie (.priv i) →
      Table.find s.ctxs i = some c → c.tieSlot = tie → Table.sorted s.paths = true → Table.sorted s.ctxs = true →
      (∀ e ∈ s.paths, e.1 ≠ id →
        e.2.kind.station ≠ some station ∧ e.2.kind.tieSlot ≠ some tie ∧ e.2.kind.ctx ≠ some i) →
      (∀ e ∈ s.ctxs, e.1 ≠ i → e.2.tieSlot ≠ tie) →
      (∀ e ∈ s.bridges, ∀ g ∈ e.2.legs,
        g.slot ≠ .station station ∧ (∀ v, g.slot ≠ .tie tie v) ∧ ∀ n, g.slot ≠ .tie n (.priv i)) →
      ∀ y, y = rxFrame s.huntTime (!(s.highway (tie / 32)).up) c.guardOn (s.tieCode tie) (s.tieRead (tie / 32)).slip c.rx →
        Table.find (processFrame s).drivenTie tie = some (txFrame c.tx (s.stationCode station)).2
          ∧ Table.find (processFrame s).drivenStation station = some (y.delivered.getD 0)
          ∧ Table.find (processFrame s).ctxs i
            = some { c with tx := (txFrame c.tx (s.stationCode station)).1, rx := y.rx })
    ∧ (∀ (x : TxState) (code : Code),
      (∀ n, x.phase = .preamble n → n < 23 → txFrame x code = ({ x with phase := .preamble (n + 1) }, 90))
      ∧ (x.phase = .preamble 23 → txFrame x code = ({ x with phase := .preamble 24 }, 165))
      ∧ (x.phase = .preamble 24 →
        txFrame x code
          = ({ x with dir := { x.dir with owed := 1 } },
              code + (keyStep x.dir.step x.dir.seed).extractLsb' 24 8))
      ∧ (∀ k1, x.phase = .running → x.dir.f = x.dir.length →
        k1 = (match x.dir.staged with
          | some h => keyStep h.step h.seed
          | none => keyStep x.dir.step x.dir.seed) →
        txFrame x code = ({ x with dir := { x.dir with owed := 1 } }, code + k1.extractLsb' 24 8))
      ∧ (x.phase = .running → x.dir.f < x.dir.length →
        (txFrame x code).2 = code + (keyStep x.dir.step x.dir.gen).extractLsb' 24 8
          ∧ (txFrame x code).1.dir.f = x.dir.f + 1 ∧ (txFrame x code).1.dir.gen = keyStep x.dir.step x.dir.gen))
    ∧ ∀ (s u : State) (codes : List (Nat × Code)) (later : Bool), exec (.frameStart ⟨codes, false, later⟩) s = .next u →
      u.work.held = true
        ∧ exec (.frameStart ⟨codes, true, later⟩) s = .next (processFrame { u with work := { u.work with held := false } })

/-! ## The privacy unit -/

/-- Two directions that hold the same half in force, staged half, index and generator stay so, and the receiver
delivers exactly the code the transmitter was given, in a frame without a slip (R19, R20, R22, R97, R116). The first
frame of an epoch, sent by a direction whose preamble is over, is delivered by a far receiver that has just seen the
preamble's end and holds the same half in force (R95, R110, R114). The arithmetic itself: a generator step, the
keystream byte of a state, the states of a key half in order, and a code scrambled and descrambled with a byte (R17
to R20). -/
def Obligations.FarEndHearsWhatWasSent : Prop :=
  (∀ (tx : TxState) (rx : RxState) (huntTime : Nat) (lost guardOn : Bool) (code : Code),
    tx.phase = .running → rx.phase = .running → tx.dir = rx.dir →
      (rxFrame huntTime lost guardOn (txFrame tx code).2 .normal rx).delivered = some code
        ∧ (rxFrame huntTime lost guardOn (txFrame tx code).2 .normal rx).rx.dir = (txFrame tx code).1.dir)
    ∧ (∀ (tx : TxState) (rx : RxState) (h : Hunt) (huntTime : Nat) (lost guardOn : Bool) (code : Code),
    tx.phase = .preamble 24 → rx.phase = .hunt h → h.endSeen = true →
    tx.dir.seed = rx.dir.seed → tx.dir.step = rx.dir.step →
      (rxFrame huntTime lost guardOn (txFrame tx code).2 .normal rx).delivered = some code
        ∧ (rxFrame huntTime lost guardOn (txFrame tx code).2 .normal rx).aligned = some (h.elapsed, false)
        ∧ (rxFrame huntTime lost guardOn (txFrame tx code).2 .normal rx).rx.phase = .running
        ∧ (rxFrame huntTime lost guardOn (txFrame tx code).2 .normal rx).rx.dir.f = 1
        ∧ (rxFrame huntTime lost guardOn (txFrame tx code).2 .normal rx).rx.dir.epoch = 1)
    ∧ ((∀ (step : Word16) (x : Word32),
        keyStep step x = x * 743605 + BitVec.ofNat 32 (2 * step.toNat + 1)
          ∧ (keyStep step x).toNat = (x.toNat * 743605 + (2 * step.toNat + 1)) % 4294967296)
      ∧ (∀ x : Word32, (keyByte x).toNat = x.toNat / 16777216)
      ∧ (∀ (step : Word16) (seed : Word32) (n : Nat),
        keySteps step seed 0 = seed ∧ keySteps step seed (n + 1) = keyStep step (keySteps step seed n))
      ∧ ∀ c k : Code, (scramble c k).toNat = (c.toNat + k.toNat) % 256
        ∧ (descramble c k).toNat = (c.toNat + 256 - k.toNat) % 256)

/-- A whole preamble, received frame by frame without a slip on an UP highway, leaves the hunting far receiver with
the end-seen marker set and the transmitter with its 24 preamble frames sent (R110, R113). -/
def Obligations.PreambleIsSentAndFound : Prop :=
  ∀ (tx : TxState) (rx : RxState) (h : Hunt) (huntTime : Nat) (guardOn : Bool) (codes : List Code),
    tx.phase = .preamble 0 → rx.phase = .hunt h → h.endSeen = false → codes.length = 24 →
      (codes.foldl
          (fun (x : TxState × RxState) code =>
            ((txFrame x.1 code).1, (rxFrame huntTime false guardOn (txFrame x.1 code).2 .normal x.2).rx))
          (tx, rx)).1.phase = .preamble 24
        ∧ ∃ k, (codes.foldl
            (fun (x : TxState × RxState) code =>
              ((txFrame x.1 code).1, (rxFrame huntTime false guardOn (txFrame x.1 code).2 .normal x.2).rx))
            (tx, rx)).2.phase = .hunt k ∧ k.endSeen = true

/-- A hunting direction's frame without the end-seen marker: the elapsed count rises, held at 240000, the report
falls due at the hunt report time once, and the code moves the run and the marker as the table of R113 says; on a
LOST highway every code is another (R113, R115, R118). A RUNNING receive direction away from its epoch's end: NORMAL
advances once, DELETED twice and the second byte descrambles; the code delivered is held as the last, and an enabled
guard adds its magnitude to the sum and one to the count; REPEATED delivers the last code again and is not counted by
the guard (R96, R116, R121). With the end-seen marker set a NORMAL frame aligns with the first byte of the half in
force, a DELETED one with the second, at index 2, and a REPEATED one changes nothing (R114); an alignment raises
RX_ALIGNED on the links of the path's controller (R125), and a frame's processing changes ports by its receive
directions alone. At an epoch's end a DELETED frame makes the last advance and leaves the rollover owed, or leaves
two advances owed, the code descrambled with the byte that the half then in force gives, held as the last and counted
by the guard; a NORMAL frame leaves one owed (R116, R117, R121). A NORMAL frame that reaches the warning index, and a
DELETED frame that reaches or passes it, makes the warning due (R101, R117). The due marks, with owed, are the
model's own (log entry 14). That a frame's receive directions go in ascending index, and so the order of the
RX_ALIGNED events of different contexts and their place in the processing, is the model's choice (log entry 5). -/
def Obligations.ReceiverHuntsAndFollowsTheSlips : Prop :=
  (∀ (rx : RxState) (h : Hunt) (huntTime : Nat) (lost guardOn : Bool) (code : Code) (slip : Slip),
    rx.phase = .hunt h → h.endSeen = false → h.run ≤ 8 → h.reportDue = false →
      ∃ k, (rxFrame huntTime lost guardOn code slip rx).rx = { rx with phase := .hunt k }
        ∧ (rxFrame huntTime lost guardOn code slip rx).delivered = none
        ∧ k.elapsed = (if h.elapsed < 240000 then h.elapsed + 1 else 240000)
        ∧ k.reported = h.reported
        ∧ (k.reportDue = true ↔ 8000 * huntTime ≤ k.elapsed ∧ h.reported = false)
        ∧ k.run = (if lost then 0 else if code = 90 then (if h.run < 8 then h.run + 1 else 8)
            else if code = 165 ∧ h.run = 8 then 8 else 0)
        ∧ (k.endSeen = true ↔ lost = false ∧ code = 165 ∧ h.run = 8))
    ∧ (∀ (rx : RxState) (huntTime : Nat) (lost guardOn : Bool) (code c : Code) (g1 g2 : Word32), rx.phase = .running →
      g1 = keyStep rx.dir.step rx.dir.gen → g2 = keyStep rx.dir.step g1 →
      (rxFrame huntTime lost guardOn code .repeated rx = { rx := rx, delivered := some rx.last, aligned := none })
      ∧ (rx.dir.f < rx.dir.length → c = code - g1.extractLsb' 24 8 →
        rxFrame huntTime lost guardOn code .normal rx =
          { rx :=
              { rx with
                dir := { rx.dir with
                  f := rx.dir.f + 1, gen := g1, owed := 0,
                  warnDue := rx.dir.warnDue
                    || decide (0 < rx.dir.lead ∧ rx.dir.staged = none ∧ rx.dir.f + 1 = rx.dir.length - rx.dir.lead) },
                last := c, guardSum := rx.guardSum + (if guardOn then magnitude c else 0),
                guardCount := rx.guardCount + (if guardOn then 1 else 0) },
            delivered := some c, aligned := none })
      ∧ (rx.dir.f + 1 < rx.dir.length → c = code - g2.extractLsb' 24 8 →
        rxFrame huntTime lost guardOn code .deleted rx =
          { rx :=
              { rx with
                dir := { rx.dir with
                  f := rx.dir.f + 2, gen := g2, owed := 0,
                  warnDue := rx.dir.warnDue
                    || decide (0 < rx.dir.lead ∧ rx.dir.staged = none
                      ∧ (rx.dir.f + 1 = rx.dir.length - rx.dir.lead ∨ rx.dir.f + 2 = rx.dir.length - rx.dir.lead)) },
                last := c, guardSum := rx.guardSum + (if guardOn then magnitude c else 0),
                guardCount := rx.guardCount + (if guardOn then 1 else 0) },
            delivered := some c, aligned := none }))
    ∧ (∀ (rx : RxState) (h : Hunt) (huntTime : Nat) (lost guardOn : Bool) (code c : Code) (k1 k2 : Word32),
      rx.phase = .hunt h → h.endSeen = true → k1 = keyStep rx.dir.step rx.dir.seed → k2 = keyStep rx.dir.step k1 →
      (rxFrame huntTime lost guardOn code .repeated rx = { rx := rx, delivered := none, aligned := none })
      ∧ (c = code - k1.extractLsb' 24 8 →
        rxFrame huntTime lost guardOn code .normal rx =
          { rx :=
              { phase := .running, dir := { rx.dir with f := 1, epoch := 1, gen := k1 }, last := c,
                guardSum := if guardOn then magnitude c else 0, guardCount := if guardOn then 1 else 0, strikes := 0 },
            delivered := some c, aligned := some (h.elapsed, false) })
      ∧ (c = code - k2.extractLsb' 24 8 → rx.dir.lead + 8000 ≤ rx.dir.length →
        rxFrame huntTime lost guardOn code .deleted rx =
          { rx :=
              { phase := .running, dir := { rx.dir with f := 2, epoch := 1, gen := k2 }, last := c,
                guardSum := if guardOn then magnitude c else 0, guardCount := if guardOn then 1 else 0, strikes := 0 },
            delivered := some c, aligned := some (h.elapsed, true) }))
    ∧ (∀ (rx : RxState) (huntTime : Nat) (lost guardOn : Bool) (code c : Code) (k1 k2 : Word32), rx.phase = .running →
      k1 = (match rx.dir.staged with
        | some h => keyStep h.step h.seed
        | none => keyStep rx.dir.step rx.dir.seed) →
      k2 = (match rx.dir.staged with
        | some h => keyStep h.step k1
        | none => keyStep rx.dir.step k1) →
      (rx.dir.f = rx.dir.length → c = code - k1.extractLsb' 24 8 →
        rxFrame huntTime lost guardOn code .normal rx =
          { rx :=
              { rx with
                dir := { rx.dir with owed := 1 }, last := c,
                guardSum := rx.guardSum + (if guardOn then magnitude c else 0),
                guardCount := rx.guardCount + (if guardOn then 1 else 0) },
            delivered := some c, aligned := none })
      ∧ (rx.dir.f + 1 = rx.dir.length → c = code - k1.extractLsb' 24 8 →
        rxFrame huntTime lost guardOn code .deleted rx =
          { rx :=
              { rx with
                dir := { rx.dir with f := rx.dir.length, gen := keyStep rx.dir.step rx.dir.gen, owed := 1 }, last := c,
                guardSum := rx.guardSum + (if guardOn then magnitude c else 0),
                guardCount := rx.guardCount + (if guardOn then 1 else 0) },
            delivered := some c, aligned := none })
      ∧ (rx.dir.f = rx.dir.length → c = code - k2.extractLsb' 24 8 →
        8000 ≤ (match rx.dir.staged with
          | some h => h.length.getD rx.dir.length
          | none => rx.dir.length) →
        rxFrame huntTime lost guardOn code .deleted rx =
          { rx :=
              { rx with
                dir := { rx.dir with owed := 2 }, last := c,
                guardSum := rx.guardSum + (if guardOn then magnitude c else 0),
                guardCount := rx.guardCount + (if guardOn then 1 else 0) },
            delivered := some c, aligned := none })
      ∧ (rx.dir.f + 2 ≤ rx.dir.length → rx.dir.warnDue = false →
        ((rxFrame huntTime lost guardOn code .deleted rx).rx.dir.warnDue = true ↔
          0 < rx.dir.lead ∧ rx.dir.staged = none
            ∧ (rx.dir.f + 1 = rx.dir.length - rx.dir.lead ∨ rx.dir.f + 2 = rx.dir.length - rx.dir.lead))))
    ∧ (∀ (s : State) (heard : Table Code) (i : Nat) (c : Context) (p : Path) (h : Hunt) (deleted : Bool) (y : RxResult),
      Table.find s.ctxs i = some c → Table.find s.paths c.path = some p → c.rx.phase = .hunt h → h.endSeen = true →
      (s.tieRead (c.tieSlot / 32)).slip = (if deleted then .deleted else .normal) →
      y = rxFrame s.huntTime (!(s.highway (c.tieSlot / 32)).up) c.guardOn (s.tieCode c.tieSlot)
        (s.tieRead (c.tieSlot / 32)).slip c.rx →
        receiveContext i (s, heard)
          = (raiseOn (.rxAligned i c.path c.tieSlot h.elapsed deleted) p.controller.links (s.setCtx i { c with rx := y.rx }),
            Table.put heard c.tieSlot (y.delivered.getD 0)))
    ∧ ∀ (s : State) (l : Link),
      (processFrame s).port l
        = ((Table.keys s.ctxs).foldl (fun x i => receiveContext i x)
            ({ s with drivenStation := [], drivenTie := [] }, [])).1.port l

/-- The frame after the 24th preamble frame makes the transmit direction RUNNING at index 1 of epoch 1, with the
generator one step from the seed in force; nothing else changes (R95, R110). The advance owed is the model's mark of
a due step (log entry 14). -/
def Obligations.PreambleEndStartsTheFirstEpoch : Prop :=
  ∀ (s : State) (i : Nat) (c : Context), Table.find (beginWork s).ctxs i = some c → c.tx.phase = .preamble 24 →
    c.tx.dir.owed = 1 →
      exec (.preambleEnd i) s = .next ((beginWork s).setCtx i
        { c with tx := { phase := .running,
                         dir := { c.tx.dir with f := 1, epoch := 1, owed := 0,
                                                gen := keyStep c.tx.dir.step c.tx.dir.seed } } })

/-- The advance to the warning index with nothing staged and a lead above 0 makes the key-due warning due (R101), in
the transmit direction's work in a frame and in the receive direction's at NORMAL, which away from the epoch's end
make that one advance and leave none owed (R97, R116); the warning sets KEY_DUE and raises KEY_DUE with the lead as
the frames remaining, on the links of the path's controller (R101, R106, R108). The hunt report sets the reported
marker and HUNT_TIMEOUT, and raises HUNT_TIMEOUT with the hunt elapsed on the links of the path's controller (R115,
R125). The due marks are the model's own (log entry 14). -/
def Obligations.KeyDueAndHuntReportAreRaised : Prop :=
  (((∀ d : DirState, d.f < d.length → d.warnDue = false →
      (d.advance.warnDue = true ↔ 0 < d.lead ∧ d.f + 1 = d.length - d.lead ∧ d.staged = none))
      ∧ (∀ (x : TxState) (code : Code), x.phase = .running → x.dir.f < x.dir.length →
        (txFrame x code).1 = { x with dir := { x.dir.advance with owed := 0 } }
          ∧ (x.dir.warnDue = false →
            ((txFrame x code).1.dir.warnDue = true ↔
              0 < x.dir.lead ∧ x.dir.f + 1 = x.dir.length - x.dir.lead ∧ x.dir.staged = none)))
      ∧ ∀ (x : RxState) (huntTime : Nat) (lost guardOn : Bool) (code : Code), x.phase = .running →
        x.dir.f < x.dir.length →
        (rxFrame huntTime lost guardOn code .normal x).rx.dir = { x.dir.advance with owed := 0 }
          ∧ (x.dir.warnDue = false →
            ((rxFrame huntTime lost guardOn code .normal x).rx.dir.warnDue = true ↔
              0 < x.dir.lead ∧ x.dir.f + 1 = x.dir.length - x.dir.lead ∧ x.dir.staged = none)))
    ∧ ∀ (s : State) (i : Nat) (d : Dir) (c : Context) (p : Path), Table.find (beginWork s).ctxs i = some c →
      Table.find (beginWork s).paths c.path = some p → c.running d = true → (c.dir d).warnDue = true →
        exec (.keyDueWarning i d) s
          = .next (raiseOn (.keyDue i c.path d (c.dir d).epoch (c.dir d).lead) p.controller.links
              ((beginWork s).setCtx i
                { (c.setDir d { c.dir d with warnDue := false }) with flags := { c.flags with keyDue := true } })))
    ∧ (∀ (s : State) (i : Nat) (c : Context) (h : Hunt) (p : Path), Table.find (beginWork s).ctxs i = some c →
    Table.find (beginWork s).paths c.path = some p → c.rx.phase = .hunt h → h.reportDue = true →
      exec (.huntReport i) s
        = .next (raiseOn (.huntTimeout i c.path c.tieSlot h.elapsed) p.controller.links
            ((beginWork s).setCtx i
              { c with rx := { c.rx with phase := .hunt { h with reported := true, reportDue := false } },
                       flags := { c.flags with huntTimeout := true } })))

/-- A rollover of a frame's only advance takes up the staged half, or with none starts the old half again and sets
KEY_STALE; either way it raises KEY_ROLLED on the links of the path's controller and hands the rollover to the level
survey (R96, R98 to R100, R106, R108, R155). The advance owed is the model's mark of a due step (log entry 14). Where
a DELETED frame owes two advances the second follows the rollover, to index 2 (R116, R117). -/
def Obligations.RolloverStartsTheNextEpoch : Prop :=
  (∀ (s : State) (i : Nat) (d : Dir) (c : Context) (p : Path), Table.find (beginWork s).ctxs i = some c →
    Table.find (beginWork s).paths c.path = some p → c.running d = true → (c.dir d).owed = 1 →
    (c.dir d).f = (c.dir d).length →
      (∀ h, (c.dir d).staged = some h →
        exec (.rollover i d) s = .next (surveyTrigger (.rollover i d)
          (raiseOn
            (.keyRolled i c.path d (if (c.dir d).epoch < 4294967295 then (c.dir d).epoch + 1 else 1) false
              (h.length.getD (c.dir d).length / 8000) (h.lead.getD (c.dir d).lead / 8000))
            p.controller.links
            ((beginWork s).setCtx i (c.setDir d
              { c.dir d with
                seed := h.seed, step := h.step, length := h.length.getD (c.dir d).length,
                lead := h.lead.getD (c.dir d).lead, staged := none, f := 1,
                epoch := if (c.dir d).epoch < 4294967295 then (c.dir d).epoch + 1 else 1,
                gen := keyStep h.step h.seed, owed := 0 })))))
      ∧ ((c.dir d).staged = none →
        exec (.rollover i d) s = .next (surveyTrigger (.rollover i d)
          (raiseOn
            (.keyRolled i c.path d (if (c.dir d).epoch < 4294967295 then (c.dir d).epoch + 1 else 1) true
              ((c.dir d).length / 8000) ((c.dir d).lead / 8000))
            p.controller.links
            ((beginWork s).setCtx i
              { (c.setDir d
                  { c.dir d with
                    f := 1, epoch := if (c.dir d).epoch < 4294967295 then (c.dir d).epoch + 1 else 1,
                    gen := keyStep (c.dir d).step (c.dir d).seed, owed := 0 }) with
                flags := { c.flags with keyStale := true } })))))
    ∧ ∀ (s : State) (i : Nat) (d : Dir) (c : Context) (p : Path), Table.find (beginWork s).ctxs i = some c →
      Table.find (beginWork s).paths c.path = some p → c.running d = true → (c.dir d).owed = 2 →
      (c.dir d).f = (c.dir d).length →
      (∀ h, (c.dir d).staged = some h → h.lead.getD (c.dir d).lead + 8000 ≤ h.length.getD (c.dir d).length →
        exec (.rollover i d) s = .next (surveyTrigger (.rollover i d)
          (raiseOn
            (.keyRolled i c.path d (if (c.dir d).epoch < 4294967295 then (c.dir d).epoch + 1 else 1) false
              (h.length.getD (c.dir d).length / 8000) (h.lead.getD (c.dir d).lead / 8000))
            p.controller.links
            ((beginWork s).setCtx i (c.setDir d
              { c.dir d with
                seed := h.seed, step := h.step, length := h.length.getD (c.dir d).length,
                lead := h.lead.getD (c.dir d).lead, staged := none, f := 2,
                epoch := if (c.dir d).epoch < 4294967295 then (c.dir d).epoch + 1 else 1,
                gen := keyStep h.step (keyStep h.step h.seed), owed := 0 })))))
      ∧ ((c.dir d).staged = none → (c.dir d).lead + 8000 ≤ (c.dir d).length →
        exec (.rollover i d) s = .next (surveyTrigger (.rollover i d)
          (raiseOn
            (.keyRolled i c.path d (if (c.dir d).epoch < 4294967295 then (c.dir d).epoch + 1 else 1) true
              ((c.dir d).length / 8000) ((c.dir d).lead / 8000))
            p.controller.links
            ((beginWork s).setCtx i
              { (c.setDir d
                  { c.dir d with
                    f := 2, epoch := if (c.dir d).epoch < 4294967295 then (c.dir d).epoch + 1 else 1,
                    gen := keyStep (c.dir d).step (keyStep (c.dir d).step (c.dir d).seed), owed := 0 }) with
                flags := { c.flags with keyStale := true } }))))

/-- The end of a guard window of 64 counted frames comes after all the advances of that frame, the transmit
direction's and the receive direction's: it does what their own steps do, with their KEY events, and then judges the
window (R97, R116, R125). A mean at or below the ceiling clears the strikes, one above it adds a strike, and the
strike that reaches the limit takes the direction into a new hunt with SYNC_LOST set and raised; sum and count start
again (R121, R122). In a frame that ends no window the step does nothing. The frame count of 64 and the advances owed
are the model's marks of due steps (log entry 14); that tx goes before rx is log entry 5. -/
def Obligations.GuardWindowIsJudged : Prop :=
  (∀ (s : State) (i : Nat) (c : Context) (p : Path), Table.find (beginWork s).ctxs i = some c →
    Table.find (beginWork s).paths c.path = some p → c.rx.phase = .running → c.rx.guardCount = 64 →
      ∃ u1 u2 u3 u d,
        exec (.keyDueWarning i .tx) s = .next u1 ∧ exec (.rollover i .tx) u1 = .next u2
        ∧ exec (.keyDueWarning i .rx) u2 = .next u3 ∧ exec (.rollover i .rx) u3 = .next u
        ∧ Table.find u.ctxs i = some d
        ∧ d.path = c.path ∧ d.tieSlot = c.tieSlot ∧ d.ceiling = c.ceiling ∧ d.strikesLimit = c.strikesLimit
        ∧ d.rx.phase = c.rx.phase ∧ d.rx.last = c.rx.last ∧ d.rx.guardSum = c.rx.guardSum
        ∧ d.rx.guardCount = c.rx.guardCount ∧ d.rx.strikes = c.rx.strikes
        ∧ (c.rx.dir.owed = 0 → c.rx.dir.warnDue = false →
          (c.tx.phase = .running → c.tx.dir.owed = 0 ∧ c.tx.dir.warnDue = false) → u = beginWork s ∧ d = c)
        ∧ (c.rx.guardSum / 64 ≤ c.ceiling →
          exec (.guardWindowEnd i) s = .next (u.setCtx i
            { d with rx := { d.rx with guardSum := 0, guardCount := 0, strikes := 0 } }))
        ∧ (c.ceiling < c.rx.guardSum / 64 → c.rx.strikes + 1 < c.strikesLimit →
          exec (.guardWindowEnd i) s = .next (u.setCtx i
            { d with rx := { d.rx with guardSum := 0, guardCount := 0, strikes := c.rx.strikes + 1 } }))
        ∧ (c.ceiling < c.rx.guardSum / 64 → c.rx.strikes + 1 = c.strikesLimit →
          exec (.guardWindowEnd i) s = .next (surveyTrigger (.syncLost i)
            (raiseOn
              (.syncLost i c.path c.tieSlot (.guard (c.rx.guardSum / 64) c.strikesLimit) d.rx.dir.epoch d.rx.dir.f)
              p.controller.links
              (u.setCtx i
                { d with
                  flags := { d.flags with syncLost := true },
                  rx :=
                    { phase :=
                        .hunt { run := 0, elapsed := 0, endSeen := false, reported := false, reportDue := false },
                      dir := { d.rx.dir with f := 0, epoch := 0, gen := d.rx.dir.seed, owed := 0, warnDue := false },
                      last := 0, guardSum := 0, guardCount := 0, strikes := 0 } })))))
    ∧ ∀ (s : State) (i : Nat),
      (∀ c, Table.find (beginWork s).ctxs i = some c → c.rx.phase ≠ .running ∨ c.rx.guardCount < 64) →
      exec (.guardWindowEnd i) s = .next (beginWork s)

/-! ## Bridges and the level survey -/

/-- A leg's output is the clamped and encoded sum of the other legs' contributions, each its input times its gain,
divided by 16 and truncated toward zero; a LISTEN leg contributes 0, a leg never hears itself, and the only leg of a
bridge is sent the idle code (R141). In a frame's processing a leg's input is its slot's code as received, or for a
PRIVATE tie leg the code its receive direction delivers, 0 where it delivers none (R140); every leg's window sum
rises by the magnitude of its input and the window count by one (R140, R142); and each leg whose slot and context
nothing else holds is sent its output: a station or CLEAR tie leg on its slot, a PRIVATE tie leg through its transmit
direction (R141). -/
def Obligations.BridgeMixesTheOtherLegs : Prop :=
  (∀ (g : Leg) (x : Int), g.mode = .talk → contribution g x = Int.tdiv (x * g.gain) 16)
    ∧ (∀ (g : Leg) (x : Int), g.mode = .listen → contribution g x = 0)
    ∧ (∀ (before after : List Int) (own : Int),
        legOutput (before ++ own :: after) before.length
          = encodeSample (max (-3952) (min 3952 (before.sum + after.sum))))
    ∧ (∀ own : Int, legOutput [own] 0 = 0)
    ∧ ∀ (s : State) (b : Nat) (x : Bridge), Table.sorted s.bridges = true → Table.sorted s.ctxs = true →
      Table.find s.bridges b = some x →
      ∃ input : Leg → Int,
        (∀ g n, g.slot = .station n → input g = decodeSample (s.stationCode n))
        ∧ (∀ g n, g.slot = .tie n .clear → input g = decodeSample (s.tieCode n))
        ∧ (∀ g n i j c, g.slot = .tie n (.priv i) → Table.find s.ctxs j = some c → c.tieSlot = n →
          (∀ e ∈ s.ctxs, e.1 ≠ j → e.2.tieSlot ≠ n) →
          input g = decodeSample
            ((rxFrame s.huntTime (!(s.highway (n / 32)).up) c.guardOn (s.tieCode n) (s.tieRead (n / 32)).slip
              c.rx).delivered.getD 0))
        ∧ Table.find (processFrame s).bridges b = some
            { x with
              windowCount := x.windowCount + 1,
              legs := x.legs.map fun g => { g with sum := g.sum + (input g).natAbs } }
        ∧ ∀ (before : List Leg) (g : Leg) (after : List Leg) (out : Code), x.legs = before ++ g :: after →
          out = encodeSample (max (-3952) (min 3952
            ((before.map fun h => contribution h (input h)).sum + (after.map fun h => contribution h (input h)).sum))) →
          (∀ n, g.slot = .station n →
            (∀ e ∈ s.paths, e.2.kind.code = 0 → e.2.kind.station ≠ some n) →
            (∀ h ∈ before ++ after, h.slot ≠ .station n) →
            (∀ e ∈ s.bridges, e.1 ≠ b → ∀ h ∈ e.2.legs, h.slot ≠ .station n) →
            Table.find (processFrame s).drivenStation n = some out)
          ∧ (∀ n, g.slot = .tie n .clear →
            (∀ e ∈ s.paths, e.2.kind.code = 0 → e.2.kind.tieSlot ≠ some n) →
            (∀ h ∈ before ++ after, ∀ v, h.slot ≠ .tie n v) →
            (∀ e ∈ s.bridges, e.1 ≠ b → ∀ h ∈ e.2.legs, ∀ v, h.slot ≠ .tie n v) →
            Table.find (processFrame s).drivenTie n = some out)
          ∧ ∀ n i c, g.slot = .tie n (.priv i) → Table.find s.ctxs i = some c →
            (∀ e ∈ s.paths, e.2.kind.code = 0 → e.2.kind.tieSlot ≠ some n ∧ e.2.kind.ctx ≠ some i) →
            (∀ h ∈ before ++ after, (∀ v, h.slot ≠ .tie n v) ∧ ∀ m, h.slot ≠ .tie m (.priv i)) →
            (∀ e ∈ s.bridges, e.1 ≠ b → ∀ h ∈ e.2.legs, (∀ v, h.slot ≠ .tie n v) ∧ ∀ m, h.slot ≠ .tie m (.priv i)) →
            Table.find (processFrame s).drivenTie n = some (txFrame c.tx out).2
              ∧ (Table.find (processFrame s).ctxs i).map Context.tx = some (txFrame c.tx out).1

/-- At a window boundary the talker is the TALK leg of the highest mean at or above the threshold in force, the
earliest of equals, or none; staged settings then come into force and sums and count start again; a changed talker
raises TALKER on the controller's links (R142, R143). The frame count of 64 is the model's mark of a due step (log
entry 14). -/
def Obligations.WindowBoundaryChoosesTheTalker : Prop :=
  ∀ (s : State) (b : Nat) (x : Bridge), Table.find (beginWork s).bridges b = some x → x.windowCount = 64 →
    ∃ choice : Option (Nat × Nat),
      (∀ pm, choice = some pm ↔
          ∃ before g after, x.legs = before ++ g :: after ∧ pm = (g.path, g.sum / 64) ∧ g.mode = .talk
            ∧ x.threshold ≤ g.sum / 64
            ∧ (∀ h ∈ before, h.mode = .talk → x.threshold ≤ h.sum / 64 → h.sum / 64 < g.sum / 64)
            ∧ ∀ h ∈ after, h.mode = .talk → x.threshold ≤ h.sum / 64 → h.sum / 64 ≤ g.sum / 64)
        ∧ exec (.bridgeWindowBoundary b) s = .next
            ((if choice.map Prod.fst = x.talker then id
              else raiseOn (.talker b choice x.talker false) x.controller.links)
              { beginWork s with
                bridges :=
                  Table.put (beginWork s).bridges b
                    { x with
                      threshold := x.staged.getD x.threshold, staged := none, windowCount := 0,
                      talker := choice.map Prod.fst,
                      legs := x.legs.map fun g =>
                        { g with
                          gain := (g.staged.map Prod.fst).getD g.gain, mode := (g.staged.map Prod.snd).getD g.mode,
                          staged := none, sum := 0 } } })

/-- A frame of the survey's work adds the magnitude of the measured code, keeps the peak and counts the frame; in
STOPPED and STANDBY it does nothing (R151). A trigger that the settings name starts or restarts the pass at entry 1
unless the survey is STOPPED; any other has no effect. For a survey with no completion due (R155). The code measured:
a station slot's code; a tie slot's code at LINE, and at CLEAR where no context holds the slot; at CLEAR of a private
tie slot the code its receive direction delivers in this frame, the idle code where it delivers none (R150). A
frame's processing does that work, or, where FRAME_START said so, leaves it owed to be done after the triggers, with
the codes delivered in this frame (R156, log entry 4). A count that stands at the window is the model's mark of a due
step (log entry 14). -/
def Obligations.SurveyMeasuresOnTriggers : Prop :=
  ((∀ (s : State) (clear : Table Code) (i sum peak n : Nat) (e : SurveyEntry),
      s.survey.state = .measuring i sum peak n → s.survey.entries[i - 1]? = some e →
      surveyCount clear s =
        { s with
          survey :=
            { s.survey with
              state := .measuring i (sum + magnitude (surveyCode s clear e))
                (if peak < magnitude (surveyCode s clear e) then magnitude (surveyCode s clear e) else peak)
                (n + 1) } })
    ∧ ∀ (s : State) (clear : Table Code), s.survey.state = .stopped ∨ s.survey.state = .standby →
      surveyCount clear s = s)
    ∧ (∀ (s : State) (t : Trigger),
    (s.survey.trigger ≠ t → surveyTrigger t s = s)
      ∧ (s.survey.state = .stopped → surveyTrigger t s = s)
      ∧ (s.survey.trigger = t → s.survey.state = .standby →
        surveyTrigger t s = { s with survey := { s.survey with state := .measuring 1 0 0 0 } })
      ∧ ∀ i sum peak n, s.survey.trigger = t → s.survey.state = .measuring i sum peak n → n < s.survey.window →
        surveyTrigger t s = { s with survey := { s.survey with state := .measuring 1 0 0 0 } })
    ∧ (∀ (s : State) (clear : Table Code) (n : Nat) (point : Bool),
      surveyCode s clear { slot := .station n, clearPoint := point } = s.stationCode n
        ∧ surveyCode s clear { slot := .tie n, clearPoint := false } = s.tieCode n
        ∧ (Table.find clear n = none → surveyCode s clear { slot := .tie n, clearPoint := true } = s.tieCode n)
        ∧ ∀ c, Table.find clear n = some c → surveyCode s clear { slot := .tie n, clearPoint := true } = c)
    ∧ (∀ (s : State) (heard : Table Code),
      heard = ((Table.keys s.ctxs).foldl (fun x i => receiveContext i x)
        ({ s with drivenStation := [], drivenTie := [] }, [])).2 →
        (s.work.surveyLater = false →
          (processFrame s).survey = (surveyCount heard s).survey ∧ (processFrame s).work = s.work)
        ∧ (s.work.surveyLater = true →
          (processFrame s).survey = s.survey ∧ (processFrame s).work = { s.work with surveyOwed := some heard })
        ∧ (Table.sorted s.ctxs = true → ∀ n, (∀ e ∈ s.ctxs, e.2.tieSlot ≠ n) → Table.find heard n = none)
        ∧ ∀ i c, Table.sorted s.ctxs = true → Table.find s.ctxs i = some c →
          (∀ e ∈ s.ctxs, e.1 ≠ i → e.2.tieSlot ≠ c.tieSlot) →
          Table.find heard c.tieSlot = some
            ((rxFrame s.huntTime (!(s.highway (c.tieSlot / 32)).up) c.guardOn (s.tieCode c.tieSlot)
              (s.tieRead (c.tieSlot / 32)).slip c.rx).delivered.getD 0))
    ∧ ∀ (s : State) (heard : Table Code), (beginWork s).work.surveyOwed = some heard →
      exec .surveyEntryComplete s = .next
        (surveyComplete
          (surveyCount heard { beginWork s with work := { (beginWork s).work with surveyOwed := none } }))

/-- The frame that completes entry i writes its record with the mean, the peak, the frame count and the verdict,
raises SURVEY_RESULT to link M where the report setting admits the verdict, and moves on to the next entry or ends
the pass (R152, R153). For a frame whose survey work is not still owed. A count that stands at the window is the
model's mark of a due step (log entry 14); survey work still owed is log entry 4. -/
def Obligations.SurveyEntryCompletes : Prop :=
  ∀ (s : State) (i sum peak : Nat) (e : SurveyEntry), (beginWork s).work.surveyOwed = none →
    (beginWork s).survey.state = .measuring i sum peak (beginWork s).survey.window →
    (beginWork s).survey.entries[i - 1]? = some e →
      ∃ outside : Bool,
        (outside = false ↔ (beginWork s).survey.low ≤ sum / (beginWork s).survey.window
            ∧ sum / (beginWork s).survey.window ≤ (beginWork s).survey.high)
        ∧ exec .surveyEntryComplete s = .next
            ((if (beginWork s).survey.report = .all ∨ ((beginWork s).survey.report = .outside ∧ outside = true)
                  ∨ ((beginWork s).survey.report = .inside ∧ outside = false)
              then raiseOn (.surveyResult i e
                { mean := sum / (beginWork s).survey.window, peak := peak, at_ := (beginWork s).frameCount,
                  outside := outside }
                (beginWork s).survey.window (beginWork s).survey.low (beginWork s).survey.high) [.m]
              else id)
              { beginWork s with
                survey :=
                { (beginWork s).survey with
                  results := Table.put (beginWork s).survey.results i
                    { mean := sum / (beginWork s).survey.window, peak := peak, at_ := (beginWork s).frameCount,
                      outside := outside },
                  state :=
                    if i < (beginWork s).survey.entries.length then .measuring (i + 1) 0 0 0
                    else if (beginWork s).survey.repeating = true then .measuring 1 0 0 0
                    else if (beginWork s).survey.trigger = .immediate then .stopped else .standby } })

/-! ## Events -/

/-- Raising an event on a link changes that port alone: queued with the frame count if the link is UP and the class
is enabled and the queue holds fewer than 32; lost, with the marker set at the first loss, if it holds 32; otherwise
nothing (R170 to R172). The class's enable governs each kind; EVENTS_LOST has no class and is always enabled (R170,
R171). -/
def Obligations.EventIsQueuedOrLost : Prop :=
  ∀ (k : EventKind) (l : Link) (s : State),
    ((s.port l).state ≠ .up ∨ EventKind.enabled (s.port l).enables k = false → raiseOn k [l] s = s)
      ∧ ((s.port l).state = .up → EventKind.enabled (s.port l).enables k = true → (s.port l).events.length < 32 →
        raiseOn k [l] s
          = s.setPort l { s.port l with events := (s.port l).events ++ [{ kind := k, stamp := s.frameCount }] })
      ∧ ((s.port l).state = .up → EventKind.enabled (s.port l).enables k = true → 32 ≤ (s.port l).events.length →
        raiseOn k [l] s = s.setPort l { s.port l with lost := some ((s.port l).lost.getD s.frameCount) })
      ∧ ∀ e : Enables, EventKind.enabled e k =
        match k with
        | .admitted _ _ => e.admission
        | .admissionFailed _ _ _ => e.admission
        | .lockedOut _ _ _ => e.admission
        | .unlocked _ _ => e.admission
        | .deadmitted _ _ _ => e.admission
        | .pathCleared _ _ _ _ => e.path
        | .pathOrphaned _ _ _ _ _ => e.path
        | .orphansAdopted _ _ _ _ _ => e.path
        | .keyDue _ _ _ _ _ => e.key
        | .keyRolled _ _ _ _ _ _ _ => e.key
        | .rxAligned _ _ _ _ _ => e.sync
        | .syncLost _ _ _ _ _ _ => e.sync
        | .huntTimeout _ _ _ _ => e.sync
        | .talker _ _ _ _ => e.bridge
        | .surveyResult _ _ _ _ _ _ => e.survey
        | .tieSlip _ _ => e.highway
        | .tieLost _ _ => e.highway
        | .tieRestored _ => e.highway
        | .linkChange _ _ => e.link
        | .eventsLost _ => true

/-! ## Admission and the store: the part's own steps -/

/-- A pending challenge whose expiry frame has begun expires: the failure of cause EXPIRED is taken. One whose frame
has not begun, or no challenge at all, does not (R56, R57). What a failure does: the challenge gone, one failure
more, LOCKED with the lockout in frames at the limit and IDLE below it, an expiry leaving the marker set; an ADMITTED
extension's path is cleared; every other extension's standing stays (R55 to R57, R62). The events of a failure, in
order: ADMISSION_FAILED for an expiry and none for a mismatch, LOCKED_OUT at the limit (to link M as well),
DEADMITTED for an ADMITTED extension with the path it holds, of cause EXPIRED or RECHECK_FAILED, on the issuing link
if it is UP and every call-processor link if not; then the path is cleared with its events (R55, R56, R62, R67). -/
def Obligations.ChallengeExpiryIsAFailure : Prop :=
  (∀ (s : State) (i : Nat) (c : Challenge), ((workDue s).ext i).challenge = some c →
    (c.expiry = (workDue s).frameCount → exec (.challengeExpiry i) s = .next (failChallenge i c .expired (workDue s)))
      ∧ (c.expiry ≠ (workDue s).frameCount → exec (.challengeExpiry i) s = .next (workDue s)))
    ∧ (∀ (s : State) (i : Nat) (c : Challenge) (cause : FailCause), StationLaw s →
      ((failChallenge i c cause s).ext i).challenge = none
      ∧ ((failChallenge i c cause s).ext i).failures = (s.ext i).failures + 1
      ∧ ((failChallenge i c cause s).ext i).standing
          = (if s.failLimit ≤ (s.ext i).failures + 1 then .locked (8000 * s.lockoutTime) else .idle)
      ∧ ((failChallenge i c cause s).ext i).expired = ((s.ext i).expired || decide (cause = .expired))
      ∧ ((s.ext i).isAdmitted = true → ((failChallenge i c cause s).ext i).path = none
          ∧ ∀ id, (s.ext i).path = some id → Table.find (failChallenge i c cause s).paths id = none)
      ∧ (∀ j, j ≠ i → ((failChallenge i c cause s).ext j).standing = (s.ext j).standing))
    ∧ (∀ (s : State) (i : Nat) (c : Challenge) (cause : FailCause),
    failChallenge i c cause s =
      (let n := (s.ext i).failures + 1
       let locks : Bool := decide (s.failLimit ≤ n)
       let links := if (s.port c.issuer).state = .up then [c.issuer] else [.a, .b]
       let was := (s.ext i).isAdmitted
       let s1 := s.setExt i
         { s.ext i with
           challenge := none, failures := n, expired := (s.ext i).expired || decide (cause = .expired),
           standing := if locks then .locked (8000 * s.lockoutTime) else .idle }
       let s2 := if was || locks then noteChange i s1 else s1
       let s3 := if cause = .expired then raiseOn (.admissionFailed i n locks) links s2 else s2
       let s4 := if locks then raiseOn (.lockedOut i cause (8000 * s.lockoutTime)) (links ++ [.m]) s3 else s3
       let s5 :=
         raiseOn
           (.deadmitted i (match cause with | .wrongAnswer => .recheckFailed | .expired => .expired) (s.ext i).path)
           links s4
       if was then
         match (s.ext i).path with
         | some id => clearPath id .deadmitted s5
         | none => s5
       else s4))
    ∧ ∀ (s : State) (i : Nat), ((workDue s).ext i).challenge = none → exec (.challengeExpiry i) s = .next (workDue s)

/-- A lockout ends at its last frame, with cause TIMER, or by UNLOCK from link M, with cause COMMAND: IDLE, no
failures, the index in every change set, UNLOCKED to every link; an UNLOCK of an extension in another state changes
nothing and answers that state (R59, R60, R67). A lockout of 0 frames remaining is the model's mark of a due step
(log entry 14). An index of 2048 or more is refused BAD_OPERAND (R60). -/
def Obligations.LockoutEnds : Prop :=
  (∀ (s : State) (i : Nat), ((workDue s).ext i).standing = .locked 0 →
      exec (.lockoutExpiry i) s
        = .next (raiseOn (.unlocked i .timer) [.a, .b, .m]
            (noteChange i ((workDue s).setExt i { (workDue s).ext i with standing := .idle, failures := 0 }))))
    ∧ (∀ (s : State) (t : Byte) (x : Word16) (p : Port) (n : Nat), TakenBy (.unlock .m t x) s .m p → x.toNat < 2048 →
      ((s.taking .m p).ext x.toNat).standing = .locked n →
      exec (.unlock .m t x) s
        = .next (State.answer
            (raiseOn (.unlocked x.toNat .command) [.a, .b, .m]
              (noteChange x.toNat ((s.taking .m p).setExt x.toNat
                { (s.taking .m p).ext x.toNat with standing := .idle, failures := 0 })))
            .m 12 t .ok [1]))
    ∧ (∀ (s : State) (t : Byte) (x : Word16) (p : Port), TakenBy (.unlock .m t x) s .m p → x.toNat < 2048 →
      (∀ n, ((s.taking .m p).ext x.toNat).standing ≠ .locked n) →
      exec (.unlock .m t x) s = .next ((s.taking .m p).answer .m 12 t .ok
        [match ((s.taking .m p).ext x.toNat).standing with
          | .vacant => 0
          | .idle => 1
          | .admitted _ _ => 2
          | .locked _ => 3]))
    ∧ ∀ (s : State) (t : Byte) (x : Word16) (p : Port), TakenBy (.unlock .m t x) s .m p → 2048 ≤ x.toNat →
      RefusedWith (.unlock .m t x) s .m p 12 t .badOperand

/-- A program's completion writes the record, the working copy and the slot map, leaves the extension IDLE with no
failures, and answers OK; the extension's old entry of the map is emptied, and every other store slot and every other
extension's entry of the map stays; an erase's completion leaves it VACANT with nothing stored and no entry of the
map. The change sets gain the index where the state changed (R31, R38, R39, R44). A program or erase of an earlier
session completes with every effect, and its response is discarded (R42). Nothing else changes. An engine with 0
frames remaining is the model's mark of a due step (log entry 14). -/
def Obligations.StoreOperationCompletes : Prop :=
  (∀ (s : State) (i : Nat) (r : Stored) (k t : Byte) (earlier : Bool),
      (workDue s).engine = some { job := .program i r, remaining := 0 } →
      (workDue s).portM.inProgress = some { kind := k, tag := t, earlier := earlier } →
      ∃ (m : Table Nat) (u : State), exec .programComplete s = .next u
        ∧ u = (if ((workDue s).ext i).standing = .idle then id else noteChange i)
          (State.setExt
            { workDue s with
              extStore := Table.put (workDue s).extStore i r, slotMap := m, engine := none,
              portM := { (workDue s).portM with
                inProgress := none,
                response := if earlier then (workDue s).portM.response
                  else some { kind := k, tag := t, result := .ok, body := [] } } }
            i
            { (workDue s).ext i with
              stored := some r, standing := .idle, failures := 0, expired := false, programming := false })
        ∧ u.portM.response = (if earlier then (workDue s).portM.response
          else some { kind := k, tag := t, result := .ok, body := [] })
        ∧ u.portM.inProgress = none
        ∧ u.engine = none ∧ Table.find u.extStore i = some r
        ∧ (∀ j, j ≠ i → Table.find u.extStore j = Table.find (workDue s).extStore j)
        ∧ u.ext i =
            { (workDue s).ext i with
              stored := some r, standing := .idle, failures := 0, expired := false, programming := false }
        ∧ (∀ j, j ≠ i → u.ext j = (workDue s).ext j)
        ∧ u.slotMap = m ∧ Table.find m r.slot = some i ∧ (∀ n, n ≠ r.slot → Table.find m n ≠ some i)
        ∧ (∀ n j, n ≠ r.slot → j ≠ i → Table.find (workDue s).slotMap n = some j → Table.find m n = some j)
        ∧ (∀ l j, j ∈ (u.port l).changes ↔ j ∈ ((workDue s).port l).changes
            ∨ (j = i ∧ ((workDue s).ext i).standing ≠ .idle))
        ∧ u.paths = (workDue s).paths ∧ u.nonce = (workDue s).nonce)
    ∧ ∀ (s : State) (i : Nat) (k t : Byte) (earlier : Bool),
      (workDue s).engine = some { job := .erase i, remaining := 0 } →
      (workDue s).portM.inProgress = some { kind := k, tag := t, earlier := earlier } →
      ∃ (m : Table Nat) (u : State), exec .eraseComplete s = .next u
        ∧ u = (if ((workDue s).ext i).standing = .vacant then id else noteChange i)
          (State.setExt
            { workDue s with
              slotMap := m, engine := none,
              portM := { (workDue s).portM with
                inProgress := none,
                response := if earlier then (workDue s).portM.response
                  else some { kind := k, tag := t, result := .ok, body := [] } } }
            i
            { (workDue s).ext i with
              stored := none, standing := .vacant, failures := 0, expired := false, programming := false })
        ∧ u.portM.response = (if earlier then (workDue s).portM.response
          else some { kind := k, tag := t, result := .ok, body := [] })
        ∧ u.portM.inProgress = none
        ∧ u.engine = none ∧ u.extStore = (workDue s).extStore
        ∧ u.ext i =
            { (workDue s).ext i with
              stored := none, standing := .vacant, failures := 0, expired := false, programming := false }
        ∧ (∀ j, j ≠ i → u.ext j = (workDue s).ext j)
        ∧ u.slotMap = m ∧ (∀ n, Table.find m n ≠ some i)
        ∧ (∀ n j, j ≠ i → Table.find (workDue s).slotMap n = some j → Table.find m n = some j)
        ∧ (∀ l j, j ∈ (u.port l).changes ↔ j ∈ ((workDue s).port l).changes
            ∨ (j = i ∧ ((workDue s).ext i).standing ≠ .vacant))
        ∧ u.paths = (workDue s).paths ∧ u.nonce = (workDue s).nonce

/-- A bulk load's entry completes as a program does, but for the response (R38, R40): the record, the working copy
and the slot map are written, the extension is IDLE with no failures, the expired marker and the programming marker
clear, and the change sets gain its index where its state changed. In the same operation the load answers OK after
the last entry; PARTIAL with the number left and the refusal where the next is refused, BAD_OPERAND for an index that
an earlier entry of the list carries; or begins the next, its record slot empty and its programming marker set, the
response still awaited. A load of an earlier session ends unanswered (R40 to R42). Nothing else changes. An engine
with 0 frames remaining is the model's mark of a due step (log entry 14). -/
def Obligations.LoadEntryCompletes : Prop :=
  ∀ (s : State) (entries : List StoredOps) (k i : Nat) (r : Stored) (kind t : Byte) (earlier : Bool),
    (workDue s).engine = some { job := .load entries k i r, remaining := 0 } →
    (workDue s).portM.inProgress = some { kind := kind, tag := t, earlier := earlier } →
    ∃ (m : Table Nat) (v : State),
      Table.find m r.slot = some i ∧ (∀ n, n ≠ r.slot → Table.find m n ≠ some i)
      ∧ (∀ n j, n ≠ r.slot → j ≠ i → Table.find (workDue s).slotMap n = some j → Table.find m n = some j)
      ∧ v = (if ((workDue s).ext i).standing = .idle then id else noteChange i)
          (State.setExt
            { workDue s with extStore := Table.put (workDue s).extStore i r, slotMap := m, engine := none }
            i
            { (workDue s).ext i with
              stored := some r, standing := .idle, failures := 0, expired := false, programming := false })
      ∧ (earlier = true →
        exec .loadEntryComplete s = .next (v.onPort .m fun p => { p with inProgress := none }))
      ∧ (earlier = false → entries[k + 1]? = none →
        exec .loadEntryComplete s = .next (v.onPort .m fun p =>
          { p with inProgress := none, response := some { kind := kind, tag := t, result := .ok, body := [] } }))
      ∧ (∀ o why, earlier = false → entries[k + 1]? = some o →
        ((∃ q ∈ entries.take (k + 1), q.ext = o.ext) ∧ why = .badOperand
          ∨ (∀ q ∈ entries.take (k + 1), q.ext ≠ o.ext) ∧ checkRecord o v = .error why) →
        exec .loadEntryComplete s = .next (v.onPort .m fun p =>
          { p with
            inProgress := none,
            response := some
              { kind := kind, tag := t, result := .partial_,
                body := num8 (entries.length - (k + 1)) ++ num8 why.code } }))
      ∧ ∀ o j q, earlier = false → entries[k + 1]? = some o →
        (∀ x ∈ entries.take (k + 1), x.ext ≠ o.ext) → checkRecord o v = .ok (j, q) →
        exec .loadEntryComplete s = .next
          (State.setExt
            { v with
              extStore := Table.del v.extStore j,
              engine := some { job := .load entries (k + 1) j q, remaining := 16 } }
            j { v.ext j with programming := true })

/-- An orphaned TIE path is cleared, and an orphaned bridge closed with its legs, at the frame of its deadline, with
cause ORPHAN_EXPIRED; before it, or under control, nothing happens, and a leg path passes only with its bridge
(R179). -/
def Obligations.OrphanDeadlinePasses : Prop :=
  (∀ (s : State) (id : Nat) (p : Path) (x : Link) (d : Word32), Table.find (workDue s).paths id = some p →
      p.controller = .orphan x d → p.kind.code = 0 →
      exec (.orphanDeadline (.path id)) s
        = .next (if d = (workDue s).frameCount then clearPath id .orphanExpired (workDue s) else workDue s))
    ∧ (∀ (s : State) (b : Nat) (y : Bridge) (x : Link) (d : Word32), Table.find (workDue s).bridges b = some y →
      y.controller = .orphan x d →
      exec (.orphanDeadline (.bridge b)) s
        = .next (if d = (workDue s).frameCount then closeBridge b .orphanExpired (workDue s) else workDue s))
    ∧ (∀ (s : State) (id : Nat) (p : Path) (l : Link), Table.find (workDue s).paths id = some p →
      p.controller = .control l → exec (.orphanDeadline (.path id)) s = .next (workDue s))
    ∧ (∀ (s : State) (b : Nat) (y : Bridge) (l : Link), Table.find (workDue s).bridges b = some y →
      y.controller = .control l → exec (.orphanDeadline (.bridge b)) s = .next (workDue s))
    ∧ ∀ (s : State) (id : Nat) (p : Path), Table.find (workDue s).paths id = some p → p.kind.code ≠ 0 →
      exec (.orphanDeadline (.path id)) s = .next (workDue s)

/-! ## The link ports -/

/-- ALIGN raises the run of a DOWN or UP port, held at 64, and ends an UP port's invalid run and unfinished frame; a
run of 64 takes a DOWN port to ALIGNING; START in ALIGNING opens the session of R165 with LINK_CHANGE to the other
links, is IDLE in UP, and ends a DOWN port's run (R161 to R163, R165, R173). Before the load ends no symbol counts
(R166). The alignment run of 0 on entry to UP is log entry 8; `sending` and `lastControl` are the model's own fields
(log entries 7, 15). -/
def Obligations.LinksAlignAndStart : Prop :=
  (∀ (s : State) (l : Link), (settle s).boot ≠ .ended →
      exec (.alignReceived l) s = .next (settle s) ∧ exec (.startReceived l) s = .next (settle s))
    ∧ (∀ (s : State) (l : Link) (q : Port), (settle s).boot = .ended → (settle s).port l = q →
      (q.state = .down →
        exec (.alignReceived l) s = .next ((settle s).setPort l { q with alignRun := min 64 (q.alignRun + 1) }))
      ∧ (q.state = .aligning → exec (.alignReceived l) s = .next (settle s))
      ∧ (q.state = .up →
        exec (.alignReceived l) s
          = .next ((settle s).setPort l
              { q with alignRun := min 64 (q.alignRun + 1), invalidRun := 0, receiving := none })
        ∧ exec (.startReceived l) s = .next ((settle s).setPort l { q with alignRun := 0, invalidRun := 0 }))
      ∧ (q.state = .down → exec (.startReceived l) s = .next ((settle s).setPort l { q with alignRun := 0 }))
      ∧ (q.state = .aligning →
        exec (.startReceived l) s
          = .next (raiseOn (.linkChange l none) (otherLinks l) ((settle s).setPort l
              { q with
                state := .up, alignRun := 0, invalidRun := 0, partnerHold := false, ownHold := false, threshold := 12,
                queue := [], receiving := none, response := none, overrun := [], events := [], lost := none,
                enables := Enables.all, changes := List.range 2048, sending := none, lastControl := some .start }))))
    ∧ ∀ (s : State) (l : Link), s.boot = .ended → (s.port l).state = .down → (s.port l).alignRun = 64 →
      exec (.linkAligning l) s = .next (s.setPort l { s.port l with state := .aligning })

/-- The other symbols: outside UP each returns the port to DOWN with its run at 0; in UP an invalid symbol raises the
invalid run and ends an unfinished frame, FRAME_BEGIN begins one, a data byte joins it, IDLE and the hold symbols
leave it; a hold symbol sets the partner hold. A whole frame joins the queue below 16 frames, with the own hold
asserted at the threshold, or its tag the overrun list below 16 tags (R161 to R163, R167, R169, R185). `lastControl`
is the model's own field (log entry 15). -/
def Obligations.SymbolsReachThePort : Prop :=
  (∀ (s : State) (l : Link) (q : Port), (settle s).boot = .ended → (settle s).port l = q → q.state ≠ .up →
      (∀ x, exec (.otherSymbolReceived l x) s = .next ((settle s).setPort l { q with state := .down, alignRun := 0 }))
      ∧ exec (.holdOnReceived l) s = .next ((settle s).setPort l { q with state := .down, alignRun := 0 })
      ∧ exec (.holdOffReceived l) s = .next ((settle s).setPort l { q with state := .down, alignRun := 0 })
      ∧ ∀ f, exec (.commandFrameReceived l f) s
          = .next ((settle s).setPort l { q with state := .down, alignRun := 0 }))
    ∧ (∀ (s : State) (l : Link) (q : Port), (settle s).boot = .ended → (settle s).port l = q → q.state = .up →
      exec (.otherSymbolReceived l .invalid) s
          = .next ((settle s).setPort l
              { q with invalidRun := min 16 (q.invalidRun + 1), alignRun := 0, receiving := none })
      ∧ exec (.otherSymbolReceived l .idle) s
          = .next ((settle s).setPort l { q with alignRun := 0, invalidRun := 0 })
      ∧ exec (.otherSymbolReceived l .frameBegin) s
          = .next ((settle s).setPort l { q with alignRun := 0, invalidRun := 0, receiving := some [] })
      ∧ (∀ b f, q.receiving = some f → exec (.otherSymbolReceived l (.data b)) s
          = .next ((settle s).setPort l { q with alignRun := 0, invalidRun := 0, receiving := some (f ++ [b]) }))
      ∧ (∀ b, q.receiving = none → exec (.otherSymbolReceived l (.data b)) s
          = .next ((settle s).setPort l { q with alignRun := 0, invalidRun := 0 }))
      ∧ (∀ b f, q.receiving = some (b :: f) →
          exec (.otherSymbolReceived l .frameEnd) s = exec (.commandFrameReceived l (b :: f)) s)
      ∧ (q.receiving = none ∨ q.receiving = some [] → exec (.otherSymbolReceived l .frameEnd) s
          = .next ((settle s).setPort l { q with alignRun := 0, invalidRun := 0, receiving := none }))
      ∧ exec (.holdOnReceived l) s
          = .next ((settle s).setPort l { q with alignRun := 0, invalidRun := 0, partnerHold := true })
      ∧ exec (.holdOffReceived l) s
          = .next ((settle s).setPort l { q with alignRun := 0, invalidRun := 0, partnerHold := false })
      ∧ (∀ b f, q.queue.length < 16 → exec (.commandFrameReceived l (b :: f)) s
          = .next ((settle s).setPort l
              { q with
                alignRun := 0, invalidRun := 0, receiving := none, queue := q.queue ++ [b :: f],
                ownHold := q.ownHold || decide (q.threshold ≤ q.queue.length + 1),
                lastControl := if q.ownHold = false ∧ q.threshold ≤ q.queue.length + 1 then some .holdOn
                  else q.lastControl }))
      ∧ (∀ b f, 16 ≤ q.queue.length → q.overrun.length < 16 → exec (.commandFrameReceived l (b :: f)) s
          = .next ((settle s).setPort l
              { q with
                alignRun := 0, invalidRun := 0, receiving := none, overrun := q.overrun ++ [f.headD 0] }))
      ∧ ∀ b f, 16 ≤ q.queue.length → 16 ≤ q.overrun.length → exec (.commandFrameReceived l (b :: f)) s
          = .next ((settle s).setPort l { q with alignRun := 0, invalidRun := 0, receiving := none }))

/-- An invalid run of 16 or an alignment run of 64 takes an UP link DOWN: its queues are emptied and its command in
progress marked as of an earlier session; LINK_CHANGE goes to the other links; then a call-processor link's loss is
handed on (R163, R164, R173). Under an orphan hold above 0 the loss gives every path and bridge of the link one
deadline, and PATH_ORPHANED counts them (R176, R177); under a hold of 0 it raises no PATH_ORPHANED: it clears the TIE
paths in ascending id (the tables' order, StepKeepsCanonicalForm) as orphans, then closes the bridges in ascending
id, each by its legs in list order, with cause ORPHAN_EXPIRED (R137, R178). `sending` and `lastControl` are the
model's own fields (log entries 7, 15). -/
def Obligations.LinkLossOrphansItsCalls : Prop :=
  (∀ (s : State) (l : Link) (q : Port) (cause : DownCause), s.boot = .ended → s.port l = q → q.state = .up →
      (cause = .lineError ∧ q.invalidRun = 16) ∨ (cause = .partnerRestart ∧ q.invalidRun < 16 ∧ q.alignRun = 64) →
      exec (.linkDown l) s = .next
        ((if l = .m then id else controllerLoss l)
          (raiseOn (.linkChange l (some cause)) (otherLinks l) (s.setPort l
            { q with
              state := .down, alignRun := 0, invalidRun := 0, partnerHold := false, ownHold := false, queue := [],
              receiving := none, inProgress := q.inProgress.map fun c => { c with earlier := true },
              response := none, overrun := [], events := [], lost := none, sending := none, lastControl := none }))))
    ∧ (∀ (s : State) (l : Link), s.orphanHold ≠ 0 →
      (∀ id, Table.find (controllerLoss l s).paths id = (Table.find s.paths id).map fun p =>
          if p.controller = .control l then
            { p with controller := .orphan l (s.frameCount + BitVec.ofNat 32 (8000 * s.orphanHold)) }
          else p)
      ∧ (∀ b, Table.find (controllerLoss l s).bridges b = (Table.find s.bridges b).map fun x =>
          if x.controller = .control l then
            { x with controller := .orphan l (s.frameCount + BitVec.ofNat 32 (8000 * s.orphanHold)) }
          else x)
      ∧ (∀ k, (controllerLoss l s).port k =
          if k ≠ l ∧ ((s.paths.any fun e => decide (e.2.kind.code = 0 ∧ e.2.controller = .control l)) = true
              ∨ (s.bridges.any fun e => decide (e.2.controller = .control l)) = true) then
            (s.port k).queueEvent
              { stamp := s.frameCount,
                kind := .pathOrphaned l
                  (s.paths.filter fun e => e.2.kind.code = 0 ∧ e.2.controller = .control l).length
                  (s.bridges.filter fun e => e.2.controller = .control l).length
                  (s.paths.filter fun e => e.2.kind.code ≠ 0 ∧ e.2.controller = .control l).length
                  (s.frameCount + BitVec.ofNat 32 (8000 * s.orphanHold)) }
          else s.port k)
      ∧ (controllerLoss l s).ctxs = s.ctxs ∧ (controllerLoss l s).exts = s.exts
      ∧ (controllerLoss l s).stationOcc = s.stationOcc ∧ (controllerLoss l s).tieOcc = s.tieOcc)
    ∧ (∀ (s : State) (l : Link), s.orphanHold = 0 →
      controllerLoss l s =
        ((s.bridges.filter fun e => e.2.controller = .control l).map Prod.fst).foldl
          (fun u b => closeBridge b .orphanExpired u)
          (((s.paths.filter fun e => e.2.kind.code = 0 ∧ e.2.controller = .control l).map Prod.fst).foldl
            (fun u id => clearPath id .orphanExpired u)
            { s with
              paths := s.paths.map fun e =>
                (e.1, if e.2.controller = .control l then { e.2 with controller := .orphan l s.frameCount } else e.2),
              bridges := s.bridges.map fun e =>
                (e.1, if e.2.controller = .control l then { e.2 with controller := .orphan l s.frameCount } else e.2) }))
    ∧ (∀ (s : State) (b : Nat) (x : Bridge) (cause : ClearCause), Table.find s.bridges b = some x →
      closeBridge b cause s =
        (let u := x.legs.foldl (fun v g => clearPath g.path cause v) s
         { u with bridges := Table.del u.bridges b }))
    ∧ ∀ (s : State) (l : Link), s.orphanHold = 0 → BridgeLaw s →
      (∀ id p, Table.find s.paths id = some p → p.controller = .control l →
        Table.find (controllerLoss l s).paths id = none)
      ∧ ∀ b x, Table.find s.bridges b = some x → x.controller = .control l →
        Table.find (controllerLoss l s).bridges b = none

/-- The transmitter of an UP link whose partner does not hold begins, in this order, the oldest overrun answer, the
response, the oldest event; an event that leaves a queue whose lost marker is set makes room for EVENTS_LOST. Held,
or with nothing waiting, it begins nothing (R169, R170). The step stands for a transmitter that is free, and
`sending` keeps the frame begun (log entry 7). An event's frame is type 2, its kind's code, the stamp, the body's
length and the body (12.1, 12.5). -/
def Obligations.ArbiterChoosesTheNextFrame : Prop :=
  (∀ (s : State) (l : Link) (q : Port), (settle s).port l = q →
    (q.state ≠ .up ∨ q.partnerHold = true → exec (.outboundFrameStart l) s = .next (settle s))
    ∧ (q.state = .up → q.partnerHold = false →
      (∀ t rest, q.overrun = t :: rest → exec (.outboundFrameStart l) s
          = .next ((settle s).setPort l { q with overrun := rest, sending := some [1, 0, t, 7, 0] }))
      ∧ (∀ r, q.overrun = [] → q.response = some r → exec (.outboundFrameStart l) s
          = .next ((settle s).setPort l
              { q with
                response := none,
                sending := some ([1, r.kind, r.tag, BitVec.ofNat 8 r.result.code, BitVec.ofNat 8 r.body.length]
                  ++ r.body) }))
      ∧ (∀ e rest, q.overrun = [] → q.response = none → q.events = e :: rest → q.lost = none →
          exec (.outboundFrameStart l) s
            = .next ((settle s).setPort l { q with events := rest, sending := some e.frame }))
      ∧ (∀ e rest n, q.overrun = [] → q.response = none → q.events = e :: rest → q.lost = some n →
          exec (.outboundFrameStart l) s
            = .next ((settle s).setPort l
                { q with
                  events := rest ++ [{ kind := .eventsLost n, stamp := (settle s).frameCount }], lost := none,
                  sending := some e.frame }))
      ∧ (q.overrun = [] → q.response = none → q.events = [] → exec (.outboundFrameStart l) s = .next (settle s))))
    ∧ ∀ e : Event, e.frame =
        [2,
          match e.kind with
          | .admitted _ _ => 1
          | .admissionFailed _ _ _ => 2
          | .lockedOut _ _ _ => 3
          | .unlocked _ _ => 4
          | .deadmitted _ _ _ => 5
          | .pathCleared _ _ _ _ => 6
          | .pathOrphaned _ _ _ _ _ => 7
          | .orphansAdopted _ _ _ _ _ => 8
          | .keyDue _ _ _ _ _ => 9
          | .keyRolled _ _ _ _ _ _ _ => 10
          | .rxAligned _ _ _ _ _ => 11
          | .syncLost _ _ _ _ _ _ => 12
          | .huntTimeout _ _ _ _ => 13
          | .talker _ _ _ _ => 14
          | .surveyResult _ _ _ _ _ _ => 15
          | .tieSlip _ _ => 16
          | .tieLost _ _ => 17
          | .tieRestored _ => 18
          | .linkChange _ _ => 19
          | .eventsLost _ => 20,
          e.stamp.extractLsb' 24 8, e.stamp.extractLsb' 16 8, e.stamp.extractLsb' 8 8, e.stamp.extractLsb' 0 8,
          BitVec.ofNat 8 e.kind.body.length] ++ e.kind.body
        ∧ e.kind.body.length < 256

/-! ## Arithmetic -/

/-- Every code decodes by sign, segment and step, to a magnitude of 0 to 3952 within its segment's edges (R14), and
every linear value is encoded by the five steps: clamped, with the largest segment whose edge is not above the
magnitude and the step taken by floor, so that the error is below the step size; a decoded code encodes to itself,
but for code 128 (R15). -/
def Obligations.SampleCodeDecodesAndEncodes : Prop :=
  (∀ c : Code, ∃ sign segment step : Nat, sign ≤ 1 ∧ segment ≤ 7 ∧ step ≤ 15
      ∧ c.toNat = 128 * sign + 16 * segment + step ∧ (sign = 0 ↔ c.toNat ≤ 127)
      ∧ magnitude c = (16 + step) * 2 ^ segment - 16 ∧ magnitude c ≤ 3952
      ∧ magnitude c = ([0, 16, 48, 112, 240, 496, 1008, 2032].getD segment 0) + 2 ^ segment * step
      ∧ magnitude c ≤ [15, 46, 108, 232, 480, 976, 1968, 3952].getD segment 0
      ∧ decodeSample c = if sign = 0 then (magnitude c : Int) else -(magnitude c : Int))
    ∧ decodeSample 0 = 0 ∧ decodeSample 128 = 0 ∧ decodeSample 127 = 3952 ∧ decodeSample 255 = -3952
    ∧ (∀ x : Int, ∃ (y : Int) (e step : Nat), y = max (-3952) (min 3952 x) ∧ e ≤ 7 ∧ step ≤ 15
      ∧ 16 * 2 ^ e - 16 ≤ y.natAbs ∧ (∀ k, k ≤ 7 → 16 * 2 ^ k - 16 ≤ y.natAbs → k ≤ e)
      ∧ step = (y.natAbs + 16) / 2 ^ e - 16
      ∧ (encodeSample x).toNat = (if y < 0 then 128 else 0) + 16 * e + step
      ∧ magnitude (encodeSample x) ≤ y.natAbs ∧ y.natAbs < magnitude (encodeSample x) + 2 ^ e
      ∧ (decodeSample (encodeSample x) = y ↔ 2 ^ e ∣ y.natAbs + 16))
    ∧ (∀ c : Code, c ≠ 128 → encodeSample (decodeSample c) = c) ∧ encodeSample (decodeSample 128) = 0

/-! ## Commands of the links and the extension table -/

/-- READ_PART from any link answers OK with the identity of the part, the start count, the link and the capacities,
and changes nothing (R174). -/
def Obligations.ReadPartIdentifiesThePart : Prop :=
  ∀ (s : State) (l : Link) (t : Byte) (p : Port), TakenBy (.readPart l t) s l p →
    exec (.readPart l t) s = .next ((s.taking l p).answer l 1 t .ok
      (([9] : List Byte) ++ num16 516 ++ ([1] : List Byte) ++ bytes32 (settle s).startCount ++ ([match l with | .a => 0 | .b => 1 | .m => 2] : List Byte)
        ++ num16 2048 ++ num16 384 ++ num16 192 ++ num16 32 ++ num16 8 ++ num16 128 ++ num16 8 ++ num16 16
        ++ num16 32))

/-- A read from any link, the survey's from link M, answers OK with the record as it stands and changes nothing, but
that READ_CONTEXT clears the context's four flags after they are read; a free record or slot is refused NO_PATH or
NO_BRIDGE, and a number out of range BAD_OPERAND (R43, R87, R107, R144, R158). The bytes of each record are written
out: numbers most significant byte first, the 34 bytes of an extension's record as 12.3 lays them out, a path, a
context, a bridge with its legs, and the survey with its results in the order and widths their rules give (R187); an
extension's bytes hold nothing of its secret, and a direction's nothing of its key or generator (R43, R107). Where
the layout has to be read from several sentences the reading is log entry 10. -/
def Obligations.ReadsAnswerTheRecord : Prop :=
  (∀ (s : State) (l : Link) (t : Byte) (x : Word16) (p : Port), TakenBy (.readExtension l t x) s l p →
      exec (.readExtension l t x) s = .next
        (if x.toNat < 2048 then
          (s.taking l p).answer l 7 t .ok (extensionBytes x.toNat ((settle s).ext x.toNat))
        else (s.taking l p).answer l 7 t .badOperand []))
    ∧ (∀ (s : State) (l : Link) (t : Byte) (x : Word16) (p : Port) (q : Path), TakenBy (.readPath l t ⟨0, x⟩) s l p →
      Table.find (settle s).paths x.toNat = some q → x.toNat < 384 →
      exec (.readPath l t ⟨0, x⟩) s = .next ((s.taking l p).answer l 16 t .ok (pathBytes x.toNat q)))
    ∧ (∀ (s : State) (l : Link) (t : Byte) (x : Word16) (p : Port) (id : Nat) (q : Path),
      TakenBy (.readPath l t ⟨1, x⟩) s l p → x.toNat < 512 → Table.find (settle s).stationOcc x.toNat = some id →
      Table.find (settle s).paths id = some q →
      exec (.readPath l t ⟨1, x⟩) s = .next ((s.taking l p).answer l 16 t .ok (pathBytes id q)))
    ∧ (∀ (s : State) (l : Link) (t : Byte) (x : Word16) (p : Port) (id : Nat) (q : Path),
      TakenBy (.readPath l t ⟨2, x⟩) s l p → x.toNat < 256 → Table.find (settle s).tieOcc x.toNat = some id →
      Table.find (settle s).paths id = some q →
      exec (.readPath l t ⟨2, x⟩) s = .next ((s.taking l p).answer l 16 t .ok (pathBytes id q)))
    ∧ (∀ (s : State) (l : Link) (t x : Byte) (p : Port), TakenBy (.readContext l t x) s l p → x.toNat < 192 →
      exec (.readContext l t x) s = .next
        (match Table.find (settle s).ctxs x.toNat with
          | some c =>
            State.answer
              ((s.taking l p).setCtx x.toNat
                { c with flags := { keyDue := false, keyStale := false, syncLost := false, huntTimeout := false } })
              l 19 t .ok (contextBytes (settle s) x.toNat c)
          | none => (s.taking l p).answer l 19 t .noPath []))
    ∧ (∀ (s : State) (l : Link) (t x : Byte) (p : Port), TakenBy (.readBridge l t x) s l p → x.toNat < 32 →
      exec (.readBridge l t x) s = .next
        (match Table.find (settle s).bridges x.toNat with
          | some b => (s.taking l p).answer l 29 t .ok (bridgeBytes x.toNat b)
          | none => (s.taking l p).answer l 29 t .noBridge []))
    ∧ (∀ (s : State) (t : Byte) (p : Port), TakenBy (.readSurvey .m t) s .m p →
      exec (.readSurvey .m t) s = .next ((s.taking .m p).answer .m 33 t .ok (surveyBytes (settle s).survey)))
    ∧ (∀ (s : State) (l : Link) (t f : Byte) (x : Word16) (p : Port), TakenBy (.readPath l t ⟨f, x⟩) s l p →
      (3 ≤ f.toNat ∨ (f = 0 ∧ 384 ≤ x.toNat) ∨ (f = 1 ∧ 512 ≤ x.toNat) ∨ (f = 2 ∧ 256 ≤ x.toNat) →
        RefusedWith (.readPath l t ⟨f, x⟩) s l p 16 t .badOperand)
      ∧ ((f = 0 ∧ x.toNat < 384 ∧ Table.find (settle s).paths x.toNat = none)
          ∨ (f = 1 ∧ x.toNat < 512 ∧ Table.find (settle s).stationOcc x.toNat = none)
          ∨ (f = 2 ∧ x.toNat < 256 ∧ Table.find (settle s).tieOcc x.toNat = none) →
        RefusedWith (.readPath l t ⟨f, x⟩) s l p 16 t .noPath))
    ∧ (∀ (s : State) (l : Link) (t x : Byte) (p : Port), TakenBy (.readContext l t x) s l p → 192 ≤ x.toNat →
      RefusedWith (.readContext l t x) s l p 19 t .badOperand)
    ∧ (∀ (s : State) (l : Link) (t x : Byte) (p : Port), TakenBy (.readBridge l t x) s l p → 32 ≤ x.toNat →
      RefusedWith (.readBridge l t x) s l p 29 t .badOperand)
    ∧ (∀ (i : Nat) (e : Ext),
      extensionBytes i e = List.flatten
        [num16 i,
          [match e.standing with | .vacant => 0 | .idle => 1 | .admitted _ _ => 2 | .locked _ => 3],
          [if e.programming then 1 else 0], [if e.expired then 1 else 0], num8 e.failures,
          match e.standing with | .locked n => num32 n | .vacant | .idle | .admitted _ _ => [0, 0, 0, 0],
          match e.challenge with
          | some c => List.flatten
            [[1], bytes32 c.nonce, [match c.issuer with | .a => 0 | .b => 1 | .m => 2], bytes32 c.expiry]
          | none => List.replicate 10 0,
          match e.standing with
          | .admitted since l => List.flatten
            [[1], bytes32 since, [match l with | .a => 0 | .b => 1 | .m => 2]]
          | .vacant | .idle | .locked _ => List.replicate 6 0,
          match e.path with | some p => 1 :: num16 p | none => [0, 0, 0],
          match e.stored with
          | some r => List.flatten
            [[1], [match r.access with | .none => 0 | .any => 1 | .privateOnly => 2],
              [if r.conference then 1 else 0], num16 r.slot]
          | none => [0, 0, 0, 0, 0]]
        ∧ (extensionBytes i e).length = 34
        ∧ ∀ (r : Stored) (seed : Word32) (step : Word16),
          extensionBytes i { e with stored := some { r with seed := seed, step := step } }
            = extensionBytes i { e with stored := some r })
    ∧ (∀ n : Nat,
      num8 n = [BitVec.ofNat 8 n] ∧ num16 n = num8 (n / 256) ++ num8 n ∧ num32 n = num16 (n / 65536) ++ num16 n
        ∧ ∀ x : Word32, bytes32 x = num32 x.toNat)
    ∧ (∀ l d, controllerBytes (.control l) = [0, match l with | .a => 0 | .b => 1 | .m => 2, 0, 0, 0, 0]
      ∧ controllerBytes (.orphan l d) = 1 :: (match l with | .a => 0 | .b => 1 | .m => 2) :: bytes32 d)
    ∧ (∀ (id : Nat) (p : Path),
      pathBytes id p = List.flatten
        [num16 id, [match p.kind with | .tie .. => 0 | .bridgeStation .. => 1 | .bridgeTie .. => 2], bytes32 p.opened,
          match p.kind with
          | .tie station ext .. | .bridgeStation station ext _ => num16 station ++ num16 ext
          | .bridgeTie .. => [0, 0, 0, 0],
          match p.kind with
          | .tie _ _ tie .clear | .bridgeTie tie .clear _ => num8 tie ++ [0, 0]
          | .tie _ _ tie (.priv i) | .bridgeTie tie (.priv i) _ => List.flatten [num8 tie, [1], num8 i]
          | .bridgeStation .. => [0, 0, 0],
          match p.kind with | .tie .. => [0] | .bridgeStation _ _ b | .bridgeTie _ _ b => num8 b,
          controllerBytes p.controller])
    ∧ (∀ (d : DirState),
      directionBytes d = List.flatten
        [num32 d.f, num32 d.epoch, num16 (d.length / 8000), num16 (d.lead / 8000),
          match d.staged with
          | some h => List.flatten [[1], num16 (h.length.getD d.length / 8000), num16 (h.lead.getD d.lead / 8000)]
          | none => [0, 0, 0, 0, 0]]
        ∧ ∀ (seed gen : Word32) (step : Word16),
          directionBytes { d with seed := seed, step := step, gen := gen } = directionBytes d)
    ∧ (∀ (s : State) (i : Nat) (c : Context) (p : Path), Table.find s.paths c.path = some p →
      contextBytes s i c = List.flatten
        [num8 i, num16 c.path, num8 c.tieSlot,
          [match p.kind with | .tie .. => 0 | .bridgeStation .. | .bridgeTie .. => 1],
          match c.tx.phase with | .preamble n => 0 :: num8 n | .running => [1, 0],
          directionBytes c.tx.dir,
          match c.rx.phase with
          | .hunt h => List.flatten [[0], num8 h.run, num32 h.elapsed]
          | .running => [1, 0, 0, 0, 0, 0],
          directionBytes c.rx.dir,
          num32 c.rx.guardSum, num8 c.rx.guardCount, num8 c.rx.strikes, num16 c.ceiling, num16 c.strikesLimit,
          [if c.guardOn then 1 else 0, if c.flags.keyDue then 1 else 0, if c.flags.keyStale then 1 else 0,
            if c.flags.syncLost then 1 else 0, if c.flags.huntTimeout then 1 else 0]])
    ∧ (∀ (b : Nat) (x : Bridge),
      bridgeBytes b x = List.flatten
        [num8 b, bytes32 x.opened, controllerBytes x.controller, num16 x.threshold,
          match x.staged with | some n => 1 :: num16 n | none => [0, 0, 0],
          num8 x.windowCount,
          match x.talker with | some n => 1 :: num16 n | none => [0, 0, 0],
          num8 x.legs.length,
          x.legs.flatMap fun g => List.flatten
            [num16 g.path,
              match g.slot with
              | .station n => num16 n ++ [0, 0, 0]
              | .tie n .clear => num16 n ++ [1, 0, 0]
              | .tie n (.priv i) => List.flatten [num16 n, [1, 1], num8 i],
              num8 g.gain, [match g.mode with | .talk => 0 | .listen => 1],
              match g.staged with
              | some (gain, mode) => List.flatten [[1], num8 gain, [match mode with | .talk => 0 | .listen => 1]]
              | none => [0, 0, 0],
              num32 g.sum]])
    ∧ ∀ v : Survey,
      surveyBytes v = List.flatten
        [num8 v.entries.length,
          v.entries.flatMap fun e => List.flatten
            [match e.slot with | .station n => 0 :: num16 n | .tie n => 1 :: num16 n, [if e.clearPoint then 1 else 0]],
          [if v.repeating then 1 else 0],
          match v.trigger with
          | .immediate => [0, 0, 0]
          | .rollover i d => List.flatten [[1], num8 i, [match d with | .tx => 0 | .rx => 1]]
          | .syncLost i => List.flatten [[2], num8 i, [0]],
          num16 v.window, num16 v.low, num16 v.high,
          [match v.report with | .inside => 0 | .outside => 1 | .all => 2],
          match v.state with
          | .stopped => 0 :: List.replicate 8 0
          | .standby => 1 :: List.replicate 8 0
          | .measuring i sum peak n => List.flatten [[2], num8 i, num32 sum, num16 peak, num8 n],
          (v.entries.zipIdx 1).flatMap fun x => List.flatten
            [num8 x.2, match x.1.slot with | .station n => 0 :: num16 n | .tie n => 1 :: num16 n,
              [if x.1.clearPoint then 1 else 0],
              match Table.find v.results x.2 with
              | some r => List.flatten
                [[1], num16 r.mean, num16 r.peak, bytes32 r.at_, [if r.outside then 1 else 0]]
              | none => List.replicate 10 0]]

/-- The parameter commands write their values, clamped to their ranges, answer with the values taken and change
nothing else; a new fail limit caps the failure counts (R64, R65, R124, R167, R171, R180). `lastControl` is the
model's own field (log entry 15). SET_EVENTS with a value other than yes or no is refused BAD_OPERAND (R171). -/
def Obligations.ParametersAreClampedAndWritten : Prop :=
  (∀ (s : State) (t : Byte) (x y z : Word16) (p : Port), TakenBy (.setAdmission .m t ⟨x, y, z⟩) s .m p →
      ∃ exts, exec (.setAdmission .m t ⟨x, y, z⟩) s = .next
          (State.answer
            { s.taking .m p with
              failLimit := max 1 (min 7 x.toNat), challengeWindow := max 1 (min 15 y.toNat),
              lockoutTime := max 10 (min 600 z.toNat), exts := exts }
            .m 13 t .ok
            (num16 (max 1 (min 7 x.toNat)) ++ num16 (max 1 (min 15 y.toNat)) ++ num16 (max 10 (min 600 z.toNat))))
        ∧ ∀ i, (Table.find exts i).getD Ext.vacant =
            (if ((settle s).ext i).standing.code = 3 ∨ max 1 (min 7 x.toNat) ≤ ((settle s).ext i).failures
              then { (settle s).ext i with
                failures := match ((settle s).ext i).standing with
                  | .locked _ => max 1 (min 7 x.toNat)
                  | .vacant | .idle | .admitted _ _ => max 1 (min 7 x.toNat) - 1 }
              else (settle s).ext i))
    ∧ (∀ (s : State) (t : Byte) (x y z : Word16) (p : Port), TakenBy (.setPrivacyDefaults .m t ⟨x, y, z⟩) s .m p →
      exec (.setPrivacyDefaults .m t ⟨x, y, z⟩) s = .next
        (State.answer
          { s.taking .m p with
            huntTime := max 1 (min 30 x.toNat), guardCeiling := max 64 (min 3952 y.toNat),
            guardStrikes := max 1 (min 15 z.toNat) }
          .m 22 t .ok
          (num16 (max 1 (min 30 x.toNat)) ++ num16 (max 64 (min 3952 y.toNat)) ++ num16 (max 1 (min 15 z.toNat)))))
    ∧ (∀ (s : State) (t : Byte) (x : Word16) (p : Port), TakenBy (.setOrphanHold .m t x) s .m p →
      exec (.setOrphanHold .m t x) s = .next
        (State.answer { s.taking .m p with orphanHold := min 120 x.toNat } .m 35 t .ok (num16 (min 120 x.toNat))))
    ∧ (∀ (s : State) (l : Link) (t : Byte) (x : Word16) (p : Port) (n : Nat), TakenBy (.setLink l t x) s l p →
      n = max 4 (min 15 x.toNat) →
      exec (.setLink l t x) s = .next
        (((settle s).setPort l
          { p with
            threshold := n, ownHold := decide (n ≤ p.queue.length),
            lastControl :=
              if p.ownHold = decide (n ≤ p.queue.length) then p.lastControl
              else if n ≤ p.queue.length then some .holdOn else some .holdOff }).answer l 2 t .ok (num16 n)))
    ∧ (∀ (s : State) (l : Link) (t : Byte) (o : EnableOps) (p : Port) (e : Enables), TakenBy (.setEvents l t o) s l p →
      [o.admission, o.path, o.key, o.sync, o.bridge, o.survey, o.highway, o.link]
        = [e.admission, e.path, e.key, e.sync, e.bridge, e.survey, e.highway, e.link].map (fun b => if b then 1 else 0) →
      exec (.setEvents l t o) s = .next
        (((settle s).setPort l { p with enables := e }).answer l 3 t .ok
          [o.admission, o.path, o.key, o.sync, o.bridge, o.survey, o.highway, o.link]))
    ∧ ∀ (s : State) (l : Link) (t : Byte) (o : EnableOps) (p : Port), TakenBy (.setEvents l t o) s l p →
      (∃ b ∈ [o.admission, o.path, o.key, o.sync, o.bridge, o.survey, o.highway, o.link], 2 ≤ b.toNat) →
      RefusedWith (.setEvents l t o) s l p 3 t .badOperand

/-- COLLECT_CHANGES takes the lowest 32 indices of its link's change set and says whether any is left (R45). An
accepted SET_EXTENSION or ERASE_EXTENSION, and the first entry of a LOAD_EXTENSIONS, empties the record slot, sets
the programming marker and occupies the engine for 16 frames, its response awaited; an entry that is refused ends the
load at once (R32, R36, R37, R39 to R41). SET_EXTENSION is refused as those checks say; ERASE_EXTENSION is refused
BAD_OPERAND for an index of 2048 or more and IN_SERVICE for an extension ADMITTED or challenged; LOAD_EXTENSIONS is
refused BAD_OPERAND for a count of 0 or above 16 (R36, R39, R40). -/
def Obligations.ExtensionTableCommandsBegin : Prop :=
  (∀ (s : State) (l : Link) (t : Byte) (p : Port), TakenBy (.collectChanges l t) s l p →
      exec (.collectChanges l t) s = .next
        (((settle s).setPort l { p with changes := p.changes.drop 32 }).answer l 8 t .ok
          ([BitVec.ofNat 8 (p.changes.take 32).length] ++ (p.changes.take 32).flatMap num16
            ++ [if p.changes.length ≤ 32 then 0 else 1])))
    ∧ (∀ (s : State) (t : Byte) (o : StoredOps) (p : Port) (i : Nat) (r : Stored),
      TakenBy (.setExtension .m t o) s .m p → checkRecord o (settle s) = .ok (i, r) →
      exec (.setExtension .m t o) s = .next
        ((State.setExt
          { s.taking .m p with
            extStore := Table.del (settle s).extStore i,
            engine := some { job := .program i r, remaining := 16 } }
          i { (settle s).ext i with programming := true }).await .m 4 t))
    ∧ (∀ (s : State) (t : Byte) (x : Word16) (p : Port), TakenBy (.eraseExtension .m t x) s .m p → x.toNat < 2048 →
      ((settle s).ext x.toNat).isAdmitted = false → ((settle s).ext x.toNat).challenge = none →
      exec (.eraseExtension .m t x) s = .next
        ((State.setExt
          { s.taking .m p with
            extStore := Table.del (settle s).extStore x.toNat,
            engine := some { job := .erase x.toNat, remaining := 16 } }
          x.toNat { (settle s).ext x.toNat with programming := true }).await .m 5 t))
    ∧ (∀ (s : State) (t n : Byte) (o : StoredOps) (rest : List StoredOps) (p : Port) (i : Nat) (r : Stored),
      TakenBy (.loadExtensions .m t ⟨n, o :: rest⟩) s .m p → n.toNat = rest.length + 1 → n.toNat ≤ 16 →
      checkRecord o (settle s) = .ok (i, r) →
      exec (.loadExtensions .m t ⟨n, o :: rest⟩) s = .next
        ((State.setExt
          { s.taking .m p with
            extStore := Table.del (settle s).extStore i,
            engine := some { job := .load (o :: rest) 0 i r, remaining := 16 } }
          i { (settle s).ext i with programming := true }).await .m 6 t))
    ∧ (∀ (s : State) (t n : Byte) (o : StoredOps) (rest : List StoredOps) (p : Port) (why : Result),
      TakenBy (.loadExtensions .m t ⟨n, o :: rest⟩) s .m p → n.toNat = rest.length + 1 → n.toNat ≤ 16 →
      checkRecord o (settle s) = .error why →
      exec (.loadExtensions .m t ⟨n, o :: rest⟩) s
        = .next ((s.taking .m p).answer .m 6 t .partial_ [n, BitVec.ofNat 8 why.code]))
    ∧ (∀ (s : State) (t : Byte) (o : StoredOps) (p : Port) (why : Result), TakenBy (.setExtension .m t o) s .m p →
      checkRecord o (settle s) = .error why → RefusedWith (.setExtension .m t o) s .m p 4 t why)
    ∧ (∀ (s : State) (t : Byte) (x : Word16) (p : Port), TakenBy (.eraseExtension .m t x) s .m p →
      (2048 ≤ x.toNat → RefusedWith (.eraseExtension .m t x) s .m p 5 t .badOperand)
      ∧ (x.toNat < 2048 → ((settle s).ext x.toNat).isAdmitted = true ∨ ((settle s).ext x.toNat).challenge ≠ none →
        RefusedWith (.eraseExtension .m t x) s .m p 5 t .inService))
    ∧ (∀ (s : State) (t : Byte) (o : LoadOps) (p : Port), TakenBy (.loadExtensions .m t o) s .m p →
      (Instr.loadExtensions .m t o).wellFormed = true → o.count.toNat = 0 ∨ 16 < o.count.toNat →
      RefusedWith (.loadExtensions .m t o) s .m p 6 t .badOperand)
    ∧ ∀ (o : StoredOps) (s : State),
      checkRecord o s =
        if 2048 ≤ o.ext.toNat ∨ 512 ≤ o.slot.toNat ∨ 3 ≤ o.access.toNat ∨ 2 ≤ o.conference.toNat then
          .error .badOperand
        else if (s.ext o.ext.toNat).isAdmitted = true ∨ (s.ext o.ext.toNat).challenge ≠ none then .error .inService
        else if Table.find s.slotMap o.slot.toNat ≠ none
            ∧ Table.find s.slotMap o.slot.toNat ≠ some o.ext.toNat then .error .slotTaken
        else .ok (o.ext.toNat,
          { seed := o.seed, step := o.step, slot := o.slot.toNat, conference := decide (o.conference = 1),
            access := if o.access = 0 then .none else if o.access = 1 then .any else .privateOnly })

/-! ## Admission commands -/

/-- CHALLENGE from a call-processor link is refused in the order of R50's checks, or gives the current nonce with an
expiry one challenge window ahead and steps the generator; ANSWER compares with the four bytes of the keystream
seeded by secret and nonce: a match admits an IDLE extension with its record, change sets and ADMITTED on the issuing
link, a mismatch is a failure answered WRONG_ANSWER, and with no challenge it is TOO_LATE or NO_CHALLENGE (R23, R27,
R50, R51, R53 to R55). Either is refused BAD_OPERAND for an index of 2048 or more. The codes of ANSWER's indication
are log entry 10. -/
def Obligations.ChallengeAndAnswer : Prop :=
  (∀ (s : State) (l : Link) (t : Byte) (x : Word16) (p : Port) (e : Ext) (n : Word32), TakenBy (.challenge l t x) s l p →
      l ≠ .m → x.toNat < 2048 → (settle s).ext x.toNat = e → (settle s).nonce = some n →
      exec (.challenge l t x) s = .next
        (if e.programming = true then (s.taking l p).answer l 9 t .storeBusy []
        else if e.standing = .vacant then (s.taking l p).answer l 9 t .noSecret []
        else if e.standing.code = 3 then (s.taking l p).answer l 9 t .locked []
        else if e.challenge ≠ none then (s.taking l p).answer l 9 t .challengePending []
        else
          State.answer
            (State.setExt { s.taking l p with nonce := some (n * 743605 + 81007) } x.toNat
              { e with
                expired := false,
                challenge := some
                  { nonce := n, issuer := l,
                    expiry := (settle s).frameCount + BitVec.ofNat 32 (8000 * (settle s).challengeWindow) } })
            l 9 t .ok
            (bytes32 n ++ bytes32 ((settle s).frameCount + BitVec.ofNat 32 (8000 * (settle s).challengeWindow)))))
    ∧ (∀ (s : State) (l : Link) (t : Byte) (x : Word16) (y : Word32) (p : Port) (e : Ext) (c : Challenge) (r : Stored),
      TakenBy (.answer l t ⟨x, y⟩) s l p → l ≠ .m → x.toNat < 2048 → (settle s).ext x.toNat = e →
      e.challenge = some c → e.stored = some r →
      (y = expectedResponse r.seed r.step c.nonce → e.isAdmitted = true →
        exec (.answer l t ⟨x, y⟩) s = .next
          (((s.taking l p).setExt x.toNat { e with challenge := none, failures := 0, expired := false }).answer
            l 10 t .ok [2, 1]))
      ∧ (y = expectedResponse r.seed r.step c.nonce → e.isAdmitted = false →
        exec (.answer l t ⟨x, y⟩) s = .next
          (State.answer
            (raiseOn (.admitted x.toNat l) (if ((s.taking l p).port c.issuer).state = .up then [c.issuer] else [.a, .b])
              (noteChange x.toNat ((s.taking l p).setExt x.toNat
                { e with
                  challenge := none, failures := 0, expired := false,
                  standing := .admitted (settle s).frameCount l })))
            l 10 t .ok [2, 0]))
      ∧ (y ≠ expectedResponse r.seed r.step c.nonce →
        exec (.answer l t ⟨x, y⟩) s = .next
          ((failChallenge x.toNat c .wrongAnswer (s.taking l p)).answer l 10 t .wrongAnswer
            [BitVec.ofNat 8 (e.failures + 1), if (settle s).failLimit ≤ e.failures + 1 then 1 else 0])))
    ∧ (∀ (s : State) (l : Link) (t : Byte) (x : Word16) (y : Word32) (p : Port), TakenBy (.answer l t ⟨x, y⟩) s l p →
      l ≠ .m → x.toNat < 2048 → ((settle s).ext x.toNat).challenge = none →
      exec (.answer l t ⟨x, y⟩) s = .next ((s.taking l p).answer l 10 t
        (if ((settle s).ext x.toNat).expired = true then .tooLate else .noChallenge) []))
    ∧ (∀ (seed nonce : Word32) (step : Word16),
      (expectedResponse seed step nonce).toNat =
        (keySteps step (seed + nonce) 1).toNat / 16777216 * 16777216
          + (keySteps step (seed + nonce) 2).toNat / 16777216 * 65536
          + (keySteps step (seed + nonce) 3).toNat / 16777216 * 256
          + (keySteps step (seed + nonce) 4).toNat / 16777216)
    ∧ (∀ (s : State) (l : Link) (t : Byte) (x : Word16) (p : Port), TakenBy (.challenge l t x) s l p → l ≠ .m →
      2048 ≤ x.toNat → RefusedWith (.challenge l t x) s l p 9 t .badOperand)
    ∧ ∀ (s : State) (l : Link) (t : Byte) (x : Word16) (y : Word32) (p : Port), TakenBy (.answer l t ⟨x, y⟩) s l p →
      l ≠ .m → 2048 ≤ x.toNat → RefusedWith (.answer l t ⟨x, y⟩) s l p 10 t .badOperand

/-! ## Opening and clearing paths -/

/-- OPEN_TIE of two free slots, the station slot bound to an ADMITTED extension whose access permits it, opens the
lowest free path under the link's control, with the lowest free context where it is PRIVATE, and answers what it took
(R73, R74, R76, R77, R91). OPEN_TIE's refusals, each where every check before it passes: operands, slots, extension,
admission, tie access, and for a PRIVATE open a free context (R73 to R75). The presence byte of the context is log
entry 10. -/
def Obligations.OpenTieOpensOrRefuses : Prop :=
  (∀ (s : State) (l : Link) (t : Byte) (o : OpenTieOps) (p : Port) (e id : Nat) (r : Stored),
    TakenBy (.openTie l t o) s l p → l ≠ .m → o.station.toNat < 512 →
    Table.find (settle s).stationOcc o.station.toNat = none → Table.find (settle s).tieOcc o.tie.toNat = none →
    Table.find (settle s).slotMap o.station.toNat = some e → ((settle s).ext e).standing.code = 2 →
    ((settle s).ext e).stored = some r → Lowest (settle s).paths 384 id →
      (o.privacy = 0 → r.access = .any →
        exec (.openTie l t o) s = .next
          (State.answer
            (State.setExt
              { s.taking l p with
                paths :=
                  Table.put (settle s).paths id
                    { kind := .tie o.station.toNat e o.tie.toNat .clear, controller := .control l,
                      opened := (settle s).frameCount },
                stationOcc := Table.put (settle s).stationOcc o.station.toNat id,
                tieOcc := Table.put (settle s).tieOcc o.tie.toNat id }
              e { (settle s).ext e with path := some id })
            l 14 t .ok (num16 id ++ bytes32 (settle s).frameCount ++ noContextBytes)))
      ∧ ∀ i, o.privacy = 1 → r.access ≠ .none → Lowest (settle s).ctxs 192 i →
        exec (.openTie l t o) s = .next
          (State.answer
            (State.setExt
              { s.taking l p with
                paths :=
                  Table.put (settle s).paths id
                    { kind := .tie o.station.toNat e o.tie.toNat (.priv i), controller := .control l,
                      opened := (settle s).frameCount },
                stationOcc := Table.put (settle s).stationOcc o.station.toNat id,
                tieOcc := Table.put (settle s).tieOcc o.tie.toNat id,
                ctxs := Table.put (settle s).ctxs i (startedContext (settle s) id o.tie.toNat o.keys o.timing) }
              e { (settle s).ext e with path := some id })
            l 14 t .ok (num16 id ++ bytes32 (settle s).frameCount ++ contextTakenBytes i o.timing)))
    ∧ (∀ (s : State) (l : Link) (t : Byte) (o : OpenTieOps) (p : Port), TakenBy (.openTie l t o) s l p → l ≠ .m →
    (512 ≤ o.station.toNat ∨ 2 ≤ o.privacy.toNat →
      exec (.openTie l t o) s = .next ((s.taking l p).answer l 14 t .badOperand []))
    ∧ (o.station.toNat < 512 → o.privacy.toNat < 2 →
      (Table.find (settle s).stationOcc o.station.toNat ≠ none ∨ Table.find (settle s).tieOcc o.tie.toNat ≠ none →
        exec (.openTie l t o) s = .next ((s.taking l p).answer l 14 t .slotInUse []))
      ∧ (Table.find (settle s).stationOcc o.station.toNat = none → Table.find (settle s).tieOcc o.tie.toNat = none →
        (Table.find (settle s).slotMap o.station.toNat = none →
          exec (.openTie l t o) s = .next ((s.taking l p).answer l 14 t .noExtension []))
        ∧ ∀ e, Table.find (settle s).slotMap o.station.toNat = some e →
          (((settle s).ext e).standing.code ≠ 2 →
            exec (.openTie l t o) s = .next ((s.taking l p).answer l 14 t .notAdmitted []))
          ∧ ∀ r, ((settle s).ext e).standing.code = 2 → ((settle s).ext e).stored = some r →
            (r.access = .none → exec (.openTie l t o) s = .next ((s.taking l p).answer l 14 t .class_ []))
            ∧ (r.access = .privateOnly → o.privacy = 0 →
              exec (.openTie l t o) s = .next ((s.taking l p).answer l 14 t .privacyConflict []))
            ∧ (r.access ≠ .none → o.privacy = 1 → (∀ i, i < 192 → Table.find (settle s).ctxs i ≠ none) →
              exec (.openTie l t o) s = .next ((s.taking l p).answer l 14 t .noContext [])))))

/-- The clearing rule: slots, context and record freed, the extension's path in use removed, a leg out of its bridge
with the talker's designation if it had it; PATH_CLEARED, then any TALKER, to the controller's links (R84, R85,
R134). All else stays. Those links are the controlling one, or for an orphan both call-processor links (R175). -/
def Obligations.ClearingFreesThePath : Prop :=
  (∀ l, (Controller.control l).links = [l])
    ∧ (∀ l d, (Controller.orphan l d).links = [.a, .b])
    ∧ ∀ (s : State) (id : Nat) (p : Path) (cause : ClearCause), Table.find s.paths id = some p →
    ∃ exts,
      (∀ i, (Table.find exts i).getD Ext.vacant = if p.kind.ext = some i then { s.ext i with path := none } else s.ext i)
      ∧ (p.kind.bridge = none →
        clearPath id cause s = raiseOn (.pathCleared id p.kind p.opened cause) p.controller.links
          { s with
            paths := Table.del s.paths id, exts := exts,
            stationOcc := p.kind.station.elim s.stationOcc (Table.del s.stationOcc),
            tieOcc := p.kind.tieSlot.elim s.tieOcc (Table.del s.tieOcc),
            ctxs := p.kind.ctx.elim s.ctxs (Table.del s.ctxs) })
      ∧ ∀ b x, p.kind.bridge = some b → Table.find s.bridges b = some x →
        clearPath id cause s =
          (if x.talker = some id then raiseOn (.talker b none (some id) true) x.controller.links else fun u => u)
            (raiseOn (.pathCleared id p.kind p.opened cause) p.controller.links
              { s with
                paths := Table.del s.paths id, exts := exts,
                stationOcc := p.kind.station.elim s.stationOcc (Table.del s.stationOcc),
                tieOcc := p.kind.tieSlot.elim s.tieOcc (Table.del s.tieOcc),
                ctxs := p.kind.ctx.elim s.ctxs (Table.del s.ctxs),
                bridges :=
                  Table.put s.bridges b
                    { x with
                      legs := x.legs.filter fun g => decide (g.path ≠ id),
                      talker := if x.talker = some id then none else x.talker } })

/-- CLEAR_PATH and REMOVE_LEG clear by that rule, CLOSE_BRIDGE clears its legs in list order and frees the bridge,
and RELEASE takes an ADMITTED extension to IDLE and clears its path; each only for the links it allows (R61, R62,
R83, R135 to R137). The presence byte of the context is log entry 10. -/
def Obligations.ClearingCommandsClear : Prop :=
  (∀ (s : State) (l : Link) (t : Byte) (o : PathRefOps) (p : Port) (id : Nat) (q : Path),
      TakenBy (.clearPath l t o) s l p → PathNamed o (settle s) id q →
      (q.controller = .control l ∨ l = .m ∨ (∀ k, q.controller ≠ .control k) →
        exec (.clearPath l t o) s = .next
          ((clearPath id .command (s.taking l p)).answer l 15 t .ok
            (num16 id ++ (q.kind.ctx.elim [0, 0] fun i => [1, BitVec.ofNat 8 i]))))
      ∧ ∀ k, q.controller = .control k → k ≠ l → l ≠ .m →
        exec (.clearPath l t o) s = .next ((s.taking l p).answer l 15 t .notController []))
    ∧ (∀ (s : State) (l : Link) (t : Byte) (o : RemoveLegOps) (p : Port) (b : Nat) (x : Bridge) (before after : List Leg)
        (g : Leg),
      TakenBy (.removeLeg l t o) s l p → l ≠ .m → BridgeNamed o.ref (settle s) b x → x.controller = .control l →
      o.path.toNat < 384 → x.legs = before ++ g :: after → g.path = o.path.toNat →
      (∀ h ∈ before, h.path ≠ o.path.toNat) →
      exec (.removeLeg l t o) s = .next
        ((clearPath g.path .command (s.taking l p)).answer l 25 t .ok
          (bytes16 o.path ++ (match g.slot with | .tie _ (.priv i) => [1, BitVec.ofNat 8 i] | _ => [0, 0]))))
    ∧ (∀ (s : State) (l : Link) (t : Byte) (o : BridgeRefOps) (p : Port) (b : Nat) (x : Bridge),
      TakenBy (.closeBridge l t o) s l p → BridgeNamed o (settle s) b x →
      x.controller = .control l ∨ l = .m ∨ (∀ k, x.controller ≠ .control k) →
      exec (.closeBridge l t o) s = .next
        (State.answer
          (let u := x.legs.foldl (fun v g => clearPath g.path .bridgeClosed v) (s.taking l p)
           { u with bridges := Table.del u.bridges b })
          l 28 t .ok (num8 x.legs.length)))
    ∧ (∀ (s : State) (l : Link) (t : Byte) (x : Word16) (p : Port) (since : Word32) (k : Link),
      TakenBy (.release l t x) s l p → x.toNat < 2048 → ((settle s).ext x.toNat).standing = .admitted since k →
      exec (.release l t x) s = .next
        (State.answer
          ((match ((settle s).ext x.toNat).path with
            | none => fun u => u
            | some id => clearPath id .deadmitted)
            (raiseOn (.deadmitted x.toNat .release ((settle s).ext x.toNat).path) [.a, .b]
              (noteChange x.toNat
                ((s.taking l p).setExt x.toNat { (settle s).ext x.toNat with standing := .idle }))))
          l 11 t .ok []))
    ∧ (∀ (s : State) (l : Link) (t : Byte) (o : PathRefOps) (p : Port) (why : Result), TakenBy (.clearPath l t o) s l p →
      PathUnnamed o (settle s) why → RefusedWith (.clearPath l t o) s l p 15 t why)
    ∧ (∀ (s : State) (l : Link) (t : Byte) (o : RemoveLegOps) (p : Port), TakenBy (.removeLeg l t o) s l p → l ≠ .m →
      (384 ≤ o.path.toNat → RefusedWith (.removeLeg l t o) s l p 25 t .badOperand)
      ∧ (o.path.toNat < 384 → ∀ why, BridgeRefusal o.ref l (settle s) why →
        RefusedWith (.removeLeg l t o) s l p 25 t why)
      ∧ ∀ b x, o.path.toNat < 384 → BridgeNamed o.ref (settle s) b x → x.controller = .control l →
        (∀ g ∈ x.legs, g.path ≠ o.path.toNat) → RefusedWith (.removeLeg l t o) s l p 25 t .noPath)
    ∧ (∀ (s : State) (l : Link) (t : Byte) (o : BridgeRefOps) (p : Port), TakenBy (.closeBridge l t o) s l p →
      (∀ why, BridgeUnnamed o (settle s) why → RefusedWith (.closeBridge l t o) s l p 28 t why)
      ∧ ∀ b x k, BridgeNamed o (settle s) b x → x.controller = .control k → k ≠ l → l ≠ .m →
        RefusedWith (.closeBridge l t o) s l p 28 t .notController)
    ∧ ∀ (s : State) (l : Link) (t : Byte) (x : Word16) (p : Port), TakenBy (.release l t x) s l p →
      (2048 ≤ x.toNat → RefusedWith (.release l t x) s l p 11 t .badOperand)
      ∧ (x.toNat < 2048 → ((settle s).ext x.toNat).standing.code ≠ 2 →
        RefusedWith (.release l t x) s l p 11 t .notAdmitted)

/-- RESET_TRAFFIC frees every path, slot, context, leg and bridge without an event and answers how many paths and
bridges were in use; extensions keep all but their path in use, and a measuring survey starts its pass again (R88,
R160). -/
def Obligations.ResetTrafficFreesEverything : Prop :=
  ∀ (s : State) (t : Byte) (p : Port), TakenBy (.resetTraffic .m t) s .m p →
    Table.sorted (settle s).exts = true →
    ∃ exts, (∀ i, (Table.find exts i).getD Ext.vacant = { (settle s).ext i with path := none })
      ∧ exec (.resetTraffic .m t) s = .next
        (State.answer
          { s.taking .m p with
            paths := [], stationOcc := [], tieOcc := [], ctxs := [], bridges := [], exts := exts,
            survey :=
              { (settle s).survey with
                state := match (settle s).survey.state with
                  | .measuring _ _ _ _ => .measuring 1 0 0 0
                  | .stopped => .stopped
                  | .standby => .standby } }
          .m 17 t .ok (num16 (settle s).paths.length ++ num8 (settle s).bridges.length))

/-! ## Commands of contexts and bridges -/

/-- What STAGE_KEY stages for one direction: a half present replaces the staged half, one absent removes it; the
length and lead as R103 takes them (R103, R104). STAGE_KEY from the controlling link replaces the two staged halves,
answers OK, or REPLACED where a half was staged, with the context's index and the timing staged, and changes nothing
else (R102, R105). It is refused BAD_OPERAND, NO_PATH, NOT_CONTROLLER and NOT_PRIVATE in that order (R102, R186). -/
def Obligations.StageKeyStagesTheHalves : Prop :=
  (∀ (s : State) (l : Link) (t : Byte) (o : StageKeyOps) (p : Port) (id i : Nat) (q : Path) (c : Context),
    TakenBy (.stageKey l t o) s l p → l ≠ .m → PathNamed o.ref (settle s) id q → q.controller = .control l →
    q.kind.ctx = some i → Table.find (settle s).ctxs i = some c →
    (∀ h ∈ [o.tx, o.rx], h.present.toNat ≤ 1 ∧ h.epoch.present.toNat ≤ 1 ∧ h.lead.present.toNat ≤ 1) →
      ∃ half : HalfOps → DirState → Option Staged,
        (∀ h d, h.present = 0 → half h d = none)
        ∧ (∀ h d, h.present = 1 → ∃ g, half h d = some g ∧ g.seed = h.seed ∧ g.step = h.step
          ∧ g.length = (if h.epoch.present = 1 then some (8000 * epochTaken h.epoch.value) else none)
          ∧ g.lead =
            (if h.lead.present = 1 then
              some (8000 * min ((if h.epoch.present = 1 then epochTaken h.epoch.value else d.length / 8000) - 1)
                h.lead.value.toNat)
            else if h.epoch.present = 1 ∧ epochTaken h.epoch.value ≤ d.lead / 8000 then
              some (8000 * (epochTaken h.epoch.value - 1))
            else none))
        ∧ exec (.stageKey l t o) s = .next
          (State.answer
            ((s.taking l p).setCtx i
              { c with
                tx := { c.tx with dir := { c.tx.dir with staged := half o.tx c.tx.dir } },
                rx := { c.rx with dir := { c.rx.dir with staged := half o.rx c.rx.dir } } })
            l 18 t (if c.tx.dir.staged = none ∧ c.rx.dir.staged = none then .ok else .replaced)
            ([BitVec.ofNat 8 i]
              ++ ([(half o.tx c.tx.dir, c.tx.dir), (half o.rx c.rx.dir, c.rx.dir)].flatMap fun x =>
                match x.1 with
                | none => [0, 0, 0, 0, 0]
                | some g => [1] ++ num16 (g.length.getD x.2.length / 8000) ++ num16 (g.lead.getD x.2.lead / 8000)))))
    ∧ ∀ (s : State) (l : Link) (t : Byte) (o : StageKeyOps) (p : Port), TakenBy (.stageKey l t o) s l p → l ≠ .m →
      ((∃ h ∈ [o.tx, o.rx], 2 ≤ h.present.toNat
          ∨ (h.present = 1 ∧ (2 ≤ h.epoch.present.toNat ∨ 2 ≤ h.lead.present.toNat))) →
        RefusedWith (.stageKey l t o) s l p 18 t .badOperand)
      ∧ ((∀ h ∈ [o.tx, o.rx], h.present.toNat ≤ 1 ∧ h.epoch.present.toNat ≤ 1 ∧ h.lead.present.toNat ≤ 1) →
        ∀ why, ContextRefusal o.ref l (settle s) why → RefusedWith (.stageKey l t o) s l p 18 t why)

/-- RESYNC_TX restarts the transmit direction in PREAMBLE and answers what it was (R95, R111); SET_GUARD writes the
settings clamped and starts a new window with no strikes (R123). Only the controlling link may. Both are refused
BAD_OPERAND, NO_PATH, NOT_CONTROLLER and NOT_PRIVATE in that order (R102, R111, R123). -/
def Obligations.ResyncAndGuardReachTheContext : Prop :=
  (∀ (s : State) (l : Link) (t : Byte) (o : PathRefOps) (p : Port) (id i : Nat) (q : Path) (c : Context),
      TakenBy (.resyncTx l t o) s l p → l ≠ .m → PathNamed o (settle s) id q → q.controller = .control l →
      q.kind.ctx = some i → Table.find (settle s).ctxs i = some c →
      exec (.resyncTx l t o) s = .next
        (State.answer
          ((s.taking l p).setCtx i
            { c with
              tx :=
                { phase := .preamble 0,
                  dir := { c.tx.dir with f := 0, epoch := 0, gen := c.tx.dir.seed, owed := 0, warnDue := false } } })
          l 20 t .ok
          ([BitVec.ofNat 8 i, if c.tx.phase = .running then 1 else 0] ++ num32 c.tx.dir.epoch ++ num32 c.tx.dir.f)))
    ∧ (∀ (s : State) (l : Link) (t : Byte) (o : SetGuardOps) (p : Port) (id i : Nat) (q : Path) (c : Context),
      TakenBy (.setGuard l t o) s l p → l ≠ .m → PathNamed o.ref (settle s) id q → q.controller = .control l →
      q.kind.ctx = some i → Table.find (settle s).ctxs i = some c → o.enabled.toNat ≤ 1 →
      exec (.setGuard l t o) s = .next
        (State.answer
          ((s.taking l p).setCtx i
            { c with
              ceiling := max 64 (min 3952 o.ceiling.toNat), strikesLimit := max 1 (min 15 o.limit.toNat),
              guardOn := decide (o.enabled = 1),
              rx := { c.rx with guardSum := 0, guardCount := 0, strikes := 0 } })
          l 21 t .ok
          ([BitVec.ofNat 8 i] ++ num16 (max 64 (min 3952 o.ceiling.toNat)) ++ num16 (max 1 (min 15 o.limit.toNat))
            ++ [o.enabled])))
    ∧ (∀ (s : State) (l : Link) (t : Byte) (o : PathRefOps) (p : Port) (id : Nat) (q : Path),
      TakenBy (.resyncTx l t o) s l p → l ≠ .m → PathNamed o (settle s) id q →
      (q.controller ≠ .control l → exec (.resyncTx l t o) s = .next ((s.taking l p).answer l 20 t .notController []))
      ∧ (q.controller = .control l → q.kind.ctx = none →
        exec (.resyncTx l t o) s = .next ((s.taking l p).answer l 20 t .notPrivate [])))
    ∧ (∀ (s : State) (l : Link) (t : Byte) (o : PathRefOps) (p : Port) (why : Result), TakenBy (.resyncTx l t o) s l p →
      l ≠ .m → ContextRefusal o l (settle s) why → RefusedWith (.resyncTx l t o) s l p 20 t why)
    ∧ ∀ (s : State) (l : Link) (t : Byte) (o : SetGuardOps) (p : Port), TakenBy (.setGuard l t o) s l p → l ≠ .m →
      (2 ≤ o.enabled.toNat → RefusedWith (.setGuard l t o) s l p 21 t .badOperand)
      ∧ (o.enabled.toNat < 2 → ∀ why, ContextRefusal o.ref l (settle s) why →
        RefusedWith (.setGuard l t o) s l p 21 t why)

/-- OPEN_BRIDGE opens the lowest FREE bridge with the threshold given, 200 without one (R129); SET_LEG and SET_TALKER
stage clamped values for the next window boundary, REPLACED if some were staged (R138, R139). Each is refused as its
rule says: BAD_OPERAND, NO_BRIDGE, NOT_CONTROLLER, and for SET_LEG NO_PATH (R129, R135, R138, R139). The body of an
OK of SET_LEG is log entry 19. -/
def Obligations.BridgeIsOpenedAndStaged : Prop :=
  (∀ (s : State) (l : Link) (t : Byte) (o : Opt 16) (p : Port) (b n : Nat), TakenBy (.openBridge l t o) s l p → l ≠ .m →
      o.present.toNat ≤ 1 → Lowest (settle s).bridges 32 b →
      n = (if o.present = 1 then min 3952 o.value.toNat else 200) →
      exec (.openBridge l t o) s = .next
        (State.answer
          { s.taking l p with
            bridges :=
              Table.put (settle s).bridges b
                { controller := .control l, opened := (settle s).frameCount, threshold := n, staged := none,
                  windowCount := 0, talker := none, legs := [] } }
          l 23 t .ok ([BitVec.ofNat 8 b] ++ bytes32 (settle s).frameCount ++ num16 n)))
    ∧ (∀ (s : State) (l : Link) (t : Byte) (o : SetLegOps) (p : Port) (b : Nat) (x : Bridge) (before after : List Leg)
        (g : Leg) (m : Mode),
      TakenBy (.setLeg l t o) s l p → l ≠ .m → BridgeNamed o.ref (settle s) b x → x.controller = .control l →
      o.path.toNat < 384 → x.legs = before ++ g :: after → g.path = o.path.toNat →
      (∀ h ∈ before ++ after, h.path ≠ o.path.toNat) → (o.mode = 0 ∧ m = .talk ∨ o.mode = 1 ∧ m = .listen) →
      exec (.setLeg l t o) s = .next
        (State.answer
          { s.taking l p with
            bridges :=
              Table.put (settle s).bridges b
                { x with legs := before ++ { g with staged := some (min 32 o.gain.toNat, m) } :: after } }
          l 26 t (if g.staged = none then .ok else .replaced) (num8 (min 32 o.gain.toNat) ++ [o.mode])))
    ∧ (∀ (s : State) (l : Link) (t : Byte) (o : SetTalkerOps) (p : Port) (b : Nat) (x : Bridge),
      TakenBy (.setTalker l t o) s l p → l ≠ .m → BridgeNamed o.ref (settle s) b x → x.controller = .control l →
      exec (.setTalker l t o) s = .next
        (State.answer
          { s.taking l p with
            bridges := Table.put (settle s).bridges b { x with staged := some (min 3952 o.threshold.toNat) } }
          l 27 t (if x.staged = none then .ok else .replaced) (num16 (min 3952 o.threshold.toNat))))
    ∧ (∀ (s : State) (l : Link) (t : Byte) (o : Opt 16) (p : Port), TakenBy (.openBridge l t o) s l p → l ≠ .m →
      (2 ≤ o.present.toNat → RefusedWith (.openBridge l t o) s l p 23 t .badOperand)
      ∧ (o.present.toNat < 2 → (∀ b, b < 32 → Table.find (settle s).bridges b ≠ none) →
        RefusedWith (.openBridge l t o) s l p 23 t .noBridge))
    ∧ (∀ (s : State) (l : Link) (t : Byte) (o : SetLegOps) (p : Port), TakenBy (.setLeg l t o) s l p → l ≠ .m →
      (384 ≤ o.path.toNat ∨ 2 ≤ o.mode.toNat → RefusedWith (.setLeg l t o) s l p 26 t .badOperand)
      ∧ (o.path.toNat < 384 → o.mode.toNat < 2 → ∀ why, BridgeRefusal o.ref l (settle s) why →
        RefusedWith (.setLeg l t o) s l p 26 t why)
      ∧ ∀ b x, o.path.toNat < 384 → o.mode.toNat < 2 → BridgeNamed o.ref (settle s) b x → x.controller = .control l →
        (∀ g ∈ x.legs, g.path ≠ o.path.toNat) → RefusedWith (.setLeg l t o) s l p 26 t .noPath)
    ∧ ∀ (s : State) (l : Link) (t : Byte) (o : SetTalkerOps) (p : Port) (why : Result), TakenBy (.setTalker l t o) s l p →
      l ≠ .m → BridgeRefusal o.ref l (settle s) why → RefusedWith (.setTalker l t o) s l p 27 t why

/-- ADD_LEG to a bridge under the link's control, with room and a free slot, appends a leg on the lowest free path: a
station leg of an ADMITTED extension that the class and privacy rules permit, or a tie leg, with the lowest free
context where it is PRIVATE (R130 to R133). The presence byte of the context is log entry 10. Its refusals, each
where every check before it passes: operands, bridge, controller, the bridge's and the pool's room, the slot, the
extension, its admission, class, privacy, and for a PRIVATE tie leg a free context (R130 to R132). -/
def Obligations.AddLegJoinsTheBridge : Prop :=
  (∀ (s : State) (l : Link) (t : Byte) (o : AddLegOps) (p : Port) (b id : Nat) (x : Bridge) (m : Mode),
    TakenBy (.addLeg l t o) s l p → l ≠ .m → BridgeNamed o.ref (settle s) b x → x.controller = .control l →
    (o.mode = 0 ∧ m = .talk ∨ o.mode = 1 ∧ m = .listen) → x.legs.length < 8 → (settle s).legsInUse < 128 →
    Lowest (settle s).paths 384 id →
      (∀ e r, o.kind = 0 → o.station.toNat < 512 → Table.find (settle s).stationOcc o.station.toNat = none →
        Table.find (settle s).slotMap o.station.toNat = some e → ((settle s).ext e).standing.code = 2 →
        ((settle s).ext e).stored = some r → r.conference = true →
        (r.access = .none → ∀ g ∈ x.legs, ∃ n, g.slot = .station n) →
        (r.access = .privateOnly → ∀ g ∈ x.legs, ∀ n, g.slot ≠ .tie n .clear) →
        exec (.addLeg l t o) s = .next
          (State.answer
            (let u : State := { s.taking l p with
                paths :=
                  Table.put (settle s).paths id
                    { kind := .bridgeStation o.station.toNat e b, controller := .control l,
                      opened := (settle s).frameCount },
                stationOcc := Table.put (settle s).stationOcc o.station.toNat id,
                bridges :=
                  Table.put (settle s).bridges b
                    { x with
                      legs := x.legs ++
                        [{ path := id, slot := .station o.station.toNat, gain := min 32 o.gain.toNat, mode := m,
                           staged := none, sum := 0 }] } }
             u.setExt e { (settle s).ext e with path := some id })
            l 24 t .ok
            (num16 id ++ bytes32 (settle s).frameCount ++ num8 (x.legs.length + 1) ++ num8 (min 32 o.gain.toNat)
              ++ noContextBytes)))
      ∧ (o.kind = 1 → o.privacy = 0 → Table.find (settle s).tieOcc o.tie.toNat = none →
        (∀ g ∈ x.legs, ∀ q e, Table.find (settle s).paths g.path = some q → q.kind.ext = some e →
          ∃ r, ((settle s).ext e).stored = some r ∧ r.access = .any) →
        exec (.addLeg l t o) s = .next
          (State.answer
            { s.taking l p with
              paths :=
                Table.put (settle s).paths id
                  { kind := .bridgeTie o.tie.toNat .clear b, controller := .control l, opened := (settle s).frameCount },
              tieOcc := Table.put (settle s).tieOcc o.tie.toNat id,
              bridges :=
                Table.put (settle s).bridges b
                  { x with
                    legs := x.legs ++
                      [{ path := id, slot := .tie o.tie.toNat .clear, gain := min 32 o.gain.toNat, mode := m,
                         staged := none, sum := 0 }] } }
            l 24 t .ok
            (num16 id ++ bytes32 (settle s).frameCount ++ num8 (x.legs.length + 1) ++ num8 (min 32 o.gain.toNat)
              ++ noContextBytes)))
      ∧ ∀ i, o.kind = 1 → o.privacy = 1 → Table.find (settle s).tieOcc o.tie.toNat = none →
        (∀ g ∈ x.legs, ∀ q e, Table.find (settle s).paths g.path = some q → q.kind.ext = some e →
          ∃ r, ((settle s).ext e).stored = some r ∧ r.access ≠ .none) →
        Lowest (settle s).ctxs 192 i →
        exec (.addLeg l t o) s = .next
          (State.answer
            { s.taking l p with
              paths :=
                Table.put (settle s).paths id
                  { kind := .bridgeTie o.tie.toNat (.priv i) b, controller := .control l,
                    opened := (settle s).frameCount },
              tieOcc := Table.put (settle s).tieOcc o.tie.toNat id,
              ctxs := Table.put (settle s).ctxs i (startedContext (settle s) id o.tie.toNat o.keys o.timing),
              bridges :=
                Table.put (settle s).bridges b
                  { x with
                    legs := x.legs ++
                      [{ path := id, slot := .tie o.tie.toNat (.priv i), gain := min 32 o.gain.toNat, mode := m,
                         staged := none, sum := 0 }] } }
            l 24 t .ok
            (num16 id ++ bytes32 (settle s).frameCount ++ num8 (x.legs.length + 1) ++ num8 (min 32 o.gain.toNat)
              ++ contextTakenBytes i o.timing)))
    ∧ ∀ (s : State) (l : Link) (t : Byte) (o : AddLegOps) (p : Port), TakenBy (.addLeg l t o) s l p → l ≠ .m →
      (¬AddLegReadable o → RefusedWith (.addLeg l t o) s l p 24 t .badOperand)
      ∧ (AddLegReadable o → ∀ why, BridgeRefusal o.ref l (settle s) why → RefusedWith (.addLeg l t o) s l p 24 t why)
      ∧ ∀ b x, AddLegReadable o → BridgeNamed o.ref (settle s) b x → x.controller = .control l →
        (8 ≤ x.legs.length → RefusedWith (.addLeg l t o) s l p 24 t .bridgeFull)
        ∧ (x.legs.length < 8 → 128 ≤ (settle s).legsInUse → RefusedWith (.addLeg l t o) s l p 24 t .noLeg)
        ∧ (x.legs.length < 8 → (settle s).legsInUse < 128 →
          (o.kind = 0 →
            (Table.find (settle s).stationOcc o.station.toNat ≠ none →
              RefusedWith (.addLeg l t o) s l p 24 t .slotInUse)
            ∧ (Table.find (settle s).stationOcc o.station.toNat = none →
              (Table.find (settle s).slotMap o.station.toNat = none →
                RefusedWith (.addLeg l t o) s l p 24 t .noExtension)
              ∧ ∀ e, Table.find (settle s).slotMap o.station.toNat = some e →
                (((settle s).ext e).standing.code ≠ 2 → RefusedWith (.addLeg l t o) s l p 24 t .notAdmitted)
                ∧ ∀ r, ((settle s).ext e).standing.code = 2 → ((settle s).ext e).stored = some r →
                  (r.conference = false ∨ (r.access = .none ∧ ∃ g ∈ x.legs, ∀ n, g.slot ≠ .station n) →
                    RefusedWith (.addLeg l t o) s l p 24 t .class_)
                  ∧ (r.conference = true → r.access = .privateOnly → (∃ g ∈ x.legs, ∃ n, g.slot = .tie n .clear) →
                    RefusedWith (.addLeg l t o) s l p 24 t .privacyConflict)))
          ∧ (o.kind = 1 →
            (Table.find (settle s).tieOcc o.tie.toNat ≠ none → RefusedWith (.addLeg l t o) s l p 24 t .slotInUse)
            ∧ (Table.find (settle s).tieOcc o.tie.toNat = none →
              ((∃ g ∈ x.legs, ∃ q e r, Table.find (settle s).paths g.path = some q ∧ q.kind.ext = some e
                  ∧ ((settle s).ext e).stored = some r ∧ r.access = .none) →
                RefusedWith (.addLeg l t o) s l p 24 t .class_)
              ∧ ((∀ g ∈ x.legs, ∀ q e, Table.find (settle s).paths g.path = some q → q.kind.ext = some e →
                  ∃ r, ((settle s).ext e).stored = some r ∧ r.access ≠ .none) →
                (o.privacy = 0 → (∃ g ∈ x.legs, ∃ q e r, Table.find (settle s).paths g.path = some q
                    ∧ q.kind.ext = some e ∧ ((settle s).ext e).stored = some r ∧ r.access = .privateOnly) →
                  RefusedWith (.addLeg l t o) s l p 24 t .privacyConflict)
                ∧ (o.privacy = 1 → (∀ i, i < 192 → Table.find (settle s).ctxs i ≠ none) →
                  RefusedWith (.addLeg l t o) s l p 24 t .noContext)))))

/-! ## Commands of the survey, and adoption -/

/-- SET_SURVEY with one entry or more, all different, writes the settings with the window rounded down and the limits
clamped and put in order, removes the results and leaves STOPPED or begins under the new trigger (R148, R149);
START_SURVEY and STOP_SURVEY (R154, R157). SET_SURVEY is refused BAD_OPERAND for a count of 0 or above 8, an entry's
kind, number or point out of range, two entries alike, a mode, trigger kind or report outside its table, and a
context index or direction out of range where the trigger has one (R148). -/
def Obligations.SurveyCommandsSetAndRun : Prop :=
  (∀ (s : State) (t : Byte) (o : SetSurveyOps) (p : Port) (es : List SurveyEntry) (after : SurveyState) (w lo hi : Nat),
      TakenBy (.setSurvey .m t o) s .m p → o.count.toNat = o.entries.length → 1 ≤ es.length → es.length ≤ 8 →
      o.entries = es.map (fun e =>
        { kind := match e.slot with | .station _ => 0 | .tie _ => 1,
          number := match e.slot with | .station n => BitVec.ofNat 16 n | .tie n => BitVec.ofNat 16 n,
          point := if e.clearPoint then 1 else 0 }) →
      (∀ e ∈ es, match e.slot with | .station n => n < 512 | .tie n => n < 256) → es.Nodup →
      o.mode.toNat ≤ 1 → o.report.toNat ≤ 2 →
      w = (if o.window.toNat < 64 then 32 else if o.window.toNat < 128 then 64 else if o.window.toNat < 256 then 128
        else 256) →
      lo = min 3952 (min o.low.toNat o.high.toNat) → hi = min 3952 (max o.low.toNat o.high.toNat) →
      ∀ tr : Trigger,
        (o.trigger = 0 ∧ tr = .immediate)
          ∨ (o.trigger = 1 ∧ o.ctx.toNat < 192
              ∧ (o.dir = 0 ∧ tr = .rollover o.ctx.toNat .tx ∨ o.dir = 1 ∧ tr = .rollover o.ctx.toNat .rx))
          ∨ (o.trigger = 2 ∧ o.ctx.toNat < 192 ∧ tr = .syncLost o.ctx.toNat) →
        after = (if (settle s).survey.state = .stopped then .stopped
          else if tr = .immediate then .measuring 1 0 0 0 else .standby) →
        exec (.setSurvey .m t o) s = .next
          (State.answer
            { s.taking .m p with
              survey :=
                { entries := es, repeating := decide (o.mode = 1), trigger := tr, window := w, low := lo, high := hi,
                  report := if o.report = 0 then .inside else if o.report = 1 then .outside else .all,
                  state := after, results := [] } }
            .m 30 t .ok
            (num16 w ++ num16 lo ++ num16 hi
              ++ ([match after with | .stopped => 0 | .standby => 1 | .measuring _ _ _ _ => 2] : List Byte))))
    ∧ (∀ (s : State) (t : Byte) (p : Port), TakenBy (.startSurvey .m t) s .m p →
      exec (.startSurvey .m t) s = .next
        (if (settle s).survey.entries = [] then (s.taking .m p).answer .m 31 t .emptyList []
        else if (settle s).survey.trigger = .immediate then
          State.answer { s.taking .m p with survey := { (settle s).survey with state := .measuring 1 0 0 0 } }
            .m 31 t .ok [2]
        else
          State.answer { s.taking .m p with survey := { (settle s).survey with state := .standby } } .m 31 t .ok [1]))
    ∧ (∀ (s : State) (t : Byte) (p : Port), TakenBy (.stopSurvey .m t) s .m p →
      exec (.stopSurvey .m t) s = .next
        (State.answer { s.taking .m p with survey := { (settle s).survey with state := .stopped } } .m 32 t .ok
          [match (settle s).survey.state with | .stopped => 0 | .standby => 1 | .measuring _ _ _ _ => 2]))
    ∧ ∀ (s : State) (t : Byte) (o : SetSurveyOps) (p : Port), TakenBy (.setSurvey .m t o) s .m p →
      (Instr.setSurvey .m t o).wellFormed = true →
      o.count.toNat = 0 ∨ 8 < o.count.toNat
        ∨ (∃ e ∈ o.entries, 2 ≤ e.kind.toNat ∨ (e.kind = 0 ∧ 512 ≤ e.number.toNat)
          ∨ (e.kind = 1 ∧ 256 ≤ e.number.toNat) ∨ 2 ≤ e.point.toNat)
        ∨ ¬o.entries.Nodup ∨ 2 ≤ o.mode.toNat ∨ 3 ≤ o.trigger.toNat ∨ 3 ≤ o.report.toNat
        ∨ ((o.trigger = 1 ∨ o.trigger = 2) ∧ 192 ≤ o.ctx.toNat) ∨ (o.trigger = 1 ∧ 2 ≤ o.dir.toNat) →
      RefusedWith (.setSurvey .m t o) s .m p 30 t .badOperand

/-- ADOPT from link M is refused NOT_PERMITTED, and a former controller other than A or B BAD_OPERAND. An accepted
one puts every orphan of the former controller, paths and bridges, under the adopting link's control, answers how
many TIE paths, bridges and leg paths they were, and reports it to the other links (R181, R182). -/
def Obligations.AdoptTakesTheOrphans : Prop :=
  (∀ (s : State) (t x : Byte) (p : Port), TakenBy (.adopt .m t x) s .m p →
      exec (.adopt .m t x) s = .next ((s.taking .m p).answer .m 34 t .notPermitted []))
    ∧ (∀ (s : State) (l : Link) (t x : Byte) (p : Port), TakenBy (.adopt l t x) s l p → l ≠ .m → 2 ≤ x.toNat →
      exec (.adopt l t x) s = .next ((s.taking l p).answer l 34 t .badOperand []))
    ∧ ∀ (s : State) (l k : Link) (t x : Byte) (p : Port) (ties brs legs : Nat),
    TakenBy (.adopt l t x) s l p → l ≠ .m →
    (x = 0 ∧ k = .a ∨ x = 1 ∧ k = .b) →
    ties = ((settle s).paths.filter fun e => e.2.kind.code = 0 ∧ Controller.isOrphanOf k e.2.controller).length →
    brs = ((settle s).bridges.filter fun e => Controller.isOrphanOf k e.2.controller).length →
    legs = ((settle s).paths.filter fun e => e.2.kind.code ≠ 0 ∧ Controller.isOrphanOf k e.2.controller).length →
      ∃ paths bridges,
        (∀ id, Table.find paths id = (Table.find (settle s).paths id).map fun q =>
          match q.controller with
          | .control _ => q
          | .orphan f _ => if f = k then { q with controller := .control l } else q)
        ∧ (∀ b, Table.find bridges b = (Table.find (settle s).bridges b).map fun y =>
          match y.controller with
          | .control _ => y
          | .orphan f _ => if f = k then { y with controller := .control l } else y)
        ∧ exec (.adopt l t x) s = .next
          (State.answer
            (raiseOn (.orphansAdopted l k ties brs legs) ([.a, .b, .m].filter fun j => decide (j ≠ l))
              { s.taking l p with paths := paths, bridges := bridges })
            l 34 t .ok (num16 ties ++ num8 brs ++ num8 legs))
end

