-- ==== Sys2Proof/Laws/Frames.lean ====
section
/-! SUPPORT. Numbers as bytes and back, and the members of a frame: each reading gives back what its writing wrote, and
leaves the bytes after it. -/

namespace Sys2Proof

/-! ## Numbers -/

@[simp] theorem length_bytes16 (x : Word16) : (bytes16 x).length = 2 := rfl
@[simp] theorem length_bytes32 (x : Word32) : (bytes32 x).length = 4 := rfl

@[simp] theorem read8_cons (x : Byte) (r : List Byte) : read8 (x :: r) = (x, r) := rfl

theorem joined16 (x : Word16) : (x.extractLsb' 8 8 ++ x.extractLsb' 0 8 : BitVec 16) = x := by
  apply BitVec.eq_of_getLsbD_eq
  intro i h
  simp only [BitVec.getLsbD_append, BitVec.getLsbD_extractLsb']
  by_cases a : i < 8
  · simp [a]
  · simp only [a, decide_false, if_false, show i - 8 < 8 by omega, decide_true, Bool.true_and]
    congr 1; omega

theorem joined32 (x : Word32) :
    ((x.extractLsb' 24 8 ++ x.extractLsb' 16 8) ++ (x.extractLsb' 8 8 ++ x.extractLsb' 0 8) : BitVec 32) = x := by
  apply BitVec.eq_of_getLsbD_eq
  intro i h
  simp only [BitVec.getLsbD_append, BitVec.getLsbD_extractLsb']
  by_cases a : i < 8
  · simp [a, show i < 8 + 8 by omega]
  · by_cases b : i < 16
    · simp [a, show i < 8 + 8 by omega, show i - 8 < 8 by omega, show 8 + (i - 8) = i by omega]
    · by_cases c : i < 24
      · simp [show ¬ i < 8 + 8 by omega, show i - (8 + 8) < 8 by omega, show 16 + (i - (8 + 8)) = i by omega]
      · simp [show ¬ i < 8 + 8 by omega, show ¬ i - (8 + 8) < 8 by omega, show i - (8 + 8) - 8 < 8 by omega,
          show 24 + (i - (8 + 8) - 8) = i by omega]

@[simp] theorem read16_bytes16 (x : Word16) (r : List Byte) : read16 (bytes16 x ++ r) = (x, r) := by
  simp only [read16, bytes16, List.cons_append, List.nil_append, List.headD_cons, List.drop_succ_cons, List.drop_zero]
  rw [joined16]

@[simp] theorem read32_bytes32 (x : Word32) (r : List Byte) : read32 (bytes32 x ++ r) = (x, r) := by
  simp only [read32, bytes32, List.cons_append, List.nil_append, List.headD_cons, List.drop_succ_cons, List.drop_zero]
  rw [joined32]

@[simp] theorem read16_bytes16_end (x : Word16) : read16 (bytes16 x) = (x, []) := by
  simpa using read16_bytes16 x []

@[simp] theorem read32_bytes32_end (x : Word32) : read32 (bytes32 x) = (x, []) := by
  simpa using read32_bytes32 x []

/-! ## Members -/

@[simp] theorem readOpt16_write (o : Opt 16) (r : List Byte) : readOpt16 (writeOpt16 o ++ r) = (o, r) := by
  simp [readOpt16, writeOpt16]

@[simp] theorem readOpt32_write (o : Opt 32) (r : List Byte) : readOpt32 (writeOpt32 o ++ r) = (o, r) := by
  simp [readOpt32, writeOpt32]

@[simp] theorem readStored_write (o : StoredOps) (r : List Byte) : readStored (writeStored o ++ r) = (o, r) := by
  simp [readStored, writeStored]

@[simp] theorem readKeys_write (o : KeyBlock) (r : List Byte) : readKeys (writeKeys o ++ r) = (o, r) := by
  simp [readKeys, writeKeys]

@[simp] theorem readTiming_write (o : TimingOps) (r : List Byte) : readTiming (writeTiming o ++ r) = (o, r) := by
  simp [readTiming, writeTiming]

@[simp] theorem readPathRef_write (o : PathRefOps) (r : List Byte) : readPathRef (writePathRef o ++ r) = (o, r) := by
  simp [readPathRef, writePathRef]

@[simp] theorem readBridgeRef_write (o : BridgeRefOps) (r : List Byte) :
    readBridgeRef (writeBridgeRef o ++ r) = (o, r) := by
  simp [readBridgeRef, writeBridgeRef]

@[simp] theorem readHalf_write (o : HalfOps) (r : List Byte) : readHalf (writeHalf o ++ r) = (o, r) := by
  simp [readHalf, writeHalf]

@[simp] theorem readThree_write (o : ThreeOps) (r : List Byte) : readThree (writeThree o ++ r) = (o, r) := by
  simp [readThree, writeThree]

@[simp] theorem readSurveyEntry_write (o : SurveyEntryOps) (r : List Byte) :
    readSurveyEntry (writeSurveyEntry o ++ r) = (o, r) := by
  simp [readSurveyEntry, writeSurveyEntry]

/-- A list of members is read back as it was written. -/
theorem readMany_writeMany {α : Type} (read : List Byte → α × List Byte) (write : α → List Byte)
    (h : ∀ x r, read (write x ++ r) = (x, r)) (xs : List α) (r : List Byte) :
    readMany read xs.length (writeMany write xs ++ r) = (xs, r) := by
  induction xs with
  | nil => rfl
  | cons x xs ih => simp [readMany, writeMany, h, ih]

/-! ## Lengths -/

@[simp] theorem length_writeOpt16 (o : Opt 16) : (writeOpt16 o).length = 3 := rfl
@[simp] theorem length_writeOpt32 (o : Opt 32) : (writeOpt32 o).length = 5 := rfl
@[simp] theorem length_writeStored (o : StoredOps) : (writeStored o).length = 12 := rfl
@[simp] theorem length_writeKeys (o : KeyBlock) : (writeKeys o).length = 12 := rfl
@[simp] theorem length_writeTiming (o : TimingOps) : (writeTiming o).length = 8 := rfl
@[simp] theorem length_writePathRef (o : PathRefOps) : (writePathRef o).length = 7 := rfl
@[simp] theorem length_writeBridgeRef (o : BridgeRefOps) : (writeBridgeRef o).length = 6 := rfl
@[simp] theorem length_writeHalf (o : HalfOps) : (writeHalf o).length = 13 := rfl
@[simp] theorem length_writeThree (o : ThreeOps) : (writeThree o).length = 6 := rfl
@[simp] theorem length_writeSurveyEntry (o : SurveyEntryOps) : (writeSurveyEntry o).length = 4 := rfl

/-- A list of members of one length has that length times their number. -/
theorem length_writeMany {α : Type} {write : α → List Byte} {n : Nat} (h : ∀ x, (write x).length = n) (xs : List α) :
    (writeMany write xs).length = n * xs.length := by
  induction xs with
  | nil => rfl
  | cons x xs ih => simp [writeMany, h, ih, Nat.mul_add]; omega

/-! ## The frame check -/

/-- A frame passes the frame check exactly when its kind is known and its lengths agree (R185). -/
theorem badFrame_cons (k t n : Byte) (ops : List Byte) :
    badFrame (k :: t :: n :: ops) = false
      ↔ (1 ≤ k.toNat ∧ k.toNat ≤ 35) ∧ n.toNat = ops.length ∧ ops.length = requiredLength k.toNat ops := by
  simp [badFrame, and_assoc]

end Sys2Proof
end

