-- ==== Sys2Proof/Laws/Table.lean ====
section
/-! SUPPORT. Laws of the numbered record tables and of the sets of indices: what is found after a write, and that every
operation keeps the canonical form. -/

namespace Sys2Proof

open Table

variable {α : Type}

/-! ## What is found -/

@[simp] theorem Table.find_nil (i : Nat) : find ([] : Table α) i = none := rfl

theorem Table.find_put (t : Table α) (i j : Nat) (v : α) :
    find (put t i v) j = if i = j then some v else find t j := by
  induction t with
  | nil => simp [put, find]
  | cons x t ih =>
    obtain ⟨k, w⟩ := x
    simp only [put]
    split
    · simp only [find]
    · split
      · subst k; simp only [find]; split <;> rfl
      · simp only [find, ih]
        split <;> split <;> first | rfl | omega

@[simp] theorem Table.find_put_same (t : Table α) (i : Nat) (v : α) : find (put t i v) i = some v := by
  simp [find_put]

theorem Table.find_put_other (t : Table α) {i j : Nat} (v : α) (h : i ≠ j) : find (put t i v) j = find t j := by
  simp [find_put, h]

theorem Table.find_del (t : Table α) (i j : Nat) : find (del t i) j = if i = j then none else find t j := by
  induction t with
  | nil => simp [del, find]
  | cons x t ih =>
    obtain ⟨k, w⟩ := x
    simp only [del, find]
    split
    · subst k; rw [ih]; split <;> simp_all
    · simp only [find, ih]; split <;> split <;> first | rfl | omega

@[simp] theorem Table.find_del_same (t : Table α) (i : Nat) : find (del t i) i = none := by simp [find_del]

theorem Table.find_del_other (t : Table α) {i j : Nat} (h : i ≠ j) : find (del t i) j = find t j := by
  simp [find_del, h]

theorem Table.del_of_find_none {t : Table α} {i : Nat} (h : find t i = none) : del t i = t := by
  induction t with
  | nil => rfl
  | cons x t ih =>
    obtain ⟨k, w⟩ := x
    simp only [find] at h
    simp only [del]
    by_cases e : k = i
    · rw [if_pos e] at h; cases h
    · rw [if_neg e] at h ⊢; rw [ih h]

@[simp] theorem Table.find_mapAll (t : Table α) (f : α → α) (i : Nat) : find (mapAll t f) i = (find t i).map f := by
  induction t with
  | nil => rfl
  | cons x t ih =>
    obtain ⟨k, w⟩ := x
    have e : mapAll ((k, w) :: t) f = (k, f w) :: mapAll t f := rfl
    rw [e]; simp only [find]
    split
    · rfl
    · exact ih

theorem Table.mem_of_find {t : Table α} {i : Nat} {v : α} (h : find t i = some v) : (i, v) ∈ t := by
  induction t with
  | nil => cases h
  | cons x t ih =>
    obtain ⟨k, w⟩ := x
    simp only [find] at h
    split at h
    · subst k; cases h; exact List.mem_cons_self
    · exact List.mem_cons_of_mem _ (ih h)

theorem Table.mem_keys_of_find {t : Table α} {i : Nat} {v : α} (h : find t i = some v) : i ∈ keys t :=
  List.mem_map.2 ⟨_, mem_of_find h, rfl⟩

theorem Table.find_of_mem_keys {t : Table α} {i : Nat} (h : i ∈ keys t) : ∃ v, find t i = some v := by
  induction t with
  | nil => simp [keys] at h
  | cons x t ih =>
    obtain ⟨k, w⟩ := x
    simp only [find]
    by_cases e : k = i
    · simp [e]
    · simp only [keys, List.map_cons, List.mem_cons] at h
      simp only [e, if_false]
      exact ih (h.resolve_left (fun q => e q.symm))

theorem Table.find_eq_none_iff {t : Table α} {i : Nat} : find t i = none ↔ i ∉ keys t := by
  constructor
  · intro h m
    obtain ⟨v, e⟩ := find_of_mem_keys m
    rw [h] at e; cases e
  · intro h
    cases e : find t i with
    | none => rfl
    | some v => exact absurd (mem_keys_of_find e) h

/-- The lowest free number: it has no record, and every number below it has one. -/
theorem Table.lowestFree_eq_some {t : Table α} {n i : Nat} :
    lowestFree t n = some i ↔ i < n ∧ find t i = none ∧ ∀ j, j < i → find t j ≠ none := by
  unfold lowestFree
  rw [List.find?_range_eq_some]
  simp only [List.mem_range, Option.isNone_iff_eq_none]
  constructor
  · rintro ⟨a, b, c⟩
    exact ⟨b, by simpa using a, fun j hj => by have := c j hj; simpa [Option.isSome_iff_ne_none] using this⟩
  · rintro ⟨a, b, c⟩
    exact ⟨by simpa using b, a, fun j hj => by have := c j hj; simpa [Option.isSome_iff_ne_none] using this⟩

theorem Table.lowestFree_eq_none {t : Table α} {n : Nat} :
    lowestFree t n = none ↔ ∀ i, i < n → find t i ≠ none := by
  simp [lowestFree, Option.isNone_iff_eq_none]

/-! ## The canonical form -/

/-- The canonical form says that the numbers rise strictly. -/
theorem Table.sorted_iff {t : Table α} : sorted t = true ↔ (keys t).Pairwise (· < ·) := by
  induction t with
  | nil => simp [sorted, keys]
  | cons x t ih =>
    obtain ⟨k, w⟩ := x
    cases t with
    | nil => simp [sorted, keys]
    | cons y t =>
      obtain ⟨j, v⟩ := y
      simp only [sorted, Bool.and_eq_true, decide_eq_true_eq, ih, keys, List.map_cons, List.pairwise_cons,
        List.mem_cons, forall_eq_or_imp]
      constructor
      · rintro ⟨a, b, c⟩
        exact ⟨⟨a, fun z hz => Nat.lt_trans a (b z hz)⟩, b, c⟩
      · rintro ⟨⟨a, -⟩, b, c⟩
        exact ⟨a, b, c⟩

theorem Table.mem_keys_put {t : Table α} {i j : Nat} {v : α} : j ∈ keys (put t i v) ↔ j = i ∨ j ∈ keys t := by
  rw [← not_iff_not, not_or, ← find_eq_none_iff, ← find_eq_none_iff, find_put]
  by_cases h : i = j
  · simp [h]
  · simp [h, eq_comm]

theorem Table.sorted_put {t : Table α} (h : sorted t = true) (i : Nat) (v : α) : sorted (put t i v) = true := by
  induction t with
  | nil => rfl
  | cons x t ih =>
    obtain ⟨k, w⟩ := x
    have h' := sorted_iff.1 h
    simp only [keys, List.map_cons, List.pairwise_cons] at h'
    simp only [put]
    split
    · rename_i hk
      refine sorted_iff.2 ?_
      simp only [keys, List.map_cons, List.pairwise_cons, List.mem_cons, forall_eq_or_imp]
      exact ⟨⟨hk, fun z hz => Nat.lt_trans hk (h'.1 z hz)⟩, h'.1, h'.2⟩
    · split
      · subst k; exact sorted_iff.2 (show (keys ((i, w) :: t)).Pairwise (· < ·) from sorted_iff.1 h)
      · refine sorted_iff.2 ?_
        have e : keys ((k, w) :: put t i v) = k :: keys (put t i v) := rfl
        rw [e, List.pairwise_cons]
        refine ⟨fun z hz => ?_, sorted_iff.1 (ih (sorted_iff.2 h'.2))⟩
        rcases mem_keys_put.1 hz with rfl | hz
        · omega
        · exact h'.1 z hz

theorem Table.keys_del_sublist (t : Table α) (i : Nat) : (keys (del t i)).Sublist (keys t) := by
  induction t with
  | nil => exact List.Sublist.refl _
  | cons x t ih =>
    obtain ⟨k, w⟩ := x
    simp only [del]
    split
    · exact ih.trans (List.sublist_cons_self _ _)
    · exact ih.cons_cons _

theorem Table.sorted_del {t : Table α} (h : sorted t = true) (i : Nat) : sorted (del t i) = true :=
  sorted_iff.2 ((sorted_iff.1 h).sublist (keys_del_sublist t i))

theorem Table.sorted_filter {t : Table α} (h : sorted t = true) (f : Nat × α → Bool) :
    sorted (t.filter f) = true :=
  sorted_iff.2 ((sorted_iff.1 h).sublist ((List.filter_sublist).map _))

@[simp] theorem Table.keys_mapAll (t : Table α) (f : α → α) : keys (mapAll t f) = keys t := by
  simp [keys, mapAll, List.map_map, Function.comp_def]

theorem Table.sorted_mapAll {t : Table α} (h : sorted t = true) (f : α → α) : sorted (mapAll t f) = true := by
  rw [sorted_iff, keys_mapAll]; exact sorted_iff.1 h

/-- In canonical form, a listed pair is what is found. -/
theorem Table.find_of_mem {t : Table α} (h : sorted t = true) {i : Nat} {v : α} (m : (i, v) ∈ t) :
    find t i = some v := by
  induction t with
  | nil => cases m
  | cons x t ih =>
    obtain ⟨k, w⟩ := x
    have h' := sorted_iff.1 h
    simp only [keys, List.map_cons, List.pairwise_cons] at h'
    simp only [find]
    rcases List.mem_cons.1 m with e | m
    · cases e; simp
    · have lt : k < i := h'.1 i (List.mem_map.2 ⟨_, m, rfl⟩)
      simp only [show k ≠ i by omega, if_false]
      exact ih (sorted_iff.2 h'.2) m

/-! ## Codes of a frame -/

theorem Table.code_putCode (t : Table Code) (i j : Nat) (c : Code) :
    code (putCode t i c) j = if i = j then c else code t j := by
  unfold putCode code
  split
  · rw [find_del]; split <;> simp_all
  · rw [find_put]; split <;> rfl

theorem Table.sorted_putCode {t : Table Code} (h : sorted t = true) (i : Nat) (c : Code) :
    sorted (putCode t i c) = true := by
  unfold putCode; split
  · exact sorted_del h i
  · exact sorted_put h i c

/-! ## Sets of indices -/

@[simp] theorem mem_insertIndex {l : List Nat} {i j : Nat} : j ∈ insertIndex l i ↔ j = i ∨ j ∈ l := by
  induction l with
  | nil => simp [insertIndex]
  | cons k t ih =>
    simp only [insertIndex]
    split
    · simp
    · split
      · subst k; simp
      · simp only [List.mem_cons, ih]; tauto

theorem risingIndices_iff {l : List Nat} : risingIndices l = true ↔ l.Pairwise (· < ·) := by
  induction l with
  | nil => simp [risingIndices]
  | cons k t ih =>
    cases t with
    | nil => simp [risingIndices]
    | cons j t =>
      simp only [risingIndices, Bool.and_eq_true, decide_eq_true_eq, ih, List.pairwise_cons, List.mem_cons,
        forall_eq_or_imp]
      constructor
      · rintro ⟨a, b, c⟩
        exact ⟨⟨a, fun z hz => Nat.lt_trans a (b z hz)⟩, b, c⟩
      · rintro ⟨⟨a, -⟩, b, c⟩
        exact ⟨a, b, c⟩

theorem risingIndices_insertIndex {l : List Nat} (h : risingIndices l = true) (i : Nat) :
    risingIndices (insertIndex l i) = true := by
  induction l with
  | nil => rfl
  | cons k t ih =>
    have h' := List.pairwise_cons.1 (risingIndices_iff.1 h)
    simp only [insertIndex]
    split
    · rename_i hk
      refine risingIndices_iff.2 (List.pairwise_cons.2 ⟨?_, risingIndices_iff.1 h⟩)
      intro z hz
      rcases List.mem_cons.1 hz with rfl | hz
      · exact hk
      · exact Nat.lt_trans hk (h'.1 z hz)
    · split
      · exact h
      · refine risingIndices_iff.2 (List.pairwise_cons.2 ⟨?_, risingIndices_iff.1 (ih (risingIndices_iff.2 h'.2))⟩)
        intro z hz
        rcases mem_insertIndex.1 hz with rfl | hz
        · omega
        · exact h'.1 z hz

theorem risingIndices_drop {l : List Nat} (h : risingIndices l = true) (n : Nat) :
    risingIndices (l.drop n) = true :=
  risingIndices_iff.2 ((risingIndices_iff.1 h).sublist (List.drop_sublist n l))

end Sys2Proof
end

