-- ==== Sys2Proof/Laws/State.lean ====
section
/-! SUPPORT. The small lemmas of State: for each update, each field it leaves and each field it writes, so that no proof
unfolds a record update; then what is read of a port, an extension, a context or a highway after a write. -/

namespace Sys2Proof.Machine

/-! ## Ports -/

@[simp] theorem State.setPort_pending (s : State) (l : Link) (p : Port) : (s.setPort l p).pending = s.pending := by cases l <;> rfl
@[simp] theorem State.setPort_boot (s : State) (l : Link) (p : Port) : (s.setPort l p).boot = s.boot := by cases l <;> rfl
@[simp] theorem State.setPort_frameCount (s : State) (l : Link) (p : Port) : (s.setPort l p).frameCount = s.frameCount := by cases l <;> rfl
@[simp] theorem State.setPort_buffer (s : State) (l : Link) (p : Port) : (s.setPort l p).buffer = s.buffer := by cases l <;> rfl
@[simp] theorem State.setPort_reading (s : State) (l : Link) (p : Port) : (s.setPort l p).reading = s.reading := by cases l <;> rfl
@[simp] theorem State.setPort_highways (s : State) (l : Link) (p : Port) : (s.setPort l p).highways = s.highways := by cases l <;> rfl
@[simp] theorem State.setPort_drivenStation (s : State) (l : Link) (p : Port) : (s.setPort l p).drivenStation = s.drivenStation := by cases l <;> rfl
@[simp] theorem State.setPort_drivenTie (s : State) (l : Link) (p : Port) : (s.setPort l p).drivenTie = s.drivenTie := by cases l <;> rfl
@[simp] theorem State.setPort_work (s : State) (l : Link) (p : Port) : (s.setPort l p).work = s.work := by cases l <;> rfl
@[simp] theorem State.setPort_extStore (s : State) (l : Link) (p : Port) : (s.setPort l p).extStore = s.extStore := by cases l <;> rfl
@[simp] theorem State.setPort_startRecord (s : State) (l : Link) (p : Port) : (s.setPort l p).startRecord = s.startRecord := by cases l <;> rfl
@[simp] theorem State.setPort_startCount (s : State) (l : Link) (p : Port) : (s.setPort l p).startCount = s.startCount := by cases l <;> rfl
@[simp] theorem State.setPort_engine (s : State) (l : Link) (p : Port) : (s.setPort l p).engine = s.engine := by cases l <;> rfl
@[simp] theorem State.setPort_nonce (s : State) (l : Link) (p : Port) : (s.setPort l p).nonce = s.nonce := by cases l <;> rfl
@[simp] theorem State.setPort_exts (s : State) (l : Link) (p : Port) : (s.setPort l p).exts = s.exts := by cases l <;> rfl
@[simp] theorem State.setPort_slotMap (s : State) (l : Link) (p : Port) : (s.setPort l p).slotMap = s.slotMap := by cases l <;> rfl
@[simp] theorem State.setPort_failLimit (s : State) (l : Link) (p : Port) : (s.setPort l p).failLimit = s.failLimit := by cases l <;> rfl
@[simp] theorem State.setPort_challengeWindow (s : State) (l : Link) (p : Port) : (s.setPort l p).challengeWindow = s.challengeWindow := by cases l <;> rfl
@[simp] theorem State.setPort_lockoutTime (s : State) (l : Link) (p : Port) : (s.setPort l p).lockoutTime = s.lockoutTime := by cases l <;> rfl
@[simp] theorem State.setPort_paths (s : State) (l : Link) (p : Port) : (s.setPort l p).paths = s.paths := by cases l <;> rfl
@[simp] theorem State.setPort_stationOcc (s : State) (l : Link) (p : Port) : (s.setPort l p).stationOcc = s.stationOcc := by cases l <;> rfl
@[simp] theorem State.setPort_tieOcc (s : State) (l : Link) (p : Port) : (s.setPort l p).tieOcc = s.tieOcc := by cases l <;> rfl
@[simp] theorem State.setPort_ctxs (s : State) (l : Link) (p : Port) : (s.setPort l p).ctxs = s.ctxs := by cases l <;> rfl
@[simp] theorem State.setPort_huntTime (s : State) (l : Link) (p : Port) : (s.setPort l p).huntTime = s.huntTime := by cases l <;> rfl
@[simp] theorem State.setPort_guardCeiling (s : State) (l : Link) (p : Port) : (s.setPort l p).guardCeiling = s.guardCeiling := by cases l <;> rfl
@[simp] theorem State.setPort_guardStrikes (s : State) (l : Link) (p : Port) : (s.setPort l p).guardStrikes = s.guardStrikes := by cases l <;> rfl
@[simp] theorem State.setPort_bridges (s : State) (l : Link) (p : Port) : (s.setPort l p).bridges = s.bridges := by cases l <;> rfl
@[simp] theorem State.setPort_survey (s : State) (l : Link) (p : Port) : (s.setPort l p).survey = s.survey := by cases l <;> rfl
@[simp] theorem State.setPort_orphanHold (s : State) (l : Link) (p : Port) : (s.setPort l p).orphanHold = s.orphanHold := by cases l <;> rfl

@[simp] theorem State.onPort_pending (s : State) (l : Link) (f : Port → Port) : (s.onPort l f).pending = s.pending := by cases l <;> rfl
@[simp] theorem State.onPort_boot (s : State) (l : Link) (f : Port → Port) : (s.onPort l f).boot = s.boot := by cases l <;> rfl
@[simp] theorem State.onPort_frameCount (s : State) (l : Link) (f : Port → Port) : (s.onPort l f).frameCount = s.frameCount := by cases l <;> rfl
@[simp] theorem State.onPort_buffer (s : State) (l : Link) (f : Port → Port) : (s.onPort l f).buffer = s.buffer := by cases l <;> rfl
@[simp] theorem State.onPort_reading (s : State) (l : Link) (f : Port → Port) : (s.onPort l f).reading = s.reading := by cases l <;> rfl
@[simp] theorem State.onPort_highways (s : State) (l : Link) (f : Port → Port) : (s.onPort l f).highways = s.highways := by cases l <;> rfl
@[simp] theorem State.onPort_drivenStation (s : State) (l : Link) (f : Port → Port) : (s.onPort l f).drivenStation = s.drivenStation := by cases l <;> rfl
@[simp] theorem State.onPort_drivenTie (s : State) (l : Link) (f : Port → Port) : (s.onPort l f).drivenTie = s.drivenTie := by cases l <;> rfl
@[simp] theorem State.onPort_work (s : State) (l : Link) (f : Port → Port) : (s.onPort l f).work = s.work := by cases l <;> rfl
@[simp] theorem State.onPort_extStore (s : State) (l : Link) (f : Port → Port) : (s.onPort l f).extStore = s.extStore := by cases l <;> rfl
@[simp] theorem State.onPort_startRecord (s : State) (l : Link) (f : Port → Port) : (s.onPort l f).startRecord = s.startRecord := by cases l <;> rfl
@[simp] theorem State.onPort_startCount (s : State) (l : Link) (f : Port → Port) : (s.onPort l f).startCount = s.startCount := by cases l <;> rfl
@[simp] theorem State.onPort_engine (s : State) (l : Link) (f : Port → Port) : (s.onPort l f).engine = s.engine := by cases l <;> rfl
@[simp] theorem State.onPort_nonce (s : State) (l : Link) (f : Port → Port) : (s.onPort l f).nonce = s.nonce := by cases l <;> rfl
@[simp] theorem State.onPort_exts (s : State) (l : Link) (f : Port → Port) : (s.onPort l f).exts = s.exts := by cases l <;> rfl
@[simp] theorem State.onPort_slotMap (s : State) (l : Link) (f : Port → Port) : (s.onPort l f).slotMap = s.slotMap := by cases l <;> rfl
@[simp] theorem State.onPort_failLimit (s : State) (l : Link) (f : Port → Port) : (s.onPort l f).failLimit = s.failLimit := by cases l <;> rfl
@[simp] theorem State.onPort_challengeWindow (s : State) (l : Link) (f : Port → Port) : (s.onPort l f).challengeWindow = s.challengeWindow := by cases l <;> rfl
@[simp] theorem State.onPort_lockoutTime (s : State) (l : Link) (f : Port → Port) : (s.onPort l f).lockoutTime = s.lockoutTime := by cases l <;> rfl
@[simp] theorem State.onPort_paths (s : State) (l : Link) (f : Port → Port) : (s.onPort l f).paths = s.paths := by cases l <;> rfl
@[simp] theorem State.onPort_stationOcc (s : State) (l : Link) (f : Port → Port) : (s.onPort l f).stationOcc = s.stationOcc := by cases l <;> rfl
@[simp] theorem State.onPort_tieOcc (s : State) (l : Link) (f : Port → Port) : (s.onPort l f).tieOcc = s.tieOcc := by cases l <;> rfl
@[simp] theorem State.onPort_ctxs (s : State) (l : Link) (f : Port → Port) : (s.onPort l f).ctxs = s.ctxs := by cases l <;> rfl
@[simp] theorem State.onPort_huntTime (s : State) (l : Link) (f : Port → Port) : (s.onPort l f).huntTime = s.huntTime := by cases l <;> rfl
@[simp] theorem State.onPort_guardCeiling (s : State) (l : Link) (f : Port → Port) : (s.onPort l f).guardCeiling = s.guardCeiling := by cases l <;> rfl
@[simp] theorem State.onPort_guardStrikes (s : State) (l : Link) (f : Port → Port) : (s.onPort l f).guardStrikes = s.guardStrikes := by cases l <;> rfl
@[simp] theorem State.onPort_bridges (s : State) (l : Link) (f : Port → Port) : (s.onPort l f).bridges = s.bridges := by cases l <;> rfl
@[simp] theorem State.onPort_survey (s : State) (l : Link) (f : Port → Port) : (s.onPort l f).survey = s.survey := by cases l <;> rfl
@[simp] theorem State.onPort_orphanHold (s : State) (l : Link) (f : Port → Port) : (s.onPort l f).orphanHold = s.orphanHold := by cases l <;> rfl

@[simp] theorem State.onPorts_pending (s : State) (f : Port → Port) : (s.onPorts f).pending = s.pending := rfl
@[simp] theorem State.onPorts_boot (s : State) (f : Port → Port) : (s.onPorts f).boot = s.boot := rfl
@[simp] theorem State.onPorts_frameCount (s : State) (f : Port → Port) : (s.onPorts f).frameCount = s.frameCount := rfl
@[simp] theorem State.onPorts_buffer (s : State) (f : Port → Port) : (s.onPorts f).buffer = s.buffer := rfl
@[simp] theorem State.onPorts_reading (s : State) (f : Port → Port) : (s.onPorts f).reading = s.reading := rfl
@[simp] theorem State.onPorts_highways (s : State) (f : Port → Port) : (s.onPorts f).highways = s.highways := rfl
@[simp] theorem State.onPorts_drivenStation (s : State) (f : Port → Port) : (s.onPorts f).drivenStation = s.drivenStation := rfl
@[simp] theorem State.onPorts_drivenTie (s : State) (f : Port → Port) : (s.onPorts f).drivenTie = s.drivenTie := rfl
@[simp] theorem State.onPorts_work (s : State) (f : Port → Port) : (s.onPorts f).work = s.work := rfl
@[simp] theorem State.onPorts_extStore (s : State) (f : Port → Port) : (s.onPorts f).extStore = s.extStore := rfl
@[simp] theorem State.onPorts_startRecord (s : State) (f : Port → Port) : (s.onPorts f).startRecord = s.startRecord := rfl
@[simp] theorem State.onPorts_startCount (s : State) (f : Port → Port) : (s.onPorts f).startCount = s.startCount := rfl
@[simp] theorem State.onPorts_engine (s : State) (f : Port → Port) : (s.onPorts f).engine = s.engine := rfl
@[simp] theorem State.onPorts_nonce (s : State) (f : Port → Port) : (s.onPorts f).nonce = s.nonce := rfl
@[simp] theorem State.onPorts_exts (s : State) (f : Port → Port) : (s.onPorts f).exts = s.exts := rfl
@[simp] theorem State.onPorts_slotMap (s : State) (f : Port → Port) : (s.onPorts f).slotMap = s.slotMap := rfl
@[simp] theorem State.onPorts_failLimit (s : State) (f : Port → Port) : (s.onPorts f).failLimit = s.failLimit := rfl
@[simp] theorem State.onPorts_challengeWindow (s : State) (f : Port → Port) : (s.onPorts f).challengeWindow = s.challengeWindow := rfl
@[simp] theorem State.onPorts_lockoutTime (s : State) (f : Port → Port) : (s.onPorts f).lockoutTime = s.lockoutTime := rfl
@[simp] theorem State.onPorts_paths (s : State) (f : Port → Port) : (s.onPorts f).paths = s.paths := rfl
@[simp] theorem State.onPorts_stationOcc (s : State) (f : Port → Port) : (s.onPorts f).stationOcc = s.stationOcc := rfl
@[simp] theorem State.onPorts_tieOcc (s : State) (f : Port → Port) : (s.onPorts f).tieOcc = s.tieOcc := rfl
@[simp] theorem State.onPorts_ctxs (s : State) (f : Port → Port) : (s.onPorts f).ctxs = s.ctxs := rfl
@[simp] theorem State.onPorts_huntTime (s : State) (f : Port → Port) : (s.onPorts f).huntTime = s.huntTime := rfl
@[simp] theorem State.onPorts_guardCeiling (s : State) (f : Port → Port) : (s.onPorts f).guardCeiling = s.guardCeiling := rfl
@[simp] theorem State.onPorts_guardStrikes (s : State) (f : Port → Port) : (s.onPorts f).guardStrikes = s.guardStrikes := rfl
@[simp] theorem State.onPorts_bridges (s : State) (f : Port → Port) : (s.onPorts f).bridges = s.bridges := rfl
@[simp] theorem State.onPorts_survey (s : State) (f : Port → Port) : (s.onPorts f).survey = s.survey := rfl
@[simp] theorem State.onPorts_orphanHold (s : State) (f : Port → Port) : (s.onPorts f).orphanHold = s.orphanHold := rfl

@[simp] theorem State.answer_pending (s : State) (l : Link) (k t : Byte) (r : Result) (b : List Byte) : (s.answer l k t r b).pending = s.pending := by cases l <;> rfl
@[simp] theorem State.answer_boot (s : State) (l : Link) (k t : Byte) (r : Result) (b : List Byte) : (s.answer l k t r b).boot = s.boot := by cases l <;> rfl
@[simp] theorem State.answer_frameCount (s : State) (l : Link) (k t : Byte) (r : Result) (b : List Byte) : (s.answer l k t r b).frameCount = s.frameCount := by cases l <;> rfl
@[simp] theorem State.answer_buffer (s : State) (l : Link) (k t : Byte) (r : Result) (b : List Byte) : (s.answer l k t r b).buffer = s.buffer := by cases l <;> rfl
@[simp] theorem State.answer_reading (s : State) (l : Link) (k t : Byte) (r : Result) (b : List Byte) : (s.answer l k t r b).reading = s.reading := by cases l <;> rfl
@[simp] theorem State.answer_highways (s : State) (l : Link) (k t : Byte) (r : Result) (b : List Byte) : (s.answer l k t r b).highways = s.highways := by cases l <;> rfl
@[simp] theorem State.answer_drivenStation (s : State) (l : Link) (k t : Byte) (r : Result) (b : List Byte) : (s.answer l k t r b).drivenStation = s.drivenStation := by cases l <;> rfl
@[simp] theorem State.answer_drivenTie (s : State) (l : Link) (k t : Byte) (r : Result) (b : List Byte) : (s.answer l k t r b).drivenTie = s.drivenTie := by cases l <;> rfl
@[simp] theorem State.answer_work (s : State) (l : Link) (k t : Byte) (r : Result) (b : List Byte) : (s.answer l k t r b).work = s.work := by cases l <;> rfl
@[simp] theorem State.answer_extStore (s : State) (l : Link) (k t : Byte) (r : Result) (b : List Byte) : (s.answer l k t r b).extStore = s.extStore := by cases l <;> rfl
@[simp] theorem State.answer_startRecord (s : State) (l : Link) (k t : Byte) (r : Result) (b : List Byte) : (s.answer l k t r b).startRecord = s.startRecord := by cases l <;> rfl
@[simp] theorem State.answer_startCount (s : State) (l : Link) (k t : Byte) (r : Result) (b : List Byte) : (s.answer l k t r b).startCount = s.startCount := by cases l <;> rfl
@[simp] theorem State.answer_engine (s : State) (l : Link) (k t : Byte) (r : Result) (b : List Byte) : (s.answer l k t r b).engine = s.engine := by cases l <;> rfl
@[simp] theorem State.answer_nonce (s : State) (l : Link) (k t : Byte) (r : Result) (b : List Byte) : (s.answer l k t r b).nonce = s.nonce := by cases l <;> rfl
@[simp] theorem State.answer_exts (s : State) (l : Link) (k t : Byte) (r : Result) (b : List Byte) : (s.answer l k t r b).exts = s.exts := by cases l <;> rfl
@[simp] theorem State.answer_slotMap (s : State) (l : Link) (k t : Byte) (r : Result) (b : List Byte) : (s.answer l k t r b).slotMap = s.slotMap := by cases l <;> rfl
@[simp] theorem State.answer_failLimit (s : State) (l : Link) (k t : Byte) (r : Result) (b : List Byte) : (s.answer l k t r b).failLimit = s.failLimit := by cases l <;> rfl
@[simp] theorem State.answer_challengeWindow (s : State) (l : Link) (k t : Byte) (r : Result) (b : List Byte) : (s.answer l k t r b).challengeWindow = s.challengeWindow := by cases l <;> rfl
@[simp] theorem State.answer_lockoutTime (s : State) (l : Link) (k t : Byte) (r : Result) (b : List Byte) : (s.answer l k t r b).lockoutTime = s.lockoutTime := by cases l <;> rfl
@[simp] theorem State.answer_paths (s : State) (l : Link) (k t : Byte) (r : Result) (b : List Byte) : (s.answer l k t r b).paths = s.paths := by cases l <;> rfl
@[simp] theorem State.answer_stationOcc (s : State) (l : Link) (k t : Byte) (r : Result) (b : List Byte) : (s.answer l k t r b).stationOcc = s.stationOcc := by cases l <;> rfl
@[simp] theorem State.answer_tieOcc (s : State) (l : Link) (k t : Byte) (r : Result) (b : List Byte) : (s.answer l k t r b).tieOcc = s.tieOcc := by cases l <;> rfl
@[simp] theorem State.answer_ctxs (s : State) (l : Link) (k t : Byte) (r : Result) (b : List Byte) : (s.answer l k t r b).ctxs = s.ctxs := by cases l <;> rfl
@[simp] theorem State.answer_huntTime (s : State) (l : Link) (k t : Byte) (r : Result) (b : List Byte) : (s.answer l k t r b).huntTime = s.huntTime := by cases l <;> rfl
@[simp] theorem State.answer_guardCeiling (s : State) (l : Link) (k t : Byte) (r : Result) (b : List Byte) : (s.answer l k t r b).guardCeiling = s.guardCeiling := by cases l <;> rfl
@[simp] theorem State.answer_guardStrikes (s : State) (l : Link) (k t : Byte) (r : Result) (b : List Byte) : (s.answer l k t r b).guardStrikes = s.guardStrikes := by cases l <;> rfl
@[simp] theorem State.answer_bridges (s : State) (l : Link) (k t : Byte) (r : Result) (b : List Byte) : (s.answer l k t r b).bridges = s.bridges := by cases l <;> rfl
@[simp] theorem State.answer_survey (s : State) (l : Link) (k t : Byte) (r : Result) (b : List Byte) : (s.answer l k t r b).survey = s.survey := by cases l <;> rfl
@[simp] theorem State.answer_orphanHold (s : State) (l : Link) (k t : Byte) (r : Result) (b : List Byte) : (s.answer l k t r b).orphanHold = s.orphanHold := by cases l <;> rfl

@[simp] theorem State.await_pending (s : State) (l : Link) (k t : Byte) : (s.await l k t).pending = s.pending := by cases l <;> rfl
@[simp] theorem State.await_boot (s : State) (l : Link) (k t : Byte) : (s.await l k t).boot = s.boot := by cases l <;> rfl
@[simp] theorem State.await_frameCount (s : State) (l : Link) (k t : Byte) : (s.await l k t).frameCount = s.frameCount := by cases l <;> rfl
@[simp] theorem State.await_buffer (s : State) (l : Link) (k t : Byte) : (s.await l k t).buffer = s.buffer := by cases l <;> rfl
@[simp] theorem State.await_reading (s : State) (l : Link) (k t : Byte) : (s.await l k t).reading = s.reading := by cases l <;> rfl
@[simp] theorem State.await_highways (s : State) (l : Link) (k t : Byte) : (s.await l k t).highways = s.highways := by cases l <;> rfl
@[simp] theorem State.await_drivenStation (s : State) (l : Link) (k t : Byte) : (s.await l k t).drivenStation = s.drivenStation := by cases l <;> rfl
@[simp] theorem State.await_drivenTie (s : State) (l : Link) (k t : Byte) : (s.await l k t).drivenTie = s.drivenTie := by cases l <;> rfl
@[simp] theorem State.await_work (s : State) (l : Link) (k t : Byte) : (s.await l k t).work = s.work := by cases l <;> rfl
@[simp] theorem State.await_extStore (s : State) (l : Link) (k t : Byte) : (s.await l k t).extStore = s.extStore := by cases l <;> rfl
@[simp] theorem State.await_startRecord (s : State) (l : Link) (k t : Byte) : (s.await l k t).startRecord = s.startRecord := by cases l <;> rfl
@[simp] theorem State.await_startCount (s : State) (l : Link) (k t : Byte) : (s.await l k t).startCount = s.startCount := by cases l <;> rfl
@[simp] theorem State.await_engine (s : State) (l : Link) (k t : Byte) : (s.await l k t).engine = s.engine := by cases l <;> rfl
@[simp] theorem State.await_nonce (s : State) (l : Link) (k t : Byte) : (s.await l k t).nonce = s.nonce := by cases l <;> rfl
@[simp] theorem State.await_exts (s : State) (l : Link) (k t : Byte) : (s.await l k t).exts = s.exts := by cases l <;> rfl
@[simp] theorem State.await_slotMap (s : State) (l : Link) (k t : Byte) : (s.await l k t).slotMap = s.slotMap := by cases l <;> rfl
@[simp] theorem State.await_failLimit (s : State) (l : Link) (k t : Byte) : (s.await l k t).failLimit = s.failLimit := by cases l <;> rfl
@[simp] theorem State.await_challengeWindow (s : State) (l : Link) (k t : Byte) : (s.await l k t).challengeWindow = s.challengeWindow := by cases l <;> rfl
@[simp] theorem State.await_lockoutTime (s : State) (l : Link) (k t : Byte) : (s.await l k t).lockoutTime = s.lockoutTime := by cases l <;> rfl
@[simp] theorem State.await_paths (s : State) (l : Link) (k t : Byte) : (s.await l k t).paths = s.paths := by cases l <;> rfl
@[simp] theorem State.await_stationOcc (s : State) (l : Link) (k t : Byte) : (s.await l k t).stationOcc = s.stationOcc := by cases l <;> rfl
@[simp] theorem State.await_tieOcc (s : State) (l : Link) (k t : Byte) : (s.await l k t).tieOcc = s.tieOcc := by cases l <;> rfl
@[simp] theorem State.await_ctxs (s : State) (l : Link) (k t : Byte) : (s.await l k t).ctxs = s.ctxs := by cases l <;> rfl
@[simp] theorem State.await_huntTime (s : State) (l : Link) (k t : Byte) : (s.await l k t).huntTime = s.huntTime := by cases l <;> rfl
@[simp] theorem State.await_guardCeiling (s : State) (l : Link) (k t : Byte) : (s.await l k t).guardCeiling = s.guardCeiling := by cases l <;> rfl
@[simp] theorem State.await_guardStrikes (s : State) (l : Link) (k t : Byte) : (s.await l k t).guardStrikes = s.guardStrikes := by cases l <;> rfl
@[simp] theorem State.await_bridges (s : State) (l : Link) (k t : Byte) : (s.await l k t).bridges = s.bridges := by cases l <;> rfl
@[simp] theorem State.await_survey (s : State) (l : Link) (k t : Byte) : (s.await l k t).survey = s.survey := by cases l <;> rfl
@[simp] theorem State.await_orphanHold (s : State) (l : Link) (k t : Byte) : (s.await l k t).orphanHold = s.orphanHold := by cases l <;> rfl

@[simp] theorem noteChange_pending (i : Nat) (s : State) : (noteChange i s).pending = s.pending := rfl
@[simp] theorem noteChange_boot (i : Nat) (s : State) : (noteChange i s).boot = s.boot := rfl
@[simp] theorem noteChange_frameCount (i : Nat) (s : State) : (noteChange i s).frameCount = s.frameCount := rfl
@[simp] theorem noteChange_buffer (i : Nat) (s : State) : (noteChange i s).buffer = s.buffer := rfl
@[simp] theorem noteChange_reading (i : Nat) (s : State) : (noteChange i s).reading = s.reading := rfl
@[simp] theorem noteChange_highways (i : Nat) (s : State) : (noteChange i s).highways = s.highways := rfl
@[simp] theorem noteChange_drivenStation (i : Nat) (s : State) : (noteChange i s).drivenStation = s.drivenStation := rfl
@[simp] theorem noteChange_drivenTie (i : Nat) (s : State) : (noteChange i s).drivenTie = s.drivenTie := rfl
@[simp] theorem noteChange_work (i : Nat) (s : State) : (noteChange i s).work = s.work := rfl
@[simp] theorem noteChange_extStore (i : Nat) (s : State) : (noteChange i s).extStore = s.extStore := rfl
@[simp] theorem noteChange_startRecord (i : Nat) (s : State) : (noteChange i s).startRecord = s.startRecord := rfl
@[simp] theorem noteChange_startCount (i : Nat) (s : State) : (noteChange i s).startCount = s.startCount := rfl
@[simp] theorem noteChange_engine (i : Nat) (s : State) : (noteChange i s).engine = s.engine := rfl
@[simp] theorem noteChange_nonce (i : Nat) (s : State) : (noteChange i s).nonce = s.nonce := rfl
@[simp] theorem noteChange_exts (i : Nat) (s : State) : (noteChange i s).exts = s.exts := rfl
@[simp] theorem noteChange_slotMap (i : Nat) (s : State) : (noteChange i s).slotMap = s.slotMap := rfl
@[simp] theorem noteChange_failLimit (i : Nat) (s : State) : (noteChange i s).failLimit = s.failLimit := rfl
@[simp] theorem noteChange_challengeWindow (i : Nat) (s : State) : (noteChange i s).challengeWindow = s.challengeWindow := rfl
@[simp] theorem noteChange_lockoutTime (i : Nat) (s : State) : (noteChange i s).lockoutTime = s.lockoutTime := rfl
@[simp] theorem noteChange_paths (i : Nat) (s : State) : (noteChange i s).paths = s.paths := rfl
@[simp] theorem noteChange_stationOcc (i : Nat) (s : State) : (noteChange i s).stationOcc = s.stationOcc := rfl
@[simp] theorem noteChange_tieOcc (i : Nat) (s : State) : (noteChange i s).tieOcc = s.tieOcc := rfl
@[simp] theorem noteChange_ctxs (i : Nat) (s : State) : (noteChange i s).ctxs = s.ctxs := rfl
@[simp] theorem noteChange_huntTime (i : Nat) (s : State) : (noteChange i s).huntTime = s.huntTime := rfl
@[simp] theorem noteChange_guardCeiling (i : Nat) (s : State) : (noteChange i s).guardCeiling = s.guardCeiling := rfl
@[simp] theorem noteChange_guardStrikes (i : Nat) (s : State) : (noteChange i s).guardStrikes = s.guardStrikes := rfl
@[simp] theorem noteChange_bridges (i : Nat) (s : State) : (noteChange i s).bridges = s.bridges := rfl
@[simp] theorem noteChange_survey (i : Nat) (s : State) : (noteChange i s).survey = s.survey := rfl
@[simp] theorem noteChange_orphanHold (i : Nat) (s : State) : (noteChange i s).orphanHold = s.orphanHold := rfl

@[simp] theorem State.port_setPort_same (s : State) (l : Link) (p : Port) : (s.setPort l p).port l = p := by
  cases l <;> rfl

theorem State.port_setPort_other (s : State) (p : Port) {l k : Link} (h : k ≠ l) : (s.setPort l p).port k = s.port k := by
  cases l <;> cases k <;> first | rfl | exact absurd rfl h

theorem State.port_setPort (s : State) (l k : Link) (p : Port) :
    (s.setPort l p).port k = if k = l then p else s.port k := by
  cases l <;> cases k <;> rfl

theorem State.port_onPort (s : State) (l k : Link) (f : Port → Port) :
    (s.onPort l f).port k = if k = l then f (s.port l) else s.port k := by
  cases l <;> cases k <;> rfl

@[simp] theorem State.port_onPorts (s : State) (f : Port → Port) (k : Link) : (s.onPorts f).port k = f (s.port k) := by
  cases k <;> rfl

@[simp] theorem State.setPort_setPort (s : State) (l : Link) (p q : Port) : (s.setPort l p).setPort l q = s.setPort l q := by
  cases l <;> rfl

@[simp] theorem State.setPort_port (s : State) (l : Link) : s.setPort l (s.port l) = s := by cases l <;> rfl

@[simp] theorem noteChange_port (i : Nat) (s : State) (k : Link) :
    (noteChange i s).port k = { s.port k with changes := insertIndex (s.port k).changes i } := by cases k <;> rfl

/-! ## Records -/

@[simp] theorem State.setExt_pending (s : State) (i : Nat) (e : Ext) : (s.setExt i e).pending = s.pending := rfl
@[simp] theorem State.setExt_boot (s : State) (i : Nat) (e : Ext) : (s.setExt i e).boot = s.boot := rfl
@[simp] theorem State.setExt_frameCount (s : State) (i : Nat) (e : Ext) : (s.setExt i e).frameCount = s.frameCount := rfl
@[simp] theorem State.setExt_buffer (s : State) (i : Nat) (e : Ext) : (s.setExt i e).buffer = s.buffer := rfl
@[simp] theorem State.setExt_reading (s : State) (i : Nat) (e : Ext) : (s.setExt i e).reading = s.reading := rfl
@[simp] theorem State.setExt_highways (s : State) (i : Nat) (e : Ext) : (s.setExt i e).highways = s.highways := rfl
@[simp] theorem State.setExt_drivenStation (s : State) (i : Nat) (e : Ext) : (s.setExt i e).drivenStation = s.drivenStation := rfl
@[simp] theorem State.setExt_drivenTie (s : State) (i : Nat) (e : Ext) : (s.setExt i e).drivenTie = s.drivenTie := rfl
@[simp] theorem State.setExt_work (s : State) (i : Nat) (e : Ext) : (s.setExt i e).work = s.work := rfl
@[simp] theorem State.setExt_extStore (s : State) (i : Nat) (e : Ext) : (s.setExt i e).extStore = s.extStore := rfl
@[simp] theorem State.setExt_startRecord (s : State) (i : Nat) (e : Ext) : (s.setExt i e).startRecord = s.startRecord := rfl
@[simp] theorem State.setExt_startCount (s : State) (i : Nat) (e : Ext) : (s.setExt i e).startCount = s.startCount := rfl
@[simp] theorem State.setExt_engine (s : State) (i : Nat) (e : Ext) : (s.setExt i e).engine = s.engine := rfl
@[simp] theorem State.setExt_nonce (s : State) (i : Nat) (e : Ext) : (s.setExt i e).nonce = s.nonce := rfl
@[simp] theorem State.setExt_slotMap (s : State) (i : Nat) (e : Ext) : (s.setExt i e).slotMap = s.slotMap := rfl
@[simp] theorem State.setExt_failLimit (s : State) (i : Nat) (e : Ext) : (s.setExt i e).failLimit = s.failLimit := rfl
@[simp] theorem State.setExt_challengeWindow (s : State) (i : Nat) (e : Ext) : (s.setExt i e).challengeWindow = s.challengeWindow := rfl
@[simp] theorem State.setExt_lockoutTime (s : State) (i : Nat) (e : Ext) : (s.setExt i e).lockoutTime = s.lockoutTime := rfl
@[simp] theorem State.setExt_paths (s : State) (i : Nat) (e : Ext) : (s.setExt i e).paths = s.paths := rfl
@[simp] theorem State.setExt_stationOcc (s : State) (i : Nat) (e : Ext) : (s.setExt i e).stationOcc = s.stationOcc := rfl
@[simp] theorem State.setExt_tieOcc (s : State) (i : Nat) (e : Ext) : (s.setExt i e).tieOcc = s.tieOcc := rfl
@[simp] theorem State.setExt_ctxs (s : State) (i : Nat) (e : Ext) : (s.setExt i e).ctxs = s.ctxs := rfl
@[simp] theorem State.setExt_huntTime (s : State) (i : Nat) (e : Ext) : (s.setExt i e).huntTime = s.huntTime := rfl
@[simp] theorem State.setExt_guardCeiling (s : State) (i : Nat) (e : Ext) : (s.setExt i e).guardCeiling = s.guardCeiling := rfl
@[simp] theorem State.setExt_guardStrikes (s : State) (i : Nat) (e : Ext) : (s.setExt i e).guardStrikes = s.guardStrikes := rfl
@[simp] theorem State.setExt_bridges (s : State) (i : Nat) (e : Ext) : (s.setExt i e).bridges = s.bridges := rfl
@[simp] theorem State.setExt_survey (s : State) (i : Nat) (e : Ext) : (s.setExt i e).survey = s.survey := rfl
@[simp] theorem State.setExt_orphanHold (s : State) (i : Nat) (e : Ext) : (s.setExt i e).orphanHold = s.orphanHold := rfl
@[simp] theorem State.setExt_portA (s : State) (i : Nat) (e : Ext) : (s.setExt i e).portA = s.portA := rfl
@[simp] theorem State.setExt_portB (s : State) (i : Nat) (e : Ext) : (s.setExt i e).portB = s.portB := rfl
@[simp] theorem State.setExt_portM (s : State) (i : Nat) (e : Ext) : (s.setExt i e).portM = s.portM := rfl

@[simp] theorem State.setCtx_pending (s : State) (i : Nat) (c : Context) : (s.setCtx i c).pending = s.pending := rfl
@[simp] theorem State.setCtx_boot (s : State) (i : Nat) (c : Context) : (s.setCtx i c).boot = s.boot := rfl
@[simp] theorem State.setCtx_frameCount (s : State) (i : Nat) (c : Context) : (s.setCtx i c).frameCount = s.frameCount := rfl
@[simp] theorem State.setCtx_buffer (s : State) (i : Nat) (c : Context) : (s.setCtx i c).buffer = s.buffer := rfl
@[simp] theorem State.setCtx_reading (s : State) (i : Nat) (c : Context) : (s.setCtx i c).reading = s.reading := rfl
@[simp] theorem State.setCtx_highways (s : State) (i : Nat) (c : Context) : (s.setCtx i c).highways = s.highways := rfl
@[simp] theorem State.setCtx_drivenStation (s : State) (i : Nat) (c : Context) : (s.setCtx i c).drivenStation = s.drivenStation := rfl
@[simp] theorem State.setCtx_drivenTie (s : State) (i : Nat) (c : Context) : (s.setCtx i c).drivenTie = s.drivenTie := rfl
@[simp] theorem State.setCtx_work (s : State) (i : Nat) (c : Context) : (s.setCtx i c).work = s.work := rfl
@[simp] theorem State.setCtx_extStore (s : State) (i : Nat) (c : Context) : (s.setCtx i c).extStore = s.extStore := rfl
@[simp] theorem State.setCtx_startRecord (s : State) (i : Nat) (c : Context) : (s.setCtx i c).startRecord = s.startRecord := rfl
@[simp] theorem State.setCtx_startCount (s : State) (i : Nat) (c : Context) : (s.setCtx i c).startCount = s.startCount := rfl
@[simp] theorem State.setCtx_engine (s : State) (i : Nat) (c : Context) : (s.setCtx i c).engine = s.engine := rfl
@[simp] theorem State.setCtx_nonce (s : State) (i : Nat) (c : Context) : (s.setCtx i c).nonce = s.nonce := rfl
@[simp] theorem State.setCtx_exts (s : State) (i : Nat) (c : Context) : (s.setCtx i c).exts = s.exts := rfl
@[simp] theorem State.setCtx_slotMap (s : State) (i : Nat) (c : Context) : (s.setCtx i c).slotMap = s.slotMap := rfl
@[simp] theorem State.setCtx_failLimit (s : State) (i : Nat) (c : Context) : (s.setCtx i c).failLimit = s.failLimit := rfl
@[simp] theorem State.setCtx_challengeWindow (s : State) (i : Nat) (c : Context) : (s.setCtx i c).challengeWindow = s.challengeWindow := rfl
@[simp] theorem State.setCtx_lockoutTime (s : State) (i : Nat) (c : Context) : (s.setCtx i c).lockoutTime = s.lockoutTime := rfl
@[simp] theorem State.setCtx_paths (s : State) (i : Nat) (c : Context) : (s.setCtx i c).paths = s.paths := rfl
@[simp] theorem State.setCtx_stationOcc (s : State) (i : Nat) (c : Context) : (s.setCtx i c).stationOcc = s.stationOcc := rfl
@[simp] theorem State.setCtx_tieOcc (s : State) (i : Nat) (c : Context) : (s.setCtx i c).tieOcc = s.tieOcc := rfl
@[simp] theorem State.setCtx_huntTime (s : State) (i : Nat) (c : Context) : (s.setCtx i c).huntTime = s.huntTime := rfl
@[simp] theorem State.setCtx_guardCeiling (s : State) (i : Nat) (c : Context) : (s.setCtx i c).guardCeiling = s.guardCeiling := rfl
@[simp] theorem State.setCtx_guardStrikes (s : State) (i : Nat) (c : Context) : (s.setCtx i c).guardStrikes = s.guardStrikes := rfl
@[simp] theorem State.setCtx_bridges (s : State) (i : Nat) (c : Context) : (s.setCtx i c).bridges = s.bridges := rfl
@[simp] theorem State.setCtx_survey (s : State) (i : Nat) (c : Context) : (s.setCtx i c).survey = s.survey := rfl
@[simp] theorem State.setCtx_orphanHold (s : State) (i : Nat) (c : Context) : (s.setCtx i c).orphanHold = s.orphanHold := rfl
@[simp] theorem State.setCtx_portA (s : State) (i : Nat) (c : Context) : (s.setCtx i c).portA = s.portA := rfl
@[simp] theorem State.setCtx_portB (s : State) (i : Nat) (c : Context) : (s.setCtx i c).portB = s.portB := rfl
@[simp] theorem State.setCtx_portM (s : State) (i : Nat) (c : Context) : (s.setCtx i c).portM = s.portM := rfl

@[simp] theorem State.setHighway_pending (s : State) (h : Nat) (x : Highway) : (s.setHighway h x).pending = s.pending := rfl
@[simp] theorem State.setHighway_boot (s : State) (h : Nat) (x : Highway) : (s.setHighway h x).boot = s.boot := rfl
@[simp] theorem State.setHighway_frameCount (s : State) (h : Nat) (x : Highway) : (s.setHighway h x).frameCount = s.frameCount := rfl
@[simp] theorem State.setHighway_buffer (s : State) (h : Nat) (x : Highway) : (s.setHighway h x).buffer = s.buffer := rfl
@[simp] theorem State.setHighway_reading (s : State) (h : Nat) (x : Highway) : (s.setHighway h x).reading = s.reading := rfl
@[simp] theorem State.setHighway_drivenStation (s : State) (h : Nat) (x : Highway) : (s.setHighway h x).drivenStation = s.drivenStation := rfl
@[simp] theorem State.setHighway_drivenTie (s : State) (h : Nat) (x : Highway) : (s.setHighway h x).drivenTie = s.drivenTie := rfl
@[simp] theorem State.setHighway_work (s : State) (h : Nat) (x : Highway) : (s.setHighway h x).work = s.work := rfl
@[simp] theorem State.setHighway_extStore (s : State) (h : Nat) (x : Highway) : (s.setHighway h x).extStore = s.extStore := rfl
@[simp] theorem State.setHighway_startRecord (s : State) (h : Nat) (x : Highway) : (s.setHighway h x).startRecord = s.startRecord := rfl
@[simp] theorem State.setHighway_startCount (s : State) (h : Nat) (x : Highway) : (s.setHighway h x).startCount = s.startCount := rfl
@[simp] theorem State.setHighway_engine (s : State) (h : Nat) (x : Highway) : (s.setHighway h x).engine = s.engine := rfl
@[simp] theorem State.setHighway_nonce (s : State) (h : Nat) (x : Highway) : (s.setHighway h x).nonce = s.nonce := rfl
@[simp] theorem State.setHighway_exts (s : State) (h : Nat) (x : Highway) : (s.setHighway h x).exts = s.exts := rfl
@[simp] theorem State.setHighway_slotMap (s : State) (h : Nat) (x : Highway) : (s.setHighway h x).slotMap = s.slotMap := rfl
@[simp] theorem State.setHighway_failLimit (s : State) (h : Nat) (x : Highway) : (s.setHighway h x).failLimit = s.failLimit := rfl
@[simp] theorem State.setHighway_challengeWindow (s : State) (h : Nat) (x : Highway) : (s.setHighway h x).challengeWindow = s.challengeWindow := rfl
@[simp] theorem State.setHighway_lockoutTime (s : State) (h : Nat) (x : Highway) : (s.setHighway h x).lockoutTime = s.lockoutTime := rfl
@[simp] theorem State.setHighway_paths (s : State) (h : Nat) (x : Highway) : (s.setHighway h x).paths = s.paths := rfl
@[simp] theorem State.setHighway_stationOcc (s : State) (h : Nat) (x : Highway) : (s.setHighway h x).stationOcc = s.stationOcc := rfl
@[simp] theorem State.setHighway_tieOcc (s : State) (h : Nat) (x : Highway) : (s.setHighway h x).tieOcc = s.tieOcc := rfl
@[simp] theorem State.setHighway_ctxs (s : State) (h : Nat) (x : Highway) : (s.setHighway h x).ctxs = s.ctxs := rfl
@[simp] theorem State.setHighway_huntTime (s : State) (h : Nat) (x : Highway) : (s.setHighway h x).huntTime = s.huntTime := rfl
@[simp] theorem State.setHighway_guardCeiling (s : State) (h : Nat) (x : Highway) : (s.setHighway h x).guardCeiling = s.guardCeiling := rfl
@[simp] theorem State.setHighway_guardStrikes (s : State) (h : Nat) (x : Highway) : (s.setHighway h x).guardStrikes = s.guardStrikes := rfl
@[simp] theorem State.setHighway_bridges (s : State) (h : Nat) (x : Highway) : (s.setHighway h x).bridges = s.bridges := rfl
@[simp] theorem State.setHighway_survey (s : State) (h : Nat) (x : Highway) : (s.setHighway h x).survey = s.survey := rfl
@[simp] theorem State.setHighway_orphanHold (s : State) (h : Nat) (x : Highway) : (s.setHighway h x).orphanHold = s.orphanHold := rfl
@[simp] theorem State.setHighway_portA (s : State) (h : Nat) (x : Highway) : (s.setHighway h x).portA = s.portA := rfl
@[simp] theorem State.setHighway_portB (s : State) (h : Nat) (x : Highway) : (s.setHighway h x).portB = s.portB := rfl
@[simp] theorem State.setHighway_portM (s : State) (h : Nat) (x : Highway) : (s.setHighway h x).portM = s.portM := rfl

@[simp] theorem setExtPath_pending (i : Nat) (p : Option Nat) (s : State) : (setExtPath i p s).pending = s.pending := rfl
@[simp] theorem setExtPath_boot (i : Nat) (p : Option Nat) (s : State) : (setExtPath i p s).boot = s.boot := rfl
@[simp] theorem setExtPath_frameCount (i : Nat) (p : Option Nat) (s : State) : (setExtPath i p s).frameCount = s.frameCount := rfl
@[simp] theorem setExtPath_buffer (i : Nat) (p : Option Nat) (s : State) : (setExtPath i p s).buffer = s.buffer := rfl
@[simp] theorem setExtPath_reading (i : Nat) (p : Option Nat) (s : State) : (setExtPath i p s).reading = s.reading := rfl
@[simp] theorem setExtPath_highways (i : Nat) (p : Option Nat) (s : State) : (setExtPath i p s).highways = s.highways := rfl
@[simp] theorem setExtPath_drivenStation (i : Nat) (p : Option Nat) (s : State) : (setExtPath i p s).drivenStation = s.drivenStation := rfl
@[simp] theorem setExtPath_drivenTie (i : Nat) (p : Option Nat) (s : State) : (setExtPath i p s).drivenTie = s.drivenTie := rfl
@[simp] theorem setExtPath_work (i : Nat) (p : Option Nat) (s : State) : (setExtPath i p s).work = s.work := rfl
@[simp] theorem setExtPath_extStore (i : Nat) (p : Option Nat) (s : State) : (setExtPath i p s).extStore = s.extStore := rfl
@[simp] theorem setExtPath_startRecord (i : Nat) (p : Option Nat) (s : State) : (setExtPath i p s).startRecord = s.startRecord := rfl
@[simp] theorem setExtPath_startCount (i : Nat) (p : Option Nat) (s : State) : (setExtPath i p s).startCount = s.startCount := rfl
@[simp] theorem setExtPath_engine (i : Nat) (p : Option Nat) (s : State) : (setExtPath i p s).engine = s.engine := rfl
@[simp] theorem setExtPath_nonce (i : Nat) (p : Option Nat) (s : State) : (setExtPath i p s).nonce = s.nonce := rfl
@[simp] theorem setExtPath_slotMap (i : Nat) (p : Option Nat) (s : State) : (setExtPath i p s).slotMap = s.slotMap := rfl
@[simp] theorem setExtPath_failLimit (i : Nat) (p : Option Nat) (s : State) : (setExtPath i p s).failLimit = s.failLimit := rfl
@[simp] theorem setExtPath_challengeWindow (i : Nat) (p : Option Nat) (s : State) : (setExtPath i p s).challengeWindow = s.challengeWindow := rfl
@[simp] theorem setExtPath_lockoutTime (i : Nat) (p : Option Nat) (s : State) : (setExtPath i p s).lockoutTime = s.lockoutTime := rfl
@[simp] theorem setExtPath_paths (i : Nat) (p : Option Nat) (s : State) : (setExtPath i p s).paths = s.paths := rfl
@[simp] theorem setExtPath_stationOcc (i : Nat) (p : Option Nat) (s : State) : (setExtPath i p s).stationOcc = s.stationOcc := rfl
@[simp] theorem setExtPath_tieOcc (i : Nat) (p : Option Nat) (s : State) : (setExtPath i p s).tieOcc = s.tieOcc := rfl
@[simp] theorem setExtPath_ctxs (i : Nat) (p : Option Nat) (s : State) : (setExtPath i p s).ctxs = s.ctxs := rfl
@[simp] theorem setExtPath_huntTime (i : Nat) (p : Option Nat) (s : State) : (setExtPath i p s).huntTime = s.huntTime := rfl
@[simp] theorem setExtPath_guardCeiling (i : Nat) (p : Option Nat) (s : State) : (setExtPath i p s).guardCeiling = s.guardCeiling := rfl
@[simp] theorem setExtPath_guardStrikes (i : Nat) (p : Option Nat) (s : State) : (setExtPath i p s).guardStrikes = s.guardStrikes := rfl
@[simp] theorem setExtPath_bridges (i : Nat) (p : Option Nat) (s : State) : (setExtPath i p s).bridges = s.bridges := rfl
@[simp] theorem setExtPath_survey (i : Nat) (p : Option Nat) (s : State) : (setExtPath i p s).survey = s.survey := rfl
@[simp] theorem setExtPath_orphanHold (i : Nat) (p : Option Nat) (s : State) : (setExtPath i p s).orphanHold = s.orphanHold := rfl
@[simp] theorem setExtPath_portA (i : Nat) (p : Option Nat) (s : State) : (setExtPath i p s).portA = s.portA := rfl
@[simp] theorem setExtPath_portB (i : Nat) (p : Option Nat) (s : State) : (setExtPath i p s).portB = s.portB := rfl
@[simp] theorem setExtPath_portM (i : Nat) (p : Option Nat) (s : State) : (setExtPath i p s).portM = s.portM := rfl

@[simp] theorem driveStation_pending (n : Nat) (c : Code) (s : State) : (driveStation n c s).pending = s.pending := rfl
@[simp] theorem driveStation_boot (n : Nat) (c : Code) (s : State) : (driveStation n c s).boot = s.boot := rfl
@[simp] theorem driveStation_frameCount (n : Nat) (c : Code) (s : State) : (driveStation n c s).frameCount = s.frameCount := rfl
@[simp] theorem driveStation_buffer (n : Nat) (c : Code) (s : State) : (driveStation n c s).buffer = s.buffer := rfl
@[simp] theorem driveStation_reading (n : Nat) (c : Code) (s : State) : (driveStation n c s).reading = s.reading := rfl
@[simp] theorem driveStation_highways (n : Nat) (c : Code) (s : State) : (driveStation n c s).highways = s.highways := rfl
@[simp] theorem driveStation_drivenTie (n : Nat) (c : Code) (s : State) : (driveStation n c s).drivenTie = s.drivenTie := rfl
@[simp] theorem driveStation_work (n : Nat) (c : Code) (s : State) : (driveStation n c s).work = s.work := rfl
@[simp] theorem driveStation_extStore (n : Nat) (c : Code) (s : State) : (driveStation n c s).extStore = s.extStore := rfl
@[simp] theorem driveStation_startRecord (n : Nat) (c : Code) (s : State) : (driveStation n c s).startRecord = s.startRecord := rfl
@[simp] theorem driveStation_startCount (n : Nat) (c : Code) (s : State) : (driveStation n c s).startCount = s.startCount := rfl
@[simp] theorem driveStation_engine (n : Nat) (c : Code) (s : State) : (driveStation n c s).engine = s.engine := rfl
@[simp] theorem driveStation_nonce (n : Nat) (c : Code) (s : State) : (driveStation n c s).nonce = s.nonce := rfl
@[simp] theorem driveStation_exts (n : Nat) (c : Code) (s : State) : (driveStation n c s).exts = s.exts := rfl
@[simp] theorem driveStation_slotMap (n : Nat) (c : Code) (s : State) : (driveStation n c s).slotMap = s.slotMap := rfl
@[simp] theorem driveStation_failLimit (n : Nat) (c : Code) (s : State) : (driveStation n c s).failLimit = s.failLimit := rfl
@[simp] theorem driveStation_challengeWindow (n : Nat) (c : Code) (s : State) : (driveStation n c s).challengeWindow = s.challengeWindow := rfl
@[simp] theorem driveStation_lockoutTime (n : Nat) (c : Code) (s : State) : (driveStation n c s).lockoutTime = s.lockoutTime := rfl
@[simp] theorem driveStation_paths (n : Nat) (c : Code) (s : State) : (driveStation n c s).paths = s.paths := rfl
@[simp] theorem driveStation_stationOcc (n : Nat) (c : Code) (s : State) : (driveStation n c s).stationOcc = s.stationOcc := rfl
@[simp] theorem driveStation_tieOcc (n : Nat) (c : Code) (s : State) : (driveStation n c s).tieOcc = s.tieOcc := rfl
@[simp] theorem driveStation_ctxs (n : Nat) (c : Code) (s : State) : (driveStation n c s).ctxs = s.ctxs := rfl
@[simp] theorem driveStation_huntTime (n : Nat) (c : Code) (s : State) : (driveStation n c s).huntTime = s.huntTime := rfl
@[simp] theorem driveStation_guardCeiling (n : Nat) (c : Code) (s : State) : (driveStation n c s).guardCeiling = s.guardCeiling := rfl
@[simp] theorem driveStation_guardStrikes (n : Nat) (c : Code) (s : State) : (driveStation n c s).guardStrikes = s.guardStrikes := rfl
@[simp] theorem driveStation_bridges (n : Nat) (c : Code) (s : State) : (driveStation n c s).bridges = s.bridges := rfl
@[simp] theorem driveStation_survey (n : Nat) (c : Code) (s : State) : (driveStation n c s).survey = s.survey := rfl
@[simp] theorem driveStation_orphanHold (n : Nat) (c : Code) (s : State) : (driveStation n c s).orphanHold = s.orphanHold := rfl
@[simp] theorem driveStation_portA (n : Nat) (c : Code) (s : State) : (driveStation n c s).portA = s.portA := rfl
@[simp] theorem driveStation_portB (n : Nat) (c : Code) (s : State) : (driveStation n c s).portB = s.portB := rfl
@[simp] theorem driveStation_portM (n : Nat) (c : Code) (s : State) : (driveStation n c s).portM = s.portM := rfl

@[simp] theorem driveTie_pending (n : Nat) (c : Code) (s : State) : (driveTie n c s).pending = s.pending := rfl
@[simp] theorem driveTie_boot (n : Nat) (c : Code) (s : State) : (driveTie n c s).boot = s.boot := rfl
@[simp] theorem driveTie_frameCount (n : Nat) (c : Code) (s : State) : (driveTie n c s).frameCount = s.frameCount := rfl
@[simp] theorem driveTie_buffer (n : Nat) (c : Code) (s : State) : (driveTie n c s).buffer = s.buffer := rfl
@[simp] theorem driveTie_reading (n : Nat) (c : Code) (s : State) : (driveTie n c s).reading = s.reading := rfl
@[simp] theorem driveTie_highways (n : Nat) (c : Code) (s : State) : (driveTie n c s).highways = s.highways := rfl
@[simp] theorem driveTie_drivenStation (n : Nat) (c : Code) (s : State) : (driveTie n c s).drivenStation = s.drivenStation := rfl
@[simp] theorem driveTie_work (n : Nat) (c : Code) (s : State) : (driveTie n c s).work = s.work := rfl
@[simp] theorem driveTie_extStore (n : Nat) (c : Code) (s : State) : (driveTie n c s).extStore = s.extStore := rfl
@[simp] theorem driveTie_startRecord (n : Nat) (c : Code) (s : State) : (driveTie n c s).startRecord = s.startRecord := rfl
@[simp] theorem driveTie_startCount (n : Nat) (c : Code) (s : State) : (driveTie n c s).startCount = s.startCount := rfl
@[simp] theorem driveTie_engine (n : Nat) (c : Code) (s : State) : (driveTie n c s).engine = s.engine := rfl
@[simp] theorem driveTie_nonce (n : Nat) (c : Code) (s : State) : (driveTie n c s).nonce = s.nonce := rfl
@[simp] theorem driveTie_exts (n : Nat) (c : Code) (s : State) : (driveTie n c s).exts = s.exts := rfl
@[simp] theorem driveTie_slotMap (n : Nat) (c : Code) (s : State) : (driveTie n c s).slotMap = s.slotMap := rfl
@[simp] theorem driveTie_failLimit (n : Nat) (c : Code) (s : State) : (driveTie n c s).failLimit = s.failLimit := rfl
@[simp] theorem driveTie_challengeWindow (n : Nat) (c : Code) (s : State) : (driveTie n c s).challengeWindow = s.challengeWindow := rfl
@[simp] theorem driveTie_lockoutTime (n : Nat) (c : Code) (s : State) : (driveTie n c s).lockoutTime = s.lockoutTime := rfl
@[simp] theorem driveTie_paths (n : Nat) (c : Code) (s : State) : (driveTie n c s).paths = s.paths := rfl
@[simp] theorem driveTie_stationOcc (n : Nat) (c : Code) (s : State) : (driveTie n c s).stationOcc = s.stationOcc := rfl
@[simp] theorem driveTie_tieOcc (n : Nat) (c : Code) (s : State) : (driveTie n c s).tieOcc = s.tieOcc := rfl
@[simp] theorem driveTie_ctxs (n : Nat) (c : Code) (s : State) : (driveTie n c s).ctxs = s.ctxs := rfl
@[simp] theorem driveTie_huntTime (n : Nat) (c : Code) (s : State) : (driveTie n c s).huntTime = s.huntTime := rfl
@[simp] theorem driveTie_guardCeiling (n : Nat) (c : Code) (s : State) : (driveTie n c s).guardCeiling = s.guardCeiling := rfl
@[simp] theorem driveTie_guardStrikes (n : Nat) (c : Code) (s : State) : (driveTie n c s).guardStrikes = s.guardStrikes := rfl
@[simp] theorem driveTie_bridges (n : Nat) (c : Code) (s : State) : (driveTie n c s).bridges = s.bridges := rfl
@[simp] theorem driveTie_survey (n : Nat) (c : Code) (s : State) : (driveTie n c s).survey = s.survey := rfl
@[simp] theorem driveTie_orphanHold (n : Nat) (c : Code) (s : State) : (driveTie n c s).orphanHold = s.orphanHold := rfl
@[simp] theorem driveTie_portA (n : Nat) (c : Code) (s : State) : (driveTie n c s).portA = s.portA := rfl
@[simp] theorem driveTie_portB (n : Nat) (c : Code) (s : State) : (driveTie n c s).portB = s.portB := rfl
@[simp] theorem driveTie_portM (n : Nat) (c : Code) (s : State) : (driveTie n c s).portM = s.portM := rfl

@[simp] theorem recontrol_pending (f : Controller → Bool) (c : Controller) (s : State) : (recontrol f c s).pending = s.pending := rfl
@[simp] theorem recontrol_boot (f : Controller → Bool) (c : Controller) (s : State) : (recontrol f c s).boot = s.boot := rfl
@[simp] theorem recontrol_frameCount (f : Controller → Bool) (c : Controller) (s : State) : (recontrol f c s).frameCount = s.frameCount := rfl
@[simp] theorem recontrol_buffer (f : Controller → Bool) (c : Controller) (s : State) : (recontrol f c s).buffer = s.buffer := rfl
@[simp] theorem recontrol_reading (f : Controller → Bool) (c : Controller) (s : State) : (recontrol f c s).reading = s.reading := rfl
@[simp] theorem recontrol_highways (f : Controller → Bool) (c : Controller) (s : State) : (recontrol f c s).highways = s.highways := rfl
@[simp] theorem recontrol_drivenStation (f : Controller → Bool) (c : Controller) (s : State) : (recontrol f c s).drivenStation = s.drivenStation := rfl
@[simp] theorem recontrol_drivenTie (f : Controller → Bool) (c : Controller) (s : State) : (recontrol f c s).drivenTie = s.drivenTie := rfl
@[simp] theorem recontrol_work (f : Controller → Bool) (c : Controller) (s : State) : (recontrol f c s).work = s.work := rfl
@[simp] theorem recontrol_extStore (f : Controller → Bool) (c : Controller) (s : State) : (recontrol f c s).extStore = s.extStore := rfl
@[simp] theorem recontrol_startRecord (f : Controller → Bool) (c : Controller) (s : State) : (recontrol f c s).startRecord = s.startRecord := rfl
@[simp] theorem recontrol_startCount (f : Controller → Bool) (c : Controller) (s : State) : (recontrol f c s).startCount = s.startCount := rfl
@[simp] theorem recontrol_engine (f : Controller → Bool) (c : Controller) (s : State) : (recontrol f c s).engine = s.engine := rfl
@[simp] theorem recontrol_nonce (f : Controller → Bool) (c : Controller) (s : State) : (recontrol f c s).nonce = s.nonce := rfl
@[simp] theorem recontrol_exts (f : Controller → Bool) (c : Controller) (s : State) : (recontrol f c s).exts = s.exts := rfl
@[simp] theorem recontrol_slotMap (f : Controller → Bool) (c : Controller) (s : State) : (recontrol f c s).slotMap = s.slotMap := rfl
@[simp] theorem recontrol_failLimit (f : Controller → Bool) (c : Controller) (s : State) : (recontrol f c s).failLimit = s.failLimit := rfl
@[simp] theorem recontrol_challengeWindow (f : Controller → Bool) (c : Controller) (s : State) : (recontrol f c s).challengeWindow = s.challengeWindow := rfl
@[simp] theorem recontrol_lockoutTime (f : Controller → Bool) (c : Controller) (s : State) : (recontrol f c s).lockoutTime = s.lockoutTime := rfl
@[simp] theorem recontrol_stationOcc (f : Controller → Bool) (c : Controller) (s : State) : (recontrol f c s).stationOcc = s.stationOcc := rfl
@[simp] theorem recontrol_tieOcc (f : Controller → Bool) (c : Controller) (s : State) : (recontrol f c s).tieOcc = s.tieOcc := rfl
@[simp] theorem recontrol_ctxs (f : Controller → Bool) (c : Controller) (s : State) : (recontrol f c s).ctxs = s.ctxs := rfl
@[simp] theorem recontrol_huntTime (f : Controller → Bool) (c : Controller) (s : State) : (recontrol f c s).huntTime = s.huntTime := rfl
@[simp] theorem recontrol_guardCeiling (f : Controller → Bool) (c : Controller) (s : State) : (recontrol f c s).guardCeiling = s.guardCeiling := rfl
@[simp] theorem recontrol_guardStrikes (f : Controller → Bool) (c : Controller) (s : State) : (recontrol f c s).guardStrikes = s.guardStrikes := rfl
@[simp] theorem recontrol_survey (f : Controller → Bool) (c : Controller) (s : State) : (recontrol f c s).survey = s.survey := rfl
@[simp] theorem recontrol_orphanHold (f : Controller → Bool) (c : Controller) (s : State) : (recontrol f c s).orphanHold = s.orphanHold := rfl
@[simp] theorem recontrol_portA (f : Controller → Bool) (c : Controller) (s : State) : (recontrol f c s).portA = s.portA := rfl
@[simp] theorem recontrol_portB (f : Controller → Bool) (c : Controller) (s : State) : (recontrol f c s).portB = s.portB := rfl
@[simp] theorem recontrol_portM (f : Controller → Bool) (c : Controller) (s : State) : (recontrol f c s).portM = s.portM := rfl

@[simp] theorem State.setCtx_ctxs (s : State) (i : Nat) (c : Context) : (s.setCtx i c).ctxs = Table.put s.ctxs i c := rfl
@[simp] theorem State.setHighway_highways (s : State) (h : Nat) (x : Highway) :
    (s.setHighway h x).highways = s.highways.set h x := rfl
@[simp] theorem recontrol_paths (f : Controller → Bool) (c : Controller) (s : State) :
    (recontrol f c s).paths =
      Table.mapAll s.paths fun p => if f p.controller then { p with controller := c } else p := rfl
@[simp] theorem recontrol_bridges (f : Controller → Bool) (c : Controller) (s : State) :
    (recontrol f c s).bridges =
      Table.mapAll s.bridges fun b => if f b.controller then { b with controller := c } else b := rfl

/-- Extension `j`'s record after extension `i`'s has been written. -/
theorem State.ext_setExt (s : State) (i j : Nat) (e : Ext) : (s.setExt i e).ext j = if i = j then e else s.ext j := by
  unfold State.setExt State.ext
  by_cases h : e = Ext.vacant
  · simp only [h, if_true, Table.find_del]; split <;> rfl
  · simp only [h, if_false, Table.find_put]; split <;> rfl

@[simp] theorem State.ext_setExt_same (s : State) (i : Nat) (e : Ext) : (s.setExt i e).ext i = e := by
  simp [State.ext_setExt]

/-- An extension is read from the table of extensions alone. -/
theorem State.ext_congr {s t : State} (h : s.exts = t.exts) (i : Nat) : s.ext i = t.ext i := by
  simp [State.ext, h]

/-- A port is read from the three ports alone. -/
theorem State.port_congr {s t : State} (a : s.portA = t.portA) (b : s.portB = t.portB) (m : s.portM = t.portM)
    (k : Link) : s.port k = t.port k := by
  cases k <;> assumption

@[simp] theorem State.port_setExt (s : State) (i : Nat) (e : Ext) (k : Link) : (s.setExt i e).port k = s.port k := by
  cases k <;> rfl

@[simp] theorem State.port_setCtx (s : State) (i : Nat) (c : Context) (k : Link) : (s.setCtx i c).port k = s.port k := by
  cases k <;> rfl

@[simp] theorem State.port_setHighway (s : State) (h : Nat) (x : Highway) (k : Link) :
    (s.setHighway h x).port k = s.port k := by
  cases k <;> rfl

/-- Highway `g` after highway `h` has been written; a number beyond the last writes nothing. -/
theorem State.highway_setHighway (s : State) (h g : Nat) (x : Highway) :
    (s.setHighway h x).highway g = if h = g ∧ h < s.highways.length then x else s.highway g := by
  simp only [State.highway, State.setHighway, List.getD_eq_getElem?_getD, List.getElem?_set]
  by_cases e : h = g
  · subst e
    by_cases l : h < s.highways.length
    · simp [l]
    · simp [l]
  · simp [e]

/-! ## Events: raising one changes ports alone -/

/-- Raising an event changes nothing but the ports of its links. -/
theorem raiseOn_eq (k : EventKind) (ls : List Link) (s : State) :
    raiseOn k ls s =
      { s with portA := (raiseOn k ls s).portA, portB := (raiseOn k ls s).portB, portM := (raiseOn k ls s).portM } := by
  induction ls generalizing s with
  | nil => rfl
  | cons l ls ih => rw [raiseOn, ih]; cases l <;> rfl

@[simp] theorem raiseOn_pending (k : EventKind) (ls : List Link) (s : State) : (raiseOn k ls s).pending = s.pending := by rw [raiseOn_eq]
@[simp] theorem raiseOn_boot (k : EventKind) (ls : List Link) (s : State) : (raiseOn k ls s).boot = s.boot := by rw [raiseOn_eq]
@[simp] theorem raiseOn_frameCount (k : EventKind) (ls : List Link) (s : State) : (raiseOn k ls s).frameCount = s.frameCount := by rw [raiseOn_eq]
@[simp] theorem raiseOn_buffer (k : EventKind) (ls : List Link) (s : State) : (raiseOn k ls s).buffer = s.buffer := by rw [raiseOn_eq]
@[simp] theorem raiseOn_reading (k : EventKind) (ls : List Link) (s : State) : (raiseOn k ls s).reading = s.reading := by rw [raiseOn_eq]
@[simp] theorem raiseOn_highways (k : EventKind) (ls : List Link) (s : State) : (raiseOn k ls s).highways = s.highways := by rw [raiseOn_eq]
@[simp] theorem raiseOn_drivenStation (k : EventKind) (ls : List Link) (s : State) : (raiseOn k ls s).drivenStation = s.drivenStation := by rw [raiseOn_eq]
@[simp] theorem raiseOn_drivenTie (k : EventKind) (ls : List Link) (s : State) : (raiseOn k ls s).drivenTie = s.drivenTie := by rw [raiseOn_eq]
@[simp] theorem raiseOn_work (k : EventKind) (ls : List Link) (s : State) : (raiseOn k ls s).work = s.work := by rw [raiseOn_eq]
@[simp] theorem raiseOn_extStore (k : EventKind) (ls : List Link) (s : State) : (raiseOn k ls s).extStore = s.extStore := by rw [raiseOn_eq]
@[simp] theorem raiseOn_startRecord (k : EventKind) (ls : List Link) (s : State) : (raiseOn k ls s).startRecord = s.startRecord := by rw [raiseOn_eq]
@[simp] theorem raiseOn_startCount (k : EventKind) (ls : List Link) (s : State) : (raiseOn k ls s).startCount = s.startCount := by rw [raiseOn_eq]
@[simp] theorem raiseOn_engine (k : EventKind) (ls : List Link) (s : State) : (raiseOn k ls s).engine = s.engine := by rw [raiseOn_eq]
@[simp] theorem raiseOn_nonce (k : EventKind) (ls : List Link) (s : State) : (raiseOn k ls s).nonce = s.nonce := by rw [raiseOn_eq]
@[simp] theorem raiseOn_exts (k : EventKind) (ls : List Link) (s : State) : (raiseOn k ls s).exts = s.exts := by rw [raiseOn_eq]
@[simp] theorem raiseOn_slotMap (k : EventKind) (ls : List Link) (s : State) : (raiseOn k ls s).slotMap = s.slotMap := by rw [raiseOn_eq]
@[simp] theorem raiseOn_failLimit (k : EventKind) (ls : List Link) (s : State) : (raiseOn k ls s).failLimit = s.failLimit := by rw [raiseOn_eq]
@[simp] theorem raiseOn_challengeWindow (k : EventKind) (ls : List Link) (s : State) : (raiseOn k ls s).challengeWindow = s.challengeWindow := by rw [raiseOn_eq]
@[simp] theorem raiseOn_lockoutTime (k : EventKind) (ls : List Link) (s : State) : (raiseOn k ls s).lockoutTime = s.lockoutTime := by rw [raiseOn_eq]
@[simp] theorem raiseOn_paths (k : EventKind) (ls : List Link) (s : State) : (raiseOn k ls s).paths = s.paths := by rw [raiseOn_eq]
@[simp] theorem raiseOn_stationOcc (k : EventKind) (ls : List Link) (s : State) : (raiseOn k ls s).stationOcc = s.stationOcc := by rw [raiseOn_eq]
@[simp] theorem raiseOn_tieOcc (k : EventKind) (ls : List Link) (s : State) : (raiseOn k ls s).tieOcc = s.tieOcc := by rw [raiseOn_eq]
@[simp] theorem raiseOn_ctxs (k : EventKind) (ls : List Link) (s : State) : (raiseOn k ls s).ctxs = s.ctxs := by rw [raiseOn_eq]
@[simp] theorem raiseOn_huntTime (k : EventKind) (ls : List Link) (s : State) : (raiseOn k ls s).huntTime = s.huntTime := by rw [raiseOn_eq]
@[simp] theorem raiseOn_guardCeiling (k : EventKind) (ls : List Link) (s : State) : (raiseOn k ls s).guardCeiling = s.guardCeiling := by rw [raiseOn_eq]
@[simp] theorem raiseOn_guardStrikes (k : EventKind) (ls : List Link) (s : State) : (raiseOn k ls s).guardStrikes = s.guardStrikes := by rw [raiseOn_eq]
@[simp] theorem raiseOn_bridges (k : EventKind) (ls : List Link) (s : State) : (raiseOn k ls s).bridges = s.bridges := by rw [raiseOn_eq]
@[simp] theorem raiseOn_survey (k : EventKind) (ls : List Link) (s : State) : (raiseOn k ls s).survey = s.survey := by rw [raiseOn_eq]
@[simp] theorem raiseOn_orphanHold (k : EventKind) (ls : List Link) (s : State) : (raiseOn k ls s).orphanHold = s.orphanHold := by rw [raiseOn_eq]

@[simp] theorem noteChange_ext (i j : Nat) (s : State) : (noteChange i s).ext j = s.ext j := rfl

/-- A link's port after an event: queued or lost there once for each time the link is named (R170). -/
theorem port_raiseOn_of_notMem (k : EventKind) (ls : List Link) (s : State) {l : Link} (h : l ∉ ls) :
    (raiseOn k ls s).port l = s.port l := by
  induction ls generalizing s with
  | nil => rfl
  | cons x ls ih =>
    rw [raiseOn, ih _ (fun m => h (List.mem_cons_of_mem _ m)), State.port_onPort, if_neg]
    exact fun e => h (e ▸ List.mem_cons_self)

theorem port_raiseOn_of_mem (k : EventKind) {ls : List Link} (s : State) {l : Link} (n : ls.Nodup) (h : l ∈ ls) :
    (raiseOn k ls s).port l = (s.port l).queueEvent { kind := k, stamp := s.frameCount } := by
  induction ls generalizing s with
  | nil => cases h
  | cons x ls ih =>
    rw [List.nodup_cons] at n
    rw [raiseOn]
    by_cases e : l = x
    · subst e
      rw [port_raiseOn_of_notMem _ _ _ n.1, State.port_onPort, if_pos rfl]
    · rw [ih _ n.2 ((List.mem_cons.1 h).resolve_left e), State.port_onPort, if_neg e, State.onPort_frameCount]

@[simp] theorem raiseOn_ext (k : EventKind) (ls : List Link) (s : State) (i : Nat) : (raiseOn k ls s).ext i = s.ext i :=
  State.ext_congr (raiseOn_exts k ls s) i

end Sys2Proof.Machine
end

