-- ==== Sys2Proof/Laws/Commands.lean ====
section
/-! SUPPORT. The taking of a command and its answer: a well-formed command's frame passes the frame check; a command that
its port takes is its owner's reply on the state with the command taken; one it cannot take changes nothing but what was
due. -/

namespace Sys2Proof.Machine

/-! ## The frame of a well-formed command -/

/-- A well-formed command's frame passes the frame check (R185). -/
theorem badFrame_commandFrame {i : Instr} {l : Link} {kind tag : Byte} {ops : List Byte} (w : i.wellFormed = true)
    (e : encodeOperands i = some (l, kind, tag, ops)) : badFrame (commandFrame kind tag ops) = false := by
  cases i <;> simp only [encodeOperands, Option.some.injEq, Prod.mk.injEq, reduceCtorEq] at e <;>
    obtain ⟨rfl, rfl, rfl, rfl⟩ := e <;> (try rfl)
  · rename_i o
    simp only [Instr.wellFormed, Bool.and_eq_true, decide_eq_true_eq] at w
    have len : (writeLoad o).length = 1 + 12 * o.entries.length := by
      simp [writeLoad, length_writeMany length_writeStored]; omega
    refine (badFrame_cons _ _ _ _).2 ⟨by decide, ?_, ?_⟩
    · rw [BitVec.toNat_ofNat, len]; omega
    · rw [len]
      show _ = 1 + 12 * ((writeLoad o).headD 0).toNat
      simp [writeLoad, w.1]
  · rename_i o
    simp only [Instr.wellFormed, Bool.and_eq_true, decide_eq_true_eq] at w
    have len : (writeSetSurvey o).length = 12 + 4 * o.entries.length := by
      simp [writeSetSurvey, length_writeMany length_writeSurveyEntry]; omega
    refine (badFrame_cons _ _ _ _).2 ⟨by decide, ?_, ?_⟩
    · rw [BitVec.toNat_ofNat, len]; omega
    · rw [len]
      show _ = 12 + 4 * ((writeSetSurvey o).headD 0).toNat
      simp [writeSetSurvey, w.1]

/-! ## A port that takes a frame -/

/-- What a port that takes a frame is: UP, ready, the frame at the head of its queue or the queue empty; only the queue,
the hold and the symbol runs change (R167, R168). -/
theorem take_eq_some {p q : Port} {f : List Byte} (h : p.take f = some q) :
    p.state = .up ∧ p.inProgress = none ∧ p.response = none ∧ q.state = .up ∧ q.inProgress = none ∧ q.response = none
      ∧ q.events = p.events ∧ q.changes = p.changes ∧ q.enables = p.enables ∧ q.threshold = p.threshold
      ∧ q.lost = p.lost ∧ q.partnerHold = p.partnerHold ∧ q.sending = p.sending
      ∧ q.overrun.length ≤ max p.overrun.length 16 ∧ q.queue.length ≤ max p.queue.length 16 := by
  unfold Port.take at h
  split at h
  · rename_i r
    simp only [Port.ready, Bool.and_eq_true, decide_eq_true_eq, Option.isNone_iff_eq_none] at r
    obtain ⟨⟨up, prog⟩, resp⟩ := r
    split at h
    · rename_i e
      cases h
      simp only [Port.takeHead, Port.frameReceived, Port.validSymbol, Port.setOwnHold, e]
      refine ⟨up, prog, resp, ?_⟩
      simp [Config.commandQueue]
      split_ifs <;> simp_all
    · rename_i g rest e
      split at h
      · cases h
        simp only [Port.takeHead, Port.setOwnHold, e]
        refine ⟨up, prog, resp, ?_⟩
        split_ifs <;> simp_all
      · cases h
  · cases h

/-! ## Replies -/

@[simp] theorem answerCommand_done (l : Link) (kind tag : Byte) (r : Result) (body : List Byte) (s : State) :
    answerCommand l kind tag (.done r body s) = .next (s.answer l kind tag r body) := rfl

@[simp] theorem answerCommand_waits (l : Link) (kind tag : Byte) (s : State) :
    answerCommand l kind tag (.waits s) = .next (s.await l kind tag) := rfl

@[simp] theorem answerCommand_refuse (l : Link) (kind tag : Byte) (r : Result) (s : State) :
    answerCommand l kind tag (refuse r s) = .next (s.answer l kind tag r []) := rfl

/-- The links of 10.5 by kind and by name are the same. -/
theorem permitted_eq_acceptedOn {i : Instr} {l k : Link} {kind tag : Byte} {ops : List Byte}
    (e : encodeOperands i = some (l, kind, tag, ops)) : permitted kind.toNat k = acceptedOn i k := by
  cases i <;> simp only [encodeOperands, Option.some.injEq, Prod.mk.injEq, reduceCtorEq] at e <;>
    obtain ⟨rfl, rfl, rfl, rfl⟩ := e <;> rfl

/-- A command that its port takes: its owner's reply, or NOT_PERMITTED on a link it is not accepted on (R168). -/
theorem command_taken {i : Instr} {s : State} {l : Link} {p : Port} {kind tag : Byte} {ops : List Byte}
    (owner : State → Reply) (w : i.wellFormed = true) (e : encodeOperands i = some (l, kind, tag, ops))
    (h : TakenBy i s l p) :
    command i s owner =
      if acceptedOn i l = true then answerCommand l kind tag (owner (s.taking l p))
      else .next ((s.taking l p).answer l kind tag .notPermitted []) := by
  have t : ((settle s).port l).take (commandFrame kind tag ops) = some p := by
    simp only [TakenBy, encodeCommand, e] at h; exact h.2
  simp only [command, e, takeCommand, t, badFrame_commandFrame w e, permitted_eq_acceptedOn e]
  rfl

/-- A command that its port does not take changes nothing but what was due. -/
theorem command_untaken {i : Instr} {s : State} {l : Link} {f : List Byte} (owner : State → Reply)
    (e : encodeCommand i = some (l, f)) (h : ((settle s).port l).take f = none) :
    command i s owner = .next (settle s) := by
  unfold encodeCommand at e
  split at e
  · rename_i l' kind tag ops e'
    cases e
    simp [command, e', takeCommand, h]
  · cases e

/-! ## The state with a command taken -/

@[simp] theorem State.taking_pending (s : State) (l : Link) (p : Port) : (s.taking l p).pending = (settle s).pending :=
  State.setPort_pending _ _ _
@[simp] theorem State.taking_boot (s : State) (l : Link) (p : Port) : (s.taking l p).boot = (settle s).boot :=
  State.setPort_boot _ _ _
@[simp] theorem State.taking_frameCount (s : State) (l : Link) (p : Port) : (s.taking l p).frameCount = (settle s).frameCount :=
  State.setPort_frameCount _ _ _
@[simp] theorem State.taking_buffer (s : State) (l : Link) (p : Port) : (s.taking l p).buffer = (settle s).buffer :=
  State.setPort_buffer _ _ _
@[simp] theorem State.taking_reading (s : State) (l : Link) (p : Port) : (s.taking l p).reading = (settle s).reading :=
  State.setPort_reading _ _ _
@[simp] theorem State.taking_highways (s : State) (l : Link) (p : Port) : (s.taking l p).highways = (settle s).highways :=
  State.setPort_highways _ _ _
@[simp] theorem State.taking_drivenStation (s : State) (l : Link) (p : Port) : (s.taking l p).drivenStation = (settle s).drivenStation :=
  State.setPort_drivenStation _ _ _
@[simp] theorem State.taking_drivenTie (s : State) (l : Link) (p : Port) : (s.taking l p).drivenTie = (settle s).drivenTie :=
  State.setPort_drivenTie _ _ _
@[simp] theorem State.taking_work (s : State) (l : Link) (p : Port) : (s.taking l p).work = (settle s).work :=
  State.setPort_work _ _ _
@[simp] theorem State.taking_extStore (s : State) (l : Link) (p : Port) : (s.taking l p).extStore = (settle s).extStore :=
  State.setPort_extStore _ _ _
@[simp] theorem State.taking_startRecord (s : State) (l : Link) (p : Port) : (s.taking l p).startRecord = (settle s).startRecord :=
  State.setPort_startRecord _ _ _
@[simp] theorem State.taking_startCount (s : State) (l : Link) (p : Port) : (s.taking l p).startCount = (settle s).startCount :=
  State.setPort_startCount _ _ _
@[simp] theorem State.taking_engine (s : State) (l : Link) (p : Port) : (s.taking l p).engine = (settle s).engine :=
  State.setPort_engine _ _ _
@[simp] theorem State.taking_nonce (s : State) (l : Link) (p : Port) : (s.taking l p).nonce = (settle s).nonce :=
  State.setPort_nonce _ _ _
@[simp] theorem State.taking_exts (s : State) (l : Link) (p : Port) : (s.taking l p).exts = (settle s).exts :=
  State.setPort_exts _ _ _
@[simp] theorem State.taking_slotMap (s : State) (l : Link) (p : Port) : (s.taking l p).slotMap = (settle s).slotMap :=
  State.setPort_slotMap _ _ _
@[simp] theorem State.taking_failLimit (s : State) (l : Link) (p : Port) : (s.taking l p).failLimit = (settle s).failLimit :=
  State.setPort_failLimit _ _ _
@[simp] theorem State.taking_challengeWindow (s : State) (l : Link) (p : Port) : (s.taking l p).challengeWindow = (settle s).challengeWindow :=
  State.setPort_challengeWindow _ _ _
@[simp] theorem State.taking_lockoutTime (s : State) (l : Link) (p : Port) : (s.taking l p).lockoutTime = (settle s).lockoutTime :=
  State.setPort_lockoutTime _ _ _
@[simp] theorem State.taking_paths (s : State) (l : Link) (p : Port) : (s.taking l p).paths = (settle s).paths :=
  State.setPort_paths _ _ _
@[simp] theorem State.taking_stationOcc (s : State) (l : Link) (p : Port) : (s.taking l p).stationOcc = (settle s).stationOcc :=
  State.setPort_stationOcc _ _ _
@[simp] theorem State.taking_tieOcc (s : State) (l : Link) (p : Port) : (s.taking l p).tieOcc = (settle s).tieOcc :=
  State.setPort_tieOcc _ _ _
@[simp] theorem State.taking_ctxs (s : State) (l : Link) (p : Port) : (s.taking l p).ctxs = (settle s).ctxs :=
  State.setPort_ctxs _ _ _
@[simp] theorem State.taking_huntTime (s : State) (l : Link) (p : Port) : (s.taking l p).huntTime = (settle s).huntTime :=
  State.setPort_huntTime _ _ _
@[simp] theorem State.taking_guardCeiling (s : State) (l : Link) (p : Port) : (s.taking l p).guardCeiling = (settle s).guardCeiling :=
  State.setPort_guardCeiling _ _ _
@[simp] theorem State.taking_guardStrikes (s : State) (l : Link) (p : Port) : (s.taking l p).guardStrikes = (settle s).guardStrikes :=
  State.setPort_guardStrikes _ _ _
@[simp] theorem State.taking_bridges (s : State) (l : Link) (p : Port) : (s.taking l p).bridges = (settle s).bridges :=
  State.setPort_bridges _ _ _
@[simp] theorem State.taking_survey (s : State) (l : Link) (p : Port) : (s.taking l p).survey = (settle s).survey :=
  State.setPort_survey _ _ _
@[simp] theorem State.taking_orphanHold (s : State) (l : Link) (p : Port) : (s.taking l p).orphanHold = (settle s).orphanHold :=
  State.setPort_orphanHold _ _ _

@[simp] theorem State.taking_port (s : State) (l : Link) (p : Port) : (s.taking l p).port l = p :=
  State.port_setPort_same _ _ _

theorem State.taking_port_other (s : State) (p : Port) {l k : Link} (h : k ≠ l) :
    (s.taking l p).port k = (settle s).port k :=
  State.port_setPort_other _ _ h

@[simp] theorem State.taking_ext (s : State) (l : Link) (p : Port) (i : Nat) :
    (s.taking l p).ext i = (settle s).ext i :=
  State.ext_congr (State.taking_exts s l p) i

@[simp] theorem State.taking_legsInUse (s : State) (l : Link) (p : Port) :
    (s.taking l p).legsInUse = (settle s).legsInUse := by
  simp [State.legsInUse]

end Sys2Proof.Machine
end

