-- ==== Sys2Proof/Laws/Privacy.lean ====
section
/-! SUPPORT. The advances that a context's frame has made due: what of the context, of the paths and of the frame's marks
they leave, and when there are none; and what one advance, two and a rollover leave of a direction. -/

namespace Sys2Proof.Machine

/-- The guard of `d`, its receive phase and what its context belongs to stand as in `c`. -/
structure GuardSame (c d : Context) : Prop where
  path : d.path = c.path
  tieSlot : d.tieSlot = c.tieSlot
  ceiling : d.ceiling = c.ceiling
  limit : d.strikesLimit = c.strikesLimit
  phase : d.rx.phase = c.rx.phase
  last : d.rx.last = c.rx.last
  sum : d.rx.guardSum = c.rx.guardSum
  count : d.rx.guardCount = c.rx.guardCount
  strikes : d.rx.strikes = c.rx.strikes

theorem GuardSame.refl (c : Context) : GuardSame c c := ⟨rfl, rfl, rfl, rfl, rfl, rfl, rfl, rfl, rfl⟩

theorem GuardSame.trans {c d e : Context} (a : GuardSame c d) (b : GuardSame d e) : GuardSame c e :=
  ⟨b.1.trans a.1, b.2.trans a.2, b.3.trans a.3, b.4.trans a.4, b.5.trans a.5, b.6.trans a.6, b.7.trans a.7,
    b.8.trans a.8, b.9.trans a.9⟩

theorem GuardSame.setDir (c : Context) (d : Dir) (x : DirState) : GuardSame c (c.setDir d x) := by
  cases d <;> constructor <;> rfl

/-- A step of context `i` that leaves its guard, every path and the frame's marks. -/
structure GuardKept (i : Nat) (s t : State) : Prop where
  ctx : ∀ c, Table.find s.ctxs i = some c → ∃ d, Table.find t.ctxs i = some d ∧ GuardSame c d
  none_ : Table.find s.ctxs i = none → Table.find t.ctxs i = none
  paths : t.paths = s.paths
  work : t.work = s.work

theorem GuardKept.refl (i : Nat) (s : State) : GuardKept i s s := ⟨fun c h => ⟨c, h, .refl c⟩, id, rfl, rfl⟩

theorem GuardKept.trans {i : Nat} {s t u : State} (a : GuardKept i s t) (b : GuardKept i t u) : GuardKept i s u where
  ctx c h := by
    obtain ⟨d, hd, x⟩ := a.ctx c h
    obtain ⟨e, he, y⟩ := b.ctx d hd
    exact ⟨e, he, x.trans y⟩
  none_ h := b.none_ (a.none_ h)
  paths := b.paths.trans a.paths
  work := b.work.trans a.work

/-- A context written with its guard as it was, and an event of it raised. -/
theorem GuardKept.set {i : Nat} {s : State} {c d : Context} (h : Table.find s.ctxs i = some c) (g : GuardSame c d)
    (k : EventKind) (ls : List Link) : GuardKept i s (raiseOn k ls (s.setCtx i d)) where
  ctx c' h' := by
    rw [h] at h'; cases h'
    exact ⟨d, by rw [raiseOn_ctxs]; exact Table.find_put_same _ _ _, g⟩
  none_ h' := by rw [h] at h'; cases h'
  paths := by rw [raiseOn_paths]; rfl
  work := by rw [raiseOn_work]; rfl

/-- A trigger changes the survey and ports alone. -/
theorem surveyComplete_eq (s : State) :
    surveyComplete s =
      { s with
        survey := (surveyComplete s).survey, portA := (surveyComplete s).portA, portB := (surveyComplete s).portB,
        portM := (surveyComplete s).portM } := by
  unfold surveyComplete
  split
  · split
    · split
      · simp only []; split
        · rw [raiseOn_eq]
        · rfl
      · rfl
    · rfl
  all_goals rfl

theorem surveyTrigger_eq (t : Trigger) (s : State) :
    surveyTrigger t s =
      { s with
        survey := (surveyTrigger t s).survey, portA := (surveyTrigger t s).portA, portB := (surveyTrigger t s).portB,
        portM := (surveyTrigger t s).portM } := by
  unfold surveyTrigger
  split
  · simp only []
    rw [surveyComplete_eq s]
    split <;> rfl
  · rfl

theorem GuardKept.trigger {i : Nat} {s u : State} (h : GuardKept i s u) (t : Trigger) :
    GuardKept i s (surveyTrigger t u) := by
  rw [surveyTrigger_eq]; exact ⟨h.ctx, h.none_, h.paths, h.work⟩

theorem keyDueWarning_guard (i : Nat) (d : Dir) (s : State) : GuardKept i s (keyDueWarning i d s) := by
  unfold keyDueWarning
  split
  · rename_i c h
    simp only []; split
    · exact .set h ((GuardSame.setDir c d _).trans (by constructor <;> rfl)) _ _
    · exact .refl i s
  · exact .refl i s

theorem rollover_guard (i : Nat) (d : Dir) (s : State) : GuardKept i s (rollover i d s) := by
  unfold rollover
  split
  · rename_i c h
    simp only []; split
    · refine GuardKept.trigger (.set h ?_ _ _) _
      split
      · exact (GuardSame.setDir c d _).trans (by constructor <;> rfl)
      · exact GuardSame.setDir c d _
    · exact .refl i s
  · exact .refl i s

/-- All the advances of a frame on a context leave its guard, every path and the frame's marks. -/
theorem keyAdvances_guard (i : Nat) (s : State) : GuardKept i s (keyAdvances i s) :=
  (keyDueWarning_guard i .tx s).trans ((rollover_guard i .tx _).trans
    ((keyDueWarning_guard i .rx _).trans (rollover_guard i .rx _)))

/-- No warning is due, or the context's direction is not RUNNING: nothing happens. -/
theorem keyDueWarning_idle {i : Nat} {d : Dir} {s : State} {c : Context} (h : Table.find s.ctxs i = some c)
    (w : c.running d = true → (c.dir d).warnDue = false) : keyDueWarning i d s = s := by
  unfold keyDueWarning
  simp only [h]
  rw [if_neg fun x => by simp [w x.1] at x]

theorem rollover_idle {i : Nat} {d : Dir} {s : State} {c : Context} (h : Table.find s.ctxs i = some c)
    (w : c.running d = true → (c.dir d).owed = 0) : rollover i d s = s := by
  unfold rollover
  simp only [h]
  rw [if_neg fun x => by simp [w x.1] at x]

/-- A frame whose processing has begun does not begin again. -/
theorem beginWork_of_begun {s : State} (h : s.work.held = false) : beginWork s = s := by
  simp [beginWork, h]

/-! ## The advances of a frame -/

/-- What an advance inside the epoch does. -/
theorem plainAdvance_eq (d : DirState) :
    d.plainAdvance =
      { d with
        gen := keyStep d.step d.gen, f := d.f + 1,
        warnDue := d.warnDue || decide (0 < d.lead ∧ d.staged = none ∧ d.f + 1 = d.length - d.lead) } := by
  unfold DirState.plainAdvance
  generalize keyStep d.step d.gen = g
  cases h : d.staged <;> simp [Bool.and_comm]

/-- An advance inside the epoch, field by field. -/
@[simp] theorem plainAdvance_f (d : DirState) : d.plainAdvance.f = d.f + 1 := rfl
@[simp] theorem plainAdvance_length (d : DirState) : d.plainAdvance.length = d.length := by
  rw [plainAdvance_eq]
@[simp] theorem plainAdvance_lead (d : DirState) : d.plainAdvance.lead = d.lead := by
  rw [plainAdvance_eq]
@[simp] theorem plainAdvance_staged (d : DirState) : d.plainAdvance.staged = d.staged := by
  rw [plainAdvance_eq]
@[simp] theorem plainAdvance_seed (d : DirState) : d.plainAdvance.seed = d.seed := by
  rw [plainAdvance_eq]
@[simp] theorem plainAdvance_step (d : DirState) : d.plainAdvance.step = d.step := by
  rw [plainAdvance_eq]
@[simp] theorem plainAdvance_gen (d : DirState) : d.plainAdvance.gen = keyStep d.step d.gen := rfl

/-- Two advances inside the epoch. -/
theorem plainAdvance_twice (d : DirState) :
    d.plainAdvance.plainAdvance =
      { d with
        gen := keyStep d.step (keyStep d.step d.gen), f := d.f + 2,
        warnDue := d.warnDue
          || decide (0 < d.lead ∧ d.staged = none ∧ (d.f + 1 = d.length - d.lead ∨ d.f + 2 = d.length - d.lead)) } := by
  rw [plainAdvance_eq d.plainAdvance, plainAdvance_eq d]
  generalize keyStep d.step d.gen = g
  dsimp only
  generalize keyStep d.step g = k
  congr 1
  rw [Bool.or_assoc, ← Bool.decide_or]
  congr 2
  exact propext ⟨fun x => x.elim (fun y => ⟨y.1, y.2.1, .inl y.2.2⟩) fun y => ⟨y.1, y.2.1, .inr y.2.2⟩,
    fun x => x.2.2.elim (fun y => .inl ⟨x.1, x.2.1, y⟩) fun y => .inr ⟨x.1, x.2.1, y⟩⟩

/-- With no advance to make none is owed, and the direction stands. -/
@[simp] theorem makeOwed_zero (d : DirState) : DirState.makeOwed 0 d = { d with owed := 0 } := rfl
@[simp] theorem ahead_zero (d : DirState) : DirState.ahead 0 d = d := rfl

/-- The first owed advance of a frame is made inside the epoch, and stays owed with the rest at its end. -/
theorem makeOwed_inside (n : Nat) {d : DirState} (h : d.f < d.length) :
    DirState.makeOwed (n + 1) d = DirState.makeOwed n d.plainAdvance := if_pos h
theorem makeOwed_at_end (n : Nat) {d : DirState} (h : d.f = d.length) :
    DirState.makeOwed (n + 1) d = { d with owed := n + 1 } := if_neg (by omega)

/-- The direction one more advance on, inside the epoch and at its end. -/
theorem ahead_inside (n : Nat) {d : DirState} (h : d.f < d.length) :
    DirState.ahead (n + 1) d = DirState.ahead n d.plainAdvance := congrArg _ (if_pos h)
theorem ahead_at_end (n : Nat) {d : DirState} (h : d.f = d.length) :
    DirState.ahead (n + 1) d = DirState.ahead n d.roll := congrArg _ (if_neg (by omega))

/-- The first byte's generator after a rollover: that of the staged half, or of the old half without one. -/
theorem roll_gen (d : DirState) :
    d.roll.gen = match d.staged with
      | some h => keyStep h.step h.seed
      | none => keyStep d.step d.seed := by
  unfold DirState.roll DirState.epochStart
  cases d.staged <;> simp only
/-- A rollover starts the epoch at index 1, with the staged half's step and length where one is staged. -/
theorem roll_f (d : DirState) : d.roll.f = 1 := by
  unfold DirState.roll DirState.epochStart
  cases d.staged <;> simp only
theorem roll_step (d : DirState) : d.roll.step = (d.staged.map Staged.step).getD d.step := by
  unfold DirState.roll DirState.epochStart
  cases d.staged with
  | none => generalize keyStep d.step d.seed = g; rfl
  | some h => dsimp only; generalize keyStep h.step h.seed = g; rfl
theorem roll_length (d : DirState) : d.roll.length = (d.staged.bind Staged.length).getD d.length := by
  unfold DirState.roll DirState.epochStart
  cases d.staged with
  | none => generalize keyStep d.step d.seed = g; rfl
  | some h => dsimp only; generalize keyStep h.step h.seed = g; rfl

/-- What a RUNNING frame of the receive direction delivers and leaves. -/
theorem receive_eq (r : RxState) (guardOn : Bool) (n : Nat) (code : Code) :
    r.receive guardOn n code =
      ({ r with
          dir := DirState.makeOwed n r.dir, last := descramble code (keyByte (DirState.ahead n r.dir).gen),
          guardSum := r.guardSum
            + (if guardOn then magnitude (descramble code (keyByte (DirState.ahead n r.dir).gen)) else 0),
          guardCount := r.guardCount + (if guardOn then 1 else 0) },
        descramble code (keyByte (DirState.ahead n r.dir).gen)) := by
  cases guardOn <;> rfl
end Sys2Proof.Machine
end

