-- ==== Sys2Proof/Laws/Steps.lean ====
section
/-! SUPPORT. What is done once for each of several numbers, and what is due: a property that each single operation keeps
is kept by all of them; what the clearing of a path can do; and what
unbinding leaves of the station-slot map. -/

namespace Sys2Proof.Machine

/-! ## Once for each number, and all that is due -/

/-- What each single operation keeps, the whole run of them keeps. -/
theorem forEach_keeps {P : State → Prop} {f : Nat → State → State} (h : ∀ i s, P s → P (f i s)) (l : List Nat) {s : State}
    (hs : P s) : P (forEach f l s) := by
  induction l generalizing s with
  | nil => exact hs
  | cons i l ih => exact ih (h i s hs)

/-- A pass of operations that each leave the state as it is leaves it. -/
theorem forEach_fixed {f : Nat → State → State} {l : List Nat} {s : State} (h : ∀ i ∈ l, f i s = s) : forEach f l s = s := by
  induction l with
  | nil => rfl
  | cons i l ih =>
    show forEach f l (f i s) = s
    rw [h i List.mem_cons_self]
    exact ih fun j m => h j (List.mem_cons_of_mem _ m)

@[simp] theorem forEach_nil (f : Nat → State → State) (s : State) : forEach f [] s = s := rfl

@[simp] theorem forEach_cons (f : Nat → State → State) (i : Nat) (l : List Nat) (s : State) :
    forEach f (i :: l) s = forEach f l (f i s) := rfl

/-- The single operations of the steps that are due keep a property. -/
structure DueKeeps (P : State → Prop) : Prop where
  load : ∀ s, P s → P (startUpLoad s)
  frame : ∀ s, P s → P (beginWork s)
  context : ∀ i s, P s → P (contextDue i s)
  boundary : ∀ b s, P s → P (bridgeBoundary b s)
  survey : ∀ s, P s → P (surveyDue s)
  silent : ∀ h s, P s → P (lostSilent h s)
  program : ∀ s, P s → P (programComplete s)
  erase : ∀ s, P s → P (eraseComplete s)
  entry : ∀ s, P s → P (loadEntryComplete s)
  count : ∀ s, P s → P (startCountDone s)
  lockout : ∀ i s, P s → P (lockoutExpiry i s)
  expiry : ∀ i s, P s → P (challengeExpiry i s)
  orphan : ∀ r s, P s → P (orphanDeadline r s)
  restore : ∀ h s, P s → P (restoreHighway h s)
  aligning : ∀ l s, P s → P (linkAligningDue l s)
  down : ∀ l s, P s → P (linkDownDue l s)

theorem DueKeeps.workDue {P : State → Prop} (k : DueKeeps P) {s : State} (h : P s) : P (workDue s) :=
  k.survey _ (forEach_keeps k.boundary _ (forEach_keeps k.context _ h))

theorem DueKeeps.startDue {P : State → Prop} (k : DueKeeps P) {s : State} (h : P s) : P (startDue s) :=
  forEach_keeps (fun b => k.orphan (.bridge b)) _ (forEach_keeps (fun p => k.orphan (.path p)) _
    (forEach_keeps k.expiry _ (forEach_keeps k.lockout _ (k.count _ (k.entry _ (k.erase _ (k.program _
      (forEach_keeps k.silent _ h))))))))

theorem DueKeeps.linkDue {P : State → Prop} (k : DueKeeps P) (l : Link) {s : State} (h : P s) : P (linkDue l s) := by
  unfold Machine.linkDue whenLoaded
  by_cases b : s.boot = .ended
  · rw [if_pos b]
    by_cases u : (s.port l).state = .up
    · simpa only [if_pos u] using k.down l s h
    · simpa only [if_neg u] using k.aligning l s h
  · rwa [if_neg b]

/-- What every due step keeps, taking all that is due keeps. -/
theorem DueKeeps.settle {P : State → Prop} (k : DueKeeps P) {s : State} (h : P s) : P (Machine.settle s) := by
  unfold Machine.settle symbolDue
  exact k.linkDue .m (k.linkDue .b (k.linkDue .a (forEach_keeps k.restore _
    (k.startDue (k.workDue (k.frame _ (k.load _ h)))))))

/-! ## Clearing a path -/

/-- Freeing a path's record changes only the path map, the contexts and the extensions. -/
theorem freePathRecord_eq (id : Nat) (p : Path) (s : State) :
    freePathRecord id p s =
      { s with
        paths := Table.del s.paths id, exts := (freePathRecord id p s).exts,
        stationOcc := p.kind.station.elim s.stationOcc (Table.del s.stationOcc),
        tieOcc := p.kind.tieSlot.elim s.tieOcc (Table.del s.tieOcc),
        ctxs := p.kind.ctx.elim s.ctxs (Table.del s.ctxs) } := by
  unfold freePathRecord
  cases p.kind.station <;> cases p.kind.tieSlot <;> cases p.kind.ctx <;> cases p.kind.ext <;> rfl

/-- The extension of a freed path loses its path in use; every other extension stays. -/
theorem freePathRecord_ext (id : Nat) (p : Path) (s : State) (i : Nat) :
    (freePathRecord id p s).ext i = if p.kind.ext = some i then { s.ext i with path := none } else s.ext i := by
  cases e : p.kind.ext with
  | none =>
    rw [if_neg (by simp)]
    refine State.ext_congr ?_ i
    unfold freePathRecord
    rw [e]
    cases p.kind.station <;> cases p.kind.tieSlot <;> cases p.kind.ctx <;> rfl
  | some x =>
    have h : (freePathRecord id p s).ext i = (setExtPath x none s).ext i := by
      refine State.ext_congr ?_ i
      unfold freePathRecord
      rw [e]
      cases p.kind.station <;> cases p.kind.tieSlot <;> cases p.kind.ctx <;> rfl
    rw [h, setExtPath, State.ext_setExt]
    by_cases q : x = i
    · subst q; simp
    · rw [if_neg q, if_neg (by simpa using q)]

/-- A leg that leaves its bridge changes bridges alone. -/
theorem dropLeg_eq (id b : Nat) (s : State) : (dropLeg id b s).1 = { s with bridges := (dropLeg id b s).1.bridges } := by
  unfold dropLeg
  split
  · split <;> rfl
  · rfl

/-- Raising an event that may be there changes ports alone. -/
theorem raiseIf_eq (e : Option (EventKind × List Link)) (s : State) :
    raiseIf e s =
      { s with portA := (raiseIf e s).portA, portB := (raiseIf e s).portB, portM := (raiseIf e s).portM } := by
  cases e with
  | none => rfl
  | some x => exact raiseOn_eq x.1 x.2 s

/-- All that the clearing of a path can change: the path map, contexts, extensions, bridges and ports. -/
theorem clearPath_eq (id : Nat) (cause : ClearCause) (s : State) :
    clearPath id cause s =
      { s with
        paths := Table.del s.paths id, exts := (clearPath id cause s).exts,
        stationOcc := (clearPath id cause s).stationOcc, tieOcc := (clearPath id cause s).tieOcc,
        ctxs := (clearPath id cause s).ctxs, bridges := (clearPath id cause s).bridges,
        portA := (clearPath id cause s).portA, portB := (clearPath id cause s).portB,
        portM := (clearPath id cause s).portM } := by
  cases f : Table.find s.paths id with
  | none =>
    have d : Table.del s.paths id = s.paths := Table.del_of_find_none f
    simp [clearPath, f, d]
  | some p =>
    simp only [clearPath, f]
    rw [raiseIf_eq, raiseOn_eq]
    cases p.kind.bridge with
    | none => rw [freePathRecord_eq]
    | some b => rw [dropLeg_eq, freePathRecord_eq]

@[simp] theorem clearPath_paths (id : Nat) (cause : ClearCause) (s : State) :
    (clearPath id cause s).paths = Table.del s.paths id := by rw [clearPath_eq]

@[simp] theorem clearPath_pending (id : Nat) (cause : ClearCause) (s : State) :
    (clearPath id cause s).pending = s.pending := by rw [clearPath_eq]
@[simp] theorem clearPath_boot (id : Nat) (cause : ClearCause) (s : State) :
    (clearPath id cause s).boot = s.boot := by rw [clearPath_eq]
@[simp] theorem clearPath_frameCount (id : Nat) (cause : ClearCause) (s : State) :
    (clearPath id cause s).frameCount = s.frameCount := by rw [clearPath_eq]
@[simp] theorem clearPath_buffer (id : Nat) (cause : ClearCause) (s : State) :
    (clearPath id cause s).buffer = s.buffer := by rw [clearPath_eq]
@[simp] theorem clearPath_reading (id : Nat) (cause : ClearCause) (s : State) :
    (clearPath id cause s).reading = s.reading := by rw [clearPath_eq]
@[simp] theorem clearPath_highways (id : Nat) (cause : ClearCause) (s : State) :
    (clearPath id cause s).highways = s.highways := by rw [clearPath_eq]
@[simp] theorem clearPath_drivenStation (id : Nat) (cause : ClearCause) (s : State) :
    (clearPath id cause s).drivenStation = s.drivenStation := by rw [clearPath_eq]
@[simp] theorem clearPath_drivenTie (id : Nat) (cause : ClearCause) (s : State) :
    (clearPath id cause s).drivenTie = s.drivenTie := by rw [clearPath_eq]
@[simp] theorem clearPath_work (id : Nat) (cause : ClearCause) (s : State) :
    (clearPath id cause s).work = s.work := by rw [clearPath_eq]
@[simp] theorem clearPath_extStore (id : Nat) (cause : ClearCause) (s : State) :
    (clearPath id cause s).extStore = s.extStore := by rw [clearPath_eq]
@[simp] theorem clearPath_startRecord (id : Nat) (cause : ClearCause) (s : State) :
    (clearPath id cause s).startRecord = s.startRecord := by rw [clearPath_eq]
@[simp] theorem clearPath_startCount (id : Nat) (cause : ClearCause) (s : State) :
    (clearPath id cause s).startCount = s.startCount := by rw [clearPath_eq]
@[simp] theorem clearPath_engine (id : Nat) (cause : ClearCause) (s : State) :
    (clearPath id cause s).engine = s.engine := by rw [clearPath_eq]
@[simp] theorem clearPath_nonce (id : Nat) (cause : ClearCause) (s : State) :
    (clearPath id cause s).nonce = s.nonce := by rw [clearPath_eq]
@[simp] theorem clearPath_slotMap (id : Nat) (cause : ClearCause) (s : State) :
    (clearPath id cause s).slotMap = s.slotMap := by rw [clearPath_eq]
@[simp] theorem clearPath_failLimit (id : Nat) (cause : ClearCause) (s : State) :
    (clearPath id cause s).failLimit = s.failLimit := by rw [clearPath_eq]
@[simp] theorem clearPath_challengeWindow (id : Nat) (cause : ClearCause) (s : State) :
    (clearPath id cause s).challengeWindow = s.challengeWindow := by rw [clearPath_eq]
@[simp] theorem clearPath_lockoutTime (id : Nat) (cause : ClearCause) (s : State) :
    (clearPath id cause s).lockoutTime = s.lockoutTime := by rw [clearPath_eq]
@[simp] theorem clearPath_huntTime (id : Nat) (cause : ClearCause) (s : State) :
    (clearPath id cause s).huntTime = s.huntTime := by rw [clearPath_eq]
@[simp] theorem clearPath_guardCeiling (id : Nat) (cause : ClearCause) (s : State) :
    (clearPath id cause s).guardCeiling = s.guardCeiling := by rw [clearPath_eq]
@[simp] theorem clearPath_guardStrikes (id : Nat) (cause : ClearCause) (s : State) :
    (clearPath id cause s).guardStrikes = s.guardStrikes := by rw [clearPath_eq]
@[simp] theorem clearPath_survey (id : Nat) (cause : ClearCause) (s : State) :
    (clearPath id cause s).survey = s.survey := by rw [clearPath_eq]
@[simp] theorem clearPath_orphanHold (id : Nat) (cause : ClearCause) (s : State) :
    (clearPath id cause s).orphanHold = s.orphanHold := by rw [clearPath_eq]

/-! ## The station-slot map -/

/-- Unbinding an extension takes its entries from the station-slot map, and no other's. -/
theorem unbind_ne (m : Table Nat) (i n : Nat) : Table.find (unbind i m) n ≠ some i := by
  intro h
  have := Table.mem_of_find h
  simp [unbind] at this

theorem find_unbind {m : Table Nat} {i n j : Nat} (h : Table.find m n = some j) (d : j ≠ i) :
    Table.find (unbind i m) n = some j := by
  unfold unbind
  induction m with
  | nil => simp at h
  | cons x m ih =>
    obtain ⟨k, v⟩ := x
    simp only [Table.find] at h
    split_ifs at h with q
    · cases h; subst q; simp [d, Table.find]
    · by_cases w : v = i
      · rw [List.filter_cons_of_neg (by simp [w])]; exact ih h
      · rw [List.filter_cons_of_pos (by simp [w])]; simp only [Table.find, if_neg q]; exact ih h

end Sys2Proof.Machine
end

