-- ==== Sys2Proof/Laws/Processing.lean ====
section
/-! SUPPORT. The parts of a frame's processing: what each receive direction's work does, what each path and leg drives,
and what none of them touches. -/

namespace Sys2Proof.Machine

/-- The state `v` gives a frame's work the same codes, slips, highways, report time and paths as `u`. -/
structure ReadsSame (u v : State) : Prop where
  buffer : v.buffer = u.buffer
  highways : v.highways = u.highways
  hunt : v.huntTime = u.huntTime
  paths : v.paths = u.paths

theorem ReadsSame.refl (u : State) : ReadsSame u u := ⟨rfl, rfl, rfl, rfl⟩

theorem ReadsSame.trans {u v w : State} (a : ReadsSame u v) (b : ReadsSame v w) : ReadsSame u w :=
  ⟨b.1.trans a.1, b.2.trans a.2, b.3.trans a.3, b.4.trans a.4⟩

theorem ReadsSame.stationCode {u v : State} (a : ReadsSame u v) (n : Nat) : v.stationCode n = u.stationCode n := by
  simp [State.stationCode, a.buffer]

theorem ReadsSame.tieRead {u v : State} (a : ReadsSame u v) (n : Nat) : v.tieRead n = u.tieRead n := by
  simp [State.tieRead, a.buffer]

theorem ReadsSame.tieCode {u v : State} (a : ReadsSame u v) (n : Nat) : v.tieCode n = u.tieCode n := by
  simp [State.tieCode, a.tieRead]

theorem ReadsSame.highway {u v : State} (a : ReadsSame u v) (n : Nat) : v.highway n = u.highway n := by
  simp [State.highway, a.highways]

/-! ## Receive directions -/

/-- Context `c`'s receive work in a frame of `s`. -/
def receiveResult (s : State) (c : Context) : RxResult :=
  rxFrame s.huntTime (!(s.highway (c.tieSlot / 32)).up) c.guardOn (s.tieCode c.tieSlot) (s.tieRead (c.tieSlot / 32)).slip c.rx

theorem ReadsSame.receiveResult {u v : State} (a : ReadsSame u v) (c : Context) :
    Machine.receiveResult v c = Machine.receiveResult u c := by
  simp [Machine.receiveResult, a.hunt, a.highway, a.tieCode, a.tieRead]

/-- One context's receive work: its receive side, the code it delivers, and ports for an alignment. -/
theorem receiveContext_does {i : Nat} {u : State} (heard : Table Code) {c : Context} (h : Table.find u.ctxs i = some c) :
    ReadsSame u (receiveContext i (u, heard)).1
      ∧ (receiveContext i (u, heard)).1.bridges = u.bridges
      ∧ (receiveContext i (u, heard)).1.ctxs = Table.put u.ctxs i { c with rx := (receiveResult u c).rx }
      ∧ (receiveContext i (u, heard)).2 = Table.put heard c.tieSlot ((receiveResult u c).delivered.getD 0) := by
  have e : tieHighway c.tieSlot = c.tieSlot / 32 := rfl
  simp only [receiveContext, h, e]
  cases (rxFrame u.huntTime (!(u.highway (c.tieSlot / 32)).up) c.guardOn (u.tieCode c.tieSlot)
    (u.tieRead (c.tieSlot / 32)).slip c.rx).aligned with
  | none => exact ⟨⟨rfl, rfl, rfl, rfl⟩, rfl, rfl, rfl⟩
  | some x => simp only []; rw [raiseOn_eq]; exact ⟨⟨rfl, rfl, rfl, rfl⟩, rfl, rfl, rfl⟩

/-- All receive work: every context listed once has its receive side moved, and the code of a tie slot is the one that
its only context delivered. -/
theorem receiveContexts_does :
    ∀ (ks : List Nat) (u : State) (heard : Table Code), ks.Nodup → (∀ i ∈ ks, ∃ c, Table.find u.ctxs i = some c) →
      ReadsSame u (receiveContexts ks (u, heard)).1
        ∧ (receiveContexts ks (u, heard)).1.bridges = u.bridges
        ∧ (∀ i, Table.find (receiveContexts ks (u, heard)).1.ctxs i =
          if i ∈ ks then (Table.find u.ctxs i).map (fun c => { c with rx := (receiveResult u c).rx })
          else Table.find u.ctxs i)
        ∧ (∀ n, (∀ j ∈ ks, ∀ d, Table.find u.ctxs j = some d → d.tieSlot ≠ n) →
          Table.find (receiveContexts ks (u, heard)).2 n = Table.find heard n)
        ∧ ∀ i c, i ∈ ks → Table.find u.ctxs i = some c →
          (∀ j ∈ ks, j ≠ i → ∀ d, Table.find u.ctxs j = some d → d.tieSlot ≠ c.tieSlot) →
          Table.find (receiveContexts ks (u, heard)).2 c.tieSlot = some ((receiveResult u c).delivered.getD 0) := by
  intro ks
  induction ks with
  | nil =>
    exact fun u heard _ _ => ⟨.refl _, rfl, fun _ => by simp [receiveContexts], fun _ _ => rfl, fun _ _ h => by simp at h⟩
  | cons i ks ih =>
    intro u heard nd hk
    obtain ⟨c, hc⟩ := hk i (by simp)
    have r := receiveContext_does heard hc
    rcases hx : receiveContext i (u, heard) with ⟨v, hd⟩
    simp only [hx] at r
    obtain ⟨rs, rb, rc, rh⟩ := r
    obtain ⟨ni, nd'⟩ := List.nodup_cons.1 nd
    have other : ∀ j ∈ ks, j ≠ i := by rintro j hj rfl; exact ni hj
    have fo : ∀ j, j ≠ i → Table.find v.ctxs j = Table.find u.ctxs j := fun j hj => by
      rw [rc, Table.find_put_other _ _ (Ne.symm hj)]
    obtain ⟨is, ib, ic, inn, ii⟩ := ih v hd nd' fun j hj => by rw [fo j (other j hj)]; exact hk j (by simp [hj])
    have eq : receiveContexts (i :: ks) (u, heard) = receiveContexts ks (v, hd) := by rw [← hx]; rfl
    rw [eq]
    refine ⟨rs.trans is, ib.trans rb, fun j => ?_, fun n hn => ?_, fun j d hj hd un => ?_⟩
    · rw [ic]
      by_cases e : j = i
      · subst e; simp [ni, rc, hc]
      · simp only [fo j e, List.mem_cons, e, false_or, rs.receiveResult]
    · rw [inn n, rh, Table.find_put_other _ _ (hn i (by simp) c hc)]
      intro j hj d hd
      rw [fo j (other j hj)] at hd
      exact hn j (by simp [hj]) d hd
    · by_cases e : j = i
      · subst e
        rw [hc] at hd; cases hd
        rw [inn, rh, Table.find_put_same]
        intro k hk' d hd
        rw [fo k (other k hk')] at hd
        exact un k (by simp [hk']) (other k hk') d hd
      · rw [ii j d (by simpa [e] using hj) (by rw [fo j e]; exact hd), rs.receiveResult]
        intro k hk' ne d' hd'
        rw [fo k (other k hk')] at hd'
        exact un k (by simp [hk']) ne d' hd'

theorem receiveContexts_eq_foldl (ks : List Nat) (x : State × Table Code) :
    receiveContexts ks x = ks.foldl (fun x i => receiveContext i x) x := by
  induction ks generalizing x with
  | nil => rfl
  | cons i ks ih => exact ih _

/-! ## What is sent -/

/-- Only driven slots and contexts may differ: what a sent code changes. -/
structure SendsOnly (u v : State) : Prop where
  reads : ReadsSame u v
  bridges : v.bridges = u.bridges
  ports : ∀ l, v.port l = u.port l

theorem SendsOnly.refl (u : State) : SendsOnly u u := ⟨.refl u, rfl, fun _ => rfl⟩

theorem SendsOnly.trans {u v w : State} (a : SendsOnly u v) (b : SendsOnly v w) : SendsOnly u w :=
  ⟨a.1.trans b.1, b.2.trans a.2, fun l => (b.3 l).trans (a.3 l)⟩

theorem driveStation_sendsOnly (n : Nat) (c : Code) (u : State) : SendsOnly u (driveStation n c u) :=
  ⟨⟨rfl, rfl, rfl, rfl⟩, rfl, fun l => by cases l <;> rfl⟩

theorem driveTie_sendsOnly (n : Nat) (c : Code) (u : State) : SendsOnly u (driveTie n c u) :=
  ⟨⟨rfl, rfl, rfl, rfl⟩, rfl, fun l => by cases l <;> rfl⟩

theorem transmit_sendsOnly (i n : Nat) (c : Code) (u : State) : SendsOnly u (transmit i n c u) := by
  unfold transmit; split
  · exact ⟨⟨rfl, rfl, rfl, rfl⟩, rfl, fun l => by cases l <;> rfl⟩
  · exact .refl _

theorem sendLeg_sendsOnly (g : Leg) (c : Code) (u : State) : SendsOnly u (sendLeg g c u) := by
  unfold sendLeg; split
  · exact driveStation_sendsOnly _ _ _
  · exact driveTie_sendsOnly _ _ _
  · exact transmit_sendsOnly _ _ _ _

theorem sendLegs_sendsOnly (cs : List Int) (gs : List Leg) : ∀ (k : Nat) (u : State), SendsOnly u (sendLegs cs k gs u) := by
  induction gs with
  | nil => exact fun _ u => .refl u
  | cons g gs ih => exact fun k u => (sendLeg_sendsOnly _ _ _).trans (ih _ _)

theorem tiePathFrame_sendsOnly (heard : Table Code) (id : Nat) (u : State) : SendsOnly u (tiePathFrame heard id u) := by
  unfold tiePathFrame; split
  · split
    · exact (driveTie_sendsOnly _ _ _).trans (driveStation_sendsOnly _ _ _)
    · exact (transmit_sendsOnly _ _ _ _).trans (driveStation_sendsOnly _ _ _)
    · exact .refl _
    · exact .refl _
  · exact .refl _

theorem tiePathFrames_sendsOnly (heard : Table Code) (ks : List Nat) :
    ∀ u : State, SendsOnly u (forEach (tiePathFrame heard) ks u) := by
  induction ks with
  | nil => exact fun u => .refl u
  | cons i ks ih => exact fun u => (tiePathFrame_sendsOnly _ _ _).trans (ih _)

/-! ## What a sent code does not touch -/

theorem transmit_station (i n : Nat) (c : Code) (u : State) : (transmit i n c u).drivenStation = u.drivenStation := by
  unfold transmit; split <;> rfl

theorem transmit_tie_other {n m : Nat} (i : Nat) (c : Code) (u : State) (h : n ≠ m) :
    Table.find (transmit i n c u).drivenTie m = Table.find u.drivenTie m := by
  unfold transmit; split
  · exact Table.find_put_other _ _ h
  · rfl

theorem transmit_ctx_other {i j : Nat} (n : Nat) (c : Code) (u : State) (h : i ≠ j) :
    Table.find (transmit i n c u).ctxs j = Table.find u.ctxs j := by
  unfold transmit; split
  · exact Table.find_put_other _ _ h
  · rfl

theorem sendLeg_station_other {g : Leg} {n : Nat} (c : Code) (u : State) (h : g.slot ≠ .station n) :
    Table.find (sendLeg g c u).drivenStation n = Table.find u.drivenStation n := by
  unfold sendLeg; split
  · rename_i e; exact Table.find_put_other _ _ (by rintro rfl; exact h e)
  · rfl
  · rw [transmit_station]

theorem sendLeg_tie_other {g : Leg} {n : Nat} (c : Code) (u : State) (h : ∀ v, g.slot ≠ .tie n v) :
    Table.find (sendLeg g c u).drivenTie n = Table.find u.drivenTie n := by
  unfold sendLeg; split
  · rfl
  · rename_i e; exact Table.find_put_other _ _ (by rintro rfl; exact h _ e)
  · rename_i e; exact transmit_tie_other _ _ _ (by rintro rfl; exact h _ e)

theorem sendLeg_ctx_other {g : Leg} {i : Nat} (c : Code) (u : State) (h : ∀ m, g.slot ≠ .tie m (.priv i)) :
    Table.find (sendLeg g c u).ctxs i = Table.find u.ctxs i := by
  unfold sendLeg; split
  · rfl
  · rfl
  · rename_i e; exact transmit_ctx_other _ _ _ (by rintro rfl; exact h _ e)

/-- What no single leg changes, all of a bridge's legs leave. -/
theorem sendLegs_keep {α : Type} (F : State → α) {P : Leg → Prop}
    (one : ∀ g c u, P g → F (sendLeg g c u) = F u) (cs : List Int) (gs : List Leg) (h : ∀ g ∈ gs, P g) :
    ∀ (k : Nat) (u : State), F (sendLegs cs k gs u) = F u := by
  induction gs with
  | nil => exact fun _ _ => rfl
  | cons g gs ih =>
    intro k u
    rw [sendLegs, ih (fun x hx => h x (by simp [hx])), one _ _ _ (h g (by simp))]

/-- Legs are sent in their order. -/
theorem sendLegs_append (cs : List Int) (a b : List Leg) :
    ∀ (k : Nat) (u : State), sendLegs cs k (a ++ b) u = sendLegs cs (k + a.length) b (sendLegs cs k a u) := by
  induction a with
  | nil => exact fun _ _ => rfl
  | cons g a ih =>
    intro k u
    rw [List.cons_append, sendLegs, ih, List.length_cons, show k + 1 + a.length = k + (a.length + 1) by omega, sendLegs]

/-! ## Bridges -/

/-- Another bridge's work leaves a bridge as it is. -/
theorem bridgeFrame_other {b k : Nat} (heard : Table Code) (u : State) (h : k ≠ b) :
    Table.find (bridgeFrame heard b u).bridges k = Table.find u.bridges k := by
  unfold bridgeFrame; split
  · rw [(sendLegs_sendsOnly _ _ _ _).bridges]
    exact Table.find_put_other _ _ (Ne.symm h)
  · rfl

theorem bridgeFrame_reads (heard : Table Code) (b : Nat) (u : State) : ReadsSame u (bridgeFrame heard b u) := by
  unfold bridgeFrame; split
  · simp only []
    refine ReadsSame.trans ?_ (sendLegs_sendsOnly _ _ _ _).reads
    exact ⟨rfl, rfl, rfl, rfl⟩
  · exact .refl _

theorem bridgeFrames_other (heard : Table Code) {ks : List Nat} {k : Nat} (h : k ∉ ks) :
    ∀ u : State, Table.find (forEach (bridgeFrame heard) ks u).bridges k = Table.find u.bridges k := by
  induction ks with
  | nil => exact fun _ => rfl
  | cons i ks ih =>
    simp only [List.mem_cons, not_or] at h
    exact fun u => by rw [forEach_cons, ih h.2, bridgeFrame_other _ _ h.1]

theorem forEach_append (f : Nat → State → State) (a b : List Nat) :
    ∀ u : State, forEach f (a ++ b) u = forEach f b (forEach f a u) := by
  induction a with
  | nil => exact fun _ => rfl
  | cons i a ih => exact fun u => by simp only [List.cons_append, forEach_cons, ih]

theorem forEach_eq_foldl (f : Nat → State → State) (l : List Nat) (s : State) :
    forEach f l s = l.foldl (fun u i => f i u) s := by
  induction l generalizing s with
  | nil => rfl
  | cons a l ih => exact ih _

/-- A table in canonical form lists each number once. -/
theorem nodup_keys {α : Type} {t : Table α} (h : Table.sorted t = true) : (Table.keys t).Nodup :=
  (Table.sorted_iff.1 h).imp fun a => by omega

/-- The survey's work on a frame changes the survey alone. -/
theorem surveyCount_eq (heard : Table Code) (u : State) :
    surveyCount heard u = { u with survey := (surveyCount heard u).survey } := by
  unfold surveyCount; split
  · split <;> rfl
  · rfl
  · rfl

end Sys2Proof.Machine
end

