-- ==== Sys2Proof/Laws/References.lean ====
section
/-! SUPPORT. What a reference in a command's operands names, or why it is refused: one lemma for each way each lookup can
go, in the words of the statements; and a refusal as the answer to a taken command. -/

namespace Sys2Proof.Machine

/-- A taken command on a link it is accepted on, whose owner refuses it, is answered with that refusal. -/
theorem refusedWith_of_owner {i : Instr} {s : State} {l : Link} {p : Port} {kind tag : Byte} {ops : List Byte}
    {owner : State → Reply} {why : Result} (h : TakenBy i s l p) (x : exec i s = command i s owner)
    (w : i.wellFormed = true) (e : encodeOperands i = some (l, kind, tag, ops)) (ok : acceptedOn i l = true)
    (o : owner (s.taking l p) = refuse why (s.taking l p)) : RefusedWith i s l p kind tag why := by
  rw [RefusedWith, x, command_taken owner w e h, if_pos ok, o, answerCommand_refuse]

/-! ## Optional operands -/

theorem byte_eq_iff (b : Byte) {k : Nat} (h : k < 256) : b = BitVec.ofNat 8 k ↔ b.toNat = k := by
  constructor
  · rintro rfl; simp [Nat.mod_eq_of_lt h]
  · rintro rfl; simp

/-- An optional operand by its presence byte (R186). -/
theorem optValue_eq {n : Nat} (o : Opt n) :
    optValue o = if o.present.toNat = 0 then some none else if o.present.toNat = 1 then some (some o.value) else none := by
  have e0 : (o.present = 0) = (o.present.toNat = 0) := propext (byte_eq_iff o.present (k := 0) (by omega))
  have e1 : (o.present = 1) = (o.present.toNat = 1) := propext (byte_eq_iff o.present (k := 1) (by omega))
  simp only [optValue, e0, e1]

/-- A presence byte below 2 that is not 0 is 1. -/
theorem present_eq_one {b : Byte} (h : b.toNat < 2) (z : b ≠ 0) : b = 1 :=
  (byte_eq_iff b (k := 1) (by omega)).2 (by
    have := mt (byte_eq_iff b (k := 0) (by omega)).2 z
    omega)

/-! ## Paths -/

theorem namedPath_of_named {r : PathRefOps} {s : State} {id : Nat} {q : Path} (h : PathNamed r s id q) :
    namedPath r s = .ok (id, q) := by
  obtain ⟨rfl, a, b, c⟩ := h
  unfold namedPath optValue
  rcases c with c | ⟨c, d⟩
  · simp [below, Config.paths, a, b, c, stampMatches]
  · simp [below, Config.paths, a, b, c, stampMatches, d]

theorem namedPath_of_unnamed {r : PathRefOps} {s : State} {why : Result} (h : PathUnnamed r s why) :
    namedPath r s = .error why := by
  unfold namedPath
  rw [optValue_eq]
  rcases h with ⟨rfl, h | h⟩ | ⟨rfl, a, b, c⟩
  · simp [below, show ¬r.path.toNat < 384 by omega, Config.paths]
  · simp [show r.stamp.present.toNat ≠ 0 by omega, show r.stamp.present.toNat ≠ 1 by omega]
  · simp only [below, Config.paths, a, if_true]
    cases f : Table.find s.paths r.path.toNat with
    | none => split_ifs <;> simp_all; omega
    | some q =>
      have no : ¬(r.stamp.present = 0 ∨ (r.stamp.present = 1 ∧ r.stamp.value = q.opened)) := fun y => c _ q ⟨rfl, a, f, y⟩
      have one := present_eq_one b fun y => no (.inl y)
      have other : r.stamp.value ≠ q.opened := fun y => no (.inr ⟨one, y⟩)
      simp [f, one, stampMatches, other]

@[simp] theorem pathUnnamed_taking {r : PathRefOps} {s : State} {l : Link} {p : Port} {why : Result} :
    PathUnnamed r (s.taking l p) why ↔ PathUnnamed r (settle s) why := by simp [PathUnnamed, PathNamed]

/-! ## Bridges -/

theorem namedBridge_of_named {r : BridgeRefOps} {s : State} {b : Nat} {x : Bridge} (h : BridgeNamed r s b x) :
    namedBridge r s = .ok (b, x) := by
  obtain ⟨rfl, a, b, c⟩ := h
  unfold namedBridge optValue
  rcases c with c | ⟨c, d⟩
  · simp [below, Config.bridges, a, b, c, stampMatches]
  · simp [below, Config.bridges, a, b, c, stampMatches, d]

theorem namedBridge_of_unnamed {r : BridgeRefOps} {s : State} {why : Result} (h : BridgeUnnamed r s why) :
    namedBridge r s = .error why := by
  unfold namedBridge
  rw [optValue_eq]
  rcases h with ⟨rfl, h | h⟩ | ⟨rfl, a, b, c⟩
  · simp [below, show ¬r.bridge.toNat < 32 by omega, Config.bridges]
  · simp [show r.stamp.present.toNat ≠ 0 by omega, show r.stamp.present.toNat ≠ 1 by omega]
  · simp only [below, Config.bridges, a, if_true]
    cases f : Table.find s.bridges r.bridge.toNat with
    | none => split_ifs <;> simp_all; omega
    | some q =>
      have no : ¬(r.stamp.present = 0 ∨ (r.stamp.present = 1 ∧ r.stamp.value = q.opened)) := fun y => c _ q ⟨rfl, a, f, y⟩
      have one := present_eq_one b fun y => no (.inl y)
      have other : r.stamp.value ≠ q.opened := fun y => no (.inr ⟨one, y⟩)
      simp [f, one, stampMatches, other]

@[simp] theorem bridgeNamed_taking {r : BridgeRefOps} {s : State} {l : Link} {p : Port} {b : Nat} {x : Bridge} :
    BridgeNamed r (s.taking l p) b x ↔ BridgeNamed r (settle s) b x := by simp [BridgeNamed]

@[simp] theorem bridgeUnnamed_taking {r : BridgeRefOps} {s : State} {l : Link} {p : Port} {why : Result} :
    BridgeUnnamed r (s.taking l p) why ↔ BridgeUnnamed r (settle s) why := by simp [BridgeUnnamed]

@[simp] theorem bridgeRefusal_taking {r : BridgeRefOps} {s : State} {l k : Link} {p : Port} {why : Result} :
    BridgeRefusal r k (s.taking l p) why ↔ BridgeRefusal r k (settle s) why := by simp [BridgeRefusal]

/-! ## What a link controls -/

theorem isLink_eq (c : Controller) (l : Link) : c.isLink l = decide (c = .control l) := by
  cases c <;> simp [Controller.isLink]

theorem controlledBridge_of_named {r : BridgeRefOps} {l : Link} {s : State} {b : Nat} {x : Bridge}
    (h : BridgeNamed r s b x) (c : x.controller = .control l) : controlledBridge l r s = .ok (b, x) := by
  simp [controlledBridge, namedBridge_of_named h, isLink_eq, c]

theorem controlledBridge_of_refusal {r : BridgeRefOps} {l : Link} {s : State} {why : Result}
    (h : BridgeRefusal r l s why) : controlledBridge l r s = .error why := by
  rcases h with h | ⟨b, x, h, rfl, c⟩
  · simp [controlledBridge, namedBridge_of_unnamed h]
  · simp [controlledBridge, namedBridge_of_named h, isLink_eq, c]

theorem controlledContext_of_refusal {r : PathRefOps} {l : Link} {s : State} {why : Result}
    (h : ContextRefusal r l s why) : controlledContext l r s = .error why := by
  rcases h with h | ⟨b, x, h, ⟨rfl, c⟩ | ⟨rfl, c, d⟩⟩
  · simp [controlledContext, namedPath_of_unnamed h]
  · simp [controlledContext, namedPath_of_named h, isLink_eq, c]
  · simp [controlledContext, namedPath_of_named h, isLink_eq, c, d]

@[simp] theorem contextRefusal_taking {r : PathRefOps} {s : State} {l k : Link} {p : Port} {why : Result} :
    ContextRefusal r k (s.taking l p) why ↔ ContextRefusal r k (settle s) why := by
  simp [ContextRefusal, PathNamed]

/-! ## Legs (R135) -/

theorem controlledLeg_out_of_range {r : BridgeRefOps} {l : Link} {s : State} {path : Word16} (h : 384 ≤ path.toNat) :
    controlledLeg l r path s = .error .badOperand := by
  simp [controlledLeg, below, Config.paths, show ¬path.toNat < 384 by omega]

theorem controlledLeg_of_refusal {r : BridgeRefOps} {l : Link} {s : State} {path : Word16} {why : Result}
    (h : path.toNat < 384) (b : BridgeRefusal r l s why) : controlledLeg l r path s = .error why := by
  simp [controlledLeg, below, Config.paths, h, controlledBridge_of_refusal b]

theorem controlledLeg_of_absent {r : BridgeRefOps} {l : Link} {s : State} {b : Nat} {x : Bridge} {path : Word16}
    (h : path.toNat < 384) (n : BridgeNamed r s b x) (c : x.controller = .control l)
    (a : ∀ g ∈ x.legs, g.path ≠ path.toNat) : controlledLeg l r path s = .error .noPath := by
  have : x.legs.find? (fun g => decide (g.path = path.toNat)) = none := by simpa [List.find?_eq_none] using a
  simp only [controlledLeg, below, Config.paths, h, if_true, controlledBridge_of_named n c, this]

end Sys2Proof.Machine
end

