-- ==== Sys2Proof/Laws/Survey.lean ====
section
/-! SUPPORT. The level survey: what a frame's processing leaves of it until the survey's own work, and when the settings
of SET_SURVEY are not read. -/

namespace Sys2Proof.Machine

/-! ## A frame's processing before the survey's work -/

/-- The survey and the frame's marks stand as they were. -/
def SurveySame (u v : State) : Prop := v.survey = u.survey ∧ v.work = u.work

theorem SurveySame.refl (u : State) : SurveySame u u := ⟨rfl, rfl⟩

theorem SurveySame.trans {u v w : State} (a : SurveySame u v) (b : SurveySame v w) : SurveySame u w :=
  ⟨b.1.trans a.1, b.2.trans a.2⟩

theorem forEach_surveySame {f : Nat → State → State} (h : ∀ i u, SurveySame u (f i u)) :
    ∀ (ks : List Nat) (u : State), SurveySame u (forEach f ks u)
  | [], u => .refl u
  | i :: ks, u => (h i u).trans (forEach_surveySame h ks (f i u))

theorem raiseOn_surveySame (k : EventKind) (ls : List Link) (u : State) : SurveySame u (raiseOn k ls u) := by
  rw [raiseOn_eq]; exact ⟨rfl, rfl⟩

theorem receiveContext_surveySame (i : Nat) (x : State × Table Code) : SurveySame x.1 (receiveContext i x).1 := by
  unfold receiveContext; simp only []; split
  · split
    · exact raiseOn_surveySame _ _ _
    · exact .refl _
  · exact .refl _

theorem receiveContexts_surveySame :
    ∀ (ks : List Nat) (x : State × Table Code), SurveySame x.1 (receiveContexts ks x).1
  | [], x => .refl x.1
  | i :: ks, x => (receiveContext_surveySame i x).trans (receiveContexts_surveySame ks (receiveContext i x))

theorem transmit_surveySame (i n : Nat) (c : Code) (u : State) : SurveySame u (transmit i n c u) := by
  unfold transmit; split <;> exact ⟨rfl, rfl⟩

theorem sendLeg_surveySame (g : Leg) (c : Code) (u : State) : SurveySame u (sendLeg g c u) := by
  unfold sendLeg; split
  · exact ⟨rfl, rfl⟩
  · exact ⟨rfl, rfl⟩
  · exact transmit_surveySame _ _ _ _

theorem sendLegs_surveySame (cs : List Int) :
    ∀ (gs : List Leg) (k : Nat) (u : State), SurveySame u (sendLegs cs k gs u)
  | [], _, u => .refl u
  | g :: gs, k, u => (sendLeg_surveySame g _ u).trans (sendLegs_surveySame cs gs (k + 1) _)

theorem tiePathFrame_surveySame (heard : Table Code) (id : Nat) (u : State) : SurveySame u (tiePathFrame heard id u) := by
  unfold tiePathFrame; split
  · split
    · exact ⟨rfl, rfl⟩
    · exact transmit_surveySame _ _ _ _
    · exact .refl _
    · exact .refl _
  · exact .refl _

theorem bridgeFrame_surveySame (heard : Table Code) (b : Nat) (u : State) : SurveySame u (bridgeFrame heard b u) := by
  unfold bridgeFrame; split
  · exact sendLegs_surveySame _ _ _ _
  · exact .refl _

/-- The survey's work sees a state by its survey and its frame buffer alone (R150, R151). -/
theorem surveyCount_congr {u v : State} (r : ReadsSame u v) (w : v.survey = u.survey) (heard : Table Code) :
    (surveyCount heard v).survey = (surveyCount heard u).survey := by
  have q : ∀ e, surveyCode v heard e = surveyCode u heard e := fun e => by
    simp [surveyCode, r.tieCode, r.stationCode]
  unfold surveyCount
  rw [w]
  split
  · split <;> simp [w, q]
  · exact w
  · exact w

/-- A frame's processing leaves it marked as begun or not as it was. -/
theorem processFrame_held (s : State) : (processFrame s).work.held = s.work.held := by
  unfold processFrame
  simp only []
  generalize hx : receiveContexts (Table.keys s.ctxs) ({ s with drivenStation := [], drivenTie := [] }, []) = x
  have r : SurveySame s x.1 := by
    have := receiveContexts_surveySame (Table.keys s.ctxs) ({ s with drivenStation := [], drivenTie := [] }, [])
    rw [hx] at this
    exact this
  have w := ((r.trans (forEach_surveySame (tiePathFrame_surveySame x.2) (Table.keys x.1.paths) _)).trans
    (forEach_surveySame (bridgeFrame_surveySame x.2)
      (Table.keys (forEach (tiePathFrame x.2) (Table.keys x.1.paths) x.1).bridges) _)).2
  have h := congrArg FrameWork.held w
  split
  · exact h
  · rw [surveyCount_eq]; exact h

/-- Once a frame's processing has begun it does not begin again. -/
theorem beginWork_held (s : State) : (beginWork s).work.held = false := by
  unfold beginWork; split
  · exact processFrame_held _
  · rename_i h; simpa using h

/-! ## Settings that are not read (R148) -/

/-- An entry out of range in its kind, its number or its point. -/
theorem readEntry_eq_none {x : SurveyEntryOps}
    (h : 2 ≤ x.kind.toNat ∨ (x.kind = 0 ∧ 512 ≤ x.number.toNat) ∨ (x.kind = 1 ∧ 256 ≤ x.number.toNat)
      ∨ 2 ≤ x.point.toNat) : readEntry x = none := by
  unfold readEntry
  cases point : yesNo x.point with
  | none => rfl
  | some b =>
    simp only [Option.bind_eq_bind, Option.bind_some]
    rcases h with h | ⟨k, h⟩ | ⟨k, h⟩ | h
    · rw [if_neg (by intro z; rw [z] at h; simp at h), if_neg (by intro z; rw [z] at h; simp at h)]
    · simp [k, below, Config.stationSlots, show ¬x.number.toNat < 512 by omega]
    · simp [k, below, Config.tieSlots, show ¬x.number.toNat < 256 by omega]
    · unfold yesNo at point
      rw [if_neg (by intro z; rw [z] at h; simp at h), if_neg (by intro z; rw [z] at h; simp at h)] at point
      cases point

theorem readEntries_cons_some {x : SurveyEntryOps} {xs : List SurveyEntryOps} {es : List SurveyEntry}
    (h : readEntries (x :: xs) = some es) :
    ∃ e rest, readEntry x = some e ∧ readEntries xs = some rest ∧ es = e :: rest := by
  unfold readEntries at h
  cases a : readEntry x with
  | none => rw [a] at h; cases h
  | some e =>
    cases b : readEntries xs with
    | none => rw [a, b] at h; cases h
    | some rest => rw [a, b] at h; cases h; exact ⟨e, rest, rfl, rfl, rfl⟩

/-- Every entry of a list that is read is read. -/
theorem readEntry_of_mem {xs : List SurveyEntryOps} :
    ∀ {es : List SurveyEntry}, readEntries xs = some es → ∀ x ∈ xs, ∃ e ∈ es, readEntry x = some e := by
  induction xs with
  | nil => intro es _ x hx; simp at hx
  | cons y ys ih =>
    intro es h x hx
    obtain ⟨e, rest, a, b, rfl⟩ := readEntries_cons_some h
    rcases List.mem_cons.1 hx with rfl | hx
    · exact ⟨e, by simp, a⟩
    · obtain ⟨f, hf, g⟩ := ih b x hx
      exact ⟨f, by simp [hf], g⟩

/-- Entries that are alike are read as entries that are alike. -/
theorem hasDuplicate_of_readEntries {xs : List SurveyEntryOps} :
    ∀ {es : List SurveyEntry}, readEntries xs = some es → ¬xs.Nodup → hasDuplicate es = true := by
  induction xs with
  | nil => exact fun _ n => absurd List.nodup_nil n
  | cons y ys ih =>
    intro es h n
    obtain ⟨e, rest, a, b, rfl⟩ := readEntries_cons_some h
    simp only [hasDuplicate, Bool.or_eq_true]
    by_cases m : y ∈ ys
    · obtain ⟨f, hf, g⟩ := readEntry_of_mem b y m
      rw [a] at g; cases g
      exact .inl (List.any_eq_true.2 ⟨e, hf, by simp⟩)
    · exact .inr (ih b fun nd => n (List.nodup_cons.2 ⟨m, nd⟩))

/-- A trigger kind outside its table, or a context index or direction out of range where the trigger has one. -/
theorem readTrigger_eq_none {k c d : Byte}
    (h : 3 ≤ k.toNat ∨ ((k = 1 ∨ k = 2) ∧ 192 ≤ c.toNat) ∨ (k = 1 ∧ 2 ≤ d.toNat)) : readTrigger k c d = none := by
  unfold readTrigger
  rcases h with h | ⟨rfl | rfl, h⟩ | ⟨rfl, h⟩
  · rw [if_neg (by intro z; rw [z] at h; simp at h), if_neg (by intro z; rw [z] at h; simp at h),
      if_neg (by intro z; rw [z] at h; simp at h)]
  · simp [below, Config.contexts, show ¬c.toNat < 192 by omega]
  · simp [below, Config.contexts, show ¬c.toNat < 192 by omega]
  · have : yesNo d = none := by
      unfold yesNo
      rw [if_neg (by intro z; rw [z] at h; simp at h), if_neg (by intro z; rw [z] at h; simp at h)]
    simp [this]

theorem readReport_eq_none {k : Byte} (h : 3 ≤ k.toNat) : readReport k = none := by
  unfold readReport
  rw [if_neg (by intro z; rw [z] at h; simp at h), if_neg (by intro z; rw [z] at h; simp at h),
    if_neg (by intro z; rw [z] at h; simp at h)]

end Sys2Proof.Machine
end

