-- ==== Sys2Proof/Tests/Slice0.lean ====
section
/-! SUPPORT. Tests: the well-formedness smoke, command frames written out from 12.1 and 12.2, the manual's worked
examples, one or two small tests of each step, and for each claim with hypotheses a state and operands that meet them.
Every expected value is the manual's or worked by hand from it. -/

namespace Sys2Proof.Tests

open Sys2Proof Sys2Proof.Machine

set_option Elab.async false

/-! ## Well-formedness: an ill-formed term for each check -/

theorem test_wf_frame_slot_refused : Instr.wellFormed (.frameStart ⟨[(512, 1)], true, false⟩) = false := by decide
theorem test_wf_frame_order_refused :
    Instr.wellFormed (.frameStart ⟨[(3, 1), (3, 2)], true, false⟩) = false := by decide
theorem test_wf_frame_accepted : Instr.wellFormed (.frameStart ⟨[(3, 1), (511, 2)], true, false⟩) = true := by decide
theorem test_wf_context_refused :
    [Instr.preambleEnd 192, .keyDueWarning 192 .tx, .rollover 192 .rx, .huntReport 192, .guardWindowEnd 192].map
      Instr.wellFormed = [false, false, false, false, false] := by decide
theorem test_wf_bridge_refused :
    [Instr.bridgeWindowBoundary 32, .orphanDeadline (.bridge 32)].map Instr.wellFormed = [false, false] := by decide
theorem test_wf_extension_refused :
    [Instr.challengeExpiry 2048, .lockoutExpiry 2048].map Instr.wellFormed = [false, false] := by decide
theorem test_wf_path_refused : Instr.wellFormed (.orphanDeadline (.path 384)) = false := by decide
theorem test_wf_highway_refused :
    [Instr.tieFrameArrival 8 [], .highwayLostSilent 8, .highwayRestore 8].map Instr.wellFormed
      = [false, false, false] := by decide
theorem test_wf_empty_frame_refused :
    [Instr.commandFrameReceived .a [], .badFrameCommand .a []].map Instr.wellFormed = [false, false] := by decide
theorem test_wf_load_count_refused : Instr.wellFormed (.loadExtensions .m 1 ⟨2, []⟩) = false := by decide
theorem test_wf_load_length_refused :
    Instr.wellFormed (.loadExtensions .m 1 ⟨22, List.replicate 22 ⟨0, 0, 0, 0, 0, 0⟩⟩) = false := by decide
theorem test_wf_survey_count_refused :
    Instr.wellFormed (.setSurvey .m 1 ⟨1, [], 0, 0, 0, 0, 64, 0, 3952, 2⟩) = false := by decide
theorem test_wf_survey_length_refused :
    Instr.wellFormed (.setSurvey .m 1 ⟨61, List.replicate 61 ⟨0, 0, 0⟩, 0, 0, 0, 0, 64, 0, 3952, 2⟩) = false := by decide

/-! ## Command frames, written out from 12.1 and 12.2 -/

theorem test_frame_read_part : decodeCommand .b [1, 200, 0] = some (.readPart .b 200) := by decide
theorem test_frame_set_orphan_hold : decodeCommand .m [35, 7, 2, 0, 30] = some (.setOrphanHold .m 7 30) := by decide
theorem test_frame_answer :
    decodeCommand .a [10, 1, 6, 0, 7, 206, 31, 103, 37] = some (.answer .a 1 ⟨7, 3458164517⟩) := by decide
theorem test_frame_set_extension :
    decodeCommand .m [4, 9, 12, 7, 255, 0, 1, 2, 3, 3, 232, 1, 1, 1, 255]
      = some (.setExtension .m 9 ⟨2047, 66051, 1000, 1, 1, 511⟩) := by decide
theorem test_frame_clear_path :
    decodeCommand .a [15, 2, 7, 0, 4, 1, 0, 0, 234, 96] = some (.clearPath .a 2 ⟨4, ⟨1, 60000⟩⟩) := by decide
theorem test_frame_open_tie :
    decodeCommand .b [14, 5, 24, 0, 42, 71, 1, 11, 235, 194, 0, 3, 232, 8, 240, 209, 128, 3, 232, 0, 120, 0, 120, 0, 150,
      0, 150] = some (.openTie .b 5 ⟨42, 71, 1, ⟨200000000, 1000, 150000000, 1000⟩, ⟨120, 120, 150, 150⟩⟩) := by decide
theorem test_frame_set_survey :
    decodeCommand .m [30, 1, 24, 3, 0, 0, 40, 0, 1, 0, 100, 0, 1, 0, 100, 1, 0, 1, 3, 1, 0, 50, 4, 176, 0, 100, 1]
      = some (.setSurvey .m 1 ⟨3, [⟨0, 40, 0⟩, ⟨1, 100, 0⟩, ⟨1, 100, 1⟩], 0, 1, 3, 1, 50, 1200, 100, 1⟩) := by decide
theorem test_frame_set_leg :
    decodeCommand .a [26, 3, 10, 2, 0, 0, 0, 0, 0, 0, 12, 8, 1] = some (.setLeg .a 3 ⟨⟨2, ⟨0, 0⟩⟩, 12, 8, 1⟩) := by decide
theorem test_frame_length_refused : decodeCommand .a [15, 2, 6, 0, 4, 1, 0, 0, 234] = none := by decide
theorem test_frame_kind_refused : decodeCommand .a [36, 2, 0] = none := by decide
theorem test_frame_short_refused : badFrame [1, 200] = true := by decide
theorem test_frame_count_out_of_range_passes : badFrame [6, 1, 1, 0] = false := by decide

/-! ## Arithmetic: the worked examples of 1.7, 2.1, 2.2, 2.4, 2.5 and 8.10 -/

theorem test_sample_codes :
    [152, 3500, -848, 17, -1, 4652, -6000, 0].map encodeSample = [53, 123, 219, 16, 129, 127, 255, 0] := by decide
theorem test_sample_values : [53, 123, 219, 16, 129, 127, 255, 128].map decodeSample
    = [152, 3440, -848, 16, -1, 3952, -3952, 0] := by decide
theorem test_keystream :
    [1, 2, 3, 4].map (keySteps 1000 200000000) = [3462410705, 522066070, 1731000799, 625367676] := by decide
theorem test_scramble : (scramble 53 206, scramble 219 31, scramble 123 103, scramble 0 37) = (3, 250, 226, 37) := by
  decide
theorem test_descramble : (descramble 3 206, descramble 3 31) = (53, 228) := by decide
theorem test_expected_response : expectedResponse 150000000 1000 50000000 = 3458164517 := by decide
theorem test_nonces : (nonceSeed 1, nonceStep 65538, nonceStep 1489825241, nonceStep 1929051868)
    = (65538, 1489825241, 1929051868, 2256997883) := by decide
theorem test_mixing : [0, 1, 2].map (legOutput [152, -1008, 4200]) = [121, 127, 219] := by decide
theorem test_truncation :
    contribution { path := 0, slot := .station 0, gain := 5, mode := .talk, staged := none, sum := 0 } (-120)
      = -37 := by decide

/-! ## Small states -/

/-- A link that is UP with nothing waiting. -/
def up : Port := { Port.reset with state := .up }

/-- The part with its start-up load ended, all links UP and nothing else. -/
def bare : State :=
  { State.reset with boot := .ended, nonce := some 50000000, frameCount := 20000, portA := up, portB := up, portM := up }

/-- A stored record bound to a slot; its secret is that of 2.4. -/
def rec (slot : Nat) (access : TieAccess := .any) : Stored :=
  { seed := 150000000, step := 1000, access := access, conference := true, slot := slot }

/-- An extension in a state. -/
def ext (slot : Nat) (st : Standing) (access : TieAccess := .any) : Ext :=
  { Ext.vacant with stored := some (rec slot access), standing := st }

/-- A direction at index `f` of epoch `n`, under the key half of 2.1; an epoch of 1 s. -/
def dirAt (f n : Nat) : DirState :=
  { seed := 200000000, step := 1000, gen := keySteps 1000 200000000 f, f := f, epoch := n, length := 8000, lead := 0,
    staged := none, owed := 0, warnDue := false }

/-- A RUNNING receive direction. -/
def rxAt (f : Nat) : RxState :=
  { phase := .running, dir := dirAt f 1, last := 53, guardSum := 0, guardCount := 0, strikes := 0 }

/-- A hunting receive direction. -/
def rxHunt (h : Hunt) : RxState :=
  { phase := .hunt h, dir := dirAt 0 0, last := 0, guardSum := 0, guardCount := 0, strikes := 0 }

/-- Context 0 of path 0 on tie slot 71: RUNNING both ways. -/
def ctx0 : Context :=
  { path := 0, tieSlot := 71, tx := { phase := .running, dir := dirAt 2 1 }, rx := rxAt 2, ceiling := 600,
    strikesLimit := 3, guardOn := true, flags := Attention.clear }

/-- Context 1 of leg path 3 on tie slot 100: preamble sent, hunting. -/
def ctx1 : Context :=
  { path := 3, tieSlot := 100, tx := { phase := .preamble 24, dir := dirAt 0 0 }, rx := rxHunt Hunt.start,
    ceiling := 600, strikesLimit := 3, guardOn := true, flags := Attention.clear }

/-- A leg in TALK mode. -/
def leg (path : Nat) (slot : LegSlot) (gain sum : Nat) : Leg :=
  { path := path, slot := slot, gain := gain, mode := .talk, staged := none, sum := sum }

/-- Bridge 0: the legs of 8.10, with the sums of its first window. -/
def bridge0 : Bridge :=
  { controller := .control .a, opened := 100, threshold := 200, staged := none, windowCount := 0, talker := none,
    legs := [leg 2 (.station 6) 16 9728, leg 1 (.tie 75 .clear) 16 64512, leg 3 (.tie 100 (.priv 1)) 24 98000] }

/-- A bridge orphaned by link B. -/
def bridge1 : Bridge :=
  { controller := .orphan .b 20001, opened := 100, threshold := 200, staged := none, windowCount := 0, talker := none,
    legs := [] }

/-- The path records of `demo`. -/
def path0 : Path := { kind := .tie 4 4 71 (.priv 0), controller := .control .a, opened := 100 }
def path1 : Path := { kind := .bridgeTie 75 .clear 0, controller := .control .a, opened := 100 }
def path2 : Path := { kind := .bridgeStation 6 6 0, controller := .control .a, opened := 100 }
def path3 : Path := { kind := .bridgeTie 100 (.priv 1) 0, controller := .control .a, opened := 100 }
def path4 : Path := { kind := .tie 10 10 40 .clear, controller := .orphan .b 20001, opened := 100 }

/-- A part at work: extensions in every state, a private call, a bridge of three legs, orphans of link B. -/
def demo : State :=
  { bare with
    exts :=
      [(1, ext 1 .idle), (2, ext 2 (.admitted 10 .a)), (3, { ext 3 (.locked 5) with failures := 3 }),
        (4, { ext 4 (.admitted 10 .a) with path := some 0 }),
        (5, { ext 5 .idle with challenge := some ⟨50000000, .b, 20001⟩ }),
        (6, { ext 6 (.admitted 10 .a) with path := some 2 }), (7, ext 7 (.admitted 10 .a) .privateOnly),
        (8, ext 8 (.admitted 10 .a) .none), (9, { ext 9 .idle with programming := true }),
        (10, { ext 10 (.admitted 10 .b) with path := some 4 })]
    slotMap := (List.range 10).map fun k => (k + 1, k + 1)
    paths := [(0, path0), (1, path1), (2, path2), (3, path3), (4, path4)]
    stationOcc := [(4, 0), (6, 2), (10, 4)]
    tieOcc := [(40, 4), (71, 0), (75, 1), (100, 3)]
    ctxs := [(0, ctx0), (1, ctx1)]
    bridges := [(0, bridge0), (1, bridge1)] }

/-- The state a step answers. -/
def after (o : Host.Outcome State Fault Refusal) : State :=
  match o with
  | .next t => t
  | .fault _ => State.reset
  | .refused _ => State.reset

/-- The result and body that link `l` is answered with. -/
def answered (l : Link) (o : Host.Outcome State Fault Refusal) : Option (Result × List Byte) :=
  ((after o).port l).response.map fun r => (r.result, r.body)

/-- Whether link `l` takes the command now. -/
def taken (i : Instr) (s : State) (l : Link) : Bool :=
  match encodeCommand i with
  | some (k, f) => decide (k = l) && (((settle s).port l).take f).isSome
  | none => false

theorem takenBy_of_taken {i : Instr} {s : State} {l : Link} (h : taken i s l = true) : ∃ p, TakenBy i s l p := by
  unfold taken at h
  unfold TakenBy
  cases e : encodeCommand i with
  | none => rw [e] at h; cases h
  | some x =>
    rw [e] at h
    simp only [Bool.and_eq_true, decide_eq_true_eq, Option.isSome_iff_exists] at h
    exact ⟨h.2.choose, h.1, h.2.choose_spec⟩

theorem test_demo_is_quiet : settle demo = demo := by decide +kernel

/-! ## One step each -/

theorem test_power_on_reset_keeps_the_store :
    (after (exec .powerOnReset { demo with extStore := [(7, rec 40)], startRecord := some 5 })).extStore = [(7, rec 40)] := by
  decide +kernel

/-- A slot that a lower index has taken makes the record as if absent (R33). -/
theorem test_start_up_load_slot_taken :
    let t := after (exec .startUpLoad { State.reset with extStore := [(1, rec 5), (2, rec 5), (3, rec 6)] })
    (t.ext 1).standing = .idle ∧ (t.ext 2).standing = .vacant ∧ t.slotMap = [(5, 1), (6, 3)] ∧ t.startCount = 1 := by
  decide +kernel

/-- The first start count seeds the nonce with 65538 (2.5). -/
theorem test_start_count_program_done :
    (after (exec .startCountProgramDone
      { State.reset with boot := .loading, engine := some ⟨.startCount 1, 0⟩ })).nonce = some 65538 := by decide +kernel

theorem test_frame_start_counts_and_steps :
    let t := after (exec (.frameStart ⟨[(4, 53)], true, false⟩) { bare with nonce := some 65538 })
    t.frameCount = 20001 ∧ t.nonce = some 1489825241 ∧ Table.code t.reading.station 4 = 53 := by decide +kernel

/-- A code read in one frame is driven in the frame after the next read ends (R3, R4): the path's slots exchange. -/
theorem test_frame_drives_a_clear_path :
    (after (exec (.frameStart ⟨[], true, false⟩)
      { demo with reading := { demo.reading with station := [(10, 53)] } })).drivenTie.find 40 = some 53 := by
  decide +kernel

theorem test_preamble_end :
    let s := { demo with ctxs := [(1, { ctx1 with tx := { phase := .preamble 24, dir := { dirAt 0 0 with owed := 1 } } })] }
    (Table.find (after (exec (.preambleEnd 1) s)).ctxs 1).map (fun c => (c.tx.phase, c.tx.dir.gen))
      = some (.running, 3462410705) := by decide +kernel

theorem test_key_due_warning_is_raised :
    let s := { demo with ctxs := [(0, { ctx0 with tx := { phase := .running, dir := { dirAt 2 1 with warnDue := true } } })] }
    (after (exec (.keyDueWarning 0 .tx) s)).portA.events.length = 1 := by decide +kernel

theorem test_rollover_takes_the_staged_half :
    let d := { dirAt 2 1 with f := 8000, owed := 1, staged := some ⟨5, 7, some 16000, none⟩ }
    let s := { demo with ctxs := [(0, { ctx0 with tx := { phase := .running, dir := d } })] }
    (Table.find (after (exec (.rollover 0 .tx) s)).ctxs 0).map
        (fun c => (c.tx.dir.seed, c.tx.dir.length, c.tx.dir.f, c.tx.dir.epoch)) = some (5, 16000, 1, 2) := by
  decide +kernel

theorem test_hunt_report_flags :
    let s := { demo with ctxs := [(1, { ctx1 with rx := rxHunt { Hunt.start with reportDue := true } })] }
    (Table.find (after (exec (.huntReport 1) s)).ctxs 1).map (fun c => c.flags.huntTimeout) = some true := by
  decide +kernel

/-- A mean of 938 is above the default ceiling of 600 and adds a strike (7.5). -/
theorem test_guard_window_strikes :
    let s := { demo with ctxs := [(0, { ctx0 with rx := { rxAt 2 with guardSum := 60032, guardCount := 64 } })] }
    (Table.find (after (exec (.guardWindowEnd 0) s)).ctxs 0).map (fun c => (c.rx.strikes, c.rx.guardCount))
      = some (1, 0) := by decide +kernel

/-- Boundary 1 of 8.10: path 12 there, path 3 here, talks with a mean of 1531. -/
theorem test_window_boundary_of_the_manual :
    let t := after (exec (.bridgeWindowBoundary 0) { demo with bridges := [(0, { bridge0 with windowCount := 64 })] })
    (Table.find t.bridges 0).map (fun b => b.talker) = some (some 3)
      ∧ t.portA.events = [{ kind := .talker 0 (some (3, 1531)) none false, stamp := 20000 }] := by decide +kernel

/-- A survey of one slot in its last frame, as in 9.7. -/
def surveying (sum peak : Nat) : State :=
  { bare with
    survey :=
      { entries := [⟨.tie 100, false⟩], repeating := false, trigger := .immediate, window := 32, low := 100, high := 1200,
        report := .outside, state := .measuring 1 sum peak 32, results := [] } }

theorem test_survey_entry_completes :
    let t := after (exec .surveyEntryComplete (surveying 40000 3952))
    Table.find t.survey.results 1 = some { mean := 1250, peak := 3952, at_ := 20000, outside := true }
      ∧ t.survey.state = .stopped ∧ t.portM.events.length = 1 := by decide +kernel

theorem test_challenge_expires :
    let s := { demo with exts := [(5, { ext 5 .idle with challenge := some ⟨50000000, .b, 20000⟩ })] }
    let e := (after (exec (.challengeExpiry 5) s)).ext 5
    (e.failures, e.expired, e.challenge) = (1, true, none) := by decide +kernel

theorem test_lockout_expires :
    ((after (exec (.lockoutExpiry 3) { demo with exts := [(3, { ext 3 (.locked 0) with failures := 3 })] })).ext 3).standing
      = .idle := by decide +kernel

theorem test_orphan_deadline_clears :
    Table.find (after (exec (.orphanDeadline (.path 4)) { demo with frameCount := 20001 })).paths 4 = none := by
  decide +kernel

/-- Link M's command in progress, of the present session. -/
def busy (job : Job) (remaining : Nat) : State :=
  { bare with engine := some ⟨job, remaining⟩, portM := { up with inProgress := some ⟨4, 9, false⟩ } }

theorem test_program_completes :
    let t := after (exec .programComplete (busy (.program 101 (rec 6)) 0))
    (t.ext 101).standing = .idle ∧ t.slotMap = [(6, 101)] ∧ t.portA.changes = [101]
      ∧ t.portM.response = some ⟨4, 9, .ok, []⟩ := by decide +kernel

/-- A program whose completion is due: the reset interrupts it, unless the completion's own row stands before the reset
(log entry 21). -/
theorem test_power_on_reset_before_completion :
    (let s := busy (.program 101 (rec 6)) 0
     (after (exec .powerOnReset s)).extStore = []
      ∧ (after (exec .powerOnReset (after (exec .programComplete s)))).extStore = [(101, rec 6)]) := by decide +kernel

theorem test_erase_completes :
    let s := { busy (.erase 1) 0 with exts := [(1, ext 1 .idle)], slotMap := [(1, 1)] }
    let t := after (exec .eraseComplete s)
    (t.ext 1).standing = .vacant ∧ t.slotMap = [] := by decide +kernel

/-- The bulk load of 3.5 at the start of frame 5032: entry 3 finds slot 5 taken, two entries left. -/
theorem test_load_ends_partial :
    let entries : List StoredOps :=
      [⟨100, 0, 0, 1, 1, 5⟩, ⟨101, 0, 0, 2, 0, 6⟩, ⟨102, 0, 0, 1, 1, 5⟩, ⟨103, 0, 0, 0, 0, 7⟩]
    let s := { busy (.load entries 1 101 (rec 6 .privateOnly)) 0 with slotMap := [(5, 100)], exts := [(100, ext 5 .idle)] }
    (after (exec .loadEntryComplete s)).portM.response = some ⟨4, 9, .partial_, [2, 16]⟩ := by decide +kernel

/-- A tie frame of 32 equal codes. -/
def tie (c : Code) : List Code := List.replicate 32 c

/-- T3 of 1.6 as frame 104 arrives on 102 and 103. -/
theorem test_arrival_deletes :
    let x : Highway := { Highway.reset with store := [tie 102, tie 103] }
    let t := after (exec (.tieFrameArrival 3 (tie 104)) (bare.setHighway 3 x))
    (t.highway 3).store = [tie 103, tie 104] ∧ (t.highway 3).deleted = true := by decide +kernel

theorem test_highway_lost_silent :
    ((after (exec (.highwayLostSilent 2) (bare.setHighway 2 { Highway.reset with store := [], emptyRun := 4 }))).highway 2).up
      = false := by decide +kernel

theorem test_highway_restores :
    ((after (exec (.highwayRestore 2)
      (bare.setHighway 2 { Highway.reset with up := false, store := [tie 9], restoreRun := 8 }))).highway 2).up = true := by
  decide +kernel

theorem test_align_run_is_held :
    (after (exec (.alignReceived .a) { bare with portA := { Port.reset with alignRun := 62 } })).portA.alignRun = 63 := by
  decide +kernel

theorem test_link_aligning :
    (after (exec (.linkAligning .a) { bare with portA := { Port.reset with alignRun := 64 } })).portA.state = .aligning := by
  decide +kernel

theorem test_start_opens_a_session :
    let t := after (exec (.startReceived .a) { bare with portA := { Port.reset with state := .aligning } })
    t.portA.state = .up ∧ t.portB.events = [⟨.linkChange .a none, 20000⟩] := by decide +kernel

theorem test_other_symbol_breaks_alignment :
    (after (exec (.otherSymbolReceived .a .idle) { bare with portA := { Port.reset with state := .aligning } })).portA.state
      = .down := by decide +kernel

theorem test_link_down_orphans :
    (Table.find (after (exec (.linkDown .a) { demo with portA := { up with invalidRun := 16 } })).paths 0).map
      (fun p => p.controller) = some (.orphan .a 260000) := by decide +kernel

theorem test_hold_symbols :
    (after (exec (.holdOnReceived .a) bare)).portA.partnerHold = true
      ∧ (after (exec (.holdOffReceived .a) { bare with portA := { up with partnerHold := true } })).portA.partnerHold
        = false := by decide +kernel

theorem test_command_frame_overrun :
    (after (exec (.commandFrameReceived .a [1, 77, 0])
      { bare with portA := { up with queue := List.replicate 16 [1, 1, 0] } })).portA.overrun = [77] := by decide +kernel

theorem test_outbound_order :
    (after (exec (.outboundFrameStart .a) { bare with portA := { up with overrun := [77], response := some ⟨1, 2, .ok, []⟩ } })).portA.sending
      = some [1, 0, 77, 7, 0] := by decide +kernel

theorem test_bad_frame_answer : answered .a (exec (.badFrameCommand .a [99, 5]) bare) = some (.badFrame, []) := by
  decide +kernel

/-- R125's fields in order; mean and limit behind a presence byte, as R187 asks (12.4). -/
theorem test_sync_lost_bytes :
    EventKind.body (.syncLost 5 300 71 (.guard 938 3) 2 9)
        = [5, 1, 44, 71, 0, 0, 0, 0, 2, 0, 0, 0, 9, 1, 3, 170, 0, 3]
      ∧ EventKind.body (.syncLost 5 300 71 .highway 2 9)
        = [5, 1, 44, 71, 1, 0, 0, 0, 2, 0, 0, 0, 9, 0, 0, 0, 0, 0] := by decide

/-! Commands, each answered on its link. -/

theorem test_read_part : (answered .b (exec (.readPart .b 1) { bare with startCount := 7 })).map Prod.snd
    = some [9, 2, 4, 1, 0, 0, 0, 7, 1, 8, 0, 1, 128, 0, 192, 0, 32, 0, 8, 0, 128, 0, 8, 0, 16, 0, 32] := by decide +kernel
theorem test_set_link_clamps : answered .a (exec (.setLink .a 1 2) bare) = some (.ok, [0, 4]) := by decide +kernel
theorem test_set_events_refuses : answered .a (exec (.setEvents .a 1 ⟨1, 1, 1, 2, 1, 1, 1, 1⟩) bare)
    = some (.badOperand, []) := by decide +kernel
theorem test_set_extension_waits :
    (after (exec (.setExtension .m 1 ⟨20, 1, 2, 1, 1, 30⟩) bare)).portM.inProgress = some ⟨4, 1, false⟩ := by decide +kernel
theorem test_set_extension_slot_taken : answered .m (exec (.setExtension .m 1 ⟨20, 1, 2, 1, 1, 4⟩) demo)
    = some (.slotTaken, []) := by decide +kernel
theorem test_erase_in_service : answered .m (exec (.eraseExtension .m 1 2) demo) = some (.inService, []) := by
  decide +kernel
theorem test_load_first_refused : answered .m (exec (.loadExtensions .m 1 ⟨1, [⟨2, 0, 0, 1, 1, 2⟩]⟩) demo)
    = some (.partial_, [1, 15]) := by decide +kernel
theorem test_read_extension_vacant : (answered .a (exec (.readExtension .a 1 20) demo)).map (fun x => x.2.take 6)
    = some [0, 20, 0, 0, 0, 0] := by decide +kernel
theorem test_collect_changes : answered .a (exec (.collectChanges .a 1) { bare with portA := { up with changes := [101] } })
    = some (.ok, [1, 0, 101, 0]) := by decide +kernel
/-- 4.8: at frame 20000 with N at 50000000 and a window of 4 s, the expiry is 52000. -/
theorem test_challenge_of_the_manual :
    answered .a (exec (.challenge .a 1 1) demo) = some (.ok, bytes32 50000000 ++ bytes32 52000) := by decide +kernel
theorem test_challenge_store_busy : answered .a (exec (.challenge .a 1 9) demo) = some (.storeBusy, []) := by
  decide +kernel
theorem test_answer_matches : answered .a (exec (.answer .a 1 ⟨5, 3458164517⟩) demo) = some (.ok, [2, 0]) := by
  decide +kernel
theorem test_answer_mismatch : answered .a (exec (.answer .a 1 ⟨5, 3458164516⟩) demo)
    = some (.wrongAnswer, [1, 0]) := by decide +kernel
theorem test_release_clears_its_path :
    let t := after (exec (.release .b 1 4) demo)
    (t.ext 4).standing = .idle ∧ Table.find t.paths 0 = none ∧ Table.find t.ctxs 0 = none := by decide +kernel
theorem test_unlock : answered .m (exec (.unlock .m 1 3) demo) = some (.ok, [1]) := by decide +kernel
theorem test_set_admission_adjusts : ((after (exec (.setAdmission .m 1 ⟨2, 4, 60⟩) demo)).ext 3).failures = 2 := by
  decide +kernel
/-- The leads of 150 s on epochs of 120 s become 119 s (5.8). -/
theorem test_open_tie_private :
    answered .b (exec (.openTie .b 1 ⟨7, 72, 1, ⟨1, 2, 3, 4⟩, ⟨120, 120, 150, 150⟩⟩) demo)
      = some (.ok, [0, 5] ++ bytes32 20000 ++ [1, 2, 0, 120, 0, 120, 0, 119, 0, 119]) := by decide +kernel
theorem test_open_tie_conflict : answered .b (exec (.openTie .b 1 ⟨7, 72, 0, ⟨1, 2, 3, 4⟩, ⟨0, 0, 0, 0⟩⟩) demo)
    = some (.privacyConflict, []) := by decide +kernel
theorem test_clear_path : answered .m (exec (.clearPath .m 1 ⟨0, ⟨0, 0⟩⟩) demo) = some (.ok, [0, 0, 1, 0]) := by
  decide +kernel
theorem test_clear_path_stamp : answered .a (exec (.clearPath .a 1 ⟨0, ⟨1, 101⟩⟩) demo) = some (.noPath, []) := by
  decide +kernel
theorem test_read_path_by_tie_slot :
    (answered .a (exec (.readPath .a 1 ⟨2, 71⟩) demo)).map (fun x => x.2.take 7) = some [0, 0, 0, 0, 0, 0, 100] := by
  decide +kernel
theorem test_reset_traffic : answered .m (exec (.resetTraffic .m 1) demo) = some (.ok, [0, 5, 2]) := by decide +kernel
/-- A lead of 20 s in force under a new epoch of 10 s becomes 9 s (R103). -/
theorem test_stage_key_lead :
    let d := { dirAt 2 1 with length := 240000, lead := 160000 }
    let s := { demo with ctxs := [(0, { ctx0 with tx := { phase := .running, dir := d } }), (1, ctx1)] }
    answered .a (exec (.stageKey .a 1 ⟨⟨0, ⟨0, 0⟩⟩, ⟨1, 5, 6, ⟨1, 10⟩, ⟨0, 0⟩⟩, ⟨0, 0, 0, ⟨0, 0⟩, ⟨0, 0⟩⟩⟩) s)
      = some (.ok, [0, 1, 0, 10, 0, 9, 0, 0, 0, 0, 0]) := by decide +kernel
theorem test_read_context_clears_flags :
    let s := { demo with ctxs := [(0, { ctx0 with flags := { Attention.clear with keyDue := true } }), (1, ctx1)] }
    (Table.find (after (exec (.readContext .b 1 0) s)).ctxs 0).map (fun c => c.flags) = some Attention.clear := by
  decide +kernel
theorem test_resync_tx : answered .a (exec (.resyncTx .a 1 ⟨0, ⟨0, 0⟩⟩) demo)
    = some (.ok, [0, 1, 0, 0, 0, 1, 0, 0, 0, 2]) := by decide +kernel
theorem test_set_guard_clamps : answered .a (exec (.setGuard .a 1 ⟨⟨0, ⟨0, 0⟩⟩, 5000, 0, 1⟩) demo)
    = some (.ok, [0, 15, 112, 0, 1, 1]) := by decide +kernel
theorem test_set_privacy_defaults : answered .m (exec (.setPrivacyDefaults .m 1 ⟨0, 0, 99⟩) bare)
    = some (.ok, [0, 1, 0, 64, 0, 15]) := by decide +kernel
theorem test_open_bridge : answered .a (exec (.openBridge .a 1 ⟨0, 0⟩) demo)
    = some (.ok, [2] ++ bytes32 20000 ++ [0, 200]) := by decide +kernel
theorem test_add_leg_station : (answered .a (exec (.addLeg .a 1 ⟨⟨0, ⟨0, 0⟩⟩, 0, 2, 0, 0, ⟨0, 0, 0, 0⟩, ⟨0, 0, 0, 0⟩, 40, 0⟩) demo)).map
    (fun x => (x.1, x.2.take 8)) = some (.ok, [0, 5, 0, 0, 78, 32, 4, 32]) := by decide +kernel
theorem test_add_leg_conflict : answered .a (exec (.addLeg .a 1 ⟨⟨0, ⟨0, 0⟩⟩, 0, 7, 0, 0, ⟨0, 0, 0, 0⟩, ⟨0, 0, 0, 0⟩, 16, 0⟩) demo)
    = some (.privacyConflict, []) := by decide +kernel
theorem test_remove_leg :
    (Table.find (after (exec (.removeLeg .a 1 ⟨⟨0, ⟨0, 0⟩⟩, 1⟩) demo)).bridges 0).map (fun b => b.legs.map Leg.path)
      = some [2, 3] := by decide +kernel
theorem test_set_leg_stages : answered .a (exec (.setLeg .a 1 ⟨⟨0, ⟨0, 0⟩⟩, 3, 8, 1⟩) demo) = some (.ok, [8, 1]) := by
  decide +kernel
theorem test_set_talker_clamps : answered .a (exec (.setTalker .a 1 ⟨⟨0, ⟨0, 0⟩⟩, 5000⟩) demo)
    = some (.ok, [15, 112]) := by decide +kernel
theorem test_close_bridge :
    let t := after (exec (.closeBridge .m 1 ⟨0, ⟨0, 0⟩⟩) demo)
    t.portM.response = some ⟨28, 1, .ok, [3]⟩ ∧ Table.keys t.paths = [0, 4] ∧ Table.keys t.bridges = [1] := by
  decide +kernel
theorem test_read_bridge : (answered .b (exec (.readBridge .b 1 0) demo)).map (fun x => x.2.take 5)
    = some [0, 0, 0, 0, 100] := by decide +kernel
/-- 9.7: a window of 50 becomes 32, limits 1200 and 100 become 100 and 1200. -/
theorem test_set_survey :
    answered .m (exec (.setSurvey .m 1 ⟨3, [⟨0, 40, 0⟩, ⟨1, 100, 0⟩, ⟨1, 100, 1⟩], 0, 1, 3, 1, 50, 1200, 100, 1⟩) bare)
      = some (.ok, [0, 32, 0, 100, 4, 176, 0]) := by decide +kernel
theorem test_start_survey_empty : answered .m (exec (.startSurvey .m 1) bare) = some (.emptyList, []) := by decide +kernel
theorem test_stop_survey : answered .m (exec (.stopSurvey .m 1)
    { bare with survey := { Survey.reset with state := .standby } }) = some (.ok, [1]) := by decide +kernel
theorem test_read_survey_reset : (answered .m (exec (.readSurvey .m 1) bare)).map (fun x => x.2.take 5)
    = some [0, 0, 0, 0, 0] := by decide +kernel
theorem test_adopt : answered .a (exec (.adopt .a 1 1) demo) = some (.ok, [0, 1, 1, 0]) := by decide +kernel
theorem test_set_orphan_hold : answered .m (exec (.setOrphanHold .m 1 500) bare) = some (.ok, [0, 120]) := by
  decide +kernel
theorem test_not_permitted : answered .m (exec (.adopt .m 1 1) demo) = some (.notPermitted, []) := by decide +kernel

/-! ## Witnesses: for each claim with hypotheses, a state and operands that meet them -/

/-- A step that answers a next state. -/
def goes (o : Host.Outcome State Fault Refusal) : Bool :=
  match o with
  | .next _ => true
  | .fault _ => false
  | .refused _ => false

theorem next_of_goes {o : Host.Outcome State Fault Refusal} (h : goes o = true) : o = .next (after o) := by
  cases o <;> first | rfl | cases h

/-- `s` with a command waiting on no link but first in the queue of steps. -/
def withStep (i : Instr) (s : State) : State := { s with pending := [i] }

theorem wit_StepRunsTheFrontCommand :
    (withStep (.readPart .a 1) demo).pending = .readPart .a 1 :: [] ∧ demo.pending = [] := by decide +kernel

theorem wit_FramesAndCommandsAgree :
    (Instr.wellFormed (.setSurvey .m 255 ⟨1, [⟨1, 255, 1⟩], 0, 0, 0, 0, 64, 0, 3952, 2⟩) = true
        ∧ (encodeCommand (.setSurvey .m 255 ⟨1, [⟨1, 255, 1⟩], 0, 0, 0, 0, 64, 0, 3952, 2⟩)).isSome = true)
      ∧ (decodeCommand .m [12, 0, 2, 255, 255]).isSome = true := by decide +kernel

/-- A port with a frame at the head of its queue and `n` behind it, its own hold asserted. -/
def queued (n : Nat) : Port := { up with queue := [1, 1, 0] :: List.replicate n [8, 2, 0], ownHold := true }

theorem wit_PortTakesTheHeadOfItsQueue :
    (({ up with response := some ⟨1, 1, .ok, []⟩ } : Port).response ≠ none ∧ Port.reset.state ≠ .up)
      ∧ ((queued 11).queue = [1, 1, 0] :: List.replicate 11 [8, 2, 0] ∧ [1, 1, 0] ≠ ([8, 2, 0] : List Byte))
      ∧ ((queued 11).state = .up ∧ (queued 11).inProgress = none ∧ (queued 11).response = none
        ∧ (List.replicate 11 [8, 2, 0]).length < (queued 11).threshold ∧ (queued 11).ownHold = true)
      ∧ ((queued 12).state = .up ∧ ¬ (List.replicate 12 [8, 2, 0]).length < (queued 12).threshold)
      ∧ (up.state = .up ∧ up.inProgress = none ∧ up.response = none ∧ up.queue = [] ∧ 4 ≤ up.threshold) := by
  decide +kernel

theorem wit_UntakenCommand :
    encodeCommand (.readPart .a 1) = some (.a, [1, 1, 0])
      ∧ (((settle { demo with portA := { up with response := some ⟨1, 1, .ok, []⟩ } }).port .a).take [1, 1, 0])
        = none := by decide +kernel

/-- `demo` with every run and count one short of what makes a step due. -/
def shortOfDue : State :=
  { demo with
    highways :=
      [{ Highway.reset with store := [], emptyRun := 3 }, { Highway.reset with up := false, store := [], restoreRun := 7 }]
        ++ List.replicate 6 Highway.reset
    engine := some { job := .erase 9, remaining := 1 }
    exts := [(3, { ext 3 (.locked 1) with failures := 3 }), (5, { ext 5 .idle with challenge := some ⟨50000000, .b, 20001⟩ })]
    ctxs := [(0, { ctx0 with rx := { rxAt 8000 with guardCount := 63 } }), (1, { ctx1 with tx := { phase := .preamble 24, dir := dirAt 0 0 } })]
    bridges := [(0, { bridge0 with windowCount := 63 }), (1, bridge1)]
    survey := { Survey.reset with entries := [⟨.tie 71, false⟩], state := .measuring 1 5 5 63 }
    portA := { up with invalidRun := 15, alignRun := 63 }
    portB := { Port.reset with alignRun := 63 } }

theorem wit_NothingDue : NothingDue shortOfDue := by
  refine ⟨by decide, ⟨rfl, rfl, ?_, ?_, ?_⟩, ⟨by decide +kernel, ?_, ?_, ?_, ?_⟩, by decide +kernel, ?_⟩
  · intro i c h
    have m := Table.mem_of_find h
    simp only [shortOfDue, List.mem_cons, Prod.mk.injEq, List.not_mem_nil, or_false] at m
    rcases m with ⟨-, rfl⟩ | ⟨-, rfl⟩
    · exact ⟨⟨rfl, rfl⟩, ⟨rfl, rfl⟩, by decide⟩
    · exact ⟨.inr rfl, rfl⟩
  · intro b x h
    have m := Table.mem_of_find h
    simp only [shortOfDue, List.mem_cons, Prod.mk.injEq, List.not_mem_nil, or_false] at m
    rcases m with ⟨-, rfl⟩ | ⟨-, rfl⟩ <;> decide
  · intro i sum peak n h
    cases h
    decide
  · intro g h
    cases h
    decide
  · intro i
    have e : (shortOfDue.ext i) ∈ [Ext.vacant, { ext 3 (.locked 1) with failures := 3 },
        { ext 5 .idle with challenge := some ⟨50000000, .b, 20001⟩ }] := by
      unfold State.ext
      cases h : Table.find shortOfDue.exts i with
      | none => exact List.mem_cons_self
      | some e =>
        have m := Table.mem_of_find h
        simp only [shortOfDue, List.mem_cons, Prod.mk.injEq, List.not_mem_nil, or_false] at m
        rcases m with ⟨-, rfl⟩ | ⟨-, rfl⟩ <;> simp
    generalize shortOfDue.ext i = e at *
    simp only [List.mem_cons, List.not_mem_nil, or_false] at e
    rcases e with rfl | rfl | rfl <;> exact ⟨by decide, fun ch q => by cases q <;> decide⟩
  · intro id p x d h k q
    have m := Table.mem_of_find h
    simp only [shortOfDue, demo, List.mem_cons, Prod.mk.injEq, List.not_mem_nil, or_false] at m
    rcases m with ⟨-, rfl⟩ | ⟨-, rfl⟩ | ⟨-, rfl⟩ | ⟨-, rfl⟩ | ⟨-, rfl⟩ <;> cases q
    decide
  · intro b y x d h q
    have m := Table.mem_of_find h
    simp only [shortOfDue, List.mem_cons, Prod.mk.injEq, List.not_mem_nil, or_false] at m
    rcases m with ⟨-, rfl⟩ | ⟨-, rfl⟩ <;> cases q
    decide
  · intro l _
    cases l <;> exact ⟨fun _ => by decide, fun _ => by decide⟩

theorem wit_EveryTakenCommandIsAnsweredOnce :
    encodeOperands (.readPart .b 1) = some (.b, 1, 1, []) ∧ (∃ p, TakenBy (.readPart .b 1) demo .b p)
      ∧ exec (.readPart .b 1) demo = .next (after (exec (.readPart .b 1) demo)) :=
  ⟨by decide +kernel, takenBy_of_taken (by decide +kernel), next_of_goes (by decide +kernel)⟩

theorem wit_EveryTakenCommand_awaiting :
    (∃ p, TakenBy (.eraseExtension .m 1 1) demo .m p)
      ∧ exec (.eraseExtension .m 1 1) demo = .next (after (exec (.eraseExtension .m 1 1) demo)) :=
  ⟨takenBy_of_taken (by decide +kernel), next_of_goes (by decide +kernel)⟩

theorem wit_RefusedCommandChangesNothing :
    (∃ p, TakenBy (.challenge .a 1 3) demo .a p)
      ∧ exec (.challenge .a 1 3) demo = .next (after (exec (.challenge .a 1 3) demo))
      ∧ ((after (exec (.challenge .a 1 3) demo)).port .a).response = some ⟨9, 1, .locked, []⟩
      ∧ Result.locked ∉ [Result.ok, .partial_, .replaced, .wrongAnswer] :=
  ⟨takenBy_of_taken (by decide +kernel), next_of_goes (by decide +kernel), by decide +kernel, by decide⟩

theorem wit_RefusedCommand_forbidden :
    Instr.wellFormed (.adopt .m 1 1) = true ∧ (∃ p, TakenBy (.adopt .m 1 1) demo .m p)
      ∧ acceptedOn (.adopt .m 1 1) .m = false :=
  ⟨by decide, takenBy_of_taken (by decide +kernel), by decide⟩

theorem wit_BadFrameIsAnswered :
    badFrame [36, 9, 0] = true ∧ (((settle demo).port .a).take [36, 9, 0]).isSome = true
      ∧ ([36, 9] : List Byte).length < 3 ∧ 35 < (36 : Byte).toNat ∧ (0 : Byte).toNat = 0
      ∧ (2 : Byte).toNat ≠ ([7] : List Byte).length
      ∧ 1 ≤ (35 : Byte).toNat ∧ (35 : Byte).toNat ≤ 35 ∧ (2 : Byte).toNat = ([0, 30] : List Byte).length := by
  decide +kernel

/-! The laws: `demo` keeps them all. -/

theorem wit_StepKeepsPortBounds :
    PortBounds (withStep (.readPart .a 1) demo) ∧ goes (step (withStep (.readPart .a 1) demo)) = true :=
  ⟨by unfold PortBounds; decide +kernel, by decide +kernel⟩

theorem wit_StepKeepsGeneratorLaw :
    GeneratorLaw (withStep (.frameStart ⟨[], true, false⟩) demo)
      ∧ goes (step (withStep (.frameStart ⟨[], true, false⟩) demo)) = true :=
  ⟨by unfold GeneratorLaw DirLaw; decide +kernel, by decide +kernel⟩

theorem demo_path {id : Nat} {p : Machine.Path} (h : Table.find demo.paths id = some p) :
    (id = 0 ∧ p = path0) ∨ (id = 1 ∧ p = path1) ∨ (id = 2 ∧ p = path2) ∨ (id = 3 ∧ p = path3) ∨ (id = 4 ∧ p = path4) := by
  simpa [demo] using Table.mem_of_find h

theorem demo_occupancy : OccupancyLaw demo := by
  have station : ∀ slot id, Table.find demo.stationOcc slot = some id →
      (slot = 4 ∧ id = 0) ∨ (slot = 6 ∧ id = 2) ∨ (slot = 10 ∧ id = 4) := fun slot id h => by
    simpa [demo] using Table.mem_of_find h
  have tie : ∀ slot id, Table.find demo.tieOcc slot = some id →
      (slot = 40 ∧ id = 4) ∨ (slot = 71 ∧ id = 0) ∨ (slot = 75 ∧ id = 1) ∨ (slot = 100 ∧ id = 3) := fun slot id h => by
    simpa [demo] using Table.mem_of_find h
  refine ⟨fun slot id => ⟨fun h => ?_, fun ⟨p, h, e⟩ => ?_⟩, fun slot id => ⟨fun h => ?_, fun ⟨p, h, e⟩ => ?_⟩,
    fun slot id h => ?_, fun slot id h => ?_⟩
  · rcases station slot id h with ⟨rfl, rfl⟩ | ⟨rfl, rfl⟩ | ⟨rfl, rfl⟩ <;> exact ⟨_, rfl, rfl⟩
  · rcases demo_path h with ⟨rfl, rfl⟩ | ⟨rfl, rfl⟩ | ⟨rfl, rfl⟩ | ⟨rfl, rfl⟩ | ⟨rfl, rfl⟩ <;> cases e <;> rfl
  · rcases tie slot id h with ⟨rfl, rfl⟩ | ⟨rfl, rfl⟩ | ⟨rfl, rfl⟩ | ⟨rfl, rfl⟩ <;> exact ⟨_, rfl, rfl⟩
  · rcases demo_path h with ⟨rfl, rfl⟩ | ⟨rfl, rfl⟩ | ⟨rfl, rfl⟩ | ⟨rfl, rfl⟩ | ⟨rfl, rfl⟩ <;> cases e <;> rfl
  · have := station slot id h; omega
  · have := tie slot id h; omega

theorem demo_contexts : ContextLaw demo := by
  refine ⟨fun i c h => ?_, fun id p i h e => ?_⟩
  · have m : (i = 0 ∧ c = ctx0) ∨ (i = 1 ∧ c = ctx1) := by simpa [demo] using Table.mem_of_find h
    rcases m with ⟨rfl, rfl⟩ | ⟨rfl, rfl⟩ <;> exact ⟨_, rfl, rfl, rfl⟩
  · rcases demo_path h with ⟨rfl, rfl⟩ | ⟨rfl, rfl⟩ | ⟨rfl, rfl⟩ | ⟨rfl, rfl⟩ | ⟨rfl, rfl⟩ <;> cases e <;>
      exact ⟨_, rfl, rfl⟩

theorem demo_bridges : BridgeLaw demo := by
  refine ⟨rfl, by decide +kernel, fun b x h => ?_, fun id p b h e => ?_⟩
  · have m : (b = 0 ∧ x = bridge0) ∨ (b = 1 ∧ x = bridge1) := by simpa [demo] using Table.mem_of_find h
    rcases m with ⟨rfl, rfl⟩ | ⟨rfl, rfl⟩
    · refine ⟨by decide, by decide, fun g hg => ?_⟩
      simp only [bridge0, List.mem_cons, List.not_mem_nil, or_false] at hg
      rcases hg with rfl | rfl | rfl <;> exact ⟨_, rfl, rfl, rfl, rfl⟩
    · exact ⟨by decide, by decide, fun g hg => by cases hg⟩
  · rcases demo_path h with ⟨rfl, rfl⟩ | ⟨rfl, rfl⟩ | ⟨rfl, rfl⟩ | ⟨rfl, rfl⟩ | ⟨rfl, rfl⟩ <;> cases e
    · exact ⟨bridge0, rfl, leg 1 (.tie 75 .clear) 16 64512, by simp [bridge0], rfl⟩
    · exact ⟨bridge0, rfl, leg 2 (.station 6) 16 9728, by simp [bridge0], rfl⟩
    · exact ⟨bridge0, rfl, leg 3 (.tie 100 (.priv 1)) 24 98000, by simp [bridge0], rfl⟩

theorem demo_admission : AdmissionLaw demo := by
  refine ⟨by decide, ?_, fun h => (by cases h), fun g hg => (by cases hg)⟩
  simp [ExtLaw, demo, bare, ext, rec, State.reset, Ext.vacant]

/-- The extensions of `demo` that are in a path. -/
theorem demo_ext_path :
    ∀ x ∈ demo.exts, ∀ id ∈ x.2.path, (x.1 = 4 ∧ id = 0) ∨ (x.1 = 6 ∧ id = 2) ∨ (x.1 = 10 ∧ id = 4) := by decide +kernel

theorem demo_stations : StationLaw demo := by
  refine ⟨fun id p slot h e => ?_, fun e id h => ?_, fun h => (by cases h), fun slot e h => ?_, fun g hg => (by cases hg)⟩
  · rcases demo_path h with ⟨rfl, rfl⟩ | ⟨rfl, rfl⟩ | ⟨rfl, rfl⟩ | ⟨rfl, rfl⟩ | ⟨rfl, rfl⟩ <;> cases e <;>
      exact ⟨_, rfl, rfl, rfl, rfl⟩
  · have m : (e = 4 ∧ id = 0) ∨ (e = 6 ∧ id = 2) ∨ (e = 10 ∧ id = 4) := by
      unfold State.ext at h
      cases f : Table.find demo.exts e with
      | none => rw [f] at h; cases h
      | some x => rw [f] at h; exact demo_ext_path _ (Table.mem_of_find f) _ h
    rcases m with ⟨rfl, rfl⟩ | ⟨rfl, rfl⟩ | ⟨rfl, rfl⟩ <;> exact ⟨_, rfl, rfl, by decide⟩
  · have m := Table.mem_of_find h
    simp only [demo, List.mem_map, List.mem_range, Prod.mk.injEq] at m
    obtain ⟨k, hk, rfl, rfl⟩ := m
    exact (by decide : ∀ k < 10, ∃ r, (demo.ext (k + 1)).stored = some r ∧ r.slot = k + 1) k hk

/-- `demo` keeps every law. -/
theorem demo_laws : Laws demo where
  ports := by unfold PortBounds; decide +kernel
  generators := by unfold GeneratorLaw DirLaw; decide +kernel
  occupancy := demo_occupancy
  contexts := demo_contexts
  bridges := demo_bridges
  controllers := by
    simp [ControllerLaw, Controller.stands, demo, bare, path0, path1, path2, path3, path4, bridge0, bridge1, up, State.port]
  admission := demo_admission
  stations := demo_stations
  start := ⟨fun _ _ _ => rfl, fun _ => by decide +kernel⟩
  canonical := by unfold Canonical; decide +kernel

theorem demo_laws_with (i : Instr) : Laws (withStep i demo) :=
  ⟨demo_laws.ports, demo_laws.generators, demo_laws.occupancy, demo_laws.contexts, demo_laws.bridges,
    demo_laws.controllers, demo_laws.admission, demo_laws.stations, demo_laws.start, demo_laws.canonical⟩

theorem wit_StepKeepsOccupancyLaw :
    OccupancyLaw (withStep (.clearPath .a 1 ⟨0, ⟨0, 0⟩⟩) demo)
      ∧ goes (step (withStep (.clearPath .a 1 ⟨0, ⟨0, 0⟩⟩) demo)) = true :=
  ⟨(demo_laws_with _).occupancy, by decide +kernel⟩

theorem wit_StepKeepsContextLaw :
    ContextLaw (withStep (.clearPath .a 1 ⟨0, ⟨0, 0⟩⟩) demo)
      ∧ goes (step (withStep (.clearPath .a 1 ⟨0, ⟨0, 0⟩⟩) demo)) = true :=
  ⟨(demo_laws_with _).contexts, by decide +kernel⟩

theorem wit_StepKeepsBridgeLaw :
    BridgeLaw (withStep (.closeBridge .a 1 ⟨0, ⟨0, 0⟩⟩) demo)
      ∧ goes (step (withStep (.closeBridge .a 1 ⟨0, ⟨0, 0⟩⟩) demo)) = true :=
  ⟨(demo_laws_with _).bridges, by decide +kernel⟩

theorem wit_StepKeepsControllerLaw :
    ControllerLaw (withStep (.adopt .a 1 1) demo) ∧ goes (step (withStep (.adopt .a 1 1) demo)) = true :=
  ⟨(demo_laws_with _).controllers, by decide +kernel⟩

theorem wit_StepKeepsAdmissionLaw :
    AdmissionLaw (withStep (.challenge .a 1 1) demo) ∧ goes (step (withStep (.challenge .a 1 1) demo)) = true :=
  ⟨(demo_laws_with _).admission, by decide +kernel⟩

theorem wit_StepKeepsStationLaw :
    Laws (withStep (.release .a 1 4) demo) ∧ goes (step (withStep (.release .a 1 4) demo)) = true :=
  ⟨demo_laws_with _, by decide +kernel⟩

theorem wit_StepKeepsCanonicalForm :
    Canonical (withStep .powerOnReset demo) ∧ StartLaw (withStep .powerOnReset demo)
      ∧ goes (step (withStep .powerOnReset demo)) = true :=
  ⟨(demo_laws_with _).canonical, (demo_laws_with _).start, by decide +kernel⟩

theorem wit_NoStepStopsUnderTheLaws : Laws (withStep (.challenge .b 1 1) demo) := demo_laws_with _

/-! Start-up, frames and highways. -/

theorem wit_StartUpLoadBuildsTheTable :
    (State.reset.boot = .reset ∧ Table.sorted State.reset.extStore = true
        ∧ State.reset.startRecord.getD 0 ≠ 4294967295)
      ∧ ({ State.reset with startRecord := some 4294967295 } : State).startRecord.getD 0 = 4294967295
      ∧ (workDue { State.reset with boot := .loading, engine := some ⟨.startCount 4294967295, 0⟩ }).engine
        = some { job := .startCount 4294967295, remaining := 0 } := by decide +kernel

theorem wit_FrameStartMovesTheFrame :
    risingBelow 512 [(0, 1), (511, 255)] = true ∧ ((settle demo).ext 3).standing = .locked 5
      ∧ (∀ n, ((settle demo).ext 1).standing ≠ .locked n) :=
  ⟨by decide, by decide +kernel, fun n h => by
    have e : ((settle demo).ext 1).standing = .idle := by decide +kernel
    rw [e] at h; cases h⟩

theorem wit_TieHighwayStoresAndDelivers :
    (Highway.reset.up = true ∧ Highway.reset.store = [idleFrame])
      ∧ (({ Highway.reset with store := [], emptyRun := 2 } : Highway).emptyRun < 3)
      ∧ (({ Highway.reset with store := [], emptyRun := 3 } : Highway).store = [])
      ∧ ({ Highway.reset with up := false } : Highway).up = false
      ∧ ((settle demo).highways[7]? = some Highway.reset ∧ (tie 5).length = 32 ∧ (tie 5 ++ [1]).length ≠ 32)
      ∧ (({ Highway.reset with store := [tie 1, tie 2] } : Highway).store = [tie 1, tie 2]
        ∧ Highway.reset.deleted = false ∧ ({ Highway.reset with deleted := true } : Highway).deleted = true)
      ∧ ({ Highway.reset with up := false, restoreRun := 6 } : Highway).restoreRun < 7
      ∧ ({ Highway.reset with up := false, restoreRun := 7 } : Highway).restoreRun = 7 := by decide +kernel

theorem wit_HighwayLossReachesItsContexts :
    ((workDue (demo.setHighway 2 { Highway.reset with store := [], emptyRun := 4 })).highways[2]?
        = some { Highway.reset with store := [], emptyRun := 4 })
      ∧ ((demo.setHighway 7 { Highway.reset with up := false, restoreRun := 8 }).highways[7]?
        = some { Highway.reset with up := false, restoreRun := 8 })
      ∧ (Table.sorted demo.ctxs = true ∧ Table.find demo.ctxs 0 = some ctx0 ∧ ctx0.tieSlot / 32 = 2
        ∧ ctx0.rx.phase = .running ∧ ctx0.tieSlot / 32 ≠ 3)
      ∧ (Table.find demo.ctxs 1 = some ctx1 ∧ ctx1.tieSlot / 32 = 3 ∧ ctx1.rx.phase = .hunt Hunt.start) := by
  decide +kernel

/-- A loss of highway 2 meets the RUNNING context 0: its path's controller is told. -/
theorem test_highway_loss_raises_sync_lost :
    (privacyLoss 2 demo).portA.events = [⟨.syncLost 0 0 71 .highway 1 2, 20000⟩] := by decide +kernel

theorem wit_FrameDrivesTheHeldSlots :
    (Table.find demo.paths 4 = some path4 ∧ path4.kind = .tie 10 10 40 .clear ∧ Table.sorted demo.paths = true
        ∧ (∀ e ∈ demo.paths, e.1 ≠ 4 → e.2.kind.station ≠ some 10 ∧ e.2.kind.tieSlot ≠ some 40))
      ∧ (∀ e ∈ demo.bridges, ∀ g ∈ e.2.legs, g.slot ≠ .station 10 ∧ ∀ v, g.slot ≠ .tie 40 v)
      ∧ (∀ e ∈ demo.paths, e.2.kind.station ≠ some 511) := by
  refine ⟨by decide +kernel, ?_, by decide +kernel⟩
  simp [demo, bridge0, bridge1, leg]

/-- Path 0 of `demo` alone holds station slot 4, tie slot 71 and context 0. -/
theorem wit_FrameDrives_private :
    Table.find demo.paths 0 = some path0 ∧ path0.kind = .tie 4 4 71 (.priv 0) ∧ Table.find demo.ctxs 0 = some ctx0
      ∧ ctx0.tieSlot = 71 ∧ Table.sorted demo.paths = true ∧ Table.sorted demo.ctxs = true
      ∧ (∀ e ∈ demo.paths, e.1 ≠ 0 →
        e.2.kind.station ≠ some 4 ∧ e.2.kind.tieSlot ≠ some 71 ∧ e.2.kind.ctx ≠ some 0)
      ∧ (∀ e ∈ demo.ctxs, e.1 ≠ 0 → e.2.tieSlot ≠ 71)
      ∧ ∀ e ∈ demo.bridges, ∀ g ∈ e.2.legs,
        g.slot ≠ .station 4 ∧ (∀ v, g.slot ≠ .tie 71 v) ∧ ∀ n, g.slot ≠ .tie n (.priv 0) := by
  refine ⟨rfl, rfl, rfl, rfl, by decide +kernel, by decide +kernel, by decide +kernel, by decide +kernel, ?_⟩
  simp [demo, bridge0, bridge1, leg]

theorem wit_FrameDrives_transmit :
    ({ phase := .preamble 22, dir := dirAt 0 0 } : TxState).phase = .preamble 22 ∧ 22 < 23
      ∧ ({ phase := .preamble 23, dir := dirAt 0 0 } : TxState).phase = .preamble 23
      ∧ ({ phase := .preamble 24, dir := dirAt 0 0 } : TxState).phase = .preamble 24
      ∧ (dirAt 8000 1).f = (dirAt 8000 1).length ∧ (dirAt 8000 1).staged = none
      ∧ ({ phase := .running, dir := dirAt 7999 1 } : TxState).dir.f < 8000
      ∧ goes (exec (.frameStart ⟨[], false, false⟩) demo) = true := by decide +kernel

/-! The privacy unit. -/

theorem wit_FarEndHearsWhatWasSent :
    (({ phase := .running, dir := dirAt 2 1 } : TxState).phase = .running ∧ (rxAt 2).phase = .running
        ∧ ({ phase := .running, dir := dirAt 2 1 } : TxState).dir = (rxAt 2).dir)
      ∧ (ctx1.tx.phase = .preamble 24 ∧ (rxHunt { Hunt.start with endSeen := true }).phase
          = .hunt { Hunt.start with endSeen := true } ∧ ctx1.tx.dir.seed = (rxHunt Hunt.start).dir.seed
        ∧ ctx1.tx.dir.step = (rxHunt Hunt.start).dir.step) := by decide +kernel

theorem wit_PreambleIsSentAndFound :
    ({ phase := .preamble 0, dir := dirAt 0 0 } : TxState).phase = .preamble 0
      ∧ (rxHunt Hunt.start).phase = .hunt Hunt.start ∧ Hunt.start.endSeen = false
      ∧ (List.replicate 24 (53 : Code)).length = 24 := by decide +kernel

theorem wit_ReceiverHuntsAndFollowsTheSlips :
    ((rxHunt { Hunt.start with run := 8 }).phase = .hunt { Hunt.start with run := 8 } ∧ Hunt.start.endSeen = false
        ∧ Hunt.start.reportDue = false)
      ∧ ((rxAt 2).phase = .running ∧ (rxAt 7999).dir.f < (rxAt 7999).dir.length
        ∧ (rxAt 7998).dir.f + 1 < (rxAt 7998).dir.length) := by decide +kernel

/-- The worked frame of 2.2: the code 3 descrambles to 53 with the byte of index 1, and the guard counts its 152. -/
theorem test_receive_counts :
    (rxFrame 3 false true 3 .normal { rxAt 0 with last := 7, guardSum := 10, guardCount := 5 }).rx
      = { rxAt 1 with last := 53, guardSum := 162, guardCount := 6 } := by decide +kernel

/-- The end-seen marker set in a hunt of 40 frames. -/
def aligning : Hunt := { Hunt.start with elapsed := 40, endSeen := true }

theorem wit_ReceiverAligns :
    (rxHunt aligning).phase = .hunt aligning ∧ aligning.endSeen = true
      ∧ (rxHunt aligning).dir.lead + 8000 ≤ (rxHunt aligning).dir.length := by decide +kernel

theorem wit_ReceiverSlipsAtTheBoundary :
    (rxAt 8000).phase = .running ∧ (rxAt 8000).dir.f = (rxAt 8000).dir.length
      ∧ (rxAt 7999).dir.f + 1 = (rxAt 7999).dir.length ∧ 8000 ≤ (rxAt 8000).dir.length ∧ (rxAt 8000).dir.staged = none
      ∧ (rxAt 7998).dir.f + 2 ≤ (rxAt 7998).dir.length ∧ (rxAt 7998).dir.warnDue = false := by decide +kernel

/-- `demo` with context 0 about to align, its highway's frame NORMAL or DELETED. -/
def alignsNext (deleted : Bool) : State :=
  { demo with
    ctxs := [(0, { ctx0 with rx := rxHunt aligning })]
    buffer :=
      { demo.buffer with
        tie := List.replicate 8 { codes := idleFrame, slip := if deleted then .deleted else .normal } } }

theorem wit_AlignmentIsRaised :
    ∀ d ∈ [false, true],
      Table.find (alignsNext d).ctxs 0 = some { ctx0 with rx := rxHunt aligning }
        ∧ Table.find (alignsNext d).paths ctx0.path = some path0
        ∧ ((alignsNext d).tieRead (ctx0.tieSlot / 32)).slip = (if d then .deleted else .normal)
        ∧ ((receiveContext 0 (alignsNext d, [])).1.portA.events = [⟨.rxAligned 0 0 71 40 d, 20000⟩]) := by
  decide +kernel

/-- `demo` with one context. -/
def demoCtx (i : Nat) (c : Context) : State := { demo with ctxs := [(i, c)] }

theorem wit_PreambleEndStartsTheFirstEpoch :
    let c := { ctx1 with tx := { phase := .preamble 24, dir := { dirAt 0 0 with owed := 1 } } }
    Table.find (beginWork (demoCtx 1 c)).ctxs 1 = some c ∧ c.tx.phase = .preamble 24 ∧ c.tx.dir.owed = 1 := by
  decide +kernel

theorem wit_KeyDueAndHuntReportAreRaised :
    ((dirAt 2 1).f < (dirAt 2 1).length ∧ (dirAt 2 1).warnDue = false)
      ∧ (ctx0.tx.phase = .running ∧ ctx0.rx.phase = .running ∧ ctx0.rx.dir.f < ctx0.rx.dir.length)
      ∧ (let c := { ctx0 with tx := { phase := .running, dir := { dirAt 2 1 with warnDue := true } } }
        Table.find (beginWork (demoCtx 0 c)).ctxs 0 = some c ∧ Table.find (beginWork (demoCtx 0 c)).paths c.path = some path0
          ∧ c.running .tx = true ∧ (c.dir .tx).warnDue = true)
      ∧ (let c := { ctx1 with rx := rxHunt { Hunt.start with reportDue := true } }
        Table.find (beginWork (demoCtx 1 c)).ctxs 1 = some c ∧ Table.find (beginWork (demoCtx 1 c)).paths c.path = some path3
          ∧ c.rx.phase = .hunt { Hunt.start with reportDue := true }) := by decide +kernel

/-- An epoch of 2 s with a lead of 1 s: the frame that reaches index 8000 makes the warning due, in each direction. -/
theorem test_warning_index :
    (let d := { dirAt 7999 1 with length := 16000, lead := 8000 };
      ((txFrame { phase := .running, dir := d } 0).1.dir.warnDue,
        (rxFrame 3 false true 0 .normal { rxAt 0 with dir := d }).rx.dir.warnDue)) = (true, true) := by decide +kernel

/-- A context whose transmit direction is at the end of its epoch, with a half staged or none. -/
def rolling (h : Option Staged) : Context :=
  { ctx0 with tx := { phase := .running, dir := { dirAt 2 1 with f := 8000, owed := 1, staged := h } } }

theorem wit_RolloverStartsTheNextEpoch :
    let c := rolling (some ⟨5, 7, some 16000, none⟩)
    Table.find (beginWork (demoCtx 0 c)).ctxs 0 = some c ∧ Table.find (beginWork (demoCtx 0 c)).paths c.path = some path0
      ∧ c.running .tx = true ∧ (c.dir .tx).owed = 1 ∧ (c.dir .tx).f = (c.dir .tx).length
      ∧ (c.dir .tx).staged = some ⟨5, 7, some 16000, none⟩ ∧ ((rolling none).dir .tx).staged = none := by
  decide +kernel

/-- A context whose receive direction owes two advances from the last index of its epoch. -/
def rollingTwice (h : Option Staged) : Context :=
  { ctx0 with rx := { rxAt 8000 with dir := { dirAt 8000 1 with owed := 2, staged := h } } }

theorem wit_RolloverOfADeletedFrame :
    (let c := rollingTwice (some ⟨5, 7, some 16000, some 8000⟩);
      Table.find (beginWork (demoCtx 0 c)).ctxs 0 = some c ∧ Table.find (beginWork (demoCtx 0 c)).paths c.path = some path0
        ∧ c.running .rx = true ∧ (c.dir .rx).owed = 2 ∧ (c.dir .rx).f = (c.dir .rx).length
        ∧ (c.dir .rx).staged = some ⟨5, 7, some 16000, some 8000⟩ ∧ 8000 + 8000 ≤ 16000)
      ∧ (let c := rollingTwice none;
        Table.find (beginWork (demoCtx 0 c)).ctxs 0 = some c ∧ (c.dir .rx).staged = none
          ∧ (c.dir .rx).lead + 8000 ≤ (c.dir .rx).length) := by
  decide +kernel

/-- A context whose guard window has ended. -/
def judged (sum strikes : Nat) : Context := { ctx0 with rx := { rxAt 2 with guardSum := sum, guardCount := 64, strikes := strikes } }

theorem wit_GuardWindowIsJudged :
    let c := judged 38464 2
    Table.find (beginWork (demoCtx 0 c)).ctxs 0 = some c ∧ Table.find (beginWork (demoCtx 0 c)).paths c.path = some path0
      ∧ c.rx.phase = .running ∧ c.rx.dir.owed = 0 ∧ c.rx.dir.warnDue = false ∧ c.rx.guardCount = 64
      ∧ (c.tx.dir.owed = 0 ∧ c.tx.dir.warnDue = false)
      ∧ (c.ceiling < c.rx.guardSum / 64 ∧ c.rx.strikes + 1 = c.strikesLimit)
      ∧ ((judged 38464 1).rx.strikes + 1 < c.strikesLimit) ∧ (judged 38463 2).rx.guardSum / 64 ≤ c.ceiling := by
  decide +kernel

/-- Context 0 with a window to judge and a tx rollover due. -/
def rollsAndJudges : Context :=
  let c := judged 38464 2
  { c with tx := { c.tx with dir := { dirAt 8000 1 with owed := 1 } } }

theorem wit_GuardWindow_rolls :
    let c := rollsAndJudges
    Table.find (beginWork (demoCtx 0 c)).ctxs 0 = some c ∧ c.rx.guardCount = 64 ∧ c.tx.dir.owed = 1
      ∧ (∀ d ∈ Table.find (beginWork demo).ctxs 0, d.rx.guardCount < 64) := by decide +kernel

/-- KEY_ROLLED of the transmit direction, then SYNC_LOST, in one frame's work on one context (R125). -/
theorem test_guard_after_tx_advance :
    (after (exec (.guardWindowEnd 0) (demoCtx 0 rollsAndJudges))).portA.events.map (fun e => e.kind)
      = [.keyRolled 0 0 .tx 2 true 1 0, .syncLost 0 0 71 (.guard 601 3) 1 2] := by decide +kernel

/-! Bridges, survey and events. -/

theorem wit_BridgeMixesTheOtherLegs :
    (leg 2 (.station 6) 16 0).mode = .talk ∧ ({ leg 2 (.station 6) 16 0 with mode := .listen } : Leg).mode = .listen := by
  decide

/-- Bridge 0 of `demo`: a station leg, a CLEAR and a PRIVATE tie leg, each alone on its slot and context. -/
theorem wit_BridgeMixes_frame :
    Table.sorted demo.bridges = true ∧ Table.sorted demo.ctxs = true ∧ Table.find demo.bridges 0 = some bridge0
      ∧ (∀ e ∈ demo.ctxs, e.1 ≠ 1 → e.2.tieSlot ≠ 100) ∧ Table.find demo.ctxs 1 = some ctx1 ∧ ctx1.tieSlot = 100
      ∧ bridge0.legs = [] ++ leg 2 (.station 6) 16 9728 :: [leg 1 (.tie 75 .clear) 16 64512, leg 3 (.tie 100 (.priv 1)) 24 98000]
      ∧ (∀ e ∈ demo.paths, e.2.kind.code = 0 → e.2.kind.station ≠ some 6 ∧ e.2.kind.tieSlot ≠ some 75
        ∧ e.2.kind.tieSlot ≠ some 100 ∧ e.2.kind.ctx ≠ some 1)
      ∧ (∀ e ∈ demo.bridges, e.1 ≠ 0 → e.2.legs = []) := by decide +kernel

/-- The legs of bridge 0 do not share a slot or a context. -/
theorem wit_BridgeMixes_legs :
    (∀ h ∈ [leg 1 (.tie 75 .clear) 16 64512, leg 3 (.tie 100 (.priv 1)) 24 98000], h.slot ≠ .station 6)
      ∧ (∀ h ∈ [leg 2 (.station 6) 16 9728] ++ [leg 3 (.tie 100 (.priv 1)) 24 98000], ∀ v, h.slot ≠ .tie 75 v)
      ∧ ∀ h ∈ [leg 2 (.station 6) 16 9728, leg 1 (.tie 75 .clear) 16 64512] ++ [],
        (∀ v, h.slot ≠ .tie 100 v) ∧ ∀ m, h.slot ≠ .tie m (.priv 1) := by
  simp [leg]

theorem wit_WindowBoundaryChoosesTheTalker :
    Table.find (beginWork { demo with bridges := [(0, { bridge0 with windowCount := 64 })] }).bridges 0
      = some { bridge0 with windowCount := 64 } := by decide +kernel

theorem wit_SurveyMeasuresOnTriggers :
    ((surveying 10 20).survey.state = .measuring 1 10 20 32 ∧ (surveying 10 20).survey.entries[1 - 1]? = some ⟨.tie 100, false⟩)
      ∧ bare.survey.state = .stopped
      ∧ (let v := { Survey.reset with trigger := .syncLost 191, state := .standby }
        v.trigger = .syncLost 191 ∧ v.state = .standby ∧ v.trigger ≠ .syncLost 190)
      ∧ (let v := { Survey.reset with trigger := .syncLost 191, state := .measuring 2 0 0 63 }
        v.trigger = .syncLost 191 ∧ 63 < v.window) := by decide +kernel

/-- No context holds tie slot 72, context 0 alone holds 71, and the survey's work is owed or not. -/
theorem wit_SurveyMeasures_frame :
    Table.sorted demo.ctxs = true ∧ (∀ e ∈ demo.ctxs, e.2.tieSlot ≠ 72) ∧ Table.find demo.ctxs 0 = some ctx0
      ∧ (∀ e ∈ demo.ctxs, e.1 ≠ 0 → e.2.tieSlot ≠ ctx0.tieSlot) ∧ demo.work.surveyLater = false
      ∧ (beginWork { demo with work := ⟨true, true, none⟩ }).work.surveyOwed.isSome = true
      ∧ Table.find ([] : Table Code) 72 = none ∧ Table.find [((71 : Nat), (53 : Code))] 71 = some 53 := by decide +kernel

/-- At the CLEAR point of context 0's tie slot the survey measures the idle line code descrambled with byte 103 of 2.1:
153, of magnitude (16 + 9) × 2 − 16 = 34 (R14, R116, R150). -/
theorem test_survey_clear_point :
    let v : Survey := { demo.survey with entries := [⟨.tie 71, true⟩], state := .measuring 1 0 0 0 }
    (processFrame { demo with survey := v }).survey.state = .measuring 1 34 34 1 := by decide +kernel

theorem wit_SurveyEntryCompletes :
    (beginWork (surveying 40000 3952)).work.surveyOwed = none
      ∧ (beginWork (surveying 40000 3952)).survey.state
        = .measuring 1 40000 3952 (beginWork (surveying 40000 3952)).survey.window
      ∧ (beginWork (surveying 40000 3952)).survey.entries[1 - 1]? = some ⟨.tie 100, false⟩ := by decide +kernel

theorem wit_EventIsQueuedOrLost :
    (Port.reset.state ≠ .up) ∧ (up.state = .up ∧ EventKind.enabled up.enables (.tieRestored 7) = true ∧ up.events.length < 32)
      ∧ 32 ≤ ({ up with events := List.replicate 32 ⟨.tieRestored 7, 0⟩ } : Port).events.length := by decide +kernel

/-! Admission, store, orphans and links. -/

theorem wit_ChallengeExpiryIsAFailure :
    (((workDue { demo with frameCount := 20001 }).ext 5).challenge = some ⟨50000000, .b, 20001⟩
        ∧ (workDue { demo with frameCount := 20001 }).frameCount = 20001 ∧ (workDue demo).frameCount ≠ 20001)
      ∧ ((demo.ext 5).path = none ∧ (demo.ext 4).isAdmitted = true ∧ (demo.ext 4).path = some 0) := by decide +kernel

theorem wit_ChallengeExpiry_law : StationLaw (withStep .startUpLoad demo) := (demo_laws_with _).stations

theorem wit_ChallengeExpiry_none : ((workDue demo).ext 1).challenge = none := by decide +kernel

/-- A failure at the limit of an ADMITTED extension with a path in use, of either cause; the expired marker clear. -/
theorem wit_ChallengeExpiry_path :
    (demo.ext 4).path = some 0 ∧ ({ demo with failLimit := 1 } : State).failLimit ≤ (demo.ext 4).failures + 1
      ∧ (demo.ext 4).expired = false := by decide +kernel

/-- A mismatch raises no ADMISSION_FAILED: LOCKED_OUT, DEADMITTED of cause RECHECK_FAILED with the path, then the
clearing's PATH_CLEARED, on the issuing link, which is the path's controller (R55, R62, R67). -/
theorem test_mismatch_events :
    let t := failChallenge 4 ⟨5, .a, 20001⟩ .wrongAnswer { demo with failLimit := 1 }
    t.portA.events.map (fun e => e.kind)
      = [.lockedOut 4 .wrongAnswer 480000, .deadmitted 4 .recheckFailed (some 0), .pathCleared 0 path0.kind 100 .deadmitted]
      ∧ t.portM.events.map (fun e => e.kind) = [.lockedOut 4 .wrongAnswer 480000] ∧ t.portB.events = [] := by decide +kernel

theorem wit_LockoutEnds :
    (((workDue { demo with exts := [(3, ext 3 (.locked 0))] }).ext 3).standing = .locked 0)
      ∧ (∃ p, TakenBy (.unlock .m 1 3) demo .m p) ∧ (3 : Word16).toNat < 2048
      ∧ ((settle demo).ext 3).standing = .locked 5
      ∧ (∃ p, TakenBy (.unlock .m 1 2047) demo .m p) ∧ ((settle demo).ext 2047).standing = .vacant :=
  ⟨by decide +kernel, takenBy_of_taken (by decide +kernel), by decide, by decide +kernel,
    takenBy_of_taken (by decide +kernel), by decide +kernel⟩

theorem wit_StoreOperationCompletes :
    (workDue (busy (.program 101 (rec 6)) 0)).engine = some { job := .program 101 (rec 6), remaining := 0 }
      ∧ (workDue (busy (.program 101 (rec 6)) 0)).portM.inProgress = some { kind := 4, tag := 9, earlier := false }
      ∧ (workDue (busy (.erase 1) 0)).engine = some { job := .erase 1, remaining := 0 } := by decide +kernel

/-- The same in an earlier session, whose response is discarded. -/
theorem wit_StoreOperation_earlier :
    ∀ j ∈ [Job.program 1 (rec 500), .erase 1],
      let s := { busy j 0 with portM := { up with inProgress := some ⟨4, 9, true⟩ } }
      (workDue s).engine = some { job := j, remaining := 0 }
        ∧ (workDue s).portM.inProgress = some { kind := 4, tag := 9, earlier := true } := by decide +kernel

/-- Extension 1 is programmed to another slot: its old slot is empty, and another's stays bound. -/
theorem test_program_moves_the_binding :
    (let t := after (exec .programComplete { demo with
        engine := some ⟨.program 1 (rec 500), 0⟩, portM := { up with inProgress := some ⟨4, 9, true⟩ } });
      (Table.find t.slotMap 1, Table.find t.slotMap 500, Table.find t.slotMap 2, t.portM.response, t.portM.inProgress))
        = (none, some 1, some 2, none, none) := by decide +kernel

/-- A load of two entries after its first. -/
def loads (second : StoredOps) (k : Nat) : State :=
  busy (.load [⟨100, 0, 0, 1, 1, 5⟩, second] k 100 (rec 5)) 0

/-- Entry 0 done: entry 1 is begun, refused for its slot, or refused for the index of entry 0; or the load is over. -/
theorem wit_LoadEntryCompletes :
    (∀ o ∈ [⟨101, 0, 0, 1, 1, 6⟩, ⟨101, 0, 0, 1, 1, 5⟩, ⟨100, 0, 0, 1, 1, 6⟩],
      (workDue (loads o 0)).engine
          = some { job := .load [⟨100, 0, 0, 1, 1, 5⟩, o] 0 100 (rec 5), remaining := 0 }
        ∧ (workDue (loads o 0)).portM.inProgress = some { kind := 4, tag := 9, earlier := false }
        ∧ ([⟨100, 0, 0, 1, 1, 5⟩, o] : List StoredOps)[0 + 1]? = some o)
      ∧ (match checkRecord ⟨101, 0, 0, 1, 1, 6⟩ (finishProgram 100 (rec 5) (workDue (loads ⟨101, 0, 0, 1, 1, 6⟩ 0))) with
          | .ok x => decide (x.1 = 101)
          | .error _ => false) = true
      ∧ (match checkRecord ⟨101, 0, 0, 1, 1, 5⟩ (finishProgram 100 (rec 5) (workDue (loads ⟨101, 0, 0, 1, 1, 5⟩ 0))) with
          | .ok _ => false
          | .error why => decide (why = .slotTaken)) = true
      ∧ (∃ q ∈ ([⟨100, 0, 0, 1, 1, 5⟩, ⟨100, 0, 0, 1, 1, 6⟩] : List StoredOps).take (0 + 1), q.ext = 100)
      ∧ ([⟨100, 0, 0, 1, 1, 5⟩, ⟨101, 0, 0, 1, 1, 6⟩] : List StoredOps)[1 + 1]? = none
      ∧ (workDue (loads ⟨101, 0, 0, 1, 1, 6⟩ 1)).engine
        = some { job := .load [⟨100, 0, 0, 1, 1, 5⟩, ⟨101, 0, 0, 1, 1, 6⟩] 1 100 (rec 5), remaining := 0 }
      ∧ (workDue { loads ⟨101, 0, 0, 1, 1, 6⟩ 0 with portM := { up with inProgress := some ⟨6, 9, true⟩ } }).portM.inProgress
        = some { kind := 6, tag := 9, earlier := true } := by decide +kernel

/-- An index that an earlier entry carries is refused BAD_OPERAND, code 4, with one entry left (R40, R41). -/
theorem test_load_index_twice :
    let t := after (exec .loadEntryComplete (loads ⟨100, 0, 0, 1, 1, 6⟩ 0))
    t.portM.response = some ⟨4, 9, .partial_, [1, 4]⟩ ∧ (t.ext 100).standing = .idle ∧ t.portA.changes = [100] := by
  decide +kernel

theorem wit_OrphanDeadlinePasses :
    (Table.find (workDue demo).paths 4 = some path4 ∧ path4.controller = .orphan .b 20001 ∧ path4.kind.code = 0)
      ∧ (Table.find (workDue demo).bridges 1 = some bridge1 ∧ bridge1.controller = .orphan .b 20001)
      ∧ (Table.find (workDue demo).paths 0 = some path0 ∧ path0.controller = .control .a)
      ∧ (Table.find (workDue demo).bridges 0 = some bridge0 ∧ bridge0.controller = .control .a)
      ∧ (Table.find (workDue demo).paths 3 = some path3 ∧ path3.kind.code ≠ 0) := by decide +kernel

theorem wit_LinksAlignAndStart :
    (settle { State.reset with boot := .loading }).boot ≠ .ended
      ∧ ((settle demo).boot = .ended ∧ ((settle demo).port .a).state = .up)
      ∧ ((settle { demo with portA := Port.reset }).port .a).state = .down
      ∧ ((settle { demo with portA := { Port.reset with state := .aligning } }).port .a).state = .aligning
      ∧ ({ demo with portA := { Port.reset with alignRun := 64 } } : State).portA.alignRun = 64 := by decide +kernel

theorem wit_SymbolsReachThePort :
    ((settle { demo with portB := Port.reset }).port .b).state ≠ .up
      ∧ ((settle demo).port .b).queue.length < 16 ∧ 16 ≤ (List.replicate 16 ([1, 1, 0] : List Byte)).length
      ∧ (List.replicate 15 (7 : Byte)).length < 16
      ∧ ((settle { demo with portB := { up with receiving := some [1] } }).port .b).receiving = some [1] := by
  decide +kernel

theorem wit_LinkLossOrphansItsCalls :
    (demo.boot = .ended ∧ ({ up with invalidRun := 16 } : Port).state = .up ∧ ({ up with invalidRun := 16 } : Port).invalidRun = 16)
      ∧ (({ up with invalidRun := 15, alignRun := 64 } : Port).invalidRun < 16)
      ∧ demo.orphanHold ≠ 0 ∧ (Table.find demo.paths 0 = some path0 ∧ path0.controller = .control .a) := by decide +kernel

theorem wit_LinkLoss_law : BridgeLaw (withStep .startUpLoad demo) := (demo_laws_with _).bridges

theorem wit_LinkLoss_no_hold :
    ({ demo with orphanHold := 0 } : State).orphanHold = 0 ∧ Table.find demo.bridges 0 = some bridge0
      ∧ bridge0.controller = .control .a := by decide +kernel

/-- Under a hold of 0 link A's loss clears its TIE path, then closes its bridge leg by leg, and reports each to the
other call processor; PATH_ORPHANED is not raised (R178). -/
theorem test_loss_without_hold :
    let t := controllerLoss .a { demo with orphanHold := 0, portA := Port.reset }
    t.portB.events.map (fun e => e.kind)
      = [.pathCleared 0 path0.kind 100 .orphanExpired, .pathCleared 2 path2.kind 100 .orphanExpired,
        .pathCleared 1 path1.kind 100 .orphanExpired, .pathCleared 3 path3.kind 100 .orphanExpired]
      ∧ t.paths.map Prod.fst = [4] ∧ t.bridges.map Prod.fst = [1] ∧ t.portM.events = [] := by decide +kernel

/-- An event frame written out: TIE_SLIP DELETED of highway 7 at frame 66051 (12.1, 12.5, R189). -/
theorem test_event_frame : Event.frame ⟨.tieSlip 7 true, 66051⟩ = [2, 16, 0, 1, 2, 3, 2, 7, 1] := by decide

theorem wit_ArbiterChoosesTheNextFrame :
    ((settle demo).port .a).partnerHold = false ∧ ({ up with partnerHold := true } : Port).partnerHold = true
      ∧ ({ up with overrun := [7] } : Port).overrun = 7 :: []
      ∧ ({ up with response := some ⟨1, 1, .ok, []⟩ } : Port).response = some ⟨1, 1, .ok, []⟩
      ∧ ({ up with events := [⟨.tieRestored 0, 5⟩], lost := some 6 } : Port).lost = some 6
      ∧ ((settle demo).port .a).events = [] := by decide +kernel

/-! Commands. -/

theorem wit_SampleCode : (127 : Code) ≠ 128 := by decide

theorem wit_ReadPartIdentifiesThePart : ∃ p, TakenBy (.readPart .m 1) demo .m p := takenBy_of_taken (by decide +kernel)

theorem wit_ReadsAnswerTheRecord :
    (∃ p, TakenBy (.readExtension .a 1 2047) demo .a p)
      ∧ (∃ p, TakenBy (.readPath .a 1 ⟨0, 4⟩) demo .a p) ∧ Table.find (settle demo).paths (4 : Word16).toNat = some path4
      ∧ (∃ p, TakenBy (.readPath .a 1 ⟨1, 10⟩) demo .a p) ∧ Table.find (settle demo).stationOcc (10 : Word16).toNat = some 4
      ∧ (∃ p, TakenBy (.readPath .a 1 ⟨2, 40⟩) demo .a p) ∧ Table.find (settle demo).tieOcc (40 : Word16).toNat = some 4
      ∧ (∃ p, TakenBy (.readContext .b 1 191) demo .b p) ∧ (191 : Byte).toNat < 192
      ∧ (∃ p, TakenBy (.readBridge .b 1 31) demo .b p) ∧ (31 : Byte).toNat < 32
      ∧ (∃ p, TakenBy (.readSurvey .m 1) demo .m p) :=
  ⟨takenBy_of_taken (by decide +kernel), takenBy_of_taken (by decide +kernel), by decide +kernel,
    takenBy_of_taken (by decide +kernel), by decide +kernel, takenBy_of_taken (by decide +kernel), by decide +kernel,
    takenBy_of_taken (by decide +kernel), by decide, takenBy_of_taken (by decide +kernel), by decide,
    takenBy_of_taken (by decide +kernel)⟩

/-- The records of a LOCKED, a challenged and an ADMITTED extension, byte by byte from 12.3. -/
theorem test_extension_records :
    extensionBytes 3 { ext 3 (.locked 5) with failures := 3 }
        = [0, 3, 3, 0, 0, 3, 0, 0, 0, 5, 0, 0, 0, 0, 0, 0, 0, 0, 0, 0, 0, 0, 0, 0, 0, 0, 0, 0, 0, 1, 1, 1, 0, 3]
      ∧ extensionBytes 261 { ext 511 .idle with expired := true, challenge := some ⟨50000000, .b, 20001⟩ }
        = [1, 5, 1, 0, 1, 0, 0, 0, 0, 0, 1, 2, 250, 240, 128, 1, 0, 0, 78, 33, 0, 0, 0, 0, 0, 0, 0, 0, 0, 1, 1, 1, 1, 255]
      ∧ extensionBytes 4 { ext 4 (.admitted 10 .b) .privateOnly with programming := true, path := some 300 }
        = [0, 4, 2, 1, 0, 0, 0, 0, 0, 0, 0, 0, 0, 0, 0, 0, 0, 0, 0, 0, 1, 0, 0, 0, 10, 1, 1, 1, 44, 1, 2, 1, 0, 4] := by
  decide +kernel

/-- What the bytes of a record are stated of: a context whose path is there. -/
theorem wit_ReadsAnswer_context : Table.find demo.paths ctx0.path = some path0 := by decide +kernel

theorem wit_ParametersAreClampedAndWritten :
    (∃ p, TakenBy (.setAdmission .m 1 ⟨0, 16, 9⟩) demo .m p) ∧ (∃ p, TakenBy (.setPrivacyDefaults .m 1 ⟨31, 63, 0⟩) demo .m p)
      ∧ (∃ p, TakenBy (.setOrphanHold .m 1 121) demo .m p) ∧ (∃ p, TakenBy (.setLink .b 1 16) demo .b p)
      ∧ (∃ p, TakenBy (.setEvents .b 1 ⟨0, 1, 1, 1, 1, 1, 1, 0⟩) demo .b p) :=
  ⟨takenBy_of_taken (by decide +kernel), takenBy_of_taken (by decide +kernel), takenBy_of_taken (by decide +kernel),
    takenBy_of_taken (by decide +kernel), takenBy_of_taken (by decide +kernel)⟩

theorem wit_ExtensionTableCommandsBegin :
    (∃ p, TakenBy (.collectChanges .a 1) demo .a p) ∧ (∃ p, TakenBy (.setExtension .m 1 ⟨2047, 0, 0, 2, 0, 511⟩) demo .m p)
      ∧ (match checkRecord ⟨2047, 0, 0, 2, 0, 511⟩ (settle demo) with
          | .ok x => decide (x.1 = 2047)
          | .error _ => false) = true
      ∧ (∃ p, TakenBy (.eraseExtension .m 1 3) demo .m p) ∧ ((settle demo).ext 3).isAdmitted = false
      ∧ ((settle demo).ext 3).challenge = none
      ∧ (∃ p, TakenBy (.loadExtensions .m 1 ⟨1, [⟨2047, 0, 0, 2, 0, 511⟩]⟩) demo .m p)
      ∧ (∃ p, TakenBy (.loadExtensions .m 1 ⟨1, [⟨2, 0, 0, 2, 0, 511⟩]⟩) demo .m p)
      ∧ (match checkRecord ⟨2, 0, 0, 2, 0, 511⟩ (settle demo) with
          | .ok _ => false
          | .error why => decide (why = .inService)) = true :=
  ⟨takenBy_of_taken (by decide +kernel), takenBy_of_taken (by decide +kernel), by decide +kernel,
    takenBy_of_taken (by decide +kernel), by decide +kernel, by decide +kernel, takenBy_of_taken (by decide +kernel),
    takenBy_of_taken (by decide +kernel), by decide +kernel⟩

theorem wit_ChallengeAndAnswer :
    (∃ p, TakenBy (.challenge .b 1 1) demo .b p) ∧ (settle demo).nonce = some 50000000
      ∧ (∃ p, TakenBy (.answer .a 1 ⟨5, 3458164517⟩) demo .a p)
      ∧ ((settle demo).ext 5).challenge = some ⟨50000000, .b, 20001⟩ ∧ ((settle demo).ext 5).stored = some (rec 5)
      ∧ (3458164517 : Word32) = expectedResponse (rec 5).seed (rec 5).step 50000000 ∧ ((settle demo).ext 5).isAdmitted = false
      ∧ (3458164516 : Word32) ≠ expectedResponse (rec 5).seed (rec 5).step 50000000
      ∧ (∃ p, TakenBy (.answer .a 1 ⟨1, 0⟩) demo .a p) ∧ ((settle demo).ext 1).challenge = none :=
  ⟨takenBy_of_taken (by decide +kernel), by decide +kernel, takenBy_of_taken (by decide +kernel), by decide +kernel,
    by decide +kernel, by decide +kernel, by decide +kernel, by decide +kernel, takenBy_of_taken (by decide +kernel),
    by decide +kernel⟩

/-- An OPEN_TIE frame. -/
def openOps (station : Word16) (tie privacy : Byte) : OpenTieOps :=
  ⟨station, tie, privacy, ⟨1, 2, 3, 4⟩, ⟨0, 301, 300, 300⟩⟩

theorem wit_OpenTieOpensOrRefuses :
    (∃ p, TakenBy (.openTie .b 1 (openOps 2 255 0)) demo .b p)
      ∧ (Table.find (settle demo).stationOcc 2 = none ∧ Table.find (settle demo).tieOcc 255 = none
        ∧ Table.find (settle demo).slotMap 2 = some 2 ∧ ((settle demo).ext 2).standing.code = 2
        ∧ ((settle demo).ext 2).stored = some (rec 2) ∧ (rec 2).access = .any)
      ∧ Lowest (settle demo).paths 384 5 ∧ Lowest (settle demo).ctxs 192 2
      ∧ ((512 : Word16).toNat ≥ 512 ∧ (2 : Byte).toNat ≥ 2)
      ∧ (Table.find (settle demo).stationOcc 4 ≠ none ∧ Table.find (settle demo).slotMap 511 = none
        ∧ ((settle demo).ext 1).standing.code ≠ 2 ∧ ((settle demo).ext 8).stored = some (rec 8 .none)
        ∧ ((settle demo).ext 7).stored = some (rec 7 .privateOnly)) :=
  ⟨takenBy_of_taken (by decide +kernel), by decide +kernel, by unfold Lowest; decide +kernel,
    by unfold Lowest; decide +kernel, by decide, by decide +kernel⟩

theorem wit_OpenTie_no_context :
    ∀ i, i < 192 → Table.find ((List.range 192).map fun k => (k, ctx0)) i ≠ none := by decide +kernel

theorem wit_ClearingFreesThePath :
    (Table.find demo.paths 0 = some path0 ∧ path0.kind.bridge = none)
      ∧ (Table.find demo.paths 3 = some path3 ∧ path3.kind.bridge = some 0 ∧ Table.find demo.bridges 0 = some bridge0) := by
  decide +kernel

theorem wit_ClearingCommandsClear :
    (∃ p, TakenBy (.clearPath .b 1 ⟨4, ⟨1, 100⟩⟩) demo .b p) ∧ PathNamed ⟨4, ⟨1, 100⟩⟩ (settle demo) 4 path4
      ∧ (∃ p, TakenBy (.clearPath .b 1 ⟨0, ⟨0, 0⟩⟩) demo .b p) ∧ PathNamed ⟨0, ⟨0, 0⟩⟩ (settle demo) 0 path0
      ∧ path0.controller = .control .a
      ∧ (∃ p, TakenBy (.removeLeg .a 1 ⟨⟨0, ⟨1, 100⟩⟩, 1⟩) demo .a p) ∧ BridgeNamed ⟨0, ⟨1, 100⟩⟩ (settle demo) 0 bridge0
      ∧ bridge0.legs = [leg 2 (.station 6) 16 9728] ++ leg 1 (.tie 75 .clear) 16 64512 :: [leg 3 (.tie 100 (.priv 1)) 24 98000]
      ∧ (∃ p, TakenBy (.closeBridge .m 1 ⟨1, ⟨0, 0⟩⟩) demo .m p) ∧ BridgeNamed ⟨1, ⟨0, 0⟩⟩ (settle demo) 1 bridge1
      ∧ (∃ p, TakenBy (.release .b 1 4) demo .b p) ∧ ((settle demo).ext 4).standing = .admitted 10 .a :=
  ⟨takenBy_of_taken (by decide +kernel), by unfold PathNamed; decide +kernel, takenBy_of_taken (by decide +kernel),
    by unfold PathNamed; decide +kernel, rfl, takenBy_of_taken (by decide +kernel),
    by unfold BridgeNamed; decide +kernel, rfl, takenBy_of_taken (by decide +kernel),
    by unfold BridgeNamed; decide +kernel, takenBy_of_taken (by decide +kernel), by decide +kernel⟩

theorem wit_ResetTrafficFreesEverything :
    (∃ p, TakenBy (.resetTraffic .m 1) demo .m p) ∧ Table.sorted (settle demo).exts = true :=
  ⟨takenBy_of_taken (by decide +kernel), by decide +kernel⟩

/-- A STAGE_KEY of a transmit half with an epoch of 301 s, clamped, and no lead; no receive half. -/
def stageOps : StageKeyOps := ⟨⟨0, ⟨0, 0⟩⟩, ⟨1, 5, 6, ⟨1, 301⟩, ⟨0, 0⟩⟩, ⟨0, 0, 0, ⟨0, 0⟩, ⟨0, 0⟩⟩⟩

theorem wit_StageKeyStagesTheHalves :
    (∃ p, TakenBy (.stageKey .a 1 stageOps) demo .a p) ∧ PathNamed stageOps.ref (settle demo) 0 path0
      ∧ path0.controller = .control .a ∧ path0.kind.ctx = some 0 ∧ Table.find (settle demo).ctxs 0 = some ctx0
      ∧ (∀ h ∈ [stageOps.tx, stageOps.rx], h.present.toNat ≤ 1 ∧ h.epoch.present.toNat ≤ 1 ∧ h.lead.present.toNat ≤ 1) :=
  ⟨takenBy_of_taken (by decide +kernel), by unfold PathNamed; decide +kernel, rfl, rfl, by decide +kernel, by decide +kernel⟩

theorem wit_ResyncAndGuardReachTheContext :
    (∃ p, TakenBy (.resyncTx .a 1 ⟨0, ⟨0, 0⟩⟩) demo .a p) ∧ PathNamed ⟨0, ⟨0, 0⟩⟩ (settle demo) 0 path0
      ∧ path0.controller = .control .a ∧ path0.kind.ctx = some 0 ∧ Table.find (settle demo).ctxs 0 = some ctx0
      ∧ (∃ p, TakenBy (.setGuard .a 1 ⟨⟨0, ⟨0, 0⟩⟩, 63, 16, 0⟩) demo .a p)
      ∧ (∃ p, TakenBy (.resyncTx .a 1 ⟨4, ⟨0, 0⟩⟩) demo .a p) ∧ PathNamed ⟨4, ⟨0, 0⟩⟩ (settle demo) 4 path4
      ∧ path4.controller ≠ .control .a
      ∧ (∃ p, TakenBy (.resyncTx .a 1 ⟨2, ⟨0, 0⟩⟩) demo .a p) ∧ PathNamed ⟨2, ⟨0, 0⟩⟩ (settle demo) 2 path2
      ∧ path2.controller = .control .a ∧ path2.kind.ctx = none :=
  ⟨takenBy_of_taken (by decide +kernel), by unfold PathNamed; decide +kernel, rfl, rfl, by decide +kernel,
    takenBy_of_taken (by decide +kernel), takenBy_of_taken (by decide +kernel), by unfold PathNamed; decide +kernel,
    by decide, takenBy_of_taken (by decide +kernel), by unfold PathNamed; decide +kernel, rfl, rfl⟩

theorem wit_BridgeIsOpenedAndStaged :
    (∃ p, TakenBy (.openBridge .b 1 ⟨1, 3953⟩) demo .b p) ∧ Lowest (settle demo).bridges 32 2
      ∧ (∃ p, TakenBy (.setLeg .a 1 ⟨⟨0, ⟨0, 0⟩⟩, 1, 33, 1⟩) demo .a p) ∧ BridgeNamed ⟨0, ⟨0, 0⟩⟩ (settle demo) 0 bridge0
      ∧ bridge0.controller = .control .a
      ∧ (∀ h ∈ [leg 2 (.station 6) 16 9728] ++ [leg 3 (.tie 100 (.priv 1)) 24 98000], h.path ≠ (1 : Word16).toNat)
      ∧ (∃ p, TakenBy (.setTalker .a 1 ⟨⟨0, ⟨0, 0⟩⟩, 3953⟩) demo .a p) :=
  ⟨takenBy_of_taken (by decide +kernel), by unfold Lowest; decide +kernel, takenBy_of_taken (by decide +kernel),
    by unfold BridgeNamed; decide +kernel, rfl, by decide +kernel, takenBy_of_taken (by decide +kernel)⟩

/-- An ADD_LEG frame for bridge 0. -/
def addOps (kind : Byte) (station : Word16) (tie privacy : Byte) : AddLegOps :=
  ⟨⟨0, ⟨0, 0⟩⟩, kind, station, tie, privacy, ⟨1, 2, 3, 4⟩, ⟨1, 300, 0, 299⟩, 33, 0⟩

theorem wit_AddLegJoinsTheBridge :
    (∃ p, TakenBy (.addLeg .a 1 (addOps 0 2 0 0)) demo .a p) ∧ BridgeNamed ⟨0, ⟨0, 0⟩⟩ (settle demo) 0 bridge0
      ∧ (bridge0.controller = .control .a ∧ bridge0.legs.length < 8 ∧ (settle demo).legsInUse < 128)
      ∧ Lowest (settle demo).paths 384 5
      ∧ (Table.find (settle demo).stationOcc 2 = none ∧ Table.find (settle demo).slotMap 2 = some 2
        ∧ ((settle demo).ext 2).standing.code = 2 ∧ ((settle demo).ext 2).stored = some (rec 2) ∧ (rec 2).conference = true
        ∧ (rec 2).access = .any)
      ∧ (∃ p, TakenBy (.addLeg .a 1 (addOps 1 0 255 0)) demo .a p) ∧ (∃ p, TakenBy (.addLeg .a 1 (addOps 1 0 255 1)) demo .a p)
      ∧ Table.find (settle demo).tieOcc 255 = none
      ∧ (∀ g ∈ bridge0.legs, ∀ q e, Table.find (settle demo).paths g.path = some q → q.kind.ext = some e →
        ∃ r, ((settle demo).ext e).stored = some r ∧ r.access = .any)
      ∧ Lowest (settle demo).ctxs 192 2 := by
  refine ⟨takenBy_of_taken (by decide +kernel), by unfold BridgeNamed; decide +kernel, by decide +kernel,
    by unfold Lowest; decide +kernel, by decide +kernel, takenBy_of_taken (by decide +kernel),
    takenBy_of_taken (by decide +kernel), by decide +kernel, ?_, by unfold Lowest; decide +kernel⟩
  rw [test_demo_is_quiet]
  have two : (demo.ext 6).stored = some (rec 6) := by decide +kernel
  intro g hg q e hq he
  simp only [bridge0, leg, List.mem_cons, List.not_mem_nil, or_false] at hg
  rcases hg with rfl | rfl | rfl
  · have : Table.find demo.paths 2 = some path2 := by decide +kernel
    rw [this] at hq; cases hq; cases he; exact ⟨_, two, rfl⟩
  · have : Table.find demo.paths 1 = some path1 := by decide +kernel
    rw [this] at hq; cases hq; cases he
  · have : Table.find demo.paths 3 = some path3 := by decide +kernel
    rw [this] at hq; cases hq; cases he

theorem wit_SurveyCommandsSetAndRun :
    (∃ p, TakenBy (.setSurvey .m 1 ⟨2, [⟨0, 511, 0⟩, ⟨1, 255, 1⟩], 1, 2, 191, 0, 64, 4000, 0, 0⟩) demo .m p)
      ∧ (2 : Byte).toNat = ([⟨0, 511, 0⟩, ⟨1, 255, 1⟩] : List SurveyEntryOps).length
      ∧ ([⟨.station 511, false⟩, ⟨.tie 255, true⟩] : List SurveyEntry).Nodup
      ∧ (∃ p, TakenBy (.startSurvey .m 1) demo .m p) ∧ (∃ p, TakenBy (.stopSurvey .m 1) demo .m p) :=
  ⟨takenBy_of_taken (by decide +kernel), by decide, by decide, takenBy_of_taken (by decide +kernel),
    takenBy_of_taken (by decide +kernel)⟩

theorem wit_AdoptTakesTheOrphans :
    (∃ p, TakenBy (.adopt .m 1 0) demo .m p) ∧ (∃ p, TakenBy (.adopt .b 1 2) demo .b p) ∧ 2 ≤ (2 : Byte).toNat
      ∧ (∃ p, TakenBy (.adopt .a 1 1) demo .a p)
      ∧ ((settle demo).paths.filter fun e => e.2.kind.code = 0 ∧ Controller.isOrphanOf .b e.2.controller).length = 1 :=
  ⟨takenBy_of_taken (by decide +kernel), takenBy_of_taken (by decide +kernel), by decide,
    takenBy_of_taken (by decide +kernel), by decide +kernel⟩

/-! Refusals: a command that is taken, and what makes it refused. -/

theorem path_unnamed {r : PathRefOps} {s : State}
    (h : ∀ q ∈ Table.find s.paths r.path.toNat, ¬(r.stamp.present = 0 ∨ (r.stamp.present = 1 ∧ r.stamp.value = q.opened))) :
    ∀ id q, ¬PathNamed r s id q := fun _ q ⟨e, _, f, g⟩ => h q (e ▸ f) g

theorem bridge_unnamed {r : BridgeRefOps} {s : State}
    (h : ∀ q ∈ Table.find s.bridges r.bridge.toNat,
      ¬(r.stamp.present = 0 ∨ (r.stamp.present = 1 ∧ r.stamp.value = q.opened))) :
    ∀ b x, ¬BridgeNamed r s b x := fun _ x ⟨e, _, f, g⟩ => h x (e ▸ f) g

/-- The refusals of a path reference, at their boundaries: path 384, presence byte 2, a free record, another stamp. -/
theorem wit_PathUnnamed :
    PathUnnamed ⟨384, ⟨0, 0⟩⟩ (settle demo) .badOperand ∧ PathUnnamed ⟨0, ⟨2, 0⟩⟩ (settle demo) .badOperand
      ∧ PathUnnamed ⟨383, ⟨0, 0⟩⟩ (settle demo) .noPath ∧ PathUnnamed ⟨0, ⟨1, 101⟩⟩ (settle demo) .noPath :=
  ⟨.inl ⟨rfl, .inl (by decide)⟩, .inl ⟨rfl, .inr (by decide)⟩,
    .inr ⟨rfl, by decide, by decide, path_unnamed (by decide +kernel)⟩,
    .inr ⟨rfl, by decide, by decide, path_unnamed (by decide +kernel)⟩⟩

/-- The refusals of a bridge reference, for link B: not in range, free, another stamp, another link's. -/
theorem wit_BridgeRefusal :
    BridgeRefusal ⟨32, ⟨0, 0⟩⟩ .b (settle demo) .badOperand ∧ BridgeRefusal ⟨0, ⟨2, 0⟩⟩ .b (settle demo) .badOperand
      ∧ BridgeRefusal ⟨31, ⟨0, 0⟩⟩ .b (settle demo) .noBridge ∧ BridgeRefusal ⟨0, ⟨1, 101⟩⟩ .b (settle demo) .noBridge
      ∧ BridgeRefusal ⟨0, ⟨0, 0⟩⟩ .b (settle demo) .notController :=
  ⟨.inl (.inl ⟨rfl, .inl (by decide)⟩), .inl (.inl ⟨rfl, .inr (by decide)⟩),
    .inl (.inr ⟨rfl, by decide, by decide, bridge_unnamed (by decide +kernel)⟩),
    .inl (.inr ⟨rfl, by decide, by decide, bridge_unnamed (by decide +kernel)⟩),
    .inr ⟨0, bridge0, by unfold BridgeNamed; decide +kernel, rfl, by decide⟩⟩

/-- The refusals of a context: unnamed path, another link's, a path with no context. -/
theorem wit_ContextRefusal :
    ContextRefusal ⟨384, ⟨0, 0⟩⟩ .a (settle demo) .badOperand ∧ ContextRefusal ⟨5, ⟨0, 0⟩⟩ .a (settle demo) .noPath
      ∧ ContextRefusal ⟨4, ⟨0, 0⟩⟩ .a (settle demo) .notController
      ∧ ContextRefusal ⟨2, ⟨0, 0⟩⟩ .a (settle demo) .notPrivate :=
  ⟨.inl (.inl ⟨rfl, .inl (by decide)⟩),
    .inl (.inr ⟨rfl, by decide, by decide, path_unnamed (by decide +kernel)⟩),
    .inr ⟨4, path4, by unfold PathNamed; decide +kernel, .inl ⟨rfl, by decide⟩⟩,
    .inr ⟨2, path2, by unfold PathNamed; decide +kernel, .inr ⟨rfl, rfl, rfl⟩⟩⟩

theorem wit_Reads_refused :
    (∃ p, TakenBy (.readPath .a 1 ⟨3, 0⟩) demo .a p) ∧ (∃ p, TakenBy (.readPath .a 1 ⟨0, 383⟩) demo .a p)
      ∧ (3 ≤ (3 : Byte).toNat ∧ 384 ≤ (384 : Word16).toNat ∧ 512 ≤ (512 : Word16).toNat ∧ 256 ≤ (256 : Word16).toNat)
      ∧ (Table.find (settle demo).paths 383 = none ∧ Table.find (settle demo).stationOcc 511 = none
        ∧ Table.find (settle demo).tieOcc 255 = none)
      ∧ (∃ p, TakenBy (.readContext .b 1 192) demo .b p) ∧ (∃ p, TakenBy (.readBridge .b 1 32) demo .b p) :=
  ⟨takenBy_of_taken (by decide +kernel), takenBy_of_taken (by decide +kernel), by decide, by decide +kernel,
    takenBy_of_taken (by decide +kernel), takenBy_of_taken (by decide +kernel)⟩

theorem wit_ChallengeAndAnswer_refused :
    (∃ p, TakenBy (.challenge .a 1 2048) demo .a p) ∧ (∃ p, TakenBy (.answer .a 1 ⟨2048, 0⟩) demo .a p)
      ∧ 2048 ≤ (2048 : Word16).toNat :=
  ⟨takenBy_of_taken (by decide +kernel), takenBy_of_taken (by decide +kernel), by decide⟩

theorem wit_Parameters_refused :
    (∃ p, TakenBy (.setEvents .b 1 ⟨1, 1, 1, 1, 1, 1, 1, 2⟩) demo .b p)
      ∧ (∃ b ∈ ([1, 1, 1, 1, 1, 1, 1, 2] : List Byte), 2 ≤ b.toNat)
      ∧ (∃ p, TakenBy (.unlock .m 1 2048) demo .m p) ∧ 2048 ≤ (2048 : Word16).toNat :=
  ⟨takenBy_of_taken (by decide +kernel), by decide, takenBy_of_taken (by decide +kernel), by decide⟩

/-- The extension table's refusals: an index of 2048, an ADMITTED extension, one challenged, a count of 0 and of 17. -/
theorem wit_ExtensionTable_refused :
    (∃ p, TakenBy (.setExtension .m 1 ⟨2, 0, 0, 2, 0, 511⟩) demo .m p)
      ∧ (∃ p, TakenBy (.eraseExtension .m 1 2048) demo .m p) ∧ (∃ p, TakenBy (.eraseExtension .m 1 5) demo .m p)
      ∧ ((settle demo).ext 2).isAdmitted = true ∧ ((settle demo).ext 5).challenge ≠ none
      ∧ (∀ n ∈ ([0, 17] : List Byte), ∃ p,
        TakenBy (.loadExtensions .m 1 ⟨n, List.replicate n.toNat ⟨0, 0, 0, 0, 0, 0⟩⟩) demo .m p)
      ∧ ∀ n ∈ ([0, 17] : List Byte),
        (Instr.loadExtensions .m 1 ⟨n, List.replicate n.toNat ⟨0, 0, 0, 0, 0, 0⟩⟩).wellFormed = true
          ∧ (n.toNat = 0 ∨ 16 < n.toNat) := by
  refine ⟨takenBy_of_taken (by decide +kernel), takenBy_of_taken (by decide +kernel), takenBy_of_taken (by decide +kernel),
    by decide +kernel, by decide +kernel, fun n h => takenBy_of_taken ?_, by decide⟩
  revert n; decide +kernel

/-- SET_SURVEY's operands, each out of range in one thing alone (R148). -/
def badSurveys : List SetSurveyOps :=
  let e : SurveyEntryOps := ⟨0, 511, 0⟩
  [⟨0, [], 0, 0, 0, 0, 64, 0, 3952, 2⟩, ⟨9, (List.range 9).map fun k => ⟨0, BitVec.ofNat 16 k, 0⟩, 0, 0, 0, 0, 64, 0, 3952, 2⟩,
    ⟨1, [⟨2, 0, 0⟩], 0, 0, 0, 0, 64, 0, 3952, 2⟩, ⟨1, [⟨0, 512, 0⟩], 0, 0, 0, 0, 64, 0, 3952, 2⟩,
    ⟨1, [⟨1, 256, 0⟩], 0, 0, 0, 0, 64, 0, 3952, 2⟩, ⟨1, [⟨0, 511, 2⟩], 0, 0, 0, 0, 64, 0, 3952, 2⟩,
    ⟨2, [e, e], 0, 0, 0, 0, 64, 0, 3952, 2⟩, ⟨1, [e], 2, 0, 0, 0, 64, 0, 3952, 2⟩, ⟨1, [e], 0, 3, 0, 0, 64, 0, 3952, 2⟩,
    ⟨1, [e], 0, 0, 0, 0, 64, 0, 3952, 3⟩, ⟨1, [e], 0, 1, 192, 0, 64, 0, 3952, 2⟩, ⟨1, [e], 0, 2, 192, 0, 64, 0, 3952, 2⟩,
    ⟨1, [e], 0, 1, 191, 2, 64, 0, 3952, 2⟩]

theorem wit_SurveyCommands_refused :
    ∀ o ∈ badSurveys, (∃ p, TakenBy (.setSurvey .m 1 o) demo .m p) ∧ (Instr.setSurvey .m 1 o).wellFormed = true := by
  intro o h
  refine ⟨takenBy_of_taken ?_, ?_⟩ <;> revert o <;> decide +kernel

/-- Each is refused; the same settings with nothing out of range are taken. -/
theorem test_set_survey_refusals :
    badSurveys.map (fun o => answered .m (exec (.setSurvey .m 1 o) demo)) = List.replicate 13 (some (.badOperand, []))
      ∧ (answered .m (exec (.setSurvey .m 1 ⟨1, [⟨0, 511, 0⟩], 0, 1, 191, 1, 64, 0, 3952, 2⟩) demo)).map Prod.fst
        = some .ok := by
  decide +kernel

/-- Link B's clearing commands on what link A controls, and on what is not there. -/
theorem wit_ClearingCommands_refused :
    (∃ p, TakenBy (.clearPath .b 1 ⟨383, ⟨0, 0⟩⟩) demo .b p) ∧ (∃ p, TakenBy (.removeLeg .b 1 ⟨⟨0, ⟨0, 0⟩⟩, 384⟩) demo .b p)
      ∧ (∃ p, TakenBy (.removeLeg .b 1 ⟨⟨0, ⟨0, 0⟩⟩, 1⟩) demo .b p)
      ∧ (∃ p, TakenBy (.removeLeg .a 1 ⟨⟨0, ⟨0, 0⟩⟩, 0⟩) demo .a p) ∧ (∀ g ∈ bridge0.legs, g.path ≠ 0)
      ∧ (∃ p, TakenBy (.closeBridge .b 1 ⟨0, ⟨0, 0⟩⟩) demo .b p)
      ∧ (∃ p, TakenBy (.release .a 1 2048) demo .a p) ∧ (∃ p, TakenBy (.release .a 1 3) demo .a p)
      ∧ ((settle demo).ext 3).standing.code = 3 :=
  ⟨takenBy_of_taken (by decide +kernel), takenBy_of_taken (by decide +kernel), takenBy_of_taken (by decide +kernel),
    takenBy_of_taken (by decide +kernel), by decide +kernel, takenBy_of_taken (by decide +kernel),
    takenBy_of_taken (by decide +kernel), takenBy_of_taken (by decide +kernel), by decide +kernel⟩

theorem wit_StageKeyAndGuard_refused :
    (∃ p, TakenBy (.stageKey .a 1 ⟨⟨0, ⟨0, 0⟩⟩, ⟨1, 5, 6, ⟨0, 0⟩, ⟨2, 0⟩⟩, ⟨0, 0, 0, ⟨0, 0⟩, ⟨0, 0⟩⟩⟩) demo .a p)
      ∧ (∃ p, TakenBy (.stageKey .b 1 stageOps) demo .b p) ∧ (∃ p, TakenBy (.resyncTx .b 1 ⟨0, ⟨0, 0⟩⟩) demo .b p)
      ∧ (∃ p, TakenBy (.setGuard .a 1 ⟨⟨0, ⟨0, 0⟩⟩, 64, 1, 2⟩) demo .a p)
      ∧ (∃ p, TakenBy (.setGuard .a 1 ⟨⟨2, ⟨0, 0⟩⟩, 64, 1, 1⟩) demo .a p) :=
  ⟨takenBy_of_taken (by decide +kernel), takenBy_of_taken (by decide +kernel), takenBy_of_taken (by decide +kernel),
    takenBy_of_taken (by decide +kernel), takenBy_of_taken (by decide +kernel)⟩

theorem wit_BridgeCommands_refused :
    (∃ p, TakenBy (.openBridge .b 1 ⟨2, 0⟩) demo .b p)
      ∧ (∀ b, b < 32 → Table.find ((List.range 32).map fun k => (k, bridge1)) b ≠ none)
      ∧ (∃ p, TakenBy (.setLeg .a 1 ⟨⟨0, ⟨0, 0⟩⟩, 1, 16, 2⟩) demo .a p)
      ∧ (∃ p, TakenBy (.setLeg .b 1 ⟨⟨0, ⟨0, 0⟩⟩, 383, 16, 1⟩) demo .b p)
      ∧ (∀ g ∈ bridge0.legs, g.path ≠ 383) ∧ (∃ p, TakenBy (.setTalker .b 1 ⟨⟨0, ⟨0, 0⟩⟩, 0⟩) demo .b p) :=
  ⟨takenBy_of_taken (by decide +kernel), by decide +kernel, takenBy_of_taken (by decide +kernel),
    takenBy_of_taken (by decide +kernel), by decide +kernel, takenBy_of_taken (by decide +kernel)⟩

/-- ADD_LEG's operands in range and out of it, and a bridge, a slot and an extension for each of its checks. -/
theorem wit_AddLeg_refused :
    (∃ p, TakenBy (.addLeg .a 1 (addOps 2 0 0 0)) demo .a p) ∧ ¬AddLegReadable (addOps 2 0 0 0)
      ∧ ¬AddLegReadable (addOps 0 512 0 0) ∧ ¬AddLegReadable (addOps 1 0 0 2) ∧ AddLegReadable (addOps 0 511 0 0)
      ∧ AddLegReadable (addOps 1 0 0 1) ∧ 8 ≤ (List.replicate 8 (leg 2 (.station 6) 16 0)).length
      ∧ Table.find (settle demo).stationOcc 4 ≠ none ∧ Table.find (settle demo).slotMap 511 = none
      ∧ ((settle demo).ext 1).standing.code ≠ 2
      ∧ (((settle demo).ext 8).stored = some (rec 8 .none) ∧ (rec 8 .none).access = .none)
      ∧ (((settle demo).ext 7).stored = some (rec 7 .privateOnly) ∧ (rec 7 .privateOnly).conference = true)
      ∧ (∃ g ∈ bridge0.legs, g.slot = .tie 75 .clear) ∧ Table.find (settle demo).tieOcc 71 ≠ none :=
  ⟨takenBy_of_taken (by decide +kernel), by unfold AddLegReadable; decide, by unfold AddLegReadable; decide,
    by unfold AddLegReadable; decide, by unfold AddLegReadable; decide, by unfold AddLegReadable; decide, by decide,
    by decide +kernel, by decide +kernel, by decide +kernel, by decide +kernel, by decide +kernel, by decide +kernel,
    by decide +kernel⟩

/-- `demo` with the station leg's extension of another access: what a tie leg's class and privacy rules meet. -/
def demoAccess (a : TieAccess) : State :=
  { demo with exts := [(6, { ext 6 (.admitted 10 .a) a with path := some 2 })] }

theorem wit_AddLeg_tie_refused :
    ∀ a ∈ [TieAccess.none, .privateOnly], ∃ g ∈ bridge0.legs, ∃ q e r,
      Table.find (demoAccess a).paths g.path = some q ∧ q.kind.ext = some e
        ∧ ((demoAccess a).ext e).stored = some r ∧ r.access = a := by
  intro a h
  refine ⟨leg 2 (.station 6) 16 9728, by simp [bridge0], path2, 6, rec 6 a, rfl, rfl, ?_, rfl⟩
  revert a; decide +kernel

/-- The refusals as they are answered. -/
theorem test_add_leg_refusals :
    [addOps 0 4 0 0, addOps 0 511 0 0, addOps 0 1 0 0, addOps 0 8 0 0, addOps 0 7 0 0, addOps 1 0 71 0].map
        (fun o => (answered .a (exec (.addLeg .a 1 o) demo)).map Prod.fst)
      = [some .slotInUse, some .noExtension, some .notAdmitted, some .class_, some .privacyConflict, some .slotInUse] := by
  decide +kernel

end Sys2Proof.Tests
end

