-- ==== Sys2Proof/Proofs/SampleCode.lean ====
section
/-! PROOF. The log-8 code: its fields, the choice of the segment, the five steps of encoding, and O45 (R14, R15).

A magnitude and its segment are spoken of through `magnitude c + 16`, which is the product `(16 + step) * 2 ^ segment`:
decoding multiplies by `2 ^ segment`, encoding divides by it, and what the floor drops is the whole error. -/

namespace Sys2Proof.Machine

/-! ## The fields of a code -/

theorem codeSign_eq_true_iff (c : Code) : codeSign c = true ↔ 128 ≤ c.toNat := by simp [codeSign]

theorem codeSegment_le (c : Code) : codeSegment c ≤ 7 := by
  unfold codeSegment
  omega

theorem codeStep_le (c : Code) : codeStep c ≤ 15 := by
  unfold codeStep
  omega

theorem toNat_eq_fields (c : Code) :
    c.toNat = 128 * (codeSign c).toNat + 16 * codeSegment c + codeStep c := by
  have hc := c.isLt
  unfold codeSegment codeStep
  cases hs : codeSign c with
  | false =>
    have hlt : ¬ 128 ≤ c.toNat := by simp [← codeSign_eq_true_iff, hs]
    simp only [Bool.toNat_false]
    omega
  | true =>
    have hge := (codeSign_eq_true_iff c).mp hs
    simp only [Bool.toNat_true]
    omega

/-- The number of a code determines its fields: R14's sign, segment and step are the only ones. -/
theorem fields_of_toNat_eq {c : Code} {b : Bool} {e k : Nat} (he : e ≤ 7) (hk : k ≤ 15)
    (h : c.toNat = 128 * b.toNat + 16 * e + k) : codeSign c = b ∧ codeSegment c = e ∧ codeStep c = k := by
  have hsign : codeSign c = b := by
    rw [Bool.eq_iff_iff, codeSign_eq_true_iff]
    cases b with
    | false =>
      rw [Bool.toNat_false] at h
      simp only [Bool.false_eq_true, iff_false]
      omega
    | true =>
      rw [Bool.toNat_true] at h
      simp only [iff_true]
      omega
  refine ⟨hsign, ?_, ?_⟩
  · unfold codeSegment
    omega
  · unfold codeStep
    omega

/-! ## The magnitude -/

theorem magnitude_add_sixteen (c : Code) : magnitude c + 16 = (16 + codeStep c) * 2 ^ codeSegment c := by
  have hpos : 1 ≤ 2 ^ codeSegment c := Nat.one_le_two_pow
  have hge : 16 * 1 ≤ (16 + codeStep c) * 2 ^ codeSegment c := Nat.mul_le_mul (Nat.le_add_right ..) hpos
  unfold magnitude
  omega

/-- A magnitude is its segment's lower edge and `step` steps of `2 ^ segment`. -/
theorem magnitude_eq_edge_add_steps (c : Code) :
    magnitude c = (16 * 2 ^ codeSegment c - 16) + 2 ^ codeSegment c * codeStep c := by
  have hpos : 1 ≤ 2 ^ codeSegment c := Nat.one_le_two_pow
  have h := magnitude_add_sixteen c
  rw [Nat.add_mul, Nat.mul_comm (codeStep c)] at h
  omega

theorem magnitude_le_upper_edge (c : Code) : magnitude c ≤ 31 * 2 ^ codeSegment c - 16 := by
  have hstep := codeStep_le c
  unfold magnitude
  exact Nat.sub_le_sub_right (Nat.mul_le_mul_right _ (by omega)) 16

theorem magnitude_le (c : Code) : magnitude c ≤ 3952 := by
  have hupper := magnitude_le_upper_edge c
  have hpow : 2 ^ codeSegment c ≤ 2 ^ 7 := Nat.pow_le_pow_right (by decide) (codeSegment_le c)
  omega

theorem magnitude_eq_zero_iff (c : Code) : magnitude c = 0 ↔ codeSegment c = 0 ∧ codeStep c = 0 := by
  constructor
  · intro h
    have hedge := magnitude_eq_edge_add_steps c
    have hseg : codeSegment c = 0 := by
      by_contra hne
      have hpow : 2 ^ 1 ≤ 2 ^ codeSegment c := Nat.pow_le_pow_right (by decide) (Nat.pos_of_ne_zero hne)
      omega
    rw [hseg] at hedge
    omega
  · rintro ⟨hseg, hstep⟩
    simp [magnitude, hseg, hstep]

/-- R14's table of lower edges. -/
theorem lowerEdge_table {e : Nat} (he : e ≤ 7) :
    [0, 16, 48, 112, 240, 496, 1008, 2032].getD e 0 = 16 * 2 ^ e - 16 := by
  interval_cases e <;> rfl

/-- R14's table of upper edges. -/
theorem upperEdge_table {e : Nat} (he : e ≤ 7) :
    [15, 46, 108, 232, 480, 976, 1968, 3952].getD e 0 = 31 * 2 ^ e - 16 := by
  interval_cases e <;> rfl

/-! ## The linear value -/

@[simp] theorem natAbs_decodeSample (c : Code) : (decodeSample c).natAbs = magnitude c := by
  unfold decodeSample
  split <;> simp

theorem decodeSample_neg_iff (c : Code) : decodeSample c < 0 ↔ codeSign c = true ∧ magnitude c ≠ 0 := by
  unfold decodeSample
  split
  next hs =>
    simp only [hs, true_and]
    omega
  next hs =>
    simp only [hs, Bool.false_eq_true, false_and, iff_false]
    omega

/-- A code whose sign is the value's decodes to the value exactly when its magnitude is the value's. -/
theorem decodeSample_eq_iff {c : Code} {y : Int} (hs : codeSign c = decide (y < 0)) :
    decodeSample c = y ↔ magnitude c = y.natAbs := by
  unfold decodeSample
  rw [hs]
  simp only [decide_eq_true_eq]
  split <;> omega

/-! ## Clamping and the choice of the segment -/

theorem clampLinear_eq_max_min (x : Int) : clampLinear x = max (-3952) (min 3952 x) := by
  unfold clampLinear
  split
  · omega
  · split <;> omega

theorem natAbs_clampLinear_le (x : Int) : (clampLinear x).natAbs ≤ 3952 := by
  rw [clampLinear_eq_max_min]
  omega

theorem clampLinear_of_natAbs_le {y : Int} (h : y.natAbs ≤ 3952) : clampLinear y = y := by
  rw [clampLinear_eq_max_min]
  omega

theorem segmentBelow_le (m n : Nat) : segmentBelow m n ≤ n := by
  induction n with
  | zero => exact le_rfl
  | succ n ih =>
    unfold segmentBelow
    split <;> omega

theorem edge_segmentBelow_le (m n : Nat) : 16 * 2 ^ segmentBelow m n - 16 ≤ m := by
  induction n with
  | zero => simp [segmentBelow]
  | succ n ih =>
    unfold segmentBelow
    split
    next h => exact h
    next => exact ih

theorem le_segmentBelow {m n k : Nat} (hk : k ≤ n) (hedge : 16 * 2 ^ k - 16 ≤ m) : k ≤ segmentBelow m n := by
  induction n with
  | zero => exact hk
  | succ n ih =>
    unfold segmentBelow
    split
    next => exact hk
    next hn =>
      have hne : k ≠ n + 1 := fun h => hn (h ▸ hedge)
      exact ih (by omega)

/-- Below a segment's end, at twice the width of its start, no higher segment is chosen. -/
theorem segmentBelow_eq {m n e : Nat} (he : e ≤ n) (hlow : 16 * 2 ^ e ≤ m + 16) (hhigh : m + 16 < 32 * 2 ^ e) :
    segmentBelow m n = e := by
  have hchosen := edge_segmentBelow_le m n
  have hge : e ≤ segmentBelow m n := le_segmentBelow he (by omega)
  have hle : segmentBelow m n < e + 1 := by
    rw [← Nat.pow_lt_pow_iff_right (a := 2) (by decide), Nat.pow_succ]
    omega
  omega

/-- In the segment chosen for a magnitude of the code's range, the quotient of R15's last step is 16 to 31. -/
theorem quotient_segmentBelow_bounds {m : Nat} (hm : m ≤ 3952) :
    16 ≤ (m + 16) / 2 ^ segmentBelow m 7 ∧ (m + 16) / 2 ^ segmentBelow m 7 ≤ 31 := by
  have hlow := edge_segmentBelow_le m 7
  have hhigh : m + 16 < 32 * 2 ^ segmentBelow m 7 := by
    by_contra hge
    have hnext : 16 * 2 ^ (segmentBelow m 7 + 1) - 16 ≤ m := by rw [Nat.pow_succ]; omega
    rcases Nat.lt_or_eq_of_le (segmentBelow_le m 7) with hlt | htop
    · have := le_segmentBelow (n := 7) hlt hnext
      omega
    · rw [htop] at hge
      omega
  constructor
  · rw [Nat.le_div_iff_mul_le (Nat.two_pow_pos _)]
    omega
  · exact Nat.le_of_lt_succ (Nat.div_lt_of_lt_mul (by rwa [Nat.mul_comm]))

/-! ## Encoding -/

theorem toNat_encodeSample (x : Int) :
    (encodeSample x).toNat = 128 * (decide (clampLinear x < 0)).toNat
      + 16 * segmentBelow (clampLinear x).natAbs 7
      + (((clampLinear x).natAbs + 16) / 2 ^ segmentBelow (clampLinear x).natAbs 7 - 16) := by
  have hseg := segmentBelow_le (clampLinear x).natAbs 7
  obtain ⟨-, hquot⟩ := quotient_segmentBelow_bounds (natAbs_clampLinear_le x)
  have hsign : (if clampLinear x < 0 then 128 else 0) = 128 * (decide (clampLinear x < 0)).toNat := by
    split <;> simp [*]
  have hbit := Bool.toNat_le (decide (clampLinear x < 0))
  simp only [encodeSample, hsign, BitVec.toNat_ofNat]
  exact Nat.mod_eq_of_lt (by omega)

/-- The fields of an encoded value are what R15's steps give. -/
theorem encodeSample_fields (x : Int) :
    codeSign (encodeSample x) = decide (clampLinear x < 0)
      ∧ codeSegment (encodeSample x) = segmentBelow (clampLinear x).natAbs 7
      ∧ codeStep (encodeSample x)
          = ((clampLinear x).natAbs + 16) / 2 ^ segmentBelow (clampLinear x).natAbs 7 - 16 := by
  obtain ⟨-, hquot⟩ := quotient_segmentBelow_bounds (natAbs_clampLinear_le x)
  exact fields_of_toNat_eq (segmentBelow_le ..) (by omega) (toNat_encodeSample x)

theorem magnitude_encodeSample_add_sixteen (x : Int) :
    magnitude (encodeSample x) + 16
      = ((clampLinear x).natAbs + 16) / 2 ^ segmentBelow (clampLinear x).natAbs 7
        * 2 ^ segmentBelow (clampLinear x).natAbs 7 := by
  obtain ⟨-, hseg, hstep⟩ := encodeSample_fields x
  obtain ⟨hquot, -⟩ := quotient_segmentBelow_bounds (natAbs_clampLinear_le x)
  rw [magnitude_add_sixteen, hseg, hstep, Nat.add_sub_cancel' hquot]

theorem magnitude_encodeSample_le (x : Int) : magnitude (encodeSample x) ≤ (clampLinear x).natAbs := by
  have hfloor := Nat.div_mul_le_self ((clampLinear x).natAbs + 16) (2 ^ segmentBelow (clampLinear x).natAbs 7)
  rw [← magnitude_encodeSample_add_sixteen] at hfloor
  omega

theorem natAbs_clampLinear_lt_magnitude_encodeSample (x : Int) :
    (clampLinear x).natAbs < magnitude (encodeSample x) + 2 ^ segmentBelow (clampLinear x).natAbs 7 := by
  have hfloor := Nat.lt_div_mul_add (a := (clampLinear x).natAbs + 16)
    (Nat.two_pow_pos (segmentBelow (clampLinear x).natAbs 7))
  rw [← magnitude_encodeSample_add_sixteen] at hfloor
  omega

/-- The floor drops nothing exactly at the values of the segment's grid. -/
theorem decodeSample_encodeSample_iff (x : Int) :
    decodeSample (encodeSample x) = clampLinear x
      ↔ 2 ^ segmentBelow (clampLinear x).natAbs 7 ∣ (clampLinear x).natAbs + 16 := by
  obtain ⟨hsign, -, -⟩ := encodeSample_fields x
  rw [decodeSample_eq_iff hsign, Nat.dvd_iff_div_mul_eq, ← magnitude_encodeSample_add_sixteen]
  omega

/-! ## A decoded code encodes to itself -/

theorem segmentBelow_magnitude (c : Code) : segmentBelow (magnitude c) 7 = codeSegment c := by
  have hpos : 1 ≤ 2 ^ codeSegment c := Nat.one_le_two_pow
  have hlow := magnitude_eq_edge_add_steps c
  have hhigh := magnitude_le_upper_edge c
  exact segmentBelow_eq (codeSegment_le c) (by omega) (by omega)

/-- Code 128, the only code with a sign and no magnitude, is the only one whose sign decoding loses. -/
theorem decide_decodeSample_neg {c : Code} (hc : c ≠ 128) : decide (decodeSample c < 0) = codeSign c := by
  rw [Bool.eq_iff_iff, decide_eq_true_eq, decodeSample_neg_iff, and_iff_left_iff_imp]
  intro hsign hzero
  obtain ⟨hseg, hstep⟩ := (magnitude_eq_zero_iff c).mp hzero
  have hnum := toNat_eq_fields c
  rw [hsign, hseg, hstep] at hnum
  exact hc (BitVec.eq_of_toNat_eq hnum)

theorem encodeSample_decodeSample {c : Code} (hc : c ≠ 128) : encodeSample (decodeSample c) = c := by
  have hclamp : clampLinear (decodeSample c) = decodeSample c :=
    clampLinear_of_natAbs_le (by rw [natAbs_decodeSample]; exact magnitude_le c)
  apply BitVec.eq_of_toNat_eq
  rw [toNat_encodeSample, hclamp, decide_decodeSample_neg hc, natAbs_decodeSample, segmentBelow_magnitude,
    magnitude_add_sixteen, Nat.mul_div_cancel _ (Nat.two_pow_pos _), Nat.add_sub_cancel_left, ← toNat_eq_fields]

/-! ## The obligation -/

/-- Settles O45: the fields of a code are the witnesses of decoding, the clamped value, `segmentBelow` and the floored
quotient those of encoding. -/
theorem sampleCodeDecodesAndEncodes : Obligations.SampleCodeDecodesAndEncodes := by
  refine ⟨fun c => ?decode, by decide, by decide, by decide, by decide, fun x => ?encode,
    fun c => encodeSample_decodeSample, by decide⟩
  case decode =>
    have hseg := codeSegment_le c
    have hsign : (codeSign c).toNat = 0 ↔ codeSign c = false := Bool.toNat_eq_zero
    refine ⟨(codeSign c).toNat, codeSegment c, codeStep c, Bool.toNat_le _, hseg, codeStep_le c,
      toNat_eq_fields c, ?_, rfl, magnitude_le c, ?_, ?_, ?_⟩
    · rw [hsign, ← Bool.not_eq_true, codeSign_eq_true_iff]
      omega
    · rw [lowerEdge_table hseg]
      exact magnitude_eq_edge_add_steps c
    · rw [upperEdge_table hseg]
      exact magnitude_le_upper_edge c
    · cases hs : codeSign c <;> simp [decodeSample, hs]
  case encode =>
    obtain ⟨-, hquot⟩ := quotient_segmentBelow_bounds (natAbs_clampLinear_le x)
    refine ⟨clampLinear x, segmentBelow (clampLinear x).natAbs 7, _, clampLinear_eq_max_min x, segmentBelow_le _ _,
      ?_, edge_segmentBelow_le _ _, fun k => le_segmentBelow, rfl, ?_, magnitude_encodeSample_le x,
      natAbs_clampLinear_lt_magnitude_encodeSample x, decodeSample_encodeSample_iff x⟩
    · omega
    · rw [toNat_encodeSample]
      split <;> simp [*]

end Sys2Proof.Machine
end

