-- ==== Sys2Proof/Proofs/ReadPart.lean ====
section
/-! PROOF. The answer to a taken command whose owner completes at once, the body of READ_PART's answer, and O46 (R174). -/

namespace Sys2Proof.Machine

/-- A taken command on a link it is accepted on, whose owner completes at once, is answered with the owner's result and
body on the owner's state (R168). -/
theorem exec_eq_answer_of_owner {i : Instr} {s u : State} {l : Link} {p : Port} {kind tag : Byte} {ops body : List Byte}
    {owner : State → Reply} {r : Result} (h : TakenBy i s l p) (x : exec i s = command i s owner)
    (w : i.wellFormed = true) (e : encodeOperands i = some (l, kind, tag, ops)) (ok : acceptedOn i l = true)
    (o : owner (s.taking l p) = .done r body u) : exec i s = .next (u.answer l kind tag r body) := by
  rw [x, command_taken owner w e h, if_pos ok, o, answerCommand_done]

/-- The identity of the part is 9, 516, 1 (R174). -/
theorem identity_bytes :
    num8 Config.family ++ num16 Config.part ++ num8 Config.revision = ([9] : List Byte) ++ num16 516 ++ [1] := rfl

/-- The link's byte in an answer is its code (R184). -/
theorem linkByte_eq (l : Link) : linkByte l = [match l with | .a => 0 | .b => 1 | .m => 2] := by
  cases l with
  | a => rfl
  | b => rfl
  | m => rfl

/-- Taking the command leaves the start count as it was, so the owner reports that of the settled state (R34, R174). -/
theorem ownReadPart_taking (l : Link) (s : State) (p : Port) :
    ownReadPart l (s.taking l p) = .done .ok
      (([9] : List Byte) ++ num16 516 ++ ([1] : List Byte) ++ bytes32 (settle s).startCount
        ++ ([match l with | .a => 0 | .b => 1 | .m => 2] : List Byte)
        ++ num16 2048 ++ num16 384 ++ num16 192 ++ num16 32 ++ num16 8 ++ num16 128 ++ num16 8 ++ num16 16
        ++ num16 32) (s.taking l p) := by
  rw [ownReadPart, identity_bytes, State.taking_startCount, linkByte_eq]
  rfl

/-- Settles O46: READ_PART is accepted from every link, and its owner completes at once on the state with the command
taken. -/
theorem readPartIdentifiesThePart : Obligations.ReadPartIdentifiesThePart := by
  intro s l t p taken
  have dispatched : exec (.readPart l t) s = command (.readPart l t) s (ownReadPart l) := rfl
  exact exec_eq_answer_of_owner taken dispatched rfl rfl rfl (ownReadPart_taking l s p)

end Sys2Proof.Machine
end

