-- ==== Sys2Proof/Proofs/Adoption.lean ====
section
/-! PROOF. What ADOPT refuses, which paths and bridges it takes and how it counts them, and O60 (R181, R182). -/

namespace Sys2Proof.Machine

/-! ## The former controller -/

theorem formerLink_eq_none {x : Byte} (h : 2 ≤ x.toNat) : formerLink x = none := by
  have notA : x ≠ 0 := by rintro rfl; exact absurd h (by decide)
  have notB : x ≠ 1 := by rintro rfl; exact absurd h (by decide)
  rw [formerLink, if_neg notA, if_neg notB]

theorem formerLink_eq_some {x : Byte} {k : Link} (h : x = 0 ∧ k = .a ∨ x = 1 ∧ k = .b) :
    formerLink x = some k := by
  obtain ⟨rfl, rfl⟩ | ⟨rfl, rfl⟩ := h
  · rfl
  · rfl

/-! ## The orphans of a link, and their count -/

@[simp] theorem isOrphanOf_orphan (k f : Link) (d : Word32) :
    Controller.isOrphanOf k (.orphan f d) = decide (f = k) := rfl

/-- A choice by "is an orphan of `k`" is the case split on the controller field that R181 speaks of. -/
theorem ite_isOrphanOf {α : Type} (k : Link) (c : Controller) (taken kept : α) :
    (if Controller.isOrphanOf k c = true then taken else kept)
      = match c with
        | .control _ => kept
        | .orphan f _ => if f = k then taken else kept := by
  cases c with
  | control l => rfl
  | orphan f d => simp only [isOrphanOf_orphan, decide_eq_true_eq]

theorem isTie_eq_decide_code (p : Path) : p.isTie = decide (p.kind.code = 0) := by
  rw [Path.isTie]
  cases p.kind with
  | tie => rfl
  | bridgeStation => rfl
  | bridgeTie => rfl

theorem countPaths_tie (f : Controller → Bool) (t : Table Path) :
    countPaths (fun p => p.isTie && f p.controller) t
      = (t.filter fun e => e.2.kind.code = 0 ∧ f e.2.controller).length := by
  simp [countPaths, isTie_eq_decide_code]

theorem countPaths_leg (f : Controller → Bool) (t : Table Path) :
    countPaths (fun p => !p.isTie && f p.controller) t
      = (t.filter fun e => e.2.kind.code ≠ 0 ∧ f e.2.controller).length := by
  simp [countPaths, isTie_eq_decide_code]

theorem countBridges_eq (f : Controller → Bool) (t : Table Bridge) :
    countBridges (fun b => f b.controller) t = (t.filter fun e => f e.2.controller).length := by
  simp [countBridges]

/-! ## ADOPT's owner -/

theorem ownAdopt_refuses {x : Byte} (l : Link) (h : 2 ≤ x.toNat) (s : State) :
    ownAdopt l x s = refuse .badOperand s := by
  rw [ownAdopt, formerLink_eq_none h]

/-- Every orphan of the former controller is put under the adopting link's control and counted by what it is, and the
event goes to the other links (R181, R182). -/
theorem ownAdopt_takes {x : Byte} {l k : Link} {s : State} {ties brs legs : Nat} (hk : formerLink x = some k)
    (hties : ties = (s.paths.filter fun e => e.2.kind.code = 0 ∧ Controller.isOrphanOf k e.2.controller).length)
    (hbrs : brs = (s.bridges.filter fun e => Controller.isOrphanOf k e.2.controller).length)
    (hlegs : legs = (s.paths.filter fun e => e.2.kind.code ≠ 0 ∧ Controller.isOrphanOf k e.2.controller).length) :
    ownAdopt l x s = .done .ok (num16 ties ++ num8 brs ++ num8 legs)
      (raiseOn (.orphansAdopted l k ties brs legs) (otherLinks l)
        (recontrol (Controller.isOrphanOf k) (.control l) s)) := by
  simp only [ownAdopt, hk, countPaths_tie, countPaths_leg, countBridges_eq, ← hties, ← hbrs, ← hlegs]

/-! ## The obligation -/

/-- Settles O60: link M is not one that ADOPT is accepted on, a former controller of 2 or more names no link, and the
paths and bridges of an accepted ADOPT are those `recontrol` leaves. -/
theorem adoptTakesTheOrphans : Obligations.AdoptTakesTheOrphans := by
  have dispatched (l : Link) (t x : Byte) (s : State) :
      exec (.adopt l t x) s = command (.adopt l t x) s (ownAdopt l x) := rfl
  have accepted {l : Link} (t x : Byte) (h : l ≠ .m) : acceptedOn (.adopt l t x) l = true := decide_eq_true h
  refine ⟨fun s t x p taken => ?fromM, fun s l t x p taken notM large => ?badFormer,
    fun s l k t x p ties brs legs taken notM former hties hbrs hlegs => ?takes⟩
  case fromM =>
    rw [dispatched, command_taken (ownAdopt .m x) rfl rfl taken, if_neg (by simp [acceptedOn])]
  case badFormer =>
    exact refusedWith_of_owner taken (dispatched l t x s) rfl rfl (accepted t x notM) (ownAdopt_refuses l large _)
  case takes =>
    refine ⟨(recontrol (Controller.isOrphanOf k) (.control l) (s.taking l p)).paths,
      (recontrol (Controller.isOrphanOf k) (.control l) (s.taking l p)).bridges,
      fun id => ?paths, fun b => ?bridges, ?answer⟩
    case paths =>
      rw [recontrol_paths, Table.find_mapAll, State.taking_paths]
      exact Option.map_congr fun q _ => ite_isOrphanOf k q.controller { q with controller := .control l } q
    case bridges =>
      rw [recontrol_bridges, Table.find_mapAll, State.taking_bridges]
      exact Option.map_congr fun y _ => ite_isOrphanOf k y.controller { y with controller := .control l } y
    case answer =>
      rw [← State.taking_paths s l p] at hties hlegs
      rw [← State.taking_bridges s l p] at hbrs
      exact exec_eq_answer_of_owner taken (dispatched l t x s) rfl rfl (accepted t x notM)
        (ownAdopt_takes (formerLink_eq_some former) hties hbrs hlegs)

end Sys2Proof.Machine
end

