-- ==== Sys2Proof/Proofs/Changes.lean ====
section
/-! PROOF. What any step of the part can do, said once. Every step but a power-on reset is a run of the changes listed
here, each with what is known where the model makes it; a law that every change keeps is kept by every step. -/

namespace Sys2Proof.Machine

open Table (sorted)

/-! ## Ports -/

/-- What a symbol, a frame, an event, a command or its answer can do to a port: the link is UP as before, no queue grows
beyond its bound, and the change set rises as it did. -/
structure PortKept (p q : Port) : Prop where
  up : q.state = .up ↔ p.state = .up
  queue : q.queue.length ≤ max p.queue.length 16
  overrun : q.overrun.length ≤ max p.overrun.length 16
  events : q.events.length ≤ max p.events.length 32
  changes : risingIndices p.changes = true → risingIndices q.changes = true

/-- Only ports change, and as `PortKept` says. -/
structure PortsKept (s t : State) : Prop where
  rest : t = { s with portA := t.portA, portB := t.portB, portM := t.portM }
  kept : ∀ l, PortKept (s.port l) (t.port l)

/-! ## Records -/

/-- Both directions of a context keep the law of generators. -/
def Context.Lawful (c : Context) : Prop := DirLaw (c.running .tx) c.tx.dir ∧ DirLaw (c.running .rx) c.rx.dir

/-- A context changes: it belongs to the same path and tie slot, and its directions keep their laws. -/
structure ContextStep (c d : Context) : Prop where
  path : d.path = c.path
  tieSlot : d.tieSlot = c.tieSlot
  lawful : c.Lawful → d.Lawful

/-- A bridge changes: the same legs on the same slots, under the same controller. -/
structure BridgeStep (x y : Bridge) : Prop where
  controller : y.controller = x.controller
  legs : y.legs.map (fun g => (g.path, g.slot)) = x.legs.map (fun g => (g.path, g.slot))

/-- The record is as a store operation needs its extension: marked, with no challenge and not ADMITTED (R37). -/
def Ext.Reserved (e : Ext) : Prop := e.programming = true ∧ e.challenge = none ∧ e.isAdmitted = false

/-- An extension's record changes: it keeps its law, its stored fields and its path in use, and the reservation for a
store operation. -/
structure ExtStep (limit : Nat) (e f : Ext) : Prop where
  law : 1 ≤ limit → ExtLaw limit e → ExtLaw limit f
  stored : f.stored = e.stored
  path : f.path = e.path
  reserved : e.Reserved → f.Reserved

/-! ## The changes -/

/-- A change of what neither traffic nor the extensions rest on: ports that stay as UP as they were, the survey, what is
driven, highways, buffers, defaults and the nonce generator. -/
inductive Aside : State → State → Prop
  | ports {s t : State} (h : PortsKept s t) : Aside s t
  | queue (s : State) (is : List Instr) : Aside s { s with pending := is }
  | survey (s : State) (v : Survey) (h : sorted s.survey.results = true → sorted v.results = true) :
      Aside s { s with survey := v }
  | work (s : State) (w : FrameWork) : Aside s { s with work := w }
  | drive (s : State) (ds dt : Table Code) (hs : sorted s.drivenStation = true → sorted ds = true)
      (ht : sorted s.drivenTie = true → sorted dt = true) :
      Aside s { s with drivenStation := ds, drivenTie := dt }
  | highways (s : State) (hs : List Highway) (h : hs.length = s.highways.length) : Aside s { s with highways := hs }
  | buffers (s : State) (now : Word32) (r : FrameCodes) (h : sorted r.station = true)
      (ht : r.tie.length = s.highways.length) :
      Aside s { s with frameCount := now, buffer := s.reading, reading := r }
  | defaults (s : State) (hunt ceiling strikes hold : Nat) :
      Aside s { s with huntTime := hunt, guardCeiling := ceiling, guardStrikes := strikes, orphanHold := hold }
  | nonce (s : State) (f : Word32 → Word32) : Aside s { s with nonce := s.nonce.map f }

/-- A change of the extensions, their store and its engine, with traffic as it stands. -/
inductive ExtChange : State → State → Prop
  | frame (s : State) :
      ExtChange s { s with engine := s.engine.map Engine.frame, exts := Table.mapAll s.exts Ext.frame }
  | record (s : State) (i : Nat) (e : Ext) (h : ExtStep s.failLimit (s.ext i) e)
      (stays : (s.ext i).isAdmitted = true → e.isAdmitted = true) : ExtChange s (s.setExt i e)
  | limits (s : State) (limit window lockout : Nat) (h : 1 ≤ limit) :
      ExtChange s { s with failLimit := limit, challengeWindow := window, lockoutTime := lockout,
                           exts := Table.mapAll s.exts (Ext.adjust limit) }
  | begun (s : State) (i : Nat) (job : Job) (slot : Option Nat) (loaded : s.boot ≠ .reset)
      (target : job.target = some (i, slot)) (free : (s.ext i).challenge = none ∧ (s.ext i).isAdmitted = false)
      (unbound : ∀ n ∈ slot, ∀ e ∈ Table.find s.slotMap n, e = i) : ExtChange s (beginJob i job s)
  | programmed (s : State) (i : Nat) (r : Stored) (g : Engine) (busy : s.engine = some g)
      (target : g.job.target = some (i, some r.slot)) : ExtChange s (finishProgram i r s)
  | nextBegun (s : State) (i : Nat) (r : Stored) (g : Engine) (busy : s.engine = some g)
      (target : g.job.target = some (i, some r.slot)) (j : Nat) (job : Job) (slot : Option Nat)
      (next : job.target = some (j, slot))
      (free : ((finishProgram i r s).ext j).challenge = none ∧ ((finishProgram i r s).ext j).isAdmitted = false)
      (unbound : ∀ n ∈ slot, ∀ e ∈ Table.find (finishProgram i r s).slotMap n, e = j) :
      ExtChange s (beginJob j job (finishProgram i r s))
  | erased (s : State) (i : Nat) (g : Engine) (busy : s.engine = some g) (target : g.job.target = some (i, none)) :
      ExtChange s (finishErase i s)
  | load (s : State) (h : s.boot = .reset) : ExtChange s (startUpLoad s)
  | count (s : State) : ExtChange s (startCountDone s)

/-- The path that an OPEN_TIE which has passed its checks writes, after its context (R76, R77). -/
def openedTie (l : Link) (id station e tie : Nat) (priv : Bool) (k : KeyBlock) (t : Timing) (s : State) : State :=
  let x := allocate priv id tie k t s
  writePath id { kind := .tie station e tie x.2, controller := .control l, opened := s.frameCount } x.1

/-- The bridge with the leg that an ADD_LEG which has passed its checks joins to it (R78, R133). -/
def joinedLeg (b : Nat) (x : Bridge) (id : Nat) (g : NewLeg) (e : Option Nat) (k : KeyBlock) (t : Timing) (gain : Nat)
    (mode : Mode) (s : State) : State :=
  let y := placeLeg b id g e k t s
  let s' := writePath id { kind := y.2.1, controller := x.controller, opened := s.frameCount } y.1
  let leg : Leg := { path := id, slot := y.2.2, gain := gain, mode := mode, staged := none, sum := 0 }
  { s' with bridges := Table.put s'.bridges b { x with legs := x.legs ++ [leg] } }

/-- The slot of a leg that is to join is one of the part's. -/
def NewLeg.InRange : NewLeg → Prop
  | .station n => n < 512
  | .tie n _ => n < 256

/-- Clear an extension's path in use, if it has one. -/
def clearExtPath (p : Option Nat) (cause : ClearCause) (s : State) : State :=
  match p with
  | some id => clearPath id cause s
  | none => s

/-- One change, with what is known where a step of the model makes it. -/
inductive Change : State → State → Prop
  | aside {s t : State} (h : Aside s t) : Change s t
  | ext {s t : State} (h : ExtChange s t) : Change s t
  | linkUp (s : State) (l : Link) (h : s.boot = .ended) : Change s (s.onPort l Port.goUp)
  | linkDown (s : State) (l : Link) (d : Word32) :
      Change s (recontrol (fun c => decide (c = .control l)) (.orphan l d) (s.onPort l Port.goDown))
  | managerDown (s : State) : Change s (s.onPort .m Port.goDown)
  | adopt (s : State) (k l : Link) (call : l ≠ .m) (up : (s.port l).state = .up) :
      Change s (recontrol (Controller.isOrphanOf k) (.control l) s)
  | context (s : State) (i : Nat) (c d : Context) (h : Table.find s.ctxs i = some c) (step : ContextStep c d) :
      Change s (s.setCtx i d)
  | bridge (s : State) (b : Nat) (x y : Bridge) (h : Table.find s.bridges b = some x) (step : BridgeStep x y) :
      Change s { s with bridges := Table.put s.bridges b y }
  | clear (s : State) (id : Nat) (cause : ClearCause) : Change s (clearPath id cause s)
  | close (s : State) (b : Nat) (cause : ClearCause) : Change s (closeBridge b cause s)
  | clearAll (s : State) : Change s (clearTraffic s)
  | leave (s u : State) (i : Nat) (e : Ext) (cause : ClearCause) (h : ExtStep s.failLimit (s.ext i) e)
      (was : (s.ext i).isAdmitted = true) (isnt : e.isAdmitted = false) (events : PortsKept (s.setExt i e) u) :
      Change s (clearExtPath (s.ext i).path cause u)
  | openBridge (s : State) (l : Link) (b threshold : Nat) (call : l ≠ .m) (up : (s.port l).state = .up)
      (free : Table.find s.bridges b = none) :
      Change s { s with bridges := Table.put s.bridges b (Bridge.opening l s.frameCount threshold) }
  | openTie (s : State) (l : Link) (id station e tie : Nat) (priv : Bool) (k : KeyBlock) (t : TimingOps)
      (call : l ≠ .m) (up : (s.port l).state = .up) (range : station < 512 ∧ tie < 256)
      (check : checkOpenTie station tie priv s = .ok e) (free : s.freePath = some id) :
      Change s (openedTie l id station e tie priv k (takeTiming t) s)
  | join (s : State) (b : Nat) (x : Bridge) (id : Nat) (g : NewLeg) (e : Option Nat) (k : KeyBlock) (t : TimingOps)
      (gain : Nat) (mode : Mode) (found : Table.find s.bridges b = some x) (range : g.InRange)
      (check : checkNewLeg x g s = .ok e) (free : s.freePath = some id) (loaded : s.boot ≠ .reset) :
      Change s (joinedLeg b x id g e k (takeTiming t) gain mode s)

/-- One state becomes another by a run of changes. -/
abbrev Reaches : State → State → Prop := Relation.ReflTransGen Change

theorem Aside.reaches {s t : State} (h : Aside s t) : Reaches s t := .single (.aside h)

theorem ExtChange.reaches {s t : State} (h : ExtChange s t) : Reaches s t := .single (.ext h)

/-- What every change keeps, every run of changes keeps. -/
theorem Reaches.keeps {P : State → Prop} (one : ∀ s t, Change s t → P s → P t) {s t : State} (h : Reaches s t)
    (hs : P s) : P t := by
  induction h with
  | refl => exact hs
  | tail _ last ih => exact one _ _ last ih

/-! ## Ports that keep -/

theorem PortKept.refl (p : Port) : PortKept p p :=
  ⟨Iff.rfl, le_max_left _ _, le_max_left _ _, le_max_left _ _, id⟩

theorem PortKept.trans {p q r : Port} (a : PortKept p q) (b : PortKept q r) : PortKept p r where
  up := b.up.trans a.up
  queue := by have := a.queue; have := b.queue; omega
  overrun := by have := a.overrun; have := b.overrun; omega
  events := by have := a.events; have := b.events; omega
  changes := b.changes ∘ a.changes

theorem PortsKept.refl (s : State) : PortsKept s s := ⟨rfl, fun _ => .refl _⟩

theorem PortsKept.trans {s t u : State} (a : PortsKept s t) (b : PortsKept t u) : PortsKept s u where
  rest := by rw [b.rest, a.rest]
  kept l := (a.kept l).trans (b.kept l)

/-- A further change of ports that may or may not be made. -/
theorem PortsKept.maybe {s t u : State} (a : PortsKept s t) (b : PortsKept t u) (p : Prop) [Decidable p] :
    PortsKept s (if p then u else t) := by
  split
  · exact a.trans b
  · exact a

theorem PortsKept.reaches {s t : State} (h : PortsKept s t) : Reaches s t := (Aside.ports h).reaches

/-- One port changed as `PortKept` says. -/
theorem PortsKept.onPort {s : State} {l : Link} {f : Port → Port} (h : PortKept (s.port l) (f (s.port l))) :
    PortsKept s (s.onPort l f) where
  rest := by cases l <;> rfl
  kept k := by
    rw [State.port_onPort]
    split
    · rename_i e; rw [e]; exact h
    · exact .refl _

theorem PortsKept.setPort {s : State} {l : Link} {p : Port} (h : PortKept (s.port l) p) : PortsKept s (s.setPort l p) :=
  PortsKept.onPort (f := fun _ => p) h

theorem PortsKept.onPorts {s : State} {f : Port → Port} (h : ∀ p, PortKept p (f p)) : PortsKept s (s.onPorts f) where
  rest := rfl
  kept k := by rw [State.port_onPorts]; exact h _

/-! ## The operations on a port -/

theorem queueEvent_kept (p : Port) (e : Event) : PortKept p (p.queueEvent e) := by
  unfold Port.queueEvent
  split
  · split
    · rename_i h
      simp only [Config.eventQueue] at h
      exact { PortKept.refl p with events := by simp only [List.length_append, List.length_singleton]; omega }
    · exact { PortKept.refl p with }
  · exact .refl p

theorem raiseOn_kept (k : EventKind) (ls : List Link) (s : State) : PortsKept s (raiseOn k ls s) := by
  induction ls generalizing s with
  | nil => exact .refl s
  | cons l ls ih => exact (PortsKept.onPort (queueEvent_kept _ _)).trans (ih _)

theorem raiseIf_kept (e : Option (EventKind × List Link)) (s : State) : PortsKept s (raiseIf e s) := by
  cases e with
  | none => exact .refl s
  | some x => exact raiseOn_kept x.1 x.2 s

theorem raiseSlips_kept (h : Nat) (rs : List TieRead) (s : State) : PortsKept s (raiseSlips h rs s) := by
  induction rs generalizing h s with
  | nil => exact .refl s
  | cons r rs ih =>
    refine PortsKept.trans ?_ (ih _ _)
    cases r.slip with
    | normal => exact .refl s
    | repeated => exact raiseOn_kept _ _ s
    | deleted => exact raiseOn_kept _ _ s

theorem noteChange_kept (i : Nat) (s : State) : PortsKept s (noteChange i s) :=
  PortsKept.onPorts fun p => { PortKept.refl p with changes := fun h => risingIndices_insertIndex h i }

theorem setOwnHold_kept (p : Port) (hold : Bool) : PortKept p (p.setOwnHold hold) := by
  unfold Port.setOwnHold
  split
  · exact .refl p
  · exact { PortKept.refl p with }

theorem frameReceived_kept (p : Port) (f : List Byte) : PortKept p (p.frameReceived f) := by
  unfold Port.frameReceived
  by_cases room : p.queue.length < Config.commandQueue
  · have longer : PortKept p { p with queue := p.queue ++ [f] } :=
      { PortKept.refl p with
        queue := by
          simp only [Config.commandQueue] at room
          simp only [List.length_append, List.length_singleton]; omega }
    rw [if_pos room]
    simp only []
    split_ifs
    · exact longer.trans (setOwnHold_kept _ _)
    · exact longer
  · rw [if_neg room]
    by_cases listed : p.overrun.length < Config.overrunList
    · rw [if_pos listed]
      simp only [Config.overrunList] at listed
      exact { PortKept.refl p with overrun := by simp only [List.length_append, List.length_singleton]; omega }
    · rw [if_neg listed]; exact .refl p

theorem validSymbol_kept (p : Port) : PortKept p p.validSymbol := { PortKept.refl p with }

theorem receiving_kept (p : Port) (r : Option (List Byte)) : PortKept p { p with receiving := r } :=
  { PortKept.refl p with }

theorem take_kept {p q : Port} {f : List Byte} (h : p.take f = some q) : PortKept p q := by
  obtain ⟨up, -, -, up', -, -, events, changes, -, -, -, -, -, overrun, queue⟩ := take_eq_some h
  exact ⟨by simp [up, up'], queue, overrun, by rw [events]; exact le_max_left _ _, by rw [changes]; exact id⟩

theorem breakAlignment_kept {p : Port} (h : p.state ≠ .up) : PortKept p p.breakAlignment :=
  { PortKept.refl p with up := by simp [Port.breakAlignment, h] }

theorem upSymbol_kept (p : Port) (sym : OtherSymbol) : PortKept p (p.upSymbol sym) := by
  unfold Port.upSymbol
  split
  · exact { PortKept.refl p with }
  · exact validSymbol_kept p
  · exact { PortKept.refl p with }
  · exact { PortKept.refl p with }
  · split
    · exact ((validSymbol_kept p).trans (receiving_kept _ _)).trans (frameReceived_kept _ _)
    · exact { PortKept.refl p with }
    · exact { PortKept.refl p with }

theorem otherSymbol_kept (p : Port) (sym : OtherSymbol) : PortKept p (p.otherSymbol sym) := by
  unfold Port.otherSymbol
  split
  · exact upSymbol_kept p sym
  · rename_i h; exact breakAlignment_kept (by simp [h])
  · rename_i h; exact breakAlignment_kept (by simp [h])

theorem wholeFrame_kept (p : Port) (f : List Byte) : PortKept p (p.wholeFrame f) := by
  unfold Port.wholeFrame
  split
  · have fresh : PortKept p { p.validSymbol with receiving := none } := { PortKept.refl p with }
    cases f with
    | nil => exact fresh
    | cons b rest => exact fresh.trans (frameReceived_kept _ _)
  · rename_i h; exact breakAlignment_kept (by simp [h])
  · rename_i h; exact breakAlignment_kept (by simp [h])

theorem holdSymbol_kept (p : Port) (hold : Bool) : PortKept p (p.holdSymbol hold) := by
  unfold Port.holdSymbol
  split
  · exact { PortKept.refl p with }
  · rename_i h; exact breakAlignment_kept (by simp [h])
  · rename_i h; exact breakAlignment_kept (by simp [h])

theorem alignSymbol_kept (p : Port) : PortKept p p.alignSymbol := by
  unfold Port.alignSymbol
  split
  · exact { PortKept.refl p with }
  · exact .refl p
  · exact { PortKept.refl p with }

theorem align_kept (p : Port) : PortKept p p.align := by
  unfold Port.align
  split
  · rename_i h; exact { PortKept.refl p with up := by simp [h.1] }
  · exact .refl p

/-- The transmitter takes one thing that waits; EVENTS_LOST comes into the place of the event that leaves (R170). -/
theorem begin_kept (p : Port) (now : Word32) : PortKept p (p.begin now) := by
  unfold Port.begin
  split
  · split
    · rename_i e
      exact { PortKept.refl p with overrun := by simp only [e, List.length_cons]; omega }
    · split
      · exact { PortKept.refl p with }
      · split
        · rename_i e
          split
          · exact { PortKept.refl p with
                    events := by simp only [e, List.length_append, List.length_cons, List.length_nil]; omega }
          · exact { PortKept.refl p with events := by simp only [e, List.length_cons]; omega }
        · exact .refl p
  · exact .refl p

theorem answer_kept (s : State) (l : Link) (kind tag : Byte) (r : Result) (body : List Byte) :
    PortsKept s (s.answer l kind tag r body) := PortsKept.onPort { PortKept.refl _ with }

theorem await_kept (s : State) (l : Link) (kind tag : Byte) : PortsKept s (s.await l kind tag) :=
  PortsKept.onPort { PortKept.refl _ with }

theorem completeCommand_kept (l : Link) (r : Result) (body : List Byte) (s : State) :
    PortsKept s (completeCommand l r body s) := by
  refine PortsKept.onPort ?_
  simp only []
  split
  · split
    · exact { PortKept.refl _ with }
    · exact { PortKept.refl _ with }
  · exact .refl _

end Sys2Proof.Machine
end

