-- ==== Sys2Proof/Proofs/Directions.lean ====
section
/-! PROOF. The law of one direction (R90, R95, R96) through every operation of the privacy unit: an epoch start, an
advance, a rollover, a rest, a frame's work, a staged half. -/

namespace Sys2Proof.Machine

/-! ## One direction -/

/-- Length and lead of a direction, in force and staged, are as R73 and R103 take them. -/
def DirState.Timed (d : DirState) : Prop :=
  8000 ≤ d.length ∧ d.length ≤ 2400000 ∧ d.lead + 8000 ≤ d.length ∧ d.lead % 8000 = 0
    ∧ ∀ h ∈ d.staged,
        8000 ≤ h.length.getD d.length ∧ h.length.getD d.length ≤ 2400000
          ∧ h.lead.getD d.lead + 8000 ≤ h.length.getD d.length ∧ h.lead.getD d.lead % 8000 = 0

theorem dirLaw_running {d : DirState} :
    DirLaw true d ↔ d.gen = keySteps d.step d.seed d.f ∧ (1 ≤ d.f ∧ d.f ≤ d.length) ∧ d.Timed := by
  simp [DirLaw, DirState.Timed]

theorem dirLaw_resting {d : DirState} :
    DirLaw false d ↔ d.gen = keySteps d.step d.seed d.f ∧ (d.f = 0 ∧ d.epoch = 0) ∧ d.Timed := by
  simp [DirLaw, DirState.Timed]

theorem DirLaw.timed {b : Bool} {d : DirState} (h : DirLaw b d) : d.Timed := h.2.2.2

/-- The timing speaks of the length, the lead and the staged half alone. -/
theorem DirState.Timed.congr {d e : DirState} (h : d.Timed) (len : e.length = d.length) (lead : e.lead = d.lead)
    (staged : e.staged = d.staged) : e.Timed := by
  unfold DirState.Timed
  rw [len, lead, staged]
  exact h

/-- The model's marks of due steps are no part of the law. -/
theorem DirLaw.marks {b : Bool} {d : DirState} (h : DirLaw b d) (n : Nat) (w : Bool) :
    DirLaw b { d with owed := n, warnDue := w } := h

theorem DirLaw.owing {b : Bool} {d : DirState} (h : DirLaw b d) (n : Nat) : DirLaw b { d with owed := n } := h

theorem keySteps_zero (step : Word16) (seed : Word32) : keySteps step seed 0 = seed := by rw [keySteps]

theorem keySteps_succ (step : Word16) (seed : Word32) (n : Nat) :
    keySteps step seed (n + 1) = keyStep step (keySteps step seed n) := by rw [keySteps]

/-- A direction at index 1 of an epoch is lawful once its timing is (R95). -/
theorem dirLaw_first {d : DirState} (gen : d.gen = keyStep d.step d.seed) (first : d.f = 1) (h : d.Timed) :
    DirLaw true d := by
  refine dirLaw_running.2 ⟨?_, ⟨by omega, by have := h.1; omega⟩, h⟩
  rw [first, keySteps_succ, keySteps_zero, gen]

@[simp] theorem epochStart_gen (d : DirState) (n : Nat) : (d.epochStart n).gen =
    keyStep d.step d.seed := by rw [DirState.epochStart]
@[simp] theorem epochStart_step (d : DirState) (n : Nat) : (d.epochStart n).step = d.step := by rw [DirState.epochStart]
@[simp] theorem epochStart_seed (d : DirState) (n : Nat) : (d.epochStart n).seed = d.seed := by rw [DirState.epochStart]
@[simp] theorem epochStart_length (d : DirState) (n : Nat) : (d.epochStart n).length =
    d.length := by rw [DirState.epochStart]
@[simp] theorem epochStart_lead (d : DirState) (n : Nat) : (d.epochStart n).lead = d.lead := by rw [DirState.epochStart]
@[simp] theorem epochStart_staged (d : DirState) (n : Nat) : (d.epochStart n).staged =
    d.staged := by rw [DirState.epochStart]
@[simp] theorem epochStart_f (d : DirState) (n : Nat) : (d.epochStart n).f = 1 := by rw [DirState.epochStart]
@[simp] theorem epochStart_epoch (d : DirState) (n : Nat) : (d.epochStart n).epoch = n := by rw [DirState.epochStart]

/-- An epoch start from lawful timing is lawful, whatever the direction was (R95). -/
theorem DirState.Timed.epochStart {d : DirState} (h : d.Timed) (n : Nat) : DirLaw true (d.epochStart n) :=
   dirLaw_first (by rw [epochStart_gen, epochStart_step, epochStart_seed]) (epochStart_f d n)
    (h.congr (epochStart_length d n) (epochStart_lead d n) (epochStart_staged d n))

theorem DirLaw.rest {b : Bool} {d : DirState} (h : DirLaw b d) : DirLaw false d.rest :=
  dirLaw_resting.2 ⟨(keySteps_zero d.step d.seed).symm, ⟨rfl, rfl⟩, h.timed.congr rfl rfl rfl⟩

theorem DirLaw.plainAdvance {d : DirState} (h : DirLaw true d) (inside : d.f < d.length) :
    DirLaw true d.plainAdvance := by
  obtain ⟨gen, -, timed⟩ := dirLaw_running.1 h
  refine dirLaw_running.2 ⟨?_, ?_, timed.congr (plainAdvance_length d) (plainAdvance_lead d) (plainAdvance_staged d)⟩
  · rw [plainAdvance_gen, plainAdvance_step, plainAdvance_seed, plainAdvance_f, keySteps_succ, ← gen]
  · rw [plainAdvance_f, plainAdvance_length]; omega

/-- A rollover takes up timing that was staged lawfully, or starts again with its own (R98, R99). -/
theorem DirState.Timed.roll {d : DirState} (h : d.Timed) : DirLaw true d.roll := by
  unfold DirState.roll
  cases e : d.staged with
  | none => exact h.epochStart _
  | some half =>
    obtain ⟨shortest, longest, lead, whole⟩ := h.2.2.2.2 half e
    exact DirState.Timed.epochStart ⟨shortest, longest, lead, whole, by simp⟩ _

theorem DirLaw.advance {d : DirState} (h : DirLaw true d) : DirLaw true d.advance := by
  unfold DirState.advance
  split
  · rename_i inside; exact h.plainAdvance inside
  · exact h.timed.roll

theorem DirLaw.makeOwed {d : DirState} (h : DirLaw true d) (n : Nat) : DirLaw true (DirState.makeOwed n d) := by
  induction n generalizing d with
  | zero => exact h.owing 0
  | succ n ih =>
    unfold DirState.makeOwed
    split
    · rename_i inside; exact ih (h.plainAdvance inside)
    · exact h.owing (n + 1)

/-! ## A frame's work -/

/-- A transmit direction's and a receive direction's law. -/
def TxState.Lawful (t : TxState) : Prop := DirLaw (decide (t.phase = .running)) t.dir
def RxState.Lawful (r : RxState) : Prop := DirLaw (decide (r.phase = .running)) r.dir

theorem lawful_iff (c : Context) : c.Lawful ↔ c.tx.Lawful ∧ c.rx.Lawful := Iff.rfl

theorem txFrame_lawful {t : TxState} (h : t.Lawful) (code : Code) : (txFrame t code).1.Lawful := by
  unfold TxState.Lawful at h
  unfold txFrame
  cases phase : t.phase with
  | preamble sent =>
    rw [phase] at h
    simp only []
    split_ifs
    · exact h
    · exact h
    · simpa [TxState.Lawful, phase] using h.owing 1
  | running =>
    rw [phase] at h
    simpa [TxState.Lawful, phase] using DirLaw.makeOwed (by simpa using h) 1

theorem count_lawful {r : RxState} (h : r.Lawful) (guardOn : Bool) (c : Code) : (r.count guardOn c).Lawful := by
  unfold RxState.count
  split <;> exact h

theorem align_lawful {r : RxState} (h : r.dir.Timed) (guardOn deleted : Bool) (code : Code) :
    (r.align guardOn deleted code).1.Lawful := by
  unfold RxState.align
  refine count_lawful ?_ _ _
  have first : DirLaw true (r.dir.epochStart 1) := h.epochStart 1
  cases deleted with
  | false => exact first
  | true => exact first.advance

theorem receive_lawful {r : RxState} (h : r.Lawful) (running : r.phase = .running) (guardOn : Bool) (n : Nat)
    (code : Code) : (r.receive guardOn n code).1.Lawful := by
  unfold RxState.receive
  refine count_lawful ?_ _ _
  unfold RxState.Lawful at h ⊢
  rw [running] at h
  simpa [running] using DirLaw.makeOwed (by simpa using h) n

theorem rxFrame_lawful {r : RxState} (h : r.Lawful) (huntTime : Nat) (lost guardOn : Bool) (code : Code) (slip : Slip) :
    (rxFrame huntTime lost guardOn code slip r).rx.Lawful := by
  unfold rxFrame
  split
  · rename_i running
    cases slip with
    | normal => exact receive_lawful h running _ _ _
    | repeated => exact h
    | deleted => exact receive_lawful h running _ _ _
  · rename_i hunt phase
    split
    · cases slip with
      | normal => exact align_lawful h.timed _ _ _
      | repeated => exact h
      | deleted => exact align_lawful h.timed _ _ _
    · unfold RxState.Lawful at h ⊢
      rw [phase] at h
      simpa using h

theorem newHunt_lawful {r : RxState} (h : r.Lawful) : r.newHunt.Lawful := DirLaw.rest h

/-! ## What is written -/

theorem clampTo_le {lo hi : Nat} (h : lo ≤ hi) (n : Nat) : lo ≤ clampTo lo hi n ∧ clampTo lo hi n ≤ hi := by
  unfold clampTo
  split_ifs <;> omega

theorem opened_lawful {seed : Word32} {step : Word16} {len lead : Nat} (shortest : 1 ≤ len) (longest : len ≤ 300)
    (fits : lead ≤ len - 1) : DirLaw false (DirState.opened seed step len lead) := by
  refine dirLaw_resting.2 ⟨(keySteps_zero step seed).symm, ⟨rfl, rfl⟩, ?_, ?_, ?_, ?_, by simp [DirState.opened]⟩ <;>
    simp only [DirState.opened, seconds, Config.framesPerSecond] <;> omega

/-- A context as it is allocated keeps the law in both directions (R73, R91). -/
theorem openContext_lawful (s : State) (path tie : Nat) (k : KeyBlock) (t : TimingOps) :
    (openContext s path tie k (takeTiming t)).Lawful := by
  obtain ⟨tx1, tx2⟩ := clampTo_le (show 1 ≤ 300 by omega) t.txEpoch.toNat
  obtain ⟨rx1, rx2⟩ := clampTo_le (show 1 ≤ 300 by omega) t.rxEpoch.toNat
  exact ⟨opened_lawful tx1 tx2 (clampTo_le (Nat.zero_le _) _).2, opened_lawful rx1 rx2 (clampTo_le (Nat.zero_le _) _).2⟩

/-- Staging a half keeps the timing: lengths of 1 to 300 seconds, and a lead that is clamped where the one in force no
longer fits (R103). -/
theorem DirState.Timed.stage {d : DirState} (h : d.Timed) (o : HalfOps) (x : Option (Option Word16 × Option Word16)) :
    (d.stage o x).Timed := by
  obtain ⟨shortest, longest, lead, whole, -⟩ := h
  refine ⟨shortest, longest, lead, whole, fun half staged => ?_⟩
  cases x with
  | none => simp [DirState.stage] at staged
  | some y =>
    obtain ⟨epoch, given⟩ := y
    simp only [DirState.stage, Option.map_some, Option.mem_some_iff] at staged
    subst staged
    simp only [DirState.stage, stageHalf, inSeconds, Config.framesPerSecond]
    cases epoch with
    | none =>
      cases given with
      | none => exact ⟨shortest, longest, lead, whole⟩
      | some g =>
        have := (clampTo_le (Nat.zero_le (d.length / 8000 - 1)) g.toNat).2
        simp only [Option.map_none, Option.map_some, Option.getD_none, Option.getD_some, seconds,
          Config.framesPerSecond]
        omega
    | some e =>
      have len := clampTo_le (show 1 ≤ 300 by omega) e.toNat
      cases given with
      | none =>
        by_cases short : clampTo 1 300 e.toNat ≤ d.lead / 8000
        · simp only [Option.map_some, Option.getD_some, short, if_true, seconds, Config.framesPerSecond]
          omega
        · simp only [Option.map_some, Option.getD_some, short, if_false, Option.map_none, Option.getD_none, seconds,
            Config.framesPerSecond]
          omega
      | some g =>
        have := (clampTo_le (Nat.zero_le (clampTo 1 300 e.toNat - 1)) g.toNat).2
        simp only [Option.map_some, Option.getD_some, seconds, Config.framesPerSecond]
        omega

theorem DirLaw.stage {b : Bool} {d : DirState} (h : DirLaw b d) (o : HalfOps)
    (x : Option (Option Word16 × Option Word16)) : DirLaw b (d.stage o x) :=
  ⟨h.1, h.2.1, h.2.2.1, h.timed.stage o x⟩

/-! ## Contexts -/

theorem ContextStep.refl (c : Context) : ContextStep c c := ⟨rfl, rfl, id⟩

theorem ContextStep.trans {c d e : Context} (a : ContextStep c d) (b : ContextStep d e) : ContextStep c e :=
  ⟨b.path.trans a.path, b.tieSlot.trans a.tieSlot, b.lawful ∘ a.lawful⟩

/-- A context of which only guard settings and flags change. -/
theorem ContextStep.settings (c : Context) (ceiling limit : Nat) (on : Bool) (a : Attention) :
    ContextStep c { c with ceiling := ceiling, strikesLimit := limit, guardOn := on, flags := a } := ⟨rfl, rfl, id⟩

theorem ContextStep.flags (c : Context) (a : Attention) : ContextStep c { c with flags := a } := ⟨rfl, rfl, id⟩

theorem ContextStep.tx {c : Context} {t : TxState} (h : c.tx.Lawful → t.Lawful) : ContextStep c { c with tx := t } :=
  ⟨rfl, rfl, fun x => ⟨h x.1, x.2⟩⟩

theorem ContextStep.rx {c : Context} {r : RxState} (h : c.rx.Lawful → r.Lawful) : ContextStep c { c with rx := r } :=
  ⟨rfl, rfl, fun x => ⟨x.1, h x.2⟩⟩

theorem ContextStep.setDir {c : Context} {d : Dir} {x : DirState}
    (h : DirLaw (c.running d) (c.dir d) → DirLaw (c.running d) x) : ContextStep c (c.setDir d x) := by
  cases d with
  | tx => exact .tx h
  | rx => exact .rx h

end Sys2Proof.Machine
end

