-- ==== Sys2Proof/Proofs/DueSteps.lean ====
section
/-! PROOF. Each step that falls due, and a frame's start and processing, are runs of changes. -/

namespace Sys2Proof.Machine

open Table (sorted)

/-! ## Single changes -/

theorem raiseOn_reaches (k : EventKind) (ls : List Link) (s : State) : Reaches s (raiseOn k ls s) :=
  (raiseOn_kept k ls s).reaches

theorem setCtx_reaches {s : State} {i : Nat} {c d : Context} (h : Table.find s.ctxs i = some c)
    (step : ContextStep c d) : Reaches s (s.setCtx i d) := .single (.context s i c d h step)

theorem setHighway_reaches (s : State) (h : Nat) (x : Highway) : Reaches s (s.setHighway h x) :=
  (Aside.highways s (s.highways.set h x) List.length_set).reaches

theorem survey_reaches (s : State) {v : Survey} (h : v.results = s.survey.results) : Reaches s { s with survey := v } :=
  (Aside.survey s v (by rw [h]; exact id)).reaches

theorem drive_reaches (s : State) {ds dt : Table Code} (hs : sorted s.drivenStation = true → sorted ds = true)
    (ht : sorted s.drivenTie = true → sorted dt = true) : Reaches s { s with drivenStation := ds, drivenTie := dt } :=
  (Aside.drive s ds dt hs ht).reaches

/-- A pass of operations that are each a run of changes is one. -/
theorem forEach_reaches {f : Nat → State → State} (h : ∀ i s, Reaches s (f i s)) (l : List Nat) (s : State) :
    Reaches s (forEach f l s) :=
  forEach_keeps (P := Reaches s) (fun i _ hs => hs.trans (h i _)) l .refl

/-! ## The survey -/

theorem surveyComplete_reaches (s : State) : Reaches s (surveyComplete s) := by
  unfold surveyComplete
  split
  · split
    · split
      · rename_i e _
        have written : ∀ i r st, Reaches s
            { s with survey := { s.survey with results := Table.put s.survey.results i r, state := st } } :=
          fun i r st => (Aside.survey s _ fun h => Table.sorted_put h i r).reaches
        simp only []
        split
        · exact (written _ _ _).trans (raiseOn_reaches _ _ _)
        · exact written _ _ _
      · exact .refl
    · exact .refl
  · exact .refl
  · exact .refl

theorem surveyTrigger_reaches (t : Trigger) (s : State) : Reaches s (surveyTrigger t s) := by
  unfold surveyTrigger
  split
  · refine (surveyComplete_reaches s).trans ?_
    simp only []
    split
    · exact .refl
    · exact survey_reaches _ rfl
    · exact survey_reaches _ rfl
  · exact .refl

theorem surveyCount_reaches (heard : Table Code) (s : State) : Reaches s (surveyCount heard s) := by
  unfold surveyCount
  split
  · split
    · exact survey_reaches s rfl
    · exact .refl
  · exact .refl
  · exact .refl

theorem surveyDue_reaches (s : State) : Reaches s (surveyDue s) := by
  unfold surveyDue
  refine Relation.ReflTransGen.trans ?_ (surveyComplete_reaches _)
  split
  · exact (Aside.work s _).reaches.trans (surveyCount_reaches _ _)
  · exact .refl

/-! ## Contexts -/

theorem preambleEnd_reaches (i : Nat) (s : State) : Reaches s (preambleEnd i s) := by
  unfold preambleEnd
  split
  · rename_i c found
    split
    · split
      · refine setCtx_reaches found (.tx fun h => ?_)
        simpa [TxState.Lawful] using (h.timed.epochStart 1).owing 0
      · exact .refl
    · exact .refl
  · exact .refl

theorem keyDueWarning_reaches (i : Nat) (d : Dir) (s : State) : Reaches s (keyDueWarning i d s) := by
  unfold keyDueWarning
  split
  · rename_i c found
    simp only []
    split
    · refine (setCtx_reaches found ?_).trans (raiseOn_reaches _ _ _)
      exact (ContextStep.setDir fun h => h.marks _ false).trans (.flags _ _)
    · exact .refl
  · exact .refl

theorem rollover_reaches (i : Nat) (d : Dir) (s : State) : Reaches s (rollover i d s) := by
  unfold rollover
  split
  · rename_i c found
    simp only []
    split
    · rename_i due
      have rolled : ContextStep c (c.setDir d (DirState.makeOwed ((c.dir d).owed - 1) (c.dir d).roll)) :=
        .setDir fun h => by rw [due.1] at h ⊢; exact h.timed.roll.makeOwed _
      refine ((setCtx_reaches found ?_).trans (raiseOn_reaches _ _ _)).trans (surveyTrigger_reaches _ _)
      split
      · exact rolled.trans (.flags _ _)
      · exact rolled
    · exact .refl
  · exact .refl

theorem huntReport_reaches (i : Nat) (s : State) : Reaches s (huntReport i s) := by
  unfold huntReport
  split
  · rename_i c found
    split
    · rename_i hunt phase
      split
      · refine (setCtx_reaches found ?_).trans (raiseOn_reaches _ _ _)
        refine (ContextStep.rx fun h => ?_).trans (.flags _ _)
        simpa [RxState.Lawful, phase] using h
      · exact .refl
    · exact .refl
  · exact .refl

theorem loseSync_reaches {i : Nat} {c : Context} {s : State} (found : Table.find s.ctxs i = some c)
    (cause : SyncCause) :
    Reaches s (loseSync i c cause s) :=
  ((setCtx_reaches found ((ContextStep.rx newHunt_lawful).trans (.flags _ _))).trans (raiseOn_reaches _ _ _)).trans
    (surveyTrigger_reaches _ _)

theorem keyAdvances_reaches (i : Nat) (s : State) : Reaches s (keyAdvances i s) :=
  ((keyDueWarning_reaches i .tx s).trans (rollover_reaches i .tx _)).trans
    ((keyDueWarning_reaches i .rx _).trans (rollover_reaches i .rx _))

theorem judgeWindow_reaches (i : Nat) (s : State) : Reaches s (judgeWindow i s) := by
  unfold judgeWindow
  split
  · rename_i c found
    simp only []
    by_cases lost : c.ceiling < c.rx.guardSum / 64
        ∧ c.strikesLimit ≤ (if c.ceiling < c.rx.guardSum / 64 then c.rx.strikes + 1 else 0)
    · rw [if_pos lost]; exact loseSync_reaches found _
    · rw [if_neg lost]; exact setCtx_reaches found (.rx id)
  · exact .refl

theorem guardWindowEnd_reaches (i : Nat) (s : State) : Reaches s (guardWindowEnd i s) := by
  unfold guardWindowEnd
  split
  · exact (keyAdvances_reaches i s).trans (judgeWindow_reaches i _)
  · exact .refl

theorem contextDue_reaches (i : Nat) (s : State) : Reaches s (contextDue i s) :=
  ((preambleEnd_reaches i s).trans (keyAdvances_reaches i _)).trans
    ((huntReport_reaches i _).trans (guardWindowEnd_reaches i _))

theorem contextLoss_reaches (h i : Nat) (s : State) : Reaches s (contextLoss h i s) := by
  unfold contextLoss
  split
  · rename_i c found
    split
    · split
      · exact loseSync_reaches found _
      · rename_i hunt phase
        refine setCtx_reaches found (.rx fun h => ?_)
        simpa [RxState.Lawful, phase] using h
    · exact .refl
  · exact .refl

/-! ## Highways -/

theorem declareLost_reaches (h : Nat) (cause : LostCause) (s : State) : Reaches s (declareLost h cause s) :=
  ((setHighway_reaches s h _).trans (raiseOn_reaches _ _ _)).trans (forEach_reaches (contextLoss_reaches h) _ _)

theorem lostSilent_reaches (h : Nat) (s : State) : Reaches s (lostSilent h s) := by
  unfold lostSilent
  split
  · exact declareLost_reaches h _ s
  · exact .refl

theorem restoreHighway_reaches (h : Nat) (s : State) : Reaches s (restoreHighway h s) := by
  unfold restoreHighway
  simp only []
  split
  · exact (setHighway_reaches s h _).trans (raiseOn_reaches _ _ _)
  · exact .refl

theorem tieArrival_reaches (h : Nat) (f : List Code) (s : State) : Reaches s (tieArrival h f s) := by
  unfold tieArrival
  simp only []
  split
  · split
    · split
      · exact setHighway_reaches s h _
      · split
        · exact declareLost_reaches h _ s
        · exact .refl
    · split
      · exact setHighway_reaches s h _
      · exact setHighway_reaches s h _
  · exact .refl

/-! ## A frame's processing and start -/

theorem driveStation_reaches (n : Nat) (c : Code) (s : State) : Reaches s (driveStation n c s) :=
  drive_reaches s (fun h => Table.sorted_put h n c) id

theorem driveTie_reaches (n : Nat) (c : Code) (s : State) : Reaches s (driveTie n c s) :=
  drive_reaches s id (fun h => Table.sorted_put h n c)

theorem transmit_reaches (i n : Nat) (c : Code) (s : State) : Reaches s (transmit i n c s) := by
  unfold transmit
  split
  · rename_i x found
    exact (setCtx_reaches found (.tx fun h => txFrame_lawful h c)).trans (driveTie_reaches n _ _)
  · exact .refl

theorem receiveContext_reaches (i : Nat) (x : State × Table Code) : Reaches x.1 (receiveContext i x).1 := by
  unfold receiveContext
  simp only []
  split
  · rename_i c found
    have received := setCtx_reaches found (.rx fun h =>
      rxFrame_lawful h x.1.huntTime (!(x.1.highway (tieHighway c.tieSlot)).up) c.guardOn (x.1.tieCode c.tieSlot)
        (x.1.tieRead (tieHighway c.tieSlot)).slip)
    split
    · exact received.trans (raiseOn_reaches _ _ _)
    · exact received
  · exact .refl

theorem receiveContexts_reaches (l : List Nat) (x : State × Table Code) : Reaches x.1 (receiveContexts l x).1 := by
  induction l generalizing x with
  | nil => exact .refl
  | cons i l ih => exact (receiveContext_reaches i x).trans (ih _)

theorem tiePathFrame_reaches (heard : Table Code) (id : Nat) (s : State) : Reaches s (tiePathFrame heard id s) := by
  unfold tiePathFrame
  split
  · split
    · exact (driveTie_reaches _ _ s).trans (driveStation_reaches _ _ _)
    · exact (transmit_reaches _ _ _ s).trans (driveStation_reaches _ _ _)
    · exact .refl
    · exact .refl
  · exact .refl

theorem sendLeg_reaches (g : Leg) (c : Code) (s : State) : Reaches s (sendLeg g c s) := by
  unfold sendLeg
  split
  · exact driveStation_reaches _ _ s
  · exact driveTie_reaches _ _ s
  · exact transmit_reaches _ _ _ s

theorem sendLegs_reaches (cs : List Int) (gs : List Leg) (k : Nat) (s : State) : Reaches s (sendLegs cs k gs s) := by
  induction gs generalizing k s with
  | nil => exact .refl
  | cons g gs ih => exact (sendLeg_reaches g _ s).trans (ih _ _)

/-- Measuring a leg's input leaves its path and slot. -/
theorem measured_legs (gs : List Leg) (xs : List Int) (h : xs.length = gs.length) :
    (List.zipWith Leg.measure gs xs).map (fun g => (g.path, g.slot)) = gs.map (fun g => (g.path, g.slot)) := by
  induction gs generalizing xs with
  | nil => simp
  | cons g gs ih =>
    cases xs with
    | nil => simp at h
    | cons x xs => simp [Leg.measure, ih xs (by simpa using h)]

theorem bridgeFrame_reaches (heard : Table Code) (b : Nat) (s : State) : Reaches s (bridgeFrame heard b s) := by
  unfold bridgeFrame
  split
  · rename_i x found
    exact (Relation.ReflTransGen.single (.bridge s b x _ found ⟨rfl, measured_legs _ _ (by simp)⟩)).trans
      (sendLegs_reaches _ _ _ _)
  · exact .refl

theorem processFrame_reaches (s : State) : Reaches s (processFrame s) := by
  unfold processFrame
  simp only []
  have frames : ∀ heard ps bs u, Reaches s u →
      Reaches s (forEach (bridgeFrame heard) bs (forEach (tiePathFrame heard) ps u)) := fun heard ps bs u h =>
    (h.trans (forEach_reaches (tiePathFrame_reaches heard) ps u)).trans
      (forEach_reaches (bridgeFrame_reaches heard) bs _)
  have received := (drive_reaches s (fun _ => rfl) (fun _ => rfl)).trans
    (receiveContexts_reaches (Table.keys s.ctxs) ({ s with drivenStation := [], drivenTie := [] }, []))
  split
  · exact (frames _ _ _ _ received).trans (Aside.work _ _).reaches
  · exact (frames _ _ _ _ received).trans (surveyCount_reaches _ _)

theorem beginWork_reaches (s : State) : Reaches s (beginWork s) := by
  unfold beginWork
  split
  · exact (Aside.work s _).reaches.trans (processFrame_reaches _)
  · exact .refl

theorem sorted_stationCodes (cs : List (Nat × Code)) {t : Table Code} (h : sorted t = true) :
    sorted (stationCodes cs t) = true := by
  induction cs generalizing t with
  | nil => exact h
  | cons x cs ih =>
    unfold stationCodes
    refine ih ?_
    split
    · exact Table.sorted_putCode h _ _
    · exact h

theorem beginFrame_reaches (o : FrameOps) (s : State) : Reaches s (beginFrame o s) := by
  unfold beginFrame
  simp only []
  refine Relation.ReflTransGen.trans ?_ (raiseSlips_kept _ _ _).reaches
  have buffers := Aside.buffers s (s.frameCount + 1)
    { station := stationCodes o.codes [], tie := (s.highways.map Highway.deliver).map Prod.snd }
    (sorted_stationCodes o.codes rfl) (by simp)
  refine Relation.ReflTransGen.trans buffers.reaches ?_
  refine Relation.ReflTransGen.trans
    (Aside.highways _ ((s.highways.map Highway.deliver).map Prod.fst) (by simp)).reaches ?_
  refine Relation.ReflTransGen.trans (Aside.nonce _ nonceStep).reaches ?_
  exact (ExtChange.frame _).reaches.trans (Aside.work _ _).reaches

/-! ## Bridges, orphans and links -/

theorem boundary_legs (gs : List Leg) :
    (gs.map Leg.boundary).map (fun g => (g.path, g.slot)) = gs.map (fun g => (g.path, g.slot)) := by
  rw [List.map_map]
  refine List.map_congr_left fun g _ => ?_
  simp only [Function.comp, Leg.boundary]
  split <;> rfl

theorem bridgeBoundary_reaches (b : Nat) (s : State) : Reaches s (bridgeBoundary b s) := by
  unfold bridgeBoundary
  split
  · rename_i x found
    split
    · have applied := fun staged threshold count (talker : Option Nat) =>
        Relation.ReflTransGen.single (Change.bridge s b x
          { x with legs := x.legs.map Leg.boundary, threshold := threshold, staged := staged, windowCount := count,
                   talker := talker } found ⟨rfl, boundary_legs x.legs⟩)
      simp only []
      split
      · exact applied _ _ _ _
      · exact (applied _ _ _ _).trans (raiseOn_reaches _ _ _)
    · exact .refl
  · exact .refl

theorem clearPath_reaches (id : Nat) (cause : ClearCause) (s : State) : Reaches s (clearPath id cause s) :=
  .single (.clear s id cause)

theorem closeBridge_reaches (b : Nat) (cause : ClearCause) (s : State) : Reaches s (closeBridge b cause s) :=
  .single (.close s b cause)

theorem orphanDeadline_reaches (r : OrphanRef) (s : State) : Reaches s (orphanDeadline r s) := by
  cases r with
  | path id =>
    unfold orphanDeadline
    simp only []
    split
    · split
      · exact clearPath_reaches _ _ s
      · exact .refl
    · exact .refl
  | bridge b =>
    unfold orphanDeadline
    simp only []
    split
    · split
      · exact closeBridge_reaches _ _ s
      · exact .refl
    · exact .refl

/-- An event and a change of controllers may change places: an event reads the frame count and the ports alone. -/
theorem recontrol_raiseOn (f : Controller → Bool) (c : Controller) (k : EventKind) (ls : List Link) (s : State) :
    recontrol f c (raiseOn k ls s) = raiseOn k ls (recontrol f c s) := by
  induction ls generalizing s with
  | nil => rfl
  | cons l ls ih =>
    rw [raiseOn, ih, raiseOn]
    congr 1
    cases l <;> rfl

theorem linkDown_reaches (l : Link) (cause : DownCause) (s : State) : Reaches s (linkDown l cause s) := by
  unfold linkDown
  by_cases m : l = .m
  · subst m
    exact (Relation.ReflTransGen.single (.managerDown s)).trans (raiseOn_reaches _ _ _)
  · simp only [if_neg m, controllerLoss, recontrol_raiseOn]
    have orphaned := fun d => (Relation.ReflTransGen.single (Change.linkDown s l d)).trans
      (raiseOn_reaches (.linkChange l (some cause)) (otherLinks l) _)
    split_ifs
    · exact ((orphaned _).trans (forEach_reaches (fun p => clearPath_reaches p _) _ _)).trans
        (forEach_reaches (fun b => closeBridge_reaches b _) _ _)
    · exact orphaned _
    · exact (orphaned _).trans (raiseOn_reaches _ _ _)

theorem linkDownDue_reaches (l : Link) (s : State) : Reaches s (linkDownDue l s) := by
  unfold linkDownDue
  split
  · exact linkDown_reaches l _ s
  · exact .refl

theorem linkAligningDue_reaches (l : Link) (s : State) : Reaches s (linkAligningDue l s) :=
  (PortsKept.onPort (align_kept _)).reaches

/-! ## Extensions -/

theorem extLaw_idle {limit : Nat} {e : Ext} (idle : e.standing = .idle) (few : e.failures < limit)
    (stored : e.stored ≠ none) : ExtLaw limit e := by
  unfold ExtLaw
  rw [idle]
  exact ⟨few, stored⟩

/-- Whatever its standing, an extension that is not VACANT has its stored fields. -/
theorem ExtLaw.stored {limit : Nat} {e : Ext} (h : ExtLaw limit e) (n : e.standing ≠ .vacant) : e.stored ≠ none := by
  unfold ExtLaw at h
  split at h
  · rename_i v; exact absurd v n
  · exact h.2
  · exact h.2.1
  · exact h.2.2

/-- An extension with a challenge is IDLE or ADMITTED, with its failures below the limit. -/
theorem ExtLaw.challenged {limit : Nat} {e : Ext} (h : ExtLaw limit e) {ch : Challenge} (c : e.challenge = some ch) :
    e.failures < limit ∧ e.stored ≠ none := by
  unfold ExtLaw at h
  split at h
  · rw [h.2.1] at c; cases c
  · exact h
  · exact ⟨h.1, h.2.1⟩
  · rw [h.2.1] at c; cases c

@[simp] theorem Ext.fail_stored (e : Ext) (cause : FailCause)
    (limit n : Nat) : (e.fail cause limit n).stored = e.stored := rfl
@[simp] theorem Ext.fail_path (e : Ext) (cause : FailCause) (limit n : Nat) :
    (e.fail cause limit n).path = e.path := rfl

theorem Ext.fail_notAdmitted (e : Ext) (cause : FailCause) (limit n : Nat) :
    (e.fail cause limit n).isAdmitted = false := by
  unfold Ext.isAdmitted Ext.fail
  simp only []
  split_ifs <;> rfl

/-- A failure keeps the law: LOCKED exactly where the failures reach the limit (R57). -/
theorem ExtLaw.fail {limit : Nat} {e : Ext} (h : ExtLaw limit e) {ch : Challenge} (c : e.challenge = some ch)
    (cause : FailCause) (n : Nat) : ExtLaw limit (e.fail cause limit n) := by
  obtain ⟨few, stored⟩ := h.challenged c
  unfold ExtLaw Ext.fail
  by_cases full : limit ≤ e.failures + 1
  · simp only [full, if_true]
    exact ⟨by omega, trivial, stored⟩
  · simp only [full, if_false]
    exact ⟨by omega, stored⟩

theorem fail_step {limit : Nat} {e : Ext} {ch : Challenge} (c : e.challenge = some ch) (cause : FailCause) (n : Nat) :
    ExtStep limit e (e.fail cause limit n) :=
  ⟨fun _ h => h.fail c cause n, rfl, rfl, fun h => by rw [h.2.1] at c; cases c⟩

theorem PortsKept.ext {s t : State} (h : PortsKept s t) (i : Nat) : t.ext i = s.ext i :=
  State.ext_congr (by rw [h.rest]) i

/-- DEADMITTED and the clearing of the path in use (R62). -/
theorem cascade_eq (i : Nat) (cause : DeadmitCause) (links : List Link) (path : Option Nat) (s : State) :
    cascade i cause links path s = clearExtPath path .deadmitted (raiseOn (.deadmitted i cause path) links s) := by
  cases path <;> rfl

/-- The state in which a failure has been written and told, before the extension leaves ADMITTED (R55 to R57). -/
def failTold (i : Nat) (ch : Challenge) (cause : FailCause) (s : State) : State :=
  let e := s.ext i
  let n := e.failures + 1
  let lockedNow := decide (s.failLimit ≤ n)
  let links := challengeLinks s ch.issuer
  let lockout := seconds s.lockoutTime
  let s := s.setExt i (e.fail cause s.failLimit lockout)
  let s := if e.isAdmitted || lockedNow then noteChange i s else s
  let s := if cause = .expired then raiseOn (.admissionFailed i n lockedNow) links s else s
  if lockedNow then raiseOn (.lockedOut i cause lockout) (links ++ [.m]) s else s

theorem failChallenge_eq (i : Nat) (ch : Challenge) (cause : FailCause) (s : State) :
    failChallenge i ch cause s =
      if (s.ext i).isAdmitted then
        cascade i cause.deadmit (challengeLinks s ch.issuer) (s.ext i).path (failTold i ch cause s)
      else failTold i ch cause s := rfl

theorem failTold_kept (i : Nat) (ch : Challenge) (cause : FailCause) (s : State) :
    PortsKept (s.setExt i ((s.ext i).fail cause s.failLimit (seconds s.lockoutTime))) (failTold i ch cause s) := by
  unfold failTold
  simp only []
  exact .maybe (.maybe (.maybe (.refl _) (noteChange_kept _ _) _) (raiseOn_kept _ _ _) _) (raiseOn_kept _ _ _) _

theorem failChallenge_reaches {i : Nat} {ch : Challenge} {s : State} (c : (s.ext i).challenge = some ch)
    (cause : FailCause) : Reaches s (failChallenge i ch cause s) := by
  have step := fail_step (limit := s.failLimit) c cause (seconds s.lockoutTime)
  rw [failChallenge_eq]
  cases was : (s.ext i).isAdmitted with
  | false =>
    rw [if_neg (by simp)]
    exact (ExtChange.record s i _ step (fun x => by rw [was] at x; cases x)).reaches.trans (failTold_kept _ _ _ _).reaches
  | true =>
    rw [if_pos rfl, cascade_eq]
    exact .single (.leave s _ i _ _ step was (Ext.fail_notAdmitted _ _ _ _)
      ((failTold_kept _ _ _ _).trans (raiseOn_kept _ _ _)))

theorem challengeExpiry_reaches (i : Nat) (s : State) : Reaches s (challengeExpiry i s) := by
  unfold challengeExpiry
  split
  · rename_i ch c
    split
    · exact failChallenge_reaches c _
    · exact .refl
  · exact .refl

/-- A lockout's end: the extension is IDLE with its stored fields (R59). -/
theorem endLockout_reaches {i : Nat} {s : State} {n : Nat} (locked : (s.ext i).standing = .locked n)
    (cause : UnlockCause) : Reaches s (endLockout i cause s) := by
  have step : ExtStep s.failLimit (s.ext i) { s.ext i with standing := .idle, failures := 0 } := by
    refine ⟨fun pos h => ?_, rfl, rfl, fun h => ⟨h.1, h.2.1, rfl⟩⟩
    exact extLaw_idle rfl pos (h.stored (by rw [locked]; simp))
  exact ((ExtChange.record s i _ step (by simp [Ext.isAdmitted, locked])).reaches.trans (noteChange_kept _ _).reaches).trans
    (raiseOn_reaches _ _ _)

theorem lockoutExpiry_reaches (i : Nat) (s : State) : Reaches s (lockoutExpiry i s) := by
  unfold lockoutExpiry
  split
  · rename_i locked; exact endLockout_reaches locked _
  all_goals exact .refl

/-! ## The store -/

/-- A record that passes the checks of R36: read from its operands, its extension at rest, its slot bound to no other. -/
theorem checkRecord_ok {o : StoredOps} {s : State} {i : Nat} {r : Stored} (h : checkRecord o s = .ok (i, r)) :
    readRecord o = some (i, r) ∧ (s.ext i).challenge = none ∧ (s.ext i).isAdmitted = false
      ∧ ∀ e ∈ Table.find s.slotMap r.slot, e = i := by
  unfold checkRecord at h
  cases read : readRecord o with
  | none => rw [read] at h; cases h
  | some x =>
    obtain ⟨j, q⟩ := x
    simp only [read] at h
    by_cases busy : ((s.ext j).isAdmitted || (s.ext j).challenge.isSome) = true
    · rw [if_pos busy] at h; cases h
    · rw [if_neg busy] at h
      simp only [Bool.or_eq_true, not_or, Bool.not_eq_true, Option.isSome_eq_false_iff,
        Option.isNone_iff_eq_none] at busy
      cases bound : Table.find s.slotMap q.slot with
      | none =>
        simp only [bound, Except.ok.injEq, Prod.mk.injEq] at h
        obtain ⟨rfl, rfl⟩ := h
        exact ⟨rfl, busy.2, busy.1, by simp [bound]⟩
      | some e =>
        simp only [bound] at h
        split_ifs at h with same
        simp only [Except.ok.injEq, Prod.mk.injEq] at h
        obtain ⟨rfl, rfl⟩ := h
        exact ⟨rfl, busy.2, busy.1, by simp [bound, same]⟩

/-- An entry's turn that begins a program has passed the checks (R40). -/
theorem loadTurn_begun {entries : List StoredOps} {k : Nat} {s u : State} (h : loadTurn entries k s = .begun u) :
    ∃ o i r, checkRecord o s = .ok (i, r) ∧ u = beginJob i (.load entries k i r) s := by
  unfold loadTurn at h
  split at h
  · cases h
  · rename_i o _
    split at h
    · cases h
    · split at h
      · cases h
      · rename_i i r check
        cases h
        exact ⟨o, i, r, check, rfl⟩

theorem programComplete_reaches (s : State) : Reaches s (programComplete s) := by
  unfold programComplete
  split
  · rename_i i r busy
    exact (ExtChange.programmed s i r _ busy rfl).reaches.trans (completeCommand_kept _ _ _ _).reaches
  · exact .refl

theorem eraseComplete_reaches (s : State) : Reaches s (eraseComplete s) := by
  unfold eraseComplete
  split
  · rename_i i busy
    exact (ExtChange.erased s i _ busy rfl).reaches.trans (completeCommand_kept _ _ _ _).reaches
  · exact .refl

theorem loadEntryComplete_reaches (s : State) : Reaches s (loadEntryComplete s) := by
  unfold loadEntryComplete
  split
  · rename_i entries k i r busy
    have programmed := (ExtChange.programmed s i r _ busy rfl).reaches
    simp only []
    split
    · exact programmed.trans (completeCommand_kept _ _ _ _).reaches
    · split
      · exact programmed.trans (completeCommand_kept _ _ _ _).reaches
      · exact programmed.trans (completeCommand_kept _ _ _ _).reaches
      · rename_i u turn
        obtain ⟨o, j, q, check, rfl⟩ := loadTurn_begun turn
        obtain ⟨-, quiet, resting, unbound⟩ := checkRecord_ok check
        refine (ExtChange.nextBegun s i r _ busy rfl j _ (some q.slot) rfl ⟨quiet, resting⟩ ?_).reaches
        simpa using unbound
  · exact .refl

theorem startUpLoad_reaches (s : State) : Reaches s (startUpLoad s) := by
  by_cases h : s.boot = .reset
  · exact (ExtChange.load s h).reaches
  · rw [startUpLoad, if_neg h]

theorem startCountDone_reaches (s : State) : Reaches s (startCountDone s) := (ExtChange.count s).reaches

/-! ## All that is due -/

/-- Every due step is a run of changes. -/
theorem due_reaches (s : State) : DueKeeps (Reaches s) where
  load u h := h.trans (startUpLoad_reaches u)
  frame u h := h.trans (beginWork_reaches u)
  context i u h := h.trans (contextDue_reaches i u)
  boundary b u h := h.trans (bridgeBoundary_reaches b u)
  survey u h := h.trans (surveyDue_reaches u)
  silent x u h := h.trans (lostSilent_reaches x u)
  program u h := h.trans (programComplete_reaches u)
  erase u h := h.trans (eraseComplete_reaches u)
  entry u h := h.trans (loadEntryComplete_reaches u)
  count u h := h.trans (startCountDone_reaches u)
  lockout i u h := h.trans (lockoutExpiry_reaches i u)
  expiry i u h := h.trans (challengeExpiry_reaches i u)
  orphan r u h := h.trans (orphanDeadline_reaches r u)
  restore x u h := h.trans (restoreHighway_reaches x u)
  aligning l u h := h.trans (linkAligningDue_reaches l u)
  down l u h := h.trans (linkDownDue_reaches l u)

theorem workDue_reaches (s : State) : Reaches s (workDue s) := (due_reaches s).workDue .refl

theorem settle_reaches (s : State) : Reaches s (settle s) := (due_reaches s).settle .refl

end Sys2Proof.Machine
end

