-- ==== Sys2Proof/Proofs/EveryStep.lean ====
section
/-! PROOF. Every command's owner makes a run of changes, and so does every step but a power-on reset. -/

namespace Sys2Proof.Machine

/-! ## What a clearing leaves -/

/-- Only traffic, the extensions' records and ports change, and ports as `PortKept` says. -/
structure ClearsOnly (s t : State) : Prop where
  rest : t = { s with
    paths := t.paths, exts := t.exts, stationOcc := t.stationOcc, tieOcc := t.tieOcc, ctxs := t.ctxs,
    bridges := t.bridges, portA := t.portA, portB := t.portB, portM := t.portM }
  kept : ∀ l, PortKept (s.port l) (t.port l)

theorem ClearsOnly.refl (s : State) : ClearsOnly s s := ⟨rfl, fun _ => .refl _⟩

theorem ClearsOnly.trans {s t u : State} (a : ClearsOnly s t) (b : ClearsOnly t u) : ClearsOnly s u where
  rest := by rw [b.rest, a.rest]
  kept l := (a.kept l).trans (b.kept l)

theorem PortsKept.clearsOnly {s t : State} (h : PortsKept s t) : ClearsOnly s t where
  rest := by rw [h.rest]
  kept := h.kept

theorem freePathRecord_clearsOnly (id : Nat) (p : Path) (s : State) : ClearsOnly s (freePathRecord id p s) where
  rest := by rw [freePathRecord_eq]
  kept l := by
    have same : (freePathRecord id p s).port l = s.port l := by rw [freePathRecord_eq]; cases l <;> rfl
    rw [same]; exact .refl _

theorem dropLeg_clearsOnly (id b : Nat) (s : State) : ClearsOnly s (dropLeg id b s).1 where
  rest := by rw [dropLeg_eq]
  kept l := by
    have same : (dropLeg id b s).1.port l = s.port l := by rw [dropLeg_eq]; cases l <;> rfl
    rw [same]; exact .refl _

theorem clearPath_clearsOnly (id : Nat) (cause : ClearCause) (s : State) : ClearsOnly s (clearPath id cause s) := by
  unfold clearPath
  split
  · rename_i p _
    refine (freePathRecord_clearsOnly id p s).trans (ClearsOnly.trans ?_ (raiseIf_kept _ _).clearsOnly)
    refine ClearsOnly.trans ?_ (raiseOn_kept _ _ _).clearsOnly
    split
    · exact dropLeg_clearsOnly _ _ _
    · exact .refl _
  · exact .refl _

theorem clearPaths_clearsOnly (cause : ClearCause) (l : List Nat) (s : State) :
    ClearsOnly s (forEach (fun p => clearPath p cause) l s) :=
  forEach_keeps (P := ClearsOnly s) (fun p _ h => h.trans (clearPath_clearsOnly p cause _)) l (.refl s)

theorem closeBridge_clearsOnly (b : Nat) (cause : ClearCause) (s : State) : ClearsOnly s (closeBridge b cause s) := by
  unfold closeBridge
  split
  · refine (clearPaths_clearsOnly cause _ s).trans ⟨rfl, fun l => ?_⟩
    cases l <;> exact .refl _
  · exact .refl _

theorem clearExtPath_clearsOnly (p : Option Nat) (cause : ClearCause) (s : State) :
    ClearsOnly s (clearExtPath p cause s) := by
  cases p with
  | none => exact .refl s
  | some id => exact clearPath_clearsOnly id cause s

/-! ## Once the load has begun -/

theorem writePath_boot (id : Nat) (p : Path) (s : State) : (writePath id p s).boot = s.boot := by
  unfold writePath
  cases p.kind.station <;> cases p.kind.tieSlot <;> cases p.kind.ext <;> rfl

theorem allocate_boot (priv : Bool) (id tie : Nat) (k : KeyBlock) (t : Timing) (s : State) :
    (allocate priv id tie k t s).1.boot = s.boot := by
  unfold allocate
  split
  · split <;> rfl
  · rfl

theorem finishProgram_boot (i : Nat) (r : Stored) (s : State) : (finishProgram i r s).boot = s.boot := by
  unfold finishProgram
  simp only []
  split <;> rfl

theorem finishErase_boot (i : Nat) (s : State) : (finishErase i s).boot = s.boot := by
  unfold finishErase
  simp only []
  split <;> rfl

theorem startUpLoad_boot (s : State) : (startUpLoad s).boot ≠ .reset := by
  unfold startUpLoad
  split_ifs with reset
  · simp only []
    split_ifs <;> simp [endLoad]
  · exact reset

theorem startCountDone_boot {s : State} (h : s.boot ≠ .reset) : (startCountDone s).boot ≠ .reset := by
  unfold startCountDone
  split
  · simp [endLoad]
  · exact h

theorem Aside.boot {s t : State} (h : Aside s t) : t.boot = s.boot := by
  cases h with
  | ports h => rw [h.rest]
  | _ => rfl

theorem ExtChange.boot {s t : State} (h : ExtChange s t) (loaded : s.boot ≠ .reset) : t.boot ≠ .reset := by
  cases h with
  | programmed i r g => rwa [finishProgram_boot]
  | nextBegun i r g => rw [beginJob, State.setExt_boot]; show (finishProgram i r s).boot ≠ _; rwa [finishProgram_boot]
  | erased i g => rwa [finishErase_boot]
  | load => exact startUpLoad_boot s
  | count => exact startCountDone_boot loaded
  | _ => exact loaded

/-- No change takes the part back before its start-up load. -/
theorem Change.boot {s t : State} (h : Change s t) (loaded : s.boot ≠ .reset) : t.boot ≠ .reset := by
  cases h with
  | aside h => rwa [h.boot]
  | ext h => exact h.boot loaded
  | clear id cause => rwa [(clearPath_clearsOnly id cause s).rest]
  | close b cause => rwa [(closeBridge_clearsOnly b cause s).rest]
  | leave u i e cause _ _ _ events =>
    rw [(clearExtPath_clearsOnly _ cause u).rest, events.rest]; exact loaded
  | openTie => rwa [openedTie, writePath_boot, allocate_boot]
  | join _ _ _ g =>
    rw [joinedLeg, writePath_boot]
    cases g with
    | station => exact loaded
    | tie => rw [placeLeg, allocate_boot]; exact loaded
  | linkUp l => rwa [State.onPort_boot]
  | linkDown l => rw [recontrol_boot, State.onPort_boot]; exact loaded
  | managerDown => rwa [State.onPort_boot]
  | _ => exact loaded

theorem startUpLoad_loaded {s : State} (h : s.boot ≠ .reset) : startUpLoad s = s := by
  rw [startUpLoad, if_neg h]

/-- Once all that is due has been taken the start-up load has begun. -/
theorem settle_boot (s : State) : (settle s).boot ≠ .reset := by
  have loaded := startUpLoad_boot s
  have again : settle (startUpLoad s) = settle s := by rw [settle, startUpLoad_loaded loaded, settle]
  rw [← again]
  exact Reaches.keeps (P := fun u => u.boot ≠ .reset) (fun _ _ => Change.boot) (settle_reaches _) loaded

/-! ## A command and its owner -/

/-- An owner's reply leaves a state that a run of changes gives. -/
def Reply.Reached (s : State) : Reply → Prop
  | .done _ _ t => Reaches s t
  | .waits t => Reaches s t
  | .stops _ => True

theorem refuse_reached (why : Result) (s : State) : (refuse why s).Reached s := .refl

theorem reaches_of_next {s u t : State} (h : (Host.Outcome.next u : Host.Outcome State Fault Refusal) = .next t)
    (r : Reaches s u) : Reaches s t := by
  injection h with e
  exact e ▸ r

theorem answerCommand_reaches {l : Link} {kind tag : Byte} {r : Reply} {s t : State} (own : r.Reached s)
    (h : answerCommand l kind tag r = .next t) : Reaches s t := by
  cases r with
  | done result body u => cases h; exact own.trans (answer_kept u l kind tag result body).reaches
  | waits u => cases h; exact own.trans (await_kept u l kind tag).reaches
  | stops f => cases h

/-- The state in which an owner works: the command's link is UP, and the start-up load has begun. -/
structure Working (l : Link) (u : State) : Prop where
  up : (u.port l).state = .up
  loaded : u.boot ≠ .reset

/-- A command is a run of changes if its owner makes one on the links the command is accepted on. -/
theorem command_reaches {i : Instr} {s t : State} {l : Link} {kind tag : Byte} {ops : List Byte} {owner : State → Reply}
    (e : encodeOperands i = some (l, kind, tag, ops)) (h : command i s owner = .next t)
    (own : ∀ u, acceptedOn i l = true → Working l u → (owner u).Reached u) : Reaches s t := by
  simp only [command, e, takeCommand] at h
  refine (settle_reaches s).trans ?_
  cases taken : ((settle s).port l).take (commandFrame kind tag ops) with
  | none => simp only [taken] at h; exact reaches_of_next h .refl
  | some p =>
    simp only [taken] at h
    refine (PortsKept.setPort (take_kept taken)).reaches.trans ?_
    split_ifs at h with bad allowed
    · exact answerCommand_reaches (refuse_reached _ _) h
    · refine answerCommand_reaches (own _ ?_ ⟨?_, ?_⟩) h
      · rwa [← permitted_eq_acceptedOn e]
      · rw [State.port_setPort_same]; exact (take_eq_some taken).2.2.2.1
      · rw [State.setPort_boot]; exact settle_boot s
    · exact answerCommand_reaches (refuse_reached _ _) h

/-! ## The owners -/

/-- The owner of each command: what carries it out, by its kind (R168). A step that is no command has none. -/
def ownerOf : Instr → State → Reply
  | .readPart l _ => ownReadPart l
  | .setLink l _ x => ownSetLink l x
  | .setEvents l _ o => ownSetEvents l o
  | .setExtension _ _ o => ownSetExtension o
  | .eraseExtension _ _ x => ownEraseExtension x
  | .loadExtensions _ _ o => ownLoadExtensions o
  | .readExtension _ _ x => ownReadExtension x
  | .collectChanges l _ => ownCollectChanges l
  | .challenge l _ x => ownChallenge l x
  | .answer l _ o => ownAnswer l o
  | .release _ _ x => ownRelease x
  | .unlock _ _ x => ownUnlock x
  | .setAdmission _ _ o => ownSetAdmission o
  | .openTie l _ o => ownOpenTie l o
  | .clearPath l _ o => ownClearPath l o
  | .readPath _ _ o => ownReadPath o
  | .resetTraffic _ _ => ownResetTraffic
  | .stageKey l _ o => ownStageKey l o
  | .readContext _ _ x => ownReadContext x
  | .resyncTx l _ o => ownResyncTx l o
  | .setGuard l _ o => ownSetGuard l o
  | .setPrivacyDefaults _ _ o => ownSetPrivacyDefaults o
  | .openBridge l _ o => ownOpenBridge l o
  | .addLeg l _ o => ownAddLeg l o
  | .removeLeg l _ o => ownRemoveLeg l o
  | .setLeg l _ o => ownSetLeg l o
  | .setTalker l _ o => ownSetTalker l o
  | .closeBridge l _ o => ownCloseBridge l o
  | .readBridge _ _ x => ownReadBridge x
  | .setSurvey _ _ o => ownSetSurvey o
  | .startSurvey _ _ => ownStartSurvey
  | .stopSurvey _ _ => ownStopSurvey
  | .readSurvey _ _ => ownReadSurvey
  | .adopt l _ x => ownAdopt l x
  | .setOrphanHold _ _ x => ownSetOrphanHold x
  | _ => refuse .badFrame

/-- A command's meaning is its owner's work, once its port has taken it. -/
theorem exec_eq_command {i : Instr} {l : Link} {kind tag : Byte} {ops : List Byte}
    (e : encodeOperands i = some (l, kind, tag, ops)) (s : State) : exec i s = command i s (ownerOf i) := by
  cases i <;> cases e <;> rfl

theorem threshold_kept (p : Port) (n : Nat) : PortKept p { p with threshold := n } := { PortKept.refl p with }

theorem ownSetLink_reached (l : Link) (x : Word16) (u : State) : (ownSetLink l x u).Reached u :=
  (PortsKept.onPort ((threshold_kept (u.port l) _).trans (setOwnHold_kept _ _))).reaches

theorem ownSetEvents_reached (l : Link) (o : EnableOps) (u : State) : (ownSetEvents l o u).Reached u := by
  unfold ownSetEvents
  split
  · exact (PortsKept.onPort { PortKept.refl (u.port l) with }).reaches
  · exact refuse_reached _ _

theorem beginRecord_reaches {o : StoredOps} {u : State} {i : Nat} {r : Stored} {job : Job} (loaded : u.boot ≠ .reset)
    (check : checkRecord o u = .ok (i, r)) (target : job.target = some (i, some r.slot)) :
    Reaches u (beginJob i job u) := by
  obtain ⟨-, quiet, resting, unbound⟩ := checkRecord_ok check
  exact (ExtChange.begun u i job _ loaded target ⟨quiet, resting⟩ (by simpa using unbound)).reaches

theorem ownSetExtension_reached (o : StoredOps) {u : State} (loaded : u.boot ≠ .reset) :
    (ownSetExtension o u).Reached u := by
  unfold ownSetExtension
  split
  · exact refuse_reached _ _
  · rename_i i r check
    exact beginRecord_reaches loaded check rfl

theorem ownEraseExtension_reached (x : Word16) {u : State} (loaded : u.boot ≠ .reset) :
    (ownEraseExtension x u).Reached u := by
  unfold ownEraseExtension
  split
  · exact refuse_reached _ _
  · rename_i i _
    by_cases busy : ((u.ext i).isAdmitted || (u.ext i).challenge.isSome) = true
    · rw [if_pos busy]; exact refuse_reached _ _
    · rw [if_neg busy]
      simp only [Bool.or_eq_true, not_or, Bool.not_eq_true, Option.isSome_eq_false_iff,
        Option.isNone_iff_eq_none] at busy
      exact (ExtChange.begun u i (.erase i) none loaded rfl ⟨busy.2, busy.1⟩ (by simp)).reaches

theorem ownLoadExtensions_reached (o : LoadOps) {u : State} (loaded : u.boot ≠ .reset) :
    (ownLoadExtensions o u).Reached u := by
  unfold ownLoadExtensions
  split
  · exact refuse_reached _ _
  · split
    · exact .refl
    · exact .refl
    · rename_i v turn
      obtain ⟨o', i, r, check, rfl⟩ := loadTurn_begun turn
      exact beginRecord_reaches loaded check rfl

theorem ownReadExtension_reached (x : Word16) (u : State) : (ownReadExtension x u).Reached u := by
  unfold ownReadExtension
  split
  · exact refuse_reached _ _
  · exact .refl

theorem ownCollectChanges_reached (l : Link) (u : State) : (ownCollectChanges l u).Reached u :=
  (PortsKept.onPort { PortKept.refl (u.port l) with changes := fun h => risingIndices_drop h 32 }).reaches

/-- An extension that CHALLENGE does not refuse is not marked, and IDLE or ADMITTED with no challenge (R50). -/
theorem challengeRefusal_none {e : Ext} (h : challengeRefusal e = none) :
    e.programming = false ∧ e.challenge = none ∧ (e.standing = .idle ∨ ∃ since by_,
      e.standing = .admitted since by_) := by
  unfold challengeRefusal at h
  by_cases marked : e.programming = true
  · rw [if_pos marked] at h; cases h
  · rw [if_neg marked] at h
    have quiet : (if e.challenge.isSome then some Result.challengePending else none) = none → e.challenge = none :=
      fun h => by simpa using h
    split at h
    · cases h
    · cases h
    · rename_i idle
      exact ⟨by simpa using marked, quiet h, .inl idle⟩
    · rename_i since by_ admitted
      exact ⟨by simpa using marked, quiet h, .inr ⟨since, by_, admitted⟩⟩

theorem challenge_step (limit : Nat) {e : Ext} (h : challengeRefusal e = none) (c : Challenge) :
    ExtStep limit e { e with challenge := some c, expired := false } := by
  obtain ⟨unmarked, -, standing⟩ := challengeRefusal_none h
  refine ⟨fun _ law => ?_, rfl, rfl, fun r => by rw [r.1] at unmarked; cases unmarked⟩
  unfold ExtLaw at law ⊢
  obtain idle | ⟨since, by_, admitted⟩ := standing
  · rw [idle] at law; simpa [idle] using law
  · rw [admitted] at law; simpa [admitted] using law

theorem ownChallenge_reached (l : Link) (x : Word16) (u : State) : (ownChallenge l x u).Reached u := by
  unfold ownChallenge
  split
  · exact refuse_reached _ _
  · rename_i i _
    split
    · exact refuse_reached _ _
    · rename_i passes
      split
      · trivial
      · rename_i n seeded
        have stepped := (Aside.nonce u nonceStep).reaches
        rw [seeded] at stepped
        exact stepped.trans (ExtChange.record { u with nonce := some (nonceStep n) } i _
          (challenge_step _ passes _) id).reaches

/-- A match leaves the extension with no challenge and no failure, ADMITTED on a call-processor link (R54). -/
theorem match_step {limit : Nat} {e : Ext} {ch : Challenge} (c : e.challenge = some ch) (st : Standing)
    (law : 1 ≤ limit → ExtLaw limit e →
      ExtLaw limit { e with challenge := none, failures := 0, expired := false, standing := st }) :
    ExtStep limit e { e with challenge := none, failures := 0, expired := false, standing := st } :=
  ⟨law, rfl, rfl, fun r => by rw [r.2.1] at c; cases c⟩

theorem isAdmitted_iff (e : Ext) : e.isAdmitted = true ↔ ∃ since by_, e.standing = .admitted since by_ := by
  unfold Ext.isAdmitted
  cases e.standing <;> simp

theorem answerMatch_reached {l : Link} {i : Nat} {ch : Challenge} {u : State} (call : l ≠ .m)
    (c : (u.ext i).challenge = some ch) : (answerMatch l i ch u).Reached u := by
  unfold answerMatch
  simp only []
  split
  · rename_i admitted
    obtain ⟨since, by_, standing⟩ := (isAdmitted_iff _).1 admitted
    refine (ExtChange.record u i _ (match_step c _ fun pos law => ?_) fun _ => admitted).reaches
    simp only [] at standing
    unfold ExtLaw at law ⊢
    rw [standing] at law
    simp only [standing]
    exact ⟨pos, law.2⟩
  · refine Relation.ReflTransGen.trans ?_ ((noteChange_kept _ _).trans (raiseOn_kept _ _ _)).reaches
    refine (ExtChange.record u i _ (match_step c _ fun pos law => ?_) fun _ => rfl).reaches
    exact ⟨pos, (law.challenged c).2, call⟩

theorem ownAnswer_reached {l : Link} (o : AnswerOps) {u : State} (call : l ≠ .m) : (ownAnswer l o u).Reached u := by
  unfold ownAnswer
  split
  · exact refuse_reached _ _
  · split
    · exact refuse_reached _ _
    · rename_i ch c
      split
      · trivial
      · split
        · exact answerMatch_reached call c
        · exact failChallenge_reaches c _

theorem ownRelease_reached (x : Word16) (u : State) : (ownRelease x u).Reached u := by
  unfold ownRelease
  split
  · exact refuse_reached _ _
  · rename_i i _
    simp only []
    split
    · rename_i admitted
      rw [cascade_eq]
      obtain ⟨since, by_, standing⟩ := (isAdmitted_iff _).1 admitted
      refine .single (.leave u _ i { u.ext i with standing := .idle } _ ⟨fun _ law => ?_, rfl, rfl,
        fun r => ?_⟩ admitted
        rfl ((noteChange_kept _ _).trans (raiseOn_kept _ _ _)))
      · unfold ExtLaw at law
        rw [standing] at law
        exact extLaw_idle rfl law.1 law.2.1
      · rw [r.2.2] at admitted; cases admitted
    · exact refuse_reached _ _

theorem ownUnlock_reached (x : Word16) (u : State) : (ownUnlock x u).Reached u := by
  unfold ownUnlock
  split
  · exact refuse_reached _ _
  · split
    · rename_i locked; exact endLockout_reaches locked _
    all_goals exact .refl

theorem ownSetAdmission_reached (o : ThreeOps) (u : State) : (ownSetAdmission o u).Reached u :=
  (ExtChange.limits u _ _ _ (clampTo_le (show 1 ≤ 7 by omega) _).1).reaches

theorem below_eq_some {n x y : Nat} : below n x = some y ↔ x < n ∧ y = x := by
  unfold below
  split_ifs with h <;> simp [h, eq_comm]

theorem ownOpenTie_reached {l : Link} (o : OpenTieOps) {u : State} (call : l ≠ .m) (w : Working l u) :
    (ownOpenTie l o u).Reached u := by
  unfold ownOpenTie
  split
  · exact refuse_reached _ _
  · rename_i station tie priv read
    split
    · exact refuse_reached _ _
    · rename_i e check
      split
      · trivial
      · rename_i id free
        have range : station < 512 ∧ tie < 256 := by
          simp only [readOpenTieOps, Option.bind_eq_bind, Option.pure_def, Option.bind_eq_some_iff, below_eq_some,
            Config.stationSlots, Option.some.injEq, Prod.mk.injEq] at read
          obtain ⟨_, ⟨inRange, rfl⟩, _, _, rfl, rfl, _⟩ := read
          exact ⟨inRange, o.tie.isLt⟩
        exact .single (.openTie u l id station e tie priv _ _ call w.up range check free)

theorem ownClearPath_reached (l : Link) (o : PathRefOps) (u : State) : (ownClearPath l o u).Reached u := by
  unfold ownClearPath
  split
  · exact refuse_reached _ _
  · split
    · exact clearPath_reaches _ _ u
    · exact refuse_reached _ _

theorem ownReadPath_reached (o : ReadPathOps) (u : State) : (ownReadPath o u).Reached u := by
  unfold ownReadPath
  split
  · exact refuse_reached _ _
  · split
    · exact .refl
    · exact refuse_reached _ _

theorem controlledContext_ok {l : Link} {r : PathRefOps} {u : State} {i : Nat} {c : Context}
    (h : controlledContext l r u = .ok (i, c)) : Table.find u.ctxs i = some c := by
  unfold controlledContext at h
  split at h
  · cases h
  · split_ifs at h
    split at h
    · split at h
      · rename_i found
        cases h
        exact found
      · cases h
    · cases h

theorem ownStageKey_reached (l : Link) (o : StageKeyOps) (u : State) : (ownStageKey l o u).Reached u := by
  unfold ownStageKey
  split
  · split
    · exact refuse_reached _ _
    · rename_i tx rx _ _ _ i c named
      refine setCtx_reaches (controlledContext_ok named) ?_
      exact (ContextStep.setDir fun h => h.stage o.tx tx).trans (ContextStep.setDir fun h => h.stage o.rx rx)
  · exact refuse_reached _ _

theorem ownReadContext_reached (x : Byte) (u : State) : (ownReadContext x u).Reached u := by
  unfold ownReadContext
  split
  · exact refuse_reached _ _
  · split
    · exact refuse_reached _ _
    · rename_i c found
      exact setCtx_reaches found (.flags c _)

theorem ownResyncTx_reached (l : Link) (o : PathRefOps) (u : State) : (ownResyncTx l o u).Reached u := by
  unfold ownResyncTx
  split
  · exact refuse_reached _ _
  · rename_i named
    exact setCtx_reaches (controlledContext_ok named) (.tx fun h => DirLaw.rest h)

theorem ownSetGuard_reached (l : Link) (o : SetGuardOps) (u : State) : (ownSetGuard l o u).Reached u := by
  unfold ownSetGuard
  split
  · exact refuse_reached _ _
  · split
    · exact refuse_reached _ _
    · rename_i i c named
      exact setCtx_reaches (controlledContext_ok named) ⟨rfl, rfl, id⟩

theorem ownOpenBridge_reached {l : Link} (o : Opt 16) {u : State} (call : l ≠ .m) (w : Working l u) :
    (ownOpenBridge l o u).Reached u := by
  unfold ownOpenBridge
  split
  · exact refuse_reached _ _
  · simp only []
    split
    · exact refuse_reached _ _
    · rename_i b free
      exact .single (.openBridge u l b _ call w.up (Table.lowestFree_eq_some.1 free).2.1)

theorem namedBridge_ok {r : BridgeRefOps} {u : State} {b : Nat} {x : Bridge} (h : namedBridge r u = .ok (b, x)) :
    Table.find u.bridges b = some x := by
  unfold namedBridge at h
  split at h
  · split at h
    · rename_i found
      split_ifs at h
      cases h
      exact found
    · cases h
  · cases h

theorem controlledBridge_ok {l : Link} {r : BridgeRefOps} {u : State} {b : Nat} {x : Bridge}
    (h : controlledBridge l r u = .ok (b, x)) : Table.find u.bridges b = some x := by
  unfold controlledBridge at h
  split at h
  · cases h
  · rename_i named
    split_ifs at h
    cases h
    exact namedBridge_ok named

theorem controlledLeg_ok {l : Link} {r : BridgeRefOps} {path : Word16} {u : State} {b : Nat} {x : Bridge} {g : Leg}
    (h : controlledLeg l r path u = .ok (b, x, g)) : Table.find u.bridges b = some x := by
  unfold controlledLeg at h
  split at h
  · cases h
  · split at h
    · cases h
    · rename_i named
      split at h
      · cases h; exact controlledBridge_ok named
      · cases h

theorem readNewLeg_range {o : AddLegOps} {g : NewLeg} (h : readNewLeg o = some g) : g.InRange := by
  unfold readNewLeg at h
  split_ifs at h
  · simp only [Option.bind_eq_bind, Option.pure_def, Option.bind_eq_some_iff, below_eq_some, Config.stationSlots,
      Option.some.injEq] at h
    obtain ⟨_, ⟨inRange, rfl⟩, rfl⟩ := h
    exact inRange
  · simp only [Option.bind_eq_bind, Option.pure_def, Option.bind_eq_some_iff, Option.some.injEq] at h
    obtain ⟨_, _, rfl⟩ := h
    exact o.tie.isLt

theorem ownAddLeg_reached (l : Link) (o : AddLegOps) {u : State} (loaded : u.boot ≠ .reset) :
    (ownAddLeg l o u).Reached u := by
  unfold ownAddLeg
  split
  · rename_i read _
    split
    · exact refuse_reached _ _
    · rename_i named
      split
      · exact refuse_reached _ _
      · rename_i check
        split
        · trivial
        · rename_i free
          exact .single
            (.join u _ _ _ _ _ _ o.timing _ _ (controlledBridge_ok named) (readNewLeg_range read) check free loaded)
  · exact refuse_reached _ _

theorem ownRemoveLeg_reached (l : Link) (o : RemoveLegOps) (u : State) : (ownRemoveLeg l o u).Reached u := by
  unfold ownRemoveLeg
  split
  · exact refuse_reached _ _
  · exact clearPath_reaches _ _ u

theorem staged_legs (gs : List Leg) (id gain : Nat) (mode : Mode) :
    (gs.map (Leg.stage id gain mode)).map (fun g => (g.path, g.slot)) = gs.map (fun g => (g.path, g.slot)) := by
  rw [List.map_map]
  refine List.map_congr_left fun g _ => ?_
  simp only [Function.comp, Leg.stage]
  split <;> rfl

theorem ownSetLeg_reached (l : Link) (o : SetLegOps) (u : State) : (ownSetLeg l o u).Reached u := by
  unfold ownSetLeg
  split
  · exact refuse_reached _ _
  · split
    · exact refuse_reached _ _
    · rename_i named
      exact .single (.bridge u _ _ _ (controlledLeg_ok named) ⟨rfl, staged_legs _ _ _ _⟩)

theorem ownSetTalker_reached (l : Link) (o : SetTalkerOps) (u : State) : (ownSetTalker l o u).Reached u := by
  unfold ownSetTalker
  split
  · exact refuse_reached _ _
  · rename_i named
    exact .single (.bridge u _ _ _ (controlledBridge_ok named) ⟨rfl, rfl⟩)

theorem ownCloseBridge_reached (l : Link) (o : BridgeRefOps) (u : State) : (ownCloseBridge l o u).Reached u := by
  unfold ownCloseBridge
  split
  · exact refuse_reached _ _
  · split
    · exact closeBridge_reaches _ _ u
    · exact refuse_reached _ _

theorem ownReadBridge_reached (x : Byte) (u : State) : (ownReadBridge x u).Reached u := by
  unfold ownReadBridge
  split
  · exact refuse_reached _ _
  · split
    · exact refuse_reached _ _
    · exact .refl

theorem ownSetSurvey_reached (o : SetSurveyOps) (u : State) : (ownSetSurvey o u).Reached u := by
  unfold ownSetSurvey
  split
  · exact refuse_reached _ _
  · exact (Aside.survey u _ fun _ => rfl).reaches

theorem ownStartSurvey_reached (u : State) : (ownStartSurvey u).Reached u := by
  unfold ownStartSurvey
  split
  · exact refuse_reached _ _
  · exact survey_reaches u rfl

theorem ownAdopt_reached {l : Link} (x : Byte) {u : State} (call : l ≠ .m) (w : Working l u) :
    (ownAdopt l x u).Reached u := by
  unfold ownAdopt
  split
  · exact refuse_reached _ _
  · exact (Relation.ReflTransGen.single (.adopt u _ l call w.up)).trans (raiseOn_reaches _ _ _)

/-- Every owner makes a run of changes. -/
theorem ownerOf_reached {i : Instr} {l : Link} {kind tag : Byte} {ops : List Byte}
    (e : encodeOperands i = some (l, kind, tag, ops)) {u : State} (ok : acceptedOn i l = true) (w : Working l u) :
    (ownerOf i u).Reached u := by
  cases i with
  | readPart k _ => exact Relation.ReflTransGen.refl
  | setLink k _ x => exact ownSetLink_reached k x u
  | setEvents k _ o => exact ownSetEvents_reached k o u
  | setExtension _ _ o => exact ownSetExtension_reached o w.loaded
  | eraseExtension _ _ x => exact ownEraseExtension_reached x w.loaded
  | loadExtensions _ _ o => exact ownLoadExtensions_reached o w.loaded
  | readExtension _ _ x => exact ownReadExtension_reached x u
  | collectChanges k _ => exact ownCollectChanges_reached k u
  | challenge k _ x => exact ownChallenge_reached k x u
  | answer k _ o => cases e; exact ownAnswer_reached o (of_decide_eq_true ok)
  | release _ _ x => exact ownRelease_reached x u
  | unlock _ _ x => exact ownUnlock_reached x u
  | setAdmission _ _ o => exact ownSetAdmission_reached o u
  | openTie k _ o => cases e; exact ownOpenTie_reached o (of_decide_eq_true ok) w
  | clearPath k _ o => exact ownClearPath_reached k o u
  | readPath _ _ o => exact ownReadPath_reached o u
  | resetTraffic _ _ => exact Relation.ReflTransGen.single (.clearAll u)
  | stageKey k _ o => exact ownStageKey_reached k o u
  | readContext _ _ x => exact ownReadContext_reached x u
  | resyncTx k _ o => exact ownResyncTx_reached k o u
  | setGuard k _ o => exact ownSetGuard_reached k o u
  | setPrivacyDefaults _ _ o => exact (Aside.defaults u _ _ _ u.orphanHold).reaches
  | openBridge k _ o => cases e; exact ownOpenBridge_reached o (of_decide_eq_true ok) w
  | addLeg k _ o => exact ownAddLeg_reached k o w.loaded
  | removeLeg k _ o => exact ownRemoveLeg_reached k o u
  | setLeg k _ o => exact ownSetLeg_reached k o u
  | setTalker k _ o => exact ownSetTalker_reached k o u
  | closeBridge k _ o => exact ownCloseBridge_reached k o u
  | readBridge _ _ x => exact ownReadBridge_reached x u
  | setSurvey _ _ o => exact ownSetSurvey_reached o u
  | startSurvey _ _ => exact ownStartSurvey_reached u
  | stopSurvey _ _ => exact survey_reaches u rfl
  | readSurvey _ _ => exact Relation.ReflTransGen.refl
  | adopt k _ x => cases e; exact ownAdopt_reached x (of_decide_eq_true ok) w
  | setOrphanHold _ _ x => exact (Aside.defaults u u.huntTime u.guardCeiling u.guardStrikes _).reaches
  | _ => cases e

/-! ## Every step -/

theorem whenLoaded_reaches {f : State → State} {s : State} (h : s.boot = .ended → Reaches s (f s)) :
    Reaches s (whenLoaded f s) := by
  unfold whenLoaded
  split
  · rename_i ended; exact h ended
  · exact .refl

/-- A symbol or a frame on a port, once all that is due has been taken. -/
theorem onLoadedPort_reaches {f : Port → Port} (h : ∀ p, PortKept p (f p)) (l : Link) (s : State) :
    Reaches s (onLoadedPort l f s) :=
  (settle_reaches s).trans (whenLoaded_reaches fun _ => (PortsKept.onPort (h _)).reaches)

theorem startSymbol_reaches {l : Link} {s : State} (ended : s.boot = .ended) : Reaches s (startSymbol l s) := by
  unfold startSymbol
  split
  · exact (Relation.ReflTransGen.single (.linkUp s l ended)).trans (raiseOn_reaches _ _ _)
  · exact (PortsKept.onPort (validSymbol_kept _)).reaches
  · rename_i down; exact (PortsKept.onPort (breakAlignment_kept (by simp [down]))).reaches

theorem execFrameStart_reaches {o : FrameOps} {s t : State} (h : execFrameStart o s = .next t) : Reaches s t := by
  have begun := (settle_reaches s).trans (beginFrame_reaches o _)
  refine reaches_of_next h ?_
  split
  · exact begun.trans (beginWork_reaches _)
  · exact begun

theorem execBadFrameCommand_reaches {l : Link} {f : List Byte} {s t : State} (h : execBadFrameCommand l f s = .next t) :
    Reaches s t := by
  unfold execBadFrameCommand at h
  refine (settle_reaches s).trans ?_
  simp only [] at h
  split_ifs at h
  · split at h
    · exact reaches_of_next h .refl
    · rename_i taken
      exact (PortsKept.setPort (take_kept taken)).reaches.trans (answerCommand_reaches (refuse_reached _ _) h)
  · exact reaches_of_next h .refl

/-- What a step can do: it is a power-on reset, or it makes a run of changes. -/
theorem exec_reaches {i : Instr} {s t : State} (h : exec i s = .next t) : t = powerOnReset s ∨ Reaches s t := by
  cases i with
  | powerOnReset => cases h; exact .inl rfl
  | startUpLoad => exact .inr (reaches_of_next h (startUpLoad_reaches s))
  | startCountProgramDone => exact .inr (reaches_of_next h ((workDue_reaches s).trans (startCountDone_reaches _)))
  | frameStart o => exact .inr (execFrameStart_reaches h)
  | preambleEnd i => exact .inr (reaches_of_next h ((beginWork_reaches s).trans (preambleEnd_reaches i _)))
  | keyDueWarning i d => exact .inr (reaches_of_next h ((beginWork_reaches s).trans (keyDueWarning_reaches i d _)))
  | rollover i d => exact .inr (reaches_of_next h ((beginWork_reaches s).trans (rollover_reaches i d _)))
  | huntReport i => exact .inr (reaches_of_next h ((beginWork_reaches s).trans (huntReport_reaches i _)))
  | guardWindowEnd i => exact .inr (reaches_of_next h ((beginWork_reaches s).trans (guardWindowEnd_reaches i _)))
  | bridgeWindowBoundary b => exact .inr (reaches_of_next h ((beginWork_reaches s).trans (bridgeBoundary_reaches b _)))
  | surveyEntryComplete => exact .inr (reaches_of_next h ((beginWork_reaches s).trans (surveyDue_reaches _)))
  | challengeExpiry e => exact .inr (reaches_of_next h ((workDue_reaches s).trans (challengeExpiry_reaches e _)))
  | lockoutExpiry e => exact .inr (reaches_of_next h ((workDue_reaches s).trans (lockoutExpiry_reaches e _)))
  | orphanDeadline r => exact .inr (reaches_of_next h ((workDue_reaches s).trans (orphanDeadline_reaches r _)))
  | programComplete => exact .inr (reaches_of_next h ((workDue_reaches s).trans (programComplete_reaches _)))
  | eraseComplete => exact .inr (reaches_of_next h ((workDue_reaches s).trans (eraseComplete_reaches _)))
  | loadEntryComplete => exact .inr (reaches_of_next h ((workDue_reaches s).trans (loadEntryComplete_reaches _)))
  | tieFrameArrival x f => exact .inr (reaches_of_next h ((settle_reaches s).trans (tieArrival_reaches x f _)))
  | highwayLostSilent x => exact .inr (reaches_of_next h ((workDue_reaches s).trans (lostSilent_reaches x _)))
  | highwayRestore x => exact .inr (reaches_of_next h (restoreHighway_reaches x s))
  | alignReceived l => exact .inr (reaches_of_next h (onLoadedPort_reaches alignSymbol_kept l s))
  | linkAligning l => exact .inr (reaches_of_next h (whenLoaded_reaches fun _ => linkAligningDue_reaches l s))
  | startReceived l => exact .inr (reaches_of_next h ((settle_reaches s).trans
    (whenLoaded_reaches startSymbol_reaches)))
  | otherSymbolReceived l sym => exact .inr (reaches_of_next h
    (onLoadedPort_reaches (fun p => otherSymbol_kept p sym) l s))
  | linkDown l => exact .inr (reaches_of_next h (whenLoaded_reaches fun _ => linkDownDue_reaches l s))
  | holdOnReceived l => exact .inr (reaches_of_next h (onLoadedPort_reaches (fun p => holdSymbol_kept p true) l s))
  | holdOffReceived l => exact .inr (reaches_of_next h (onLoadedPort_reaches (fun p => holdSymbol_kept p false) l s))
  | commandFrameReceived l f => exact .inr (reaches_of_next h (onLoadedPort_reaches (fun p => wholeFrame_kept p f) l s))
  | outboundFrameStart l =>
    exact .inr (reaches_of_next h ((settle_reaches s).trans (PortsKept.onPort (begin_kept _ _)).reaches))
  | badFrameCommand l f => exact .inr (execBadFrameCommand_reaches h)
  | _ =>
    rw [exec_eq_command rfl] at h
    exact .inr (command_reaches rfl h fun u ok w => ownerOf_reached rfl ok w)

/-- A law that a power-on reset keeps and every change keeps is kept by every step. -/
theorem step_keeps {P : State → Prop} (reset : ∀ s, P s → P (powerOnReset s)) (one : ∀ s t, Change s t → P s → P t)
    {s t : State} (hs : P s) (h : step s = .next t) : P t := by
  unfold step at h
  split at h
  · cases h; exact hs
  · rename_i c rest _
    have queued : P { s with pending := rest } := one _ _ (.aside (.queue s rest)) hs
    obtain rfl | changes := exec_reaches h
    · exact reset _ queued
    · exact changes.keeps one queued

end Sys2Proof.Machine
end

