-- ==== Sys2Proof/Proofs/PortsAndGenerators.lean ====
section
/-! PROOF. The port bounds, the law of generators, and O7 and O8: what every change does to the ports and to the
directions of contexts. -/

namespace Sys2Proof.Machine

open Table (find put del mapAll)

/-! ## Traffic that stands -/

/-- Traffic stands as it was, and ports change as `PortKept` says. -/
structure TrafficSame (s t : State) : Prop where
  paths : t.paths = s.paths
  stationOcc : t.stationOcc = s.stationOcc
  tieOcc : t.tieOcc = s.tieOcc
  ctxs : t.ctxs = s.ctxs
  bridges : t.bridges = s.bridges
  kept : ∀ l, PortKept (s.port l) (t.port l)

theorem PortsKept.traffic {s t : State} (h : PortsKept s t) : TrafficSame s t where
  paths := by rw [h.rest]
  stationOcc := by rw [h.rest]
  tieOcc := by rw [h.rest]
  ctxs := by rw [h.rest]
  bridges := by rw [h.rest]
  kept := h.kept

theorem TrafficSame.trans {s t u : State} (a : TrafficSame s t) (b : TrafficSame t u) : TrafficSame s u where
  paths := b.paths.trans a.paths
  stationOcc := b.stationOcc.trans a.stationOcc
  tieOcc := b.tieOcc.trans a.tieOcc
  ctxs := b.ctxs.trans a.ctxs
  bridges := b.bridges.trans a.bridges
  kept l := (a.kept l).trans (b.kept l)

/-- A change of other fields than traffic and ports. -/
theorem TrafficSame.of_eq {s t : State} (paths : t.paths = s.paths) (stationOcc : t.stationOcc = s.stationOcc)
    (tieOcc : t.tieOcc = s.tieOcc) (ctxs : t.ctxs = s.ctxs) (bridges : t.bridges = s.bridges)
    (a : t.portA = s.portA) (b : t.portB = s.portB) (m : t.portM = s.portM) : TrafficSame s t :=
  ⟨paths, stationOcc, tieOcc, ctxs, bridges, fun l => by rw [State.port_congr a b m l]; exact .refl _⟩

theorem Aside.traffic {s t : State} (h : Aside s t) : TrafficSame s t := by
  cases h with
  | ports h => exact h.traffic
  | _ => exact .of_eq rfl rfl rfl rfl rfl rfl rfl rfl

theorem finishProgram_traffic (i : Nat) (r : Stored) (s : State) : TrafficSame s (finishProgram i r s) := by
  unfold finishProgram
  simp only []
  split
  · exact .of_eq rfl rfl rfl rfl rfl rfl rfl rfl
  · refine TrafficSame.trans ?_ (noteChange_kept _ _).traffic
    exact .of_eq rfl rfl rfl rfl rfl rfl rfl rfl

theorem finishErase_traffic (i : Nat) (s : State) : TrafficSame s (finishErase i s) := by
  unfold finishErase
  simp only []
  split
  · exact .of_eq rfl rfl rfl rfl rfl rfl rfl rfl
  · refine TrafficSame.trans ?_ (noteChange_kept _ _).traffic
    exact .of_eq rfl rfl rfl rfl rfl rfl rfl rfl

theorem beginJob_traffic (i : Nat) (job : Job) (s : State) : TrafficSame s (beginJob i job s) :=
  .of_eq rfl rfl rfl rfl rfl rfl rfl rfl

theorem startUpLoad_traffic (s : State) : TrafficSame s (startUpLoad s) := by
  unfold startUpLoad
  split_ifs
  · simp only []
    split_ifs <;> exact .of_eq rfl rfl rfl rfl rfl rfl rfl rfl
  · exact .of_eq rfl rfl rfl rfl rfl rfl rfl rfl

theorem startCountDone_traffic (s : State) : TrafficSame s (startCountDone s) := by
  unfold startCountDone
  split <;> exact .of_eq rfl rfl rfl rfl rfl rfl rfl rfl

theorem ExtChange.traffic {s t : State} (h : ExtChange s t) : TrafficSame s t := by
  cases h with
  | programmed i r g => exact finishProgram_traffic i r s
  | nextBegun i r g _ _ j => exact (finishProgram_traffic i r s).trans (beginJob_traffic j _ _)
  | erased i g => exact finishErase_traffic i s
  | begun i job => exact beginJob_traffic i job s
  | load => exact startUpLoad_traffic s
  | count => exact startCountDone_traffic s
  | _ => exact .of_eq rfl rfl rfl rfl rfl rfl rfl rfl

/-! ## An open -/

/-- Writing a path's record changes only the path map and the extensions. -/
theorem writePath_eq (id : Nat) (p : Path) (s : State) :
    writePath id p s =
      { s with
        paths := put s.paths id p, exts := (writePath id p s).exts,
        stationOcc := p.kind.station.elim s.stationOcc (fun n => put s.stationOcc n id),
        tieOcc := p.kind.tieSlot.elim s.tieOcc (fun n => put s.tieOcc n id) } := by
  unfold writePath
  cases p.kind.station <;> cases p.kind.tieSlot <;> cases p.kind.ext <;> rfl

theorem allocate_eq (priv : Bool) (id tie : Nat) (k : KeyBlock) (t : Timing) (s : State) :
    (allocate priv id tie k t s).1 = { s with ctxs := (allocate priv id tie k t s).1.ctxs } := by
  unfold allocate
  split
  · split <;> rfl
  · rfl

theorem placeLeg_eq (b id : Nat) (g : NewLeg) (e : Option Nat) (k : KeyBlock) (t : Timing) (s : State) :
    (placeLeg b id g e k t s).1 = { s with ctxs := (placeLeg b id g e k t s).1.ctxs } := by
  cases g with
  | station => rfl
  | tie => exact allocate_eq _ _ _ _ _ _

theorem openedTie_port (l : Link) (id station e tie : Nat) (priv : Bool) (k : KeyBlock) (t : Timing) (s : State)
    (j : Link) : (openedTie l id station e tie priv k t s).port j = s.port j := by
  unfold openedTie
  rw [writePath_eq, allocate_eq]
  cases j <;> rfl

theorem joinedLeg_port (b : Nat) (x : Bridge) (id : Nat) (g : NewLeg) (e : Option Nat) (k : KeyBlock) (t : Timing)
    (gain : Nat) (mode : Mode) (s : State) (j : Link) : (joinedLeg b x id g e k t gain mode s).port j = s.port j := by
  unfold joinedLeg
  simp only []
  rw [writePath_eq, placeLeg_eq]
  cases j <;> rfl

/-! ## The ports (O7) -/

/-- What a change can do to a port: it keeps its bounds, or the link goes UP after the load, or DOWN. -/
theorem Change.port {s t : State} (h : Change s t) (l : Link) :
    PortKept (s.port l) (t.port l) ∨ (t.port l = (s.port l).goUp ∧ s.boot = .ended) ∨ t.port l = (s.port l).goDown := by
  have same : t.port l = s.port l → PortKept (s.port l) (t.port l) := fun e => e ▸ .refl _
  cases h with
  | aside h => exact .inl (h.traffic.kept l)
  | ext h => exact .inl (h.traffic.kept l)
  | linkUp k ended =>
    rw [State.port_onPort]
    by_cases e : l = k
    · subst e; exact .inr (.inl ⟨if_pos rfl, ended⟩)
    · rw [if_neg e]; exact .inl (.refl _)
  | linkDown k d =>
    have ports : (recontrol (fun c => decide (c = .control k)) (.orphan k d) (s.onPort k Port.goDown)).port l
        = (s.onPort k Port.goDown).port l := State.port_congr rfl rfl rfl l
    rw [ports, State.port_onPort]
    by_cases e : l = k
    · subst e; exact .inr (.inr (if_pos rfl))
    · rw [if_neg e]; exact .inl (.refl _)
  | managerDown =>
    rw [State.port_onPort]
    by_cases e : l = .m
    · subst e; exact .inr (.inr (if_pos rfl))
    · rw [if_neg e]; exact .inl (.refl _)
  | clear id cause => exact .inl ((clearPath_clearsOnly id cause s).kept l)
  | close b cause => exact .inl ((closeBridge_clearsOnly b cause s).kept l)
  | leave u i e cause _ _ _ events =>
    refine .inl (PortKept.trans ?_ ((clearExtPath_clearsOnly _ cause u).kept l))
    have := events.kept l
    rwa [State.port_setExt] at this
  | openTie => exact .inl (same (openedTie_port _ _ _ _ _ _ _ _ _ l))
  | join => exact .inl (same (joinedLeg_port _ _ _ _ _ _ _ _ _ _ l))
  | _ => exact .inl (same (State.port_congr rfl rfl rfl l))

theorem Change.portBounds {s t : State} (h : Change s t) (bounds : PortBounds s) : PortBounds t := by
  intro l m
  obtain ⟨queue, overrun, events⟩ := bounds l m
  obtain kept | ⟨up, -⟩ | down := h.port l
  · exact ⟨by have := kept.queue; omega, by have := kept.overrun; omega, by have := kept.events; omega⟩
  · rw [up]; simp [Port.goUp]
  · rw [down]; simp [Port.goDown]

/-- Settles O7: every change keeps each port's bounds, or empties it. -/
theorem stepKeepsPortBounds : Obligations.StepKeepsPortBounds := fun _ _ bounds h =>
  step_keeps (fun s _ l _ => by cases l <;> simp [powerOnReset, State.port, State.reset, Port.reset])
    (fun _ _ => Change.portBounds) bounds h

/-! ## Tables by membership -/

theorem mem_put {α : Type} {t : Table α} {i : Nat} {v : α} {e : Nat × α} (h : e ∈ put t i v) : e = (i, v) ∨ e ∈ t := by
  induction t with
  | nil => exact .inl (by simpa [put] using h)
  | cons x t ih =>
    obtain ⟨k, w⟩ := x
    simp only [put] at h
    split_ifs at h
    · exact (List.mem_cons.1 h).imp_right id
    · exact (List.mem_cons.1 h).imp_right (List.mem_cons_of_mem _)
    · obtain rfl | h := List.mem_cons.1 h
      · exact .inr List.mem_cons_self
      · exact (ih h).imp_right (List.mem_cons_of_mem _)

theorem mem_del {α : Type} {t : Table α} {i : Nat} {e : Nat × α} (h : e ∈ del t i) : e ∈ t := by
  induction t with
  | nil => exact h
  | cons x t ih =>
    obtain ⟨k, w⟩ := x
    simp only [del] at h
    split_ifs at h
    · exact List.mem_cons_of_mem _ (ih h)
    · obtain rfl | h := List.mem_cons.1 h
      · exact List.mem_cons_self
      · exact List.mem_cons_of_mem _ (ih h)

theorem mem_mapAll {α : Type} {t : Table α} {f : α → α} {e : Nat × α} (h : e ∈ mapAll t f) :
    ∃ x ∈ t, e.2 = f x.2 := by
  obtain ⟨x, m, rfl⟩ := List.mem_map.1 h
  exact ⟨x, m, rfl⟩

/-! ## Clearing, field by field -/

theorem clearPath_of_none {s : State} {id : Nat} (h : find s.paths id = none) (cause : ClearCause) :
    clearPath id cause s = s := by simp [clearPath, h]

/-- The bridges that a leg's leaving gives. -/
theorem dropLeg_bridges (id b : Nat) (s : State) :
    (dropLeg id b s).1.bridges =
      match find s.bridges b with
      | some x => put s.bridges b
          { x with legs := x.legs.filter fun g => decide (g.path ≠ id),
                   talker := if x.talker = some id then none else x.talker }
      | none => s.bridges := by
  unfold dropLeg
  cases find s.bridges b with
  | none => rfl
  | some x =>
    simp only []
    by_cases h : x.talker = some id
    · simp only [h, if_true]
    · simp only [h, if_false]

/-- What a cleared path's state is, but for the ports: its record freed and its leg gone. -/
theorem clearPath_ports {s : State} {id : Nat} {p : Path} (h : find s.paths id = some p) (cause : ClearCause) :
    PortsKept (p.kind.bridge.elim (freePathRecord id p s) fun b => (dropLeg id b (freePathRecord id p s)).1)
      (clearPath id cause s) := by
  simp only [clearPath, h]
  cases p.kind.bridge with
  | none => exact (raiseOn_kept _ _ _).trans (raiseIf_kept _ _)
  | some b => exact (raiseOn_kept _ _ _).trans (raiseIf_kept _ _)

section
variable {s : State} {id : Nat} {p : Path}

theorem clearPath_stationOcc (h : find s.paths id = some p) (cause : ClearCause) :
    (clearPath id cause s).stationOcc = p.kind.station.elim s.stationOcc (del s.stationOcc) := by
  rw [(clearPath_ports h cause).rest]
  cases p.kind.bridge with
  | none => simp only [Option.elim]; rw [freePathRecord_eq]; rfl
  | some b => simp only [Option.elim]; rw [dropLeg_eq, freePathRecord_eq]; rfl

theorem clearPath_tieOcc (h : find s.paths id = some p) (cause : ClearCause) :
    (clearPath id cause s).tieOcc = p.kind.tieSlot.elim s.tieOcc (del s.tieOcc) := by
  rw [(clearPath_ports h cause).rest]
  cases p.kind.bridge with
  | none => simp only [Option.elim]; rw [freePathRecord_eq]; rfl
  | some b => simp only [Option.elim]; rw [dropLeg_eq, freePathRecord_eq]; rfl

theorem clearPath_ctxs (h : find s.paths id = some p) (cause : ClearCause) :
    (clearPath id cause s).ctxs = p.kind.ctx.elim s.ctxs (del s.ctxs) := by
  rw [(clearPath_ports h cause).rest]
  cases p.kind.bridge with
  | none => simp only [Option.elim]; rw [freePathRecord_eq]; rfl
  | some b => simp only [Option.elim]; rw [dropLeg_eq, freePathRecord_eq]; rfl

theorem clearPath_bridges (h : find s.paths id = some p) (cause : ClearCause) :
    (clearPath id cause s).bridges = p.kind.bridge.elim s.bridges fun b => (dropLeg id b s).1.bridges := by
  rw [(clearPath_ports h cause).rest]
  cases p.kind.bridge with
  | none => simp only [Option.elim]; rw [freePathRecord_eq]
  | some b =>
    simp only [Option.elim, dropLeg_bridges]
    rw [freePathRecord_eq]

theorem clearPath_ext (h : find s.paths id = some p) (cause : ClearCause) (i : Nat) :
    (clearPath id cause s).ext i = if p.kind.ext = some i then { s.ext i with path := none } else s.ext i := by
  rw [(clearPath_ports h cause).ext i, ← freePathRecord_ext id p s i]
  cases p.kind.bridge with
  | none => rfl
  | some b => exact State.ext_congr (by simp only [Option.elim]; rw [dropLeg_eq]) i

end

/-- Contexts are only taken away by a clearing. -/
theorem clearPath_ctxs_subset (id : Nat) (cause : ClearCause) (s : State) : ∀ e ∈ (clearPath id cause s).ctxs,
    e ∈ s.ctxs := by
  intro e m
  cases h : find s.paths id with
  | none => rwa [clearPath_of_none h] at m
  | some p =>
    rw [clearPath_ctxs h] at m
    cases k : p.kind.ctx with
    | none => rwa [k] at m
    | some i => rw [k] at m; exact mem_del m

/-! ## The generators (O8) -/

theorem generatorLaw_iff (s : State) : GeneratorLaw s ↔ ∀ e ∈ s.ctxs, e.2.Lawful := Iff.rfl

theorem GeneratorLaw.subset {s t : State} (h : GeneratorLaw s) (sub : ∀ e ∈ t.ctxs, e ∈ s.ctxs) : GeneratorLaw t :=
  fun e m => h e (sub e m)

theorem clearPath_generators (id : Nat) (cause : ClearCause) {s : State} (h : GeneratorLaw s) :
    GeneratorLaw (clearPath id cause s) := h.subset (clearPath_ctxs_subset id cause s)

theorem closeBridge_generators (b : Nat) (cause : ClearCause) {s : State} (h : GeneratorLaw s) :
    GeneratorLaw (closeBridge b cause s) := by
  unfold closeBridge
  split
  · exact (forEach_keeps (P := GeneratorLaw) (fun p _ => clearPath_generators p cause) _ h).subset fun _ m => m
  · exact h

/-- The contexts after an allocation: those before it, and the one allocated. -/
theorem allocate_generators (priv : Bool) (id tie : Nat) (k : KeyBlock) (t : TimingOps)
    {s : State} (h : GeneratorLaw s) :
    GeneratorLaw (allocate priv id tie k (takeTiming t) s).1 := by
  unfold allocate
  split
  · split
    · intro e m
      obtain rfl | m := mem_put m
      · exact openContext_lawful s id tie k t
      · exact h e m
    · exact h
  · exact h

theorem Change.generators {s t : State} (h : Change s t) (law : GeneratorLaw s) : GeneratorLaw t := by
  have same : t.ctxs = s.ctxs → GeneratorLaw t := fun e => law.subset (by rw [e]; exact fun _ m => m)
  cases h with
  | aside h => exact same h.traffic.ctxs
  | ext h => exact same h.traffic.ctxs
  | linkUp l => exact same (by simp)
  | linkDown l => exact same (by simp)
  | managerDown => exact same (by simp)
  | context i c d found step =>
    intro e m
    obtain rfl | m := mem_put m
    · exact step.lawful (law _ (Table.mem_of_find found))
    · exact law e m
  | clear id cause => exact clearPath_generators id cause law
  | close b cause => exact closeBridge_generators b cause law
  | clearAll => exact fun e m => by cases m
  | leave u i e cause _ _ _ events =>
    have told : GeneratorLaw u := law.subset (by rw [events.traffic.ctxs]; exact fun _ m => m)
    cases (s.ext i).path with
    | none => exact told
    | some id => exact clearPath_generators id cause told
  | openTie l id station e tie priv k t =>
    refine (allocate_generators priv id tie k t law).subset ?_
    rw [openedTie, writePath_eq]
    exact fun _ m => m
  | join b x id g e k t gain mode =>
    have placed : GeneratorLaw (placeLeg b id g e k (takeTiming t) s).1 := by
      cases g with
      | station => exact law
      | tie slot priv => exact allocate_generators priv id slot k t law
    refine placed.subset ?_
    rw [joinedLeg, writePath_eq]
    exact fun _ m => m
  | _ => exact same rfl

/-- Settles O8: a change writes a context only as `ContextStep` says or as an open takes it. -/
theorem stepKeepsGeneratorLaw : Obligations.StepKeepsGeneratorLaw := fun _ _ law h =>
  step_keeps (fun _ _ _ m => by cases m) (fun _ _ => Change.generators) law h

end Sys2Proof.Machine
end

