-- ==== Sys2Proof/Proofs/OccupancyAndContexts.lean ====
section
/-! PROOF. What an open writes, said once; then the occupancy, the contexts and the controllers, and O9, O10 and O12. -/

namespace Sys2Proof.Machine

open Table (find put del mapAll)

/-! ## An open, whole -/

/-- A context is allocated where the path's kind names one: the lowest free one, for the path and its tie slot. -/
def Allocated (s t : State) (id : Nat) (k : PathKind) : Prop :=
  (k.ctx = none ∧ t.ctxs = s.ctxs)
    ∨ ∃ i c, k.ctx = some i ∧ find s.ctxs i = none ∧ t.ctxs = put s.ctxs i c ∧ c.path = id
        ∧ k.tieSlot = some c.tieSlot

/-- A path is opened on record `id`: record and slots were free, the slots in range, and a station slot is bound to the
ADMITTED extension that has the path as its path in use from now on. -/
structure Opened (s t : State) (id : Nat) (p : Path) : Prop where
  fresh : id < 384 ∧ find s.paths id = none
  paths : t.paths = put s.paths id p
  stationOcc : t.stationOcc = p.kind.station.elim s.stationOcc fun n => put s.stationOcc n id
  tieOcc : t.tieOcc = p.kind.tieSlot.elim s.tieOcc fun n => put s.tieOcc n id
  station : ∀ n, p.kind.station = some n → find s.stationOcc n = none ∧ n < 512
    ∧ ∃ e, p.kind.ext = some e ∧ (s.ext e).isAdmitted = true ∧ find s.slotMap n = some e
  bound : p.kind.station = none → p.kind.ext = none
  tie : ∀ n, p.kind.tieSlot = some n → find s.tieOcc n = none ∧ n < 256
  context : Allocated s t id p.kind
  exts : t.exts = p.kind.ext.elim s.exts fun e => (setExtPath e (some id) s).exts
  rest : t = { s with paths := t.paths, stationOcc := t.stationOcc, tieOcc := t.tieOcc, ctxs := t.ctxs, exts := t.exts,
                      bridges := t.bridges }

theorem allocate_allocated {priv : Bool} {id tie : Nat} (k : KeyBlock) (t : Timing) {s : State}
    (room : (priv && s.freeCtx.isNone) = false) {kind : PathKind} (ctx : kind.ctx = (allocate priv id tie k t s).2.ctx)
    (slot : kind.tieSlot = some tie) : Allocated s (allocate priv id tie k t s).1 id kind := by
  cases priv with
  | false => exact .inl ⟨ctx, rfl⟩
  | true =>
    cases f : s.freeCtx with
    | none => simp [f] at room
    | some i =>
      have found : allocate true id tie k t s = (s.setCtx i (openContext s id tie k t), .priv i) := by
        simp [allocate, f]
      rw [found] at ctx ⊢
      exact .inr ⟨i, _, ctx, (Table.lowestFree_eq_some.1 f).2.1, rfl, rfl, slot⟩

theorem writePath_exts (id : Nat) (p : Path) (s : State) :
    (writePath id p s).exts = p.kind.ext.elim s.exts fun e => (setExtPath e (some id) s).exts := by
  unfold writePath
  cases p.kind.station <;> cases p.kind.tieSlot <;> cases p.kind.ext <;> rfl

/-- Writing a path's record over its context's allocation opens the path. -/
theorem writePath_opened {s u : State} {id : Nat} {p : Path} (only : u = { s with ctxs := u.ctxs })
    (free : s.freePath = some id) (context : Allocated s u id p.kind)
    (station : ∀ n, p.kind.station = some n → find s.stationOcc n = none ∧ n < 512
      ∧ ∃ e, p.kind.ext = some e ∧ (s.ext e).isAdmitted = true ∧ find s.slotMap n = some e)
    (bound : p.kind.station = none → p.kind.ext = none)
    (tie : ∀ n, p.kind.tieSlot = some n → find s.tieOcc n = none ∧ n < 256) :
    Opened s (writePath id p u) id p := by
  obtain ⟨low, fresh, -⟩ := Table.lowestFree_eq_some.1 free
  refine ⟨⟨low, fresh⟩, ?_, ?_, ?_, station, bound, tie, ?_, ?_, ?_⟩
  · rw [writePath_eq, only]
  · rw [writePath_eq, only]
  · rw [writePath_eq, only]
  · have same : (writePath id p u).ctxs = u.ctxs := by rw [writePath_eq]
    unfold Allocated at context ⊢
    rwa [same]
  · rw [writePath_exts, only]; cases p.kind.ext <;> rfl
  · rw [writePath_eq, only]

theorem checkOpenTie_ok {station tie e : Nat} {priv : Bool} {s : State} (h : checkOpenTie station tie priv s = .ok e) :
    find s.stationOcc station = none ∧ find s.tieOcc tie = none ∧ find s.slotMap station = some e
      ∧ (s.ext e).isAdmitted = true ∧ (priv && s.freeCtx.isNone) = false := by
  unfold checkOpenTie at h
  split at h
  · rename_i slots
    simp only [Bool.and_eq_true, State.stationFree, State.tieFree, Option.isNone_iff_eq_none] at slots
    split at h
    · cases h
    · split at h
      · split at h
        · cases h
        · split_ifs at h with room
          cases h
          exact ⟨slots.1, slots.2, by assumption, by assumption, Bool.eq_false_iff.2 room⟩
      · cases h
  · cases h

theorem openedTie_opened (l : Link) {id station e tie : Nat} {priv : Bool} (k : KeyBlock) (t : Timing) {s : State}
    (range : station < 512 ∧ tie < 256) (check : checkOpenTie station tie priv s = .ok e)
      (free : s.freePath = some id) :
    Opened s (openedTie l id station e tie priv k t s) id
      { kind := .tie station e tie (allocate priv id tie k t s).2, controller := .control l, opened := s.frameCount } := by
  obtain ⟨stationFree, tieFree, bound, admitted, room⟩ := checkOpenTie_ok check
  unfold openedTie
  refine writePath_opened (allocate_eq _ _ _ _ _ _) free (allocate_allocated (tie := tie) k t room rfl rfl) ?_ ?_ ?_
  · rintro n ⟨⟩; exact ⟨stationFree, range.1, e, rfl, admitted, bound⟩
  · rintro ⟨⟩
  · rintro n ⟨⟩; exact ⟨tieFree, range.2⟩

/-- What ADD_LEG's checks leave: a bridge and a pool with room, and a free slot, of an ADMITTED extension or a tie's. -/
theorem checkNewLeg_ok {x : Bridge} {g : NewLeg} {s : State} {e : Option Nat} (h : checkNewLeg x g s = .ok e) :
    x.legs.length < 8 ∧ s.legsInUse < 128
      ∧ match g with
        | .station n => find s.stationOcc n = none ∧ find s.slotMap n = some (e.getD 0)
            ∧ (s.ext (e.getD 0)).isAdmitted = true
        | .tie n priv => find s.tieOcc n = none ∧ (priv && s.freeCtx.isNone) = false := by
  unfold checkNewLeg at h
  by_cases full : Config.legsPerBridge ≤ x.legs.length
  · rw [if_pos full] at h; cases h
  by_cases pool : Config.legPool ≤ s.legsInUse
  · rw [if_neg full, if_pos pool] at h; cases h
  rw [if_neg full, if_neg pool] at h
  refine ⟨Nat.lt_of_not_le full, Nat.lt_of_not_le pool, ?_⟩
  cases g with
  | station n =>
    simp only [] at h
    by_cases free : s.stationFree n = true
    · rw [if_pos free] at h
      split at h
      · cases h
      · split at h
        · split at h
          · cases h
          · cases h
            exact ⟨Option.isNone_iff_eq_none.1 free, by assumption, by assumption⟩
        · cases h
    · rw [if_neg free] at h; cases h
  | tie n priv =>
    simp only [] at h
    by_cases free : s.tieFree n = true
    · rw [if_pos free] at h
      split at h
      · cases h
      · split_ifs at h with room
        cases h
        exact ⟨Option.isNone_iff_eq_none.1 free, Bool.eq_false_iff.2 room⟩
    · rw [if_neg free] at h; cases h

/-- The path that a joined leg is on. -/
def joinedPath (b : Nat) (x : Bridge) (id : Nat) (g : NewLeg) (e : Option Nat) (k : KeyBlock) (t : Timing) (s : State) :
    Path :=
  { kind := (placeLeg b id g e k t s).2.1, controller := x.controller, opened := s.frameCount }

theorem joinedLeg_opened {b : Nat} {x : Bridge} {id : Nat} {g : NewLeg} {e : Option Nat} (k : KeyBlock) (t : Timing)
    (gain : Nat) (mode : Mode) {s : State} (range : g.InRange) (check : checkNewLeg x g s = .ok e)
    (free : s.freePath = some id) :
    Opened s (joinedLeg b x id g e k t gain mode s) id (joinedPath b x id g e k t s) := by
  obtain ⟨-, -, slot⟩ := checkNewLeg_ok check
  have written : Opened s (writePath id (joinedPath b x id g e k t s) (placeLeg b id g e k t s).1) id
      (joinedPath b x id g e k t s) := by
    cases g with
    | station n =>
      obtain ⟨stationFree, bound, admitted⟩ := slot
      refine writePath_opened rfl free (.inl ⟨rfl, rfl⟩) ?_ ?_ ?_
      · rintro m ⟨⟩; exact ⟨stationFree, range, _, rfl, admitted, bound⟩
      · rintro ⟨⟩
      · rintro m ⟨⟩
    | tie n priv =>
      obtain ⟨tieFree, room⟩ := slot
      refine writePath_opened (allocate_eq _ _ _ _ _ _) free (allocate_allocated (tie := n) k t room rfl rfl) ?_ ?_ ?_
      · rintro m ⟨⟩
      · exact fun _ => rfl
      · rintro m ⟨⟩; exact ⟨tieFree, range⟩
  exact { written with rest := by rw [joinedLeg]; simp only []; rw [writePath_eq, placeLeg_eq] }

theorem joinedLeg_bridges (b : Nat) (x : Bridge) (id : Nat) (g : NewLeg) (e : Option Nat) (k : KeyBlock) (t : Timing)
    (gain : Nat) (mode : Mode) (s : State) :
    (joinedLeg b x id g e k t gain mode s).bridges =
      put s.bridges b
        { x with legs := x.legs ++ [{ path := id, slot := (placeLeg b id g e k t s).2.2, gain := gain, mode := mode,
                                      staged := none, sum := 0 }] } := by
  unfold joinedLeg
  simp only []
  rw [writePath_eq, placeLeg_eq]

/-! ## Paths that keep their kinds -/

/-- The same records are in use, with the same kinds. -/
def SameKinds (s t : State) : Prop := ∀ id, (find t.paths id).map Path.kind = (find s.paths id).map Path.kind

theorem SameKinds.of_eq {s t : State} (h : t.paths = s.paths) : SameKinds s t := fun id => by rw [h]

theorem recontrol_sameKinds (f : Controller → Bool) (c : Controller) {s t : State} (h : t.paths = s.paths) :
    SameKinds s (recontrol f c t) := fun id => by
  rw [recontrol_paths, Table.find_mapAll, h, Option.map_map]
  cases find s.paths id with
  | none => rfl
  | some p => simp only [Option.map_some, Function.comp]; split <;> rfl

theorem SameKinds.exists_iff {s t : State} (h : SameKinds s t) (id : Nat) (P : PathKind → Prop) :
    (∃ p, find t.paths id = some p ∧ P p.kind) ↔ ∃ p, find s.paths id = some p ∧ P p.kind := by
  have same := h id
  cases a : find t.paths id <;> cases b : find s.paths id <;> simp_all

/-! ## The occupancy (O9) -/

/-- An occupancy names exactly the path that holds each slot. -/
def Occupies (f : PathKind → Option Nat) (occ : Table Nat) (paths : Table Path) : Prop :=
  ∀ slot id, find occ slot = some id ↔ ∃ p, find paths id = some p ∧ f p.kind = some slot

section
variable {f : PathKind → Option Nat} {occ : Table Nat} {paths : Table Path} {id : Nat} {p : Path}

theorem Occupies.clear (h : Occupies f occ paths) (found : find paths id = some p) :
    Occupies f ((f p.kind).elim occ (del occ)) (del paths id) := by
  intro slot j
  have others : (∃ q, find (del paths id) j = some q ∧ f q.kind = some slot) ↔ j ≠ id ∧ find occ slot = some j := by
    rw [h slot j, Table.find_del]
    by_cases e : id = j
    · simp [e]
    · simp [e, eq_comm]
  rw [others]
  cases k : f p.kind with
  | none =>
    refine ⟨fun o => ⟨?_, o⟩, And.right⟩
    rintro rfl
    obtain ⟨q, at_, slot_⟩ := (h slot j).1 o
    rw [found] at at_; cases at_
    rw [k] at slot_; cases slot_
  | some n =>
    have held : find occ n = some id := (h n id).2 ⟨p, found, k⟩
    show find (del occ n) slot = some j ↔ _
    rw [Table.find_del]
    by_cases e : n = slot
    · subst e; rw [if_pos rfl, held]; simp [eq_comm]
    · rw [if_neg e]
      refine ⟨fun o => ⟨?_, o⟩, And.right⟩
      rintro rfl
      obtain ⟨q, at_, slot_⟩ := (h slot j).1 o
      rw [found] at at_; cases at_
      rw [k] at slot_; cases slot_; exact e rfl

theorem Occupies.open_ (h : Occupies f occ paths) (fresh : find paths id = none)
    (free : ∀ n, f p.kind = some n → find occ n = none) :
    Occupies f ((f p.kind).elim occ fun n => put occ n id) (put paths id p) := by
  intro slot j
  rw [Table.find_put]
  by_cases e : id = j
  · subst e
    have unheld : find occ slot ≠ some id := fun o => by
      obtain ⟨q, at_, -⟩ := (h slot id).1 o
      rw [fresh] at at_; cases at_
    rw [if_pos rfl]
    cases k : f p.kind with
    | none => simp [k, unheld]
    | some n =>
      show find (put occ n id) slot = some id ↔ _
      rw [Table.find_put]
      by_cases q : n = slot
      · simp [q, k]
      · simp [q, k, unheld]
  · rw [if_neg e, ← h slot j]
    cases k : f p.kind with
    | none => rfl
    | some n =>
      show find (put occ n id) slot = some j ↔ _
      rw [Table.find_put]
      by_cases q : n = slot
      · subst q; simp [free n k, e]
      · simp [q]

end

theorem occupancyLaw_iff (s : State) :
    OccupancyLaw s ↔ Occupies PathKind.station s.stationOcc s.paths ∧ Occupies PathKind.tieSlot s.tieOcc s.paths
      ∧ (∀ slot id, find s.stationOcc slot = some id → slot < 512)
      ∧ (∀ slot id, find s.tieOcc slot = some id → slot < 256) := Iff.rfl

theorem OccupancyLaw.congr {s t : State} (h : OccupancyLaw s) (kinds : SameKinds s t)
    (station : t.stationOcc = s.stationOcc) (tie : t.tieOcc = s.tieOcc) : OccupancyLaw t := by
  obtain ⟨a, b, c, d⟩ := h
  refine ⟨fun slot id => ?_, fun slot id => ?_, by rwa [station], by rwa [tie]⟩
  · rw [station, a, kinds.exists_iff id fun k => k.station = some slot]
  · rw [tie, b, kinds.exists_iff id fun k => k.tieSlot = some slot]

/-- A slot found after one is freed was found before. -/
theorem find_of_elim_del {o : Option Nat} {t : Table Nat} {slot id : Nat}
    (h : find (o.elim t (del t)) slot = some id) : find t slot = some id := by
  cases o with
  | none => exact h
  | some n =>
    simp only [Option.elim, Table.find_del] at h
    split_ifs at h
    exact h

theorem clearPath_occupancy (id : Nat) (cause : ClearCause) {s : State} (h : OccupancyLaw s) :
    OccupancyLaw (clearPath id cause s) := by
  cases f : find s.paths id with
  | none => rwa [clearPath_of_none f]
  | some p =>
    obtain ⟨station, tie, below, tieBelow⟩ := (occupancyLaw_iff s).1 h
    rw [occupancyLaw_iff, clearPath_stationOcc f, clearPath_tieOcc f, clearPath_paths]
    exact ⟨station.clear f, tie.clear f, fun slot j q => below slot j (find_of_elim_del q),
      fun slot j q => tieBelow slot j (find_of_elim_del q)⟩

theorem closeBridge_occupancy (b : Nat) (cause : ClearCause) {s : State} (h : OccupancyLaw s) :
    OccupancyLaw (closeBridge b cause s) := by
  unfold closeBridge
  split
  · exact (forEach_keeps (P := OccupancyLaw) (fun p _ => clearPath_occupancy p cause) _ h).congr (.of_eq rfl) rfl rfl
  · exact h

/-- A slot found after one is taken is that one or was found before. -/
theorem find_of_elim_put {o : Option Nat} {t : Table Nat} {slot id j n : Nat} (below : ∀ m, o = some m → m < n)
    (old : ∀ slot j, find t slot = some j → slot < n) (h : find (o.elim t fun m => put t m id) slot = some j) :
    slot < n := by
  cases o with
  | none => exact old slot j h
  | some m =>
    simp only [Option.elim, Table.find_put] at h
    split_ifs at h with q
    · exact q ▸ below m rfl
    · exact old slot j h

theorem Opened.occupancy {s t : State} {id : Nat} {p : Path} (o : Opened s t id p) (h : OccupancyLaw s) :
    OccupancyLaw t := by
  obtain ⟨station, tie, below, tieBelow⟩ := (occupancyLaw_iff s).1 h
  rw [occupancyLaw_iff, o.stationOcc, o.tieOcc, o.paths]
  exact ⟨station.open_ o.fresh.2 fun n q => (o.station n q).1, tie.open_ o.fresh.2 fun n q => (o.tie n q).1,
    fun slot j => find_of_elim_put (fun m q => (o.station m q).2.1) below,
    fun slot j => find_of_elim_put (fun m q => (o.tie m q).2) tieBelow⟩

theorem Change.occupancy {s t : State} (h : Change s t) (law : OccupancyLaw s) : OccupancyLaw t := by
  have same : t.paths = s.paths → t.stationOcc = s.stationOcc → t.tieOcc = s.tieOcc → OccupancyLaw t :=
    fun a b c => law.congr (.of_eq a) b c
  cases h with
  | aside h => exact same h.traffic.paths h.traffic.stationOcc h.traffic.tieOcc
  | ext h => exact same h.traffic.paths h.traffic.stationOcc h.traffic.tieOcc
  | linkUp l => exact same (by simp) (by simp) (by simp)
  | linkDown l => exact law.congr (recontrol_sameKinds _ _ (by simp)) (by simp) (by simp)
  | managerDown => exact same (by simp) (by simp) (by simp)
  | adopt k l => exact law.congr (recontrol_sameKinds _ _ rfl) rfl rfl
  | clear id cause => exact clearPath_occupancy id cause law
  | close b cause => exact closeBridge_occupancy b cause law
  | clearAll => exact ⟨by simp [clearTraffic], by simp [clearTraffic], by simp [clearTraffic], by simp [clearTraffic]⟩
  | leave u i e cause _ _ _ events =>
    have told : OccupancyLaw u := law.congr (.of_eq events.traffic.paths) events.traffic.stationOcc
      events.traffic.tieOcc
    cases (s.ext i).path with
    | none => exact told
    | some id => exact clearPath_occupancy id cause told
  | openTie l id station e tie priv k t _ _ range check free =>
    exact (openedTie_opened l k (takeTiming t) range check free).occupancy law
  | join b x id g e k t gain mode _ range check free =>
    exact (joinedLeg_opened k (takeTiming t) gain mode range check free).occupancy law
  | _ => exact same rfl rfl rfl

/-- Settles O9: clearing a path frees exactly its slots, and an open takes free ones. -/
theorem stepKeepsOccupancyLaw : Obligations.StepKeepsOccupancyLaw := fun _ _ law h =>
  step_keeps (fun s _ => by simp [OccupancyLaw, powerOnReset, State.reset]) (fun _ _ => Change.occupancy) law h

/-! ## Contexts (O10) -/

theorem ContextLaw.congr {s t : State} (h : ContextLaw s) (kinds : SameKinds s t) (ctxs : t.ctxs = s.ctxs) :
    ContextLaw t := by
  obtain ⟨owned, held⟩ := h
  refine ⟨fun i c found => ?_, fun id p i found ctx => ?_⟩
  · rw [kinds.exists_iff c.path fun k => k.ctx = some i ∧ k.tieSlot = some c.tieSlot]
    exact owned i c (ctxs ▸ found)
  · obtain ⟨q, at_, has⟩ := (kinds.exists_iff id fun k => k.ctx = some i).1 ⟨p, found, ctx⟩
    rw [ctxs]; exact held id q i at_ has

theorem clearPath_contexts (id : Nat) (cause : ClearCause) {s : State} (h : ContextLaw s) :
    ContextLaw (clearPath id cause s) := by
  cases f : find s.paths id with
  | none => rwa [clearPath_of_none f]
  | some p =>
    obtain ⟨owned, held⟩ := h
    have left : ∀ i c, find (clearPath id cause s).ctxs i = some c ↔ find s.ctxs i = some c ∧ p.kind.ctx ≠ some i := by
      intro i c
      rw [clearPath_ctxs f]
      cases p.kind.ctx with
      | none => simp
      | some j =>
        simp only [Option.elim, Table.find_del]
        split_ifs with e
        · simp [e]
        · simp [e]
    refine ⟨fun i c found => ?_, fun j q i found ctx => ?_⟩
    · obtain ⟨old, other⟩ := (left i c).1 found
      obtain ⟨q, at_, has, slot⟩ := owned i c old
      have elsewhere : id ≠ c.path := by
        rintro rfl
        rw [f] at at_; cases at_; exact other has
      exact ⟨q, by rwa [clearPath_paths, Table.find_del_other _ elsewhere], has, slot⟩
    · rw [clearPath_paths, Table.find_del] at found
      split_ifs at found with e
      obtain ⟨c, old, path⟩ := held j q i found ctx
      refine ⟨c, (left i c).2 ⟨old, fun mine => ?_⟩, path⟩
      obtain ⟨d, old', path'⟩ := held id p i f mine
      rw [old] at old'; cases old'
      exact e (path' ▸ path)

theorem closeBridge_contexts (b : Nat) (cause : ClearCause) {s : State} (h : ContextLaw s) :
    ContextLaw (closeBridge b cause s) := by
  unfold closeBridge
  split
  · exact (forEach_keeps (P := ContextLaw) (fun p _ => clearPath_contexts p cause) _ h).congr (.of_eq rfl) rfl
  · exact h

theorem Opened.contexts {s t : State} {id : Nat} {p : Path} (o : Opened s t id p)
    (h : ContextLaw s) : ContextLaw t := by
  obtain ⟨owned, held⟩ := h
  have old : ∀ i c, find s.ctxs i = some c →
      ∃ q, find t.paths c.path = some q ∧ q.kind.ctx = some i ∧ q.kind.tieSlot = some c.tieSlot := by
    intro i c found
    obtain ⟨q, at_, rest⟩ := owned i c found
    refine ⟨q, ?_, rest⟩
    rw [o.paths, Table.find_put_other]
    · exact at_
    · rintro e; rw [← e, o.fresh.2] at at_; cases at_
  have other : ∀ j q i, id ≠ j → find t.paths j = some q → q.kind.ctx = some i → ∃ c,
    find s.ctxs i = some c ∧ c.path = j := by
    intro j q i e found ctx
    rw [o.paths, Table.find_put_other _ _ e] at found
    exact held j q i found ctx
  have this_ : ∀ q, find t.paths id = some q → q = p := by
    intro q found
    rw [o.paths, Table.find_put_same] at found
    exact (Option.some.inj found).symm
  obtain ⟨none_, ctxs⟩ | ⟨i, c, ctx, free, ctxs, path, slot⟩ := o.context
  · refine ⟨fun i c found => old i c (ctxs ▸ found), fun j q i found has => ?_⟩
    by_cases e : id = j
    · subst e; rw [this_ q found, none_] at has; cases has
    · rw [ctxs]; exact other j q i e found has
  · have find_ : ∀ j, find t.ctxs j = if i = j then some c else find s.ctxs j := fun j => by rw [ctxs, Table.find_put]
    refine ⟨fun j d found => ?_, fun j q k found has => ?_⟩
    · rw [find_] at found
      split_ifs at found with e
      · cases found; subst e
        exact ⟨p, by rw [path, o.paths, Table.find_put_same], ctx, slot⟩
      · exact old j d found
    · rw [find_]
      by_cases e : id = j
      · subst e
        rw [this_ q found, ctx] at has; cases has
        exact ⟨c, if_pos rfl, path⟩
      · obtain ⟨d, found', path'⟩ := other j q k e found has
        refine ⟨d, ?_, path'⟩
        rw [if_neg]
        · exact found'
        · rintro rfl; rw [free] at found'; cases found'

theorem setCtx_contexts {s : State} {i : Nat} {c d : Context} (found : find s.ctxs i = some c) (step : ContextStep c d)
    (h : ContextLaw s) : ContextLaw (s.setCtx i d) := by
  obtain ⟨owned, held⟩ := h
  have find_ : ∀ j, find (s.setCtx i d).ctxs j = if i = j then some d else find s.ctxs j :=
    fun j => Table.find_put _ _ _ _
  refine ⟨fun j e at_ => ?_, fun id p j at_ ctx => ?_⟩
  · rw [find_] at at_
    split_ifs at at_ with q
    · cases at_; subst q
      rw [step.path, step.tieSlot]; exact owned i c found
    · exact owned j e at_
  · obtain ⟨e, old, path⟩ := held id p j at_ ctx
    rw [find_]
    split_ifs with q
    · subst q; rw [found] at old; cases old
      exact ⟨d, rfl, step.path.trans path⟩
    · exact ⟨e, old, path⟩

theorem Change.contexts {s t : State} (h : Change s t) (law : ContextLaw s) : ContextLaw t := by
  have same : t.paths = s.paths → t.ctxs = s.ctxs → ContextLaw t := fun a b => law.congr (.of_eq a) b
  cases h with
  | aside h => exact same h.traffic.paths h.traffic.ctxs
  | ext h => exact same h.traffic.paths h.traffic.ctxs
  | linkUp l => exact same (by simp) (by simp)
  | linkDown l => exact law.congr (recontrol_sameKinds _ _ (by simp)) (by simp)
  | managerDown => exact same (by simp) (by simp)
  | adopt k l => exact law.congr (recontrol_sameKinds _ _ rfl) rfl
  | context i c d found step => exact setCtx_contexts found step law
  | clear id cause => exact clearPath_contexts id cause law
  | close b cause => exact closeBridge_contexts b cause law
  | clearAll => exact ⟨by simp [clearTraffic], by simp [clearTraffic]⟩
  | leave u i e cause _ _ _ events =>
    have told : ContextLaw u := law.congr (.of_eq events.traffic.paths) events.traffic.ctxs
    cases (s.ext i).path with
    | none => exact told
    | some id => exact clearPath_contexts id cause told
  | openTie l id station e tie priv k t _ _ range check free =>
    exact (openedTie_opened l k (takeTiming t) range check free).contexts law
  | join b x id g e k t gain mode _ range check free =>
    exact (joinedLeg_opened k (takeTiming t) gain mode range check free).contexts law
  | _ => exact same rfl rfl

/-- Settles O10: a path's context goes with it, and a context is allocated to the PRIVATE path that is opened. -/
theorem stepKeepsContextLaw : Obligations.StepKeepsContextLaw := fun _ _ law h =>
  step_keeps (fun s _ => by simp [ContextLaw, powerOnReset, State.reset]) (fun _ _ => Change.contexts) law h

/-! ## Controllers (O12) -/

theorem stands_congr {s t : State} (h : ∀ l, (t.port l).state = .up ↔ (s.port l).state = .up) {c : Controller}
    (stands : c.stands s) : c.stands t := by
  cases c with
  | control l => exact ⟨stands.1, (h l).2 stands.2⟩
  | orphan => exact trivial

/-- Fewer paths and bridges, under the controllers they had, and every link as UP as it was. -/
structure FewerControlled (s t : State) : Prop where
  paths : ∀ e ∈ t.paths, e ∈ s.paths
  bridges : ∀ e ∈ t.bridges, ∃ x ∈ s.bridges, e.2.controller = x.2.controller
  up : ∀ l, (t.port l).state = .up ↔ (s.port l).state = .up

theorem FewerControlled.law {s t : State} (h : FewerControlled s t) (law : ControllerLaw s) : ControllerLaw t := by
  refine ⟨fun e m => stands_congr h.up (law.1 e (h.paths e m)), fun e m => ?_⟩
  obtain ⟨x, at_, same⟩ := h.bridges e m
  rw [same]; exact stands_congr h.up (law.2 x at_)

theorem FewerControlled.trans {s t u : State} (a : FewerControlled s t)
    (b : FewerControlled t u) : FewerControlled s u where
  paths e m := a.paths e (b.paths e m)
  bridges e m := by
    obtain ⟨x, mx, hx⟩ := b.bridges e m
    obtain ⟨y, my, hy⟩ := a.bridges x mx
    exact ⟨y, my, hx.trans hy⟩
  up l := (b.up l).trans (a.up l)

theorem TrafficSame.fewer {s t : State} (h : TrafficSame s t) : FewerControlled s t where
  paths e m := by rwa [h.paths] at m
  bridges e m := ⟨e, by rwa [h.bridges] at m, rfl⟩
  up l := (h.kept l).up

theorem clearPath_fewer (id : Nat) (cause : ClearCause) (s : State) : FewerControlled s (clearPath id cause s) where
  paths e m := by rw [clearPath_paths] at m; exact mem_del m
  bridges e m := by
    cases f : find s.paths id with
    | none => rw [clearPath_of_none f] at m; exact ⟨e, m, rfl⟩
    | some p =>
      rw [clearPath_bridges f] at m
      cases k : p.kind.bridge with
      | none => rw [k] at m; exact ⟨e, m, rfl⟩
      | some b =>
        rw [k] at m
        simp only [Option.elim, dropLeg_bridges] at m
        split at m
        · rename_i x found
          obtain rfl | m := mem_put m
          · exact ⟨(b, x), Table.mem_of_find found, rfl⟩
          · exact ⟨e, m, rfl⟩
        · exact ⟨e, m, rfl⟩
  up l := ((clearPath_clearsOnly id cause s).kept l).up

theorem FewerControlled.refl (s : State) : FewerControlled s s :=
    ⟨fun _ => id, fun e m => ⟨e, m, rfl⟩, fun _ => Iff.rfl⟩

theorem closeBridge_fewer (b : Nat) (cause : ClearCause) (s : State) : FewerControlled s (closeBridge b cause s) := by
  unfold closeBridge
  split
  · rename_i x _
    have cleared := forEach_keeps (P := FewerControlled s) (fun p _ h => h.trans (clearPath_fewer p cause _))
      (x.legs.map Leg.path) (.refl s)
    exact ⟨cleared.paths, fun e m => cleared.bridges e (mem_del m),
      fun l => by have := cleared.up l; cases l <;> exact this⟩
  · exact .refl s

/-- Every controller field that satisfies `f` is replaced by one that stands, and the others stand as before. -/
theorem recontrol_controllers {f : Controller → Bool} {c : Controller} {s t : State} (law : ControllerLaw s)
    (paths : t.paths = s.paths) (bridges : t.bridges = s.bridges) (new : c.stands t)
    (old : ∀ d, f d = false → d.stands s → d.stands t) : ControllerLaw (recontrol f c t) := by
  have ports : ∀ d : Controller, d.stands t → d.stands (recontrol f c t) := fun d =>
    stands_congr fun l => by rw [State.port_congr (s := recontrol f c t) (t := t) rfl rfl rfl l]
  have one : ∀ d : Controller, d.stands s → (if f d then c else d).stands (recontrol f c t) := fun d stands => by
    split_ifs with q
    · exact ports c new
    · exact ports d (old d (by simpa using q) stands)
  constructor
  · intro e m
    rw [recontrol_paths, paths] at m
    obtain ⟨x, mx, q⟩ := mem_mapAll m
    have := one _ (law.1 x mx)
    rw [q]; split_ifs at this ⊢ <;> exact this
  · intro e m
    rw [recontrol_bridges, bridges] at m
    obtain ⟨x, mx, q⟩ := mem_mapAll m
    have := one _ (law.2 x mx)
    rw [q]; split_ifs at this ⊢ <;> exact this

theorem Change.controllers {s t : State} (h : Change s t) (law : ControllerLaw s) : ControllerLaw t := by
  have stays : ∀ d : Controller, (∀ l, t.port l = s.port l) → d.stands s → d.stands t := fun d e =>
    stands_congr fun l => by rw [e l]
  cases h with
  | aside h => exact h.traffic.fewer.law law
  | ext h => exact h.traffic.fewer.law law
  | linkUp l =>
    have up : ∀ d : Controller, d.stands s → d.stands (s.onPort l Port.goUp) := by
      rintro (k | _) stands
      · refine ⟨stands.1, ?_⟩
        rw [State.port_onPort]
        split_ifs
        · rfl
        · exact stands.2
      · exact trivial
    exact ⟨fun e m => up _ (law.1 e (by simpa using m)), fun e m => up _ (law.2 e (by simpa using m))⟩
  | linkDown l d =>
    refine recontrol_controllers law (by simp) (by simp) trivial ?_
    rintro (k | _) other stands
    · refine ⟨stands.1, ?_⟩
      have ne : k ≠ l := by rintro rfl; simp at other
      rw [State.port_onPort, if_neg ne]; exact stands.2
    · exact trivial
  | managerDown =>
    have up : ∀ d : Controller, d.stands s → d.stands (s.onPort .m Port.goDown) := by
      rintro (k | _) stands
      · exact ⟨stands.1, by rw [State.port_onPort, if_neg stands.1]; exact stands.2⟩
      · exact trivial
    exact ⟨fun e m => up _ (law.1 e (by simpa using m)), fun e m => up _ (law.2 e (by simpa using m))⟩
  | adopt k l call up => exact recontrol_controllers law rfl rfl ⟨call, up⟩ fun _ _ => id
  | context => exact ⟨fun e m => stays _ (State.port_congr rfl rfl rfl) (law.1 e m),
      fun e m => stays _ (State.port_congr rfl rfl rfl) (law.2 e m)⟩
  | bridge b x y found step =>
    refine ⟨fun e m => stays _ (State.port_congr rfl rfl rfl) (law.1 e m), fun e m => ?_⟩
    refine stays _ (State.port_congr rfl rfl rfl) ?_
    obtain rfl | m := mem_put m
    · rw [step.controller]; exact law.2 _ (Table.mem_of_find found)
    · exact law.2 e m
  | clear id cause => exact (clearPath_fewer id cause s).law law
  | close b cause => exact (closeBridge_fewer b cause s).law law
  | clearAll => exact ⟨fun e m => by simp [clearTraffic] at m, fun e m => by simp [clearTraffic] at m⟩
  | leave u i e cause _ _ _ events =>
    have told : ControllerLaw u := events.traffic.fewer.law
      ⟨fun x m => stands_congr (fun l => by simp) (law.1 x m), fun x m => stands_congr (fun l => by simp) (law.2 x m)⟩
    cases (s.ext i).path with
    | none => exact told
    | some id => exact (clearPath_fewer id cause u).law told
  | openBridge l b threshold call up =>
    refine ⟨fun e m => stays _ (State.port_congr rfl rfl rfl) (law.1 e m), fun e m => ?_⟩
    refine stays _ (State.port_congr rfl rfl rfl) ?_
    obtain rfl | m := mem_put m
    · exact ⟨call, up⟩
    · exact law.2 e m
  | openTie l id station e tie priv k t call up range check free =>
    have o := openedTie_opened l k (takeTiming t) range check free
    refine ⟨fun x m => ?_, fun x m => stays _ (openedTie_port _ _ _ _ _ _ _ _ _) (law.2 x ?_)⟩
    · refine stays _ (openedTie_port _ _ _ _ _ _ _ _ _) ?_
      rw [o.paths] at m
      obtain rfl | m := mem_put m
      · exact ⟨call, up⟩
      · exact law.1 x m
    · rwa [openedTie, writePath_eq, allocate_eq] at m
  | join b x id g e k t gain mode found range check free =>
    have o := joinedLeg_opened (b := b) k (takeTiming t) gain mode range check free
    refine ⟨fun y m => ?_, fun y m => ?_⟩ <;> refine stays _ (joinedLeg_port _ _ _ _ _ _ _ _ _ _) ?_
    · rw [o.paths] at m
      obtain rfl | m := mem_put m
      · exact law.2 _ (Table.mem_of_find found)
      · exact law.1 y m
    · rw [joinedLeg_bridges] at m
      obtain rfl | m := mem_put m
      · exact law.2 (b, x) (Table.mem_of_find found)
      · exact law.2 y m

/-- Settles O12: a link's loss orphans what it controls, and only an UP call-processor link comes into control. -/
theorem stepKeepsControllerLaw : Obligations.StepKeepsControllerLaw := fun _ _ law h =>
  step_keeps (fun s _ => by simp [ControllerLaw, powerOnReset, State.reset]) (fun _ _ => Change.controllers) law h

end Sys2Proof.Machine
end

