-- ==== Sys2Proof/Proofs/Legs.lean ====
section
/-! PROOF. Legs and leg paths, and O11: a leg goes with its path, and a leg path with its leg. -/

namespace Sys2Proof.Machine

open Table (find put del mapAll sorted)

/-! ## How many legs a table of bridges has -/

/-- The legs of all bridges of a table. -/
def legsOf (t : Table Bridge) : Nat := (t.map fun e => e.2.legs.length).sum

theorem legsOf_cons (k : Nat) (x : Bridge) (t : Table Bridge) : legsOf ((k, x) :: t) = x.legs.length + legsOf t := rfl

theorem find_tail_of_sorted {α : Type} {k : Nat} {w : α} {t : Table α} (h : sorted ((k, w) :: t) = true) {i : Nat}
    (le : i ≤ k) : find t i = none := by
  rw [Table.find_eq_none_iff]
  intro m
  have rise := (List.pairwise_cons.1 (Table.sorted_iff.1 h)).1 i m
  simp only at rise
  omega

theorem sorted_tail {α : Type} {x : Nat × α} {t : Table α} (h : sorted (x :: t) = true) : sorted t = true :=
  Table.sorted_iff.2 (List.pairwise_cons.1 (Table.sorted_iff.1 h)).2

/-- Writing a bridge puts its legs in the place of those it had. -/
theorem legsOf_put {t : Table Bridge} (h : sorted t = true) (b : Nat) (y : Bridge) :
    legsOf (put t b y) + (find t b).elim 0 (fun x => x.legs.length) = legsOf t + y.legs.length := by
  induction t with
  | nil => simp [put, legsOf]
  | cons e t ih =>
    obtain ⟨k, w⟩ := e
    simp only [put]
    split_ifs with lt eq
    · have absent : find ((k, w) :: t) b = none := by
        simp only [find]
        rw [if_neg (by omega)]
        exact find_tail_of_sorted h (by omega)
      rw [absent, legsOf_cons]
      simp only [Option.elim]; omega
    · subst eq
      simp only [find, if_true, legsOf_cons, Option.elim]; omega
    · simp only [find, legsOf_cons]
      rw [if_neg (Ne.symm eq)]
      have := ih (sorted_tail h)
      omega

theorem legsOf_del_le (t : Table Bridge) (b : Nat) : legsOf (del t b) ≤ legsOf t := by
  induction t with
  | nil => exact le_rfl
  | cons e t ih =>
    obtain ⟨k, w⟩ := e
    simp only [del]
    split_ifs
    · rw [legsOf_cons]; omega
    · rw [legsOf_cons, legsOf_cons]; omega

theorem legsOf_mapAll (t : Table Bridge) {f : Bridge → Bridge} (h : ∀ x, (f x).legs = x.legs) :
    legsOf (mapAll t f) = legsOf t := by
  induction t with
  | nil => rfl
  | cons e t ih =>
    obtain ⟨k, w⟩ := e
    show legsOf ((k, f w) :: mapAll t f) = _
    rw [legsOf_cons, legsOf_cons, h, ih]

/-! ## The law, part by part -/

/-- A leg's path answers to it and carries the controller of its bridge. -/
def LegAnswers (paths : Table Path) (b : Nat) (c : Controller) (g : Leg) : Prop :=
  ∃ p, find paths g.path = some p ∧ p.kind.bridge = some b ∧ p.kind.legSlot = some g.slot ∧ p.controller = c

/-- A bridge keeps its part of the law. -/
def BridgeAnswers (paths : Table Path) (b : Nat) (x : Bridge) : Prop :=
  x.legs.length ≤ 8 ∧ (x.legs.map Leg.path).Nodup ∧ ∀ g ∈ x.legs, LegAnswers paths b x.controller g

/-- Each leg path has its leg. -/
def PathsAnswer (paths : Table Path) (bridges : Table Bridge) : Prop :=
  ∀ id p b, find paths id = some p → p.kind.bridge = some b →
    ∃ x, find bridges b = some x ∧ ∃ g ∈ x.legs, g.path = id

theorem bridgeLaw_iff (s : State) :
    BridgeLaw s ↔ sorted s.bridges = true ∧ legsOf s.bridges ≤ 128
      ∧ (∀ b x, find s.bridges b = some x → BridgeAnswers s.paths b x) ∧ PathsAnswer s.paths s.bridges := Iff.rfl

theorem BridgeLaw.congr {s t : State} (h : BridgeLaw s) (paths : t.paths = s.paths) (bridges : t.bridges = s.bridges) :
    BridgeLaw t := by
  rw [bridgeLaw_iff] at h ⊢
  rwa [paths, bridges]

/-- A leg of another path answers as before once a path's record is freed. -/
theorem LegAnswers.del {paths : Table Path} {b : Nat} {c : Controller} {g : Leg} {id : Nat}
    (h : LegAnswers paths b c g) (other : g.path ≠ id) : LegAnswers (del paths id) b c g := by
  obtain ⟨p, at_, rest⟩ := h
  exact ⟨p, by rwa [Table.find_del_other _ other.symm], rest⟩

theorem LegAnswers.put {paths : Table Path} {b : Nat} {c : Controller} {g : Leg} {id : Nat}
    (h : LegAnswers paths b c g) (fresh : find paths id = none) (q : Path) : LegAnswers (put paths id q) b c g := by
  obtain ⟨p, at_, rest⟩ := h
  refine ⟨p, ?_, rest⟩
  rw [Table.find_put_other]
  · exact at_
  · rintro e; rw [← e, fresh] at at_; cases at_

/-! ## A clearing -/

/-- A bridge once the leg on path `id` has left it. -/
def Bridge.without (id : Nat) (x : Bridge) : Bridge :=
  { x with legs := x.legs.filter fun g => decide (g.path ≠ id), talker := if x.talker = some id then none else x.talker }

/-- A cleared path's leg leaves its bridge; every other bridge stands. -/
theorem clearPath_findBridge {s : State} {id : Nat} {p : Path} (h : find s.paths id = some p) (cause : ClearCause)
    (b : Nat) : find (clearPath id cause s).bridges b =
      if p.kind.bridge = some b then (find s.bridges b).map (Bridge.without id) else find s.bridges b := by
  rw [clearPath_bridges h]
  cases p.kind.bridge with
  | none => simp
  | some k =>
    simp only [Option.elim, dropLeg_bridges, Option.some.injEq]
    cases f : find s.bridges k with
    | none =>
      by_cases e : k = b
      · subst e; simp [f]
      · simp [e]
    | some x =>
      show find (put s.bridges k (Bridge.without id x)) b = _
      rw [Table.find_put]
      by_cases e : k = b
      · subst e; simp [f]
      · simp [e]

theorem clearPath_sortedBridges (id : Nat) (cause : ClearCause) {s : State} (h : sorted s.bridges = true) :
    sorted (clearPath id cause s).bridges = true := by
  cases f : find s.paths id with
  | none => rwa [clearPath_of_none f]
  | some p =>
    rw [clearPath_bridges f]
    cases p.kind.bridge with
    | none => exact h
    | some b =>
      simp only [Option.elim, dropLeg_bridges]
      split
      · exact Table.sorted_put h _ _
      · exact h

theorem clearPath_legsOf (id : Nat) (cause : ClearCause) {s : State} (h : sorted s.bridges = true) :
    legsOf (clearPath id cause s).bridges ≤ legsOf s.bridges := by
  cases f : find s.paths id with
  | none => rw [clearPath_of_none f]
  | some p =>
    rw [clearPath_bridges f]
    cases p.kind.bridge with
    | none => exact le_rfl
    | some b =>
      simp only [Option.elim, dropLeg_bridges]
      split
      · rename_i x found
        have sum := legsOf_put h b (Bridge.without id x)
        have fewer : (Bridge.without id x).legs.length ≤ x.legs.length := List.length_filter_le _ _
        rw [found] at sum
        simp only [Option.elim, Bridge.without] at sum fewer
        omega
      · exact le_rfl

/-- The legs of a bridge once one has left it: those on other paths. -/
theorem mem_without {g : Leg} {id : Nat} {x : Bridge} : g ∈ (Bridge.without id x).legs ↔ g ∈ x.legs ∧ g.path ≠ id := by
  simp [Bridge.without]

theorem clearPath_bridgeLaw (id : Nat) (cause : ClearCause) {s : State} (h : BridgeLaw s) :
    BridgeLaw (clearPath id cause s) := by
  cases f : find s.paths id with
  | none => rwa [clearPath_of_none f]
  | some p =>
    obtain ⟨rise, count, legs, paths⟩ := (bridgeLaw_iff s).1 h
    rw [bridgeLaw_iff, clearPath_paths]
    refine ⟨clearPath_sortedBridges id cause rise, (clearPath_legsOf id cause rise).trans count, ?_, ?_⟩
    · intro b y found
      rw [clearPath_findBridge f] at found
      split_ifs at found with mine
      · obtain ⟨x, at_, rfl⟩ := Option.map_eq_some_iff.1 found
        obtain ⟨few, nodup, answers⟩ := legs b x at_
        exact ⟨(List.length_filter_le _ _).trans few, nodup.sublist (List.filter_sublist.map _),
          fun g m => (answers g (mem_without.1 m).1).del (mem_without.1 m).2⟩
      · obtain ⟨few, nodup, answers⟩ := legs b y found
        refine ⟨few, nodup, fun g m => (answers g m).del ?_⟩
        rintro rfl
        obtain ⟨q, at_, bridge, -⟩ := answers g m
        rw [f] at at_; cases at_
        exact mine bridge
    · intro j q b found bridge
      rw [Table.find_del] at found
      split_ifs at found with other
      obtain ⟨x, at_, g, m, path⟩ := paths j q b found bridge
      rw [clearPath_findBridge f, at_]
      split_ifs
      · exact ⟨_, rfl, g, mem_without.2 ⟨m, by omega⟩, path⟩
      · exact ⟨x, rfl, g, m, path⟩

/-- Clearing a bridge's legs in list order leaves it without legs. -/
theorem clearLegs_bridgeLaw (b : Nat) (cause : ClearCause) (l : List Nat) {s : State} {x : Bridge} (h : BridgeLaw s)
    (found : find s.bridges b = some x) (legs : x.legs.map Leg.path = l) :
    BridgeLaw (forEach (fun p => clearPath p cause) l s)
      ∧ ∃ y, find (forEach (fun p => clearPath p cause) l s).bridges b = some y ∧ y.legs = [] := by
  induction l generalizing s x with
  | nil => exact ⟨h, x, found, List.map_eq_nil_iff.1 legs⟩
  | cons id l ih =>
    obtain ⟨g, gs, split_, rfl, rest⟩ := List.map_eq_cons_iff.1 legs
    obtain ⟨-, nodup, answers⟩ := h.2.2.1 b x found
    obtain ⟨p, at_, bridge, -⟩ := answers g (by rw [split_]; exact List.mem_cons_self)
    refine ih (clearPath_bridgeLaw g.path cause h) (x := Bridge.without g.path x) ?_ ?_
    · rw [clearPath_findBridge at_, if_pos bridge, found]; rfl
    · rw [legs, List.nodup_cons, ← rest] at nodup
      have others : gs.filter (fun k => decide (k.path ≠ g.path)) = gs := by
        refine List.filter_eq_self.2 fun k m => ?_
        simp only [ne_eq, decide_eq_true_eq]
        exact fun e => nodup.1 (e ▸ List.mem_map.2 ⟨k, m, rfl⟩)
      rw [Bridge.without, split_, List.filter_cons_of_neg (by simp), others, rest]

theorem closeBridge_bridgeLaw (b : Nat) (cause : ClearCause) {s : State} (h : BridgeLaw s) :
    BridgeLaw (closeBridge b cause s) := by
  unfold closeBridge
  cases found : find s.bridges b with
  | none => exact h
  | some x =>
    obtain ⟨law, y, last, empty⟩ := clearLegs_bridgeLaw b cause _ h found rfl
    obtain ⟨rise, count, legs, paths⟩ := (bridgeLaw_iff _).1 law
    refine (bridgeLaw_iff _).2 ⟨Table.sorted_del rise b, (legsOf_del_le _ b).trans count, ?_, ?_⟩
    · intro k z at_
      have at_ : find (del _ b) k = some z := at_
      rw [Table.find_del] at at_
      split_ifs at at_
      exact legs k z at_
    · intro id p k at_ bridge
      obtain ⟨z, zat, g, m, path⟩ := paths id p k at_ bridge
      have other : b ≠ k := by
        rintro rfl
        rw [last] at zat; cases zat
        rw [empty] at m; cases m
      exact ⟨z, (Table.find_del_other _ other).trans zat, g, m, path⟩

/-! ## The other changes -/

theorem recontrol_bridgeLaw (f : Controller → Bool) (c : Controller) {s t : State} (h : BridgeLaw s)
    (paths : t.paths = s.paths) (bridges : t.bridges = s.bridges) : BridgeLaw (recontrol f c t) := by
  obtain ⟨rise, count, legs, leg⟩ := (bridgeLaw_iff s).1 h
  rw [bridgeLaw_iff, recontrol_paths, recontrol_bridges, paths, bridges, legsOf_mapAll _ fun x => by split <;> rfl]
  refine ⟨Table.sorted_mapAll rise _, count, fun b y found => ?_, fun id q b found bridge => ?_⟩
  · rw [Table.find_mapAll] at found
    obtain ⟨x, at_, rfl⟩ := Option.map_eq_some_iff.1 found
    obtain ⟨few, nodup, answers⟩ := legs b x at_
    have same : (if f x.controller then { x with controller := c } else x).legs = x.legs := by split <;> rfl
    refine ⟨by rwa [same], by rwa [same], fun g m => ?_⟩
    rw [same] at m
    obtain ⟨p, pat, bridge, slot, controller⟩ := answers g m
    refine ⟨_, by rw [Table.find_mapAll, pat]; rfl, ?_⟩
    simp only [controller]
    split
    · exact ⟨bridge, slot, rfl⟩
    · exact ⟨bridge, slot, controller⟩
  · rw [Table.find_mapAll] at found
    obtain ⟨p, pat, rfl⟩ := Option.map_eq_some_iff.1 found
    have same : (if f p.controller then { p with controller := c } else p).kind = p.kind := by split <;> rfl
    rw [same] at bridge
    obtain ⟨x, at_, g, m, path⟩ := leg id p b pat bridge
    refine ⟨_, by rw [Table.find_mapAll, at_]; rfl, g, ?_, path⟩
    simp only []
    split <;> exact m

theorem bridgeStep_bridgeLaw {s t : State} {b : Nat} {x y : Bridge} (found : find s.bridges b = some x)
    (step : BridgeStep x y) (paths : t.paths = s.paths) (bridges : t.bridges = put s.bridges b y) (h : BridgeLaw s) :
    BridgeLaw t := by
  obtain ⟨rise, count, legs, leg⟩ := (bridgeLaw_iff s).1 h
  have length : y.legs.length = x.legs.length := by simpa using congrArg List.length step.legs
  have names : y.legs.map Leg.path = x.legs.map Leg.path := by
    simpa [List.map_map, Function.comp_def] using congrArg (List.map Prod.fst) step.legs
  have twin : ∀ {a d : Bridge} {g : Leg}, a.legs.map (fun g => (g.path, g.slot)) = d.legs.map
    (fun g => (g.path, g.slot)) →
      g ∈ a.legs → ∃ k ∈ d.legs, k.path = g.path ∧ k.slot = g.slot := by
    intro a d g same m
    have listed : (g.path, g.slot) ∈ d.legs.map fun g => (g.path, g.slot) := same ▸ List.mem_map.2 ⟨g, m, rfl⟩
    obtain ⟨k, mk, e⟩ := List.mem_map.1 listed
    exact ⟨k, mk, congrArg Prod.fst e, congrArg Prod.snd e⟩
  have sum := legsOf_put rise b y
  rw [found] at sum
  simp only [Option.elim] at sum
  rw [bridgeLaw_iff, paths, bridges]
  refine ⟨Table.sorted_put rise b y, by omega, fun k z at_ => ?_, fun id p k at_ bridge => ?_⟩
  · rw [Table.find_put] at at_
    split_ifs at at_ with e
    · cases at_; subst e
      obtain ⟨few, nodup, answers⟩ := legs b x found
      refine ⟨length ▸ few, names ▸ nodup, fun g m => ?_⟩
      obtain ⟨k, mk, path, slot⟩ := twin step.legs m
      unfold LegAnswers
      rw [← path, ← slot, step.controller]; exact answers k mk
    · exact legs k z at_
  · obtain ⟨z, zat, g, m, path⟩ := leg id p k at_ bridge
    rw [Table.find_put]
    split_ifs with e
    · subst e; rw [found] at zat; cases zat
      obtain ⟨j, mj, path', -⟩ := twin step.legs.symm m
      exact ⟨y, rfl, j, mj, path'.trans path⟩
    · exact ⟨z, zat, g, m, path⟩

/-- A bridge that is opened has no legs, and no path was on its record. -/
theorem openBridge_bridgeLaw {s t : State} {b : Nat} {y : Bridge} (free : find s.bridges b = none) (none_ : y.legs = [])
    (paths : t.paths = s.paths) (bridges : t.bridges = put s.bridges b y) (h : BridgeLaw s) : BridgeLaw t := by
  obtain ⟨rise, count, legs, leg⟩ := (bridgeLaw_iff s).1 h
  have sum := legsOf_put rise b y
  rw [free, none_] at sum
  simp only [Option.elim, List.length_nil] at sum
  rw [bridgeLaw_iff, paths, bridges]
  refine ⟨Table.sorted_put rise b y, by omega, fun k z at_ => ?_, fun id p k at_ bridge => ?_⟩
  · rw [Table.find_put] at at_
    split_ifs at at_
    · cases at_; simp [BridgeAnswers, none_]
    · exact legs k z at_
  · obtain ⟨z, zat, rest⟩ := leg id p k at_ bridge
    refine ⟨z, ?_, rest⟩
    rw [Table.find_put_other]
    · exact zat
    · rintro rfl; rw [free] at zat; cases zat

theorem openTie_bridgeLaw {s t : State} {id : Nat} {p : Path} (fresh : find s.paths id = none)
    (tie : p.kind.bridge = none)
    (paths : t.paths = put s.paths id p) (bridges : t.bridges = s.bridges) (h : BridgeLaw s) : BridgeLaw t := by
  obtain ⟨rise, count, legs, leg⟩ := (bridgeLaw_iff s).1 h
  rw [bridgeLaw_iff, paths, bridges]
  refine ⟨rise, count, fun b x found => ?_, fun j q b found bridge => ?_⟩
  · obtain ⟨few, nodup, answers⟩ := legs b x found
    exact ⟨few, nodup, fun g m => (answers g m).put fresh p⟩
  · rw [Table.find_put] at found
    split_ifs at found
    · cases found; rw [tie] at bridge; cases bridge
    · exact leg j q b found bridge

theorem join_bridgeLaw {s t : State} {b id : Nat} {x : Bridge} {p : Path} {g : Leg} (found : find s.bridges b = some x)
    (room : x.legs.length < 8) (pool : legsOf s.bridges < 128) (fresh : find s.paths id = none) (path : g.path = id)
    (bridge : p.kind.bridge = some b) (slot : p.kind.legSlot = some g.slot) (controller : p.controller = x.controller)
    (paths : t.paths = put s.paths id p) (bridges : t.bridges = put s.bridges b { x with legs := x.legs ++ [g] })
    (h : BridgeLaw s) : BridgeLaw t := by
  obtain ⟨rise, count, legs, leg⟩ := (bridgeLaw_iff s).1 h
  have sum := legsOf_put rise b { x with legs := x.legs ++ [g] }
  rw [found] at sum
  simp only [Option.elim, List.length_append, List.length_singleton] at sum
  rw [bridgeLaw_iff, paths, bridges]
  refine ⟨Table.sorted_put rise b _, by omega, fun k z at_ => ?_, fun j q k at_ on => ?_⟩
  · rw [Table.find_put] at at_
    split_ifs at at_ with e
    · cases at_; subst e
      obtain ⟨-, nodup, answers⟩ := legs b x found
      refine ⟨by simp only [List.length_append, List.length_singleton]; omega, ?_, fun k m => ?_⟩
      · simp only [List.map_append, List.map_cons, List.map_nil]
        refine nodup.append (List.nodup_singleton _) (List.disjoint_singleton.2 fun m => ?_)
        obtain ⟨k, mk, e⟩ := List.mem_map.1 m
        obtain ⟨q, at_, -⟩ := answers k mk
        rw [e, path, fresh] at at_; cases at_
      · obtain m | m := List.mem_append.1 m
        · exact (answers k m).put fresh p
        · rw [List.mem_singleton.1 m]
          exact ⟨p, by rw [path, Table.find_put_same], bridge, slot, controller⟩
    · obtain ⟨few, nodup, answers⟩ := legs k z at_
      exact ⟨few, nodup, fun g m => (answers g m).put fresh p⟩
  · rw [Table.find_put] at at_ ⊢
    split_ifs at at_ with new
    · cases at_
      rw [bridge] at on; cases on
      exact ⟨_, if_pos rfl, g, by simp, path.trans new⟩
    · obtain ⟨z, zat, d, m, named⟩ := leg j q k at_ on
      split_ifs with e
      · subst e; rw [found] at zat; cases zat
        exact ⟨_, rfl, d, List.mem_append_left _ m, named⟩
      · exact ⟨z, zat, d, m, named⟩

theorem placeLeg_kind (b id : Nat) (g : NewLeg) (e : Option Nat) (k : KeyBlock) (t : Timing) (s : State) :
    (placeLeg b id g e k t s).2.1.bridge = some b
      ∧ (placeLeg b id g e k t s).2.1.legSlot = some (placeLeg b id g e k t s).2.2 := by
  cases g with
  | station => exact ⟨rfl, rfl⟩
  | tie => exact ⟨rfl, rfl⟩

theorem Change.bridgeLaw {s t : State} (h : Change s t) (law : BridgeLaw s) : BridgeLaw t := by
  cases h with
  | aside h => exact law.congr h.traffic.paths h.traffic.bridges
  | ext h => exact law.congr h.traffic.paths h.traffic.bridges
  | linkUp l => exact law.congr (by simp) (by simp)
  | linkDown l => exact recontrol_bridgeLaw _ _ law (by simp) (by simp)
  | managerDown => exact law.congr (by simp) (by simp)
  | adopt k l => exact recontrol_bridgeLaw _ _ law rfl rfl
  | context => exact law.congr rfl rfl
  | bridge b x y found step => exact bridgeStep_bridgeLaw found step rfl rfl law
  | clear id cause => exact clearPath_bridgeLaw id cause law
  | close b cause => exact closeBridge_bridgeLaw b cause law
  | clearAll =>
    exact ⟨rfl, by simp [clearTraffic, State.legsInUse], by simp [clearTraffic], by simp [clearTraffic]⟩
  | leave u i e cause _ _ _ events =>
    have told : BridgeLaw u := law.congr events.traffic.paths events.traffic.bridges
    cases (s.ext i).path with
    | none => exact told
    | some id => exact clearPath_bridgeLaw id cause told
  | openBridge l b threshold _ _ free => exact openBridge_bridgeLaw free rfl rfl rfl law
  | openTie l id station e tie priv k t _ _ range check free =>
    have o := openedTie_opened l k (takeTiming t) range check free
    refine openTie_bridgeLaw o.fresh.2 rfl o.paths ?_ law
    rw [openedTie, writePath_eq, allocate_eq]
  | join b x id g e k t gain mode found range check free =>
    have o := joinedLeg_opened (b := b) k (takeTiming t) gain mode range check free
    obtain ⟨room, pool, -⟩ := checkNewLeg_ok check
    obtain ⟨bridge, slot⟩ := placeLeg_kind b id g e k (takeTiming t) s
    exact join_bridgeLaw found room pool o.fresh.2 rfl bridge slot rfl o.paths
      (joinedLeg_bridges b x id g e k (takeTiming t) gain mode s) law

/-- Settles O11: a cleared leg path takes its leg along, a closed bridge has lost all its legs, and a leg that joins comes
with its path. -/
theorem stepKeepsBridgeLaw : Obligations.StepKeepsBridgeLaw := fun _ _ law h =>
  step_keeps (fun s _ => by simp [BridgeLaw, powerOnReset, State.reset, State.legsInUse, sorted])
    (fun _ _ => Change.bridgeLaw) law h

end Sys2Proof.Machine
end

