-- ==== Sys2Proof/Proofs/Load.lean ====
section
/-! PROOF. The start-up load's table and map, and O19. -/

namespace Sys2Proof.Machine

open Table (find put sorted)

/-! ## The build, entry by entry -/

/-- What a table under construction holds: loaded records alone, and the map the slot of each (R31, R33). -/
structure Built (t : Table Ext × Table Nat) : Prop where
  loaded : ∀ i e, find t.1 i = some e → ∃ r, e = Ext.loaded r
  map : ∀ n i, find t.2 n = some i ↔ ∃ r, find t.1 i = some (Ext.loaded r) ∧ r.slot = n

theorem loaded_injective {r q : Stored} (h : Ext.loaded r = Ext.loaded q) : r = q :=
  Option.some.inj (congrArg Ext.stored h)

/-- A record whose slot is free joins table and map. -/
theorem Built.put {t : Table Ext × Table Nat} (h : Built t) {i : Nat} (fresh : find t.1 i = none) {r : Stored}
    (free : find t.2 r.slot = none) : Built (put t.1 i (Ext.loaded r), put t.2 r.slot i) where
  loaded j e found := by
    simp only [Table.find_put] at found
    split_ifs at found
    · cases found; exact ⟨r, rfl⟩
    · exact h.loaded j e found
  map n j := by
    simp only [Table.find_put]
    by_cases same : i = j
    · subst same
      have unmapped : find t.2 n ≠ some i := fun m => by
        obtain ⟨q, at_, -⟩ := (h.map n i).1 m
        rw [fresh] at at_; cases at_
      rw [if_pos rfl]
      by_cases e : r.slot = n
      · simp only [e, if_true, true_iff]; exact ⟨r, rfl, e⟩
      · simp only [e, if_false, unmapped, false_iff]
        rintro ⟨q, at_, slot⟩
        exact e (loaded_injective (Option.some.inj at_) ▸ slot)
    · rw [if_neg same]
      by_cases e : r.slot = n
      · subst e
        simp only [if_true, Option.some.injEq, same, false_iff]
        rintro taken
        rw [← h.map, free] at taken; cases taken
      · rw [if_neg e]; exact h.map n j

theorem find_cons_of_sorted {l : Table Stored} {k : Nat} {r : Stored} (h : sorted ((k, r) :: l) = true) {i : Nat}
    {q : Stored} (found : find l i = some q) : k < i :=
  (List.pairwise_cons.1 (Table.sorted_iff.1 h)).1 i (Table.mem_keys_of_find found)

/-- Which records the build takes from a rising list: those whose slot no lower index has taken. -/
theorem buildTable_takes {l : Table Stored} (rise : sorted l = true) {t : Table Ext × Table Nat} (h : Built t)
    (above : ∀ i e, find t.1 i = some e → ∀ k ∈ Table.keys l, i < k) :
    Built (buildTable l t) ∧ ∀ i r, find (buildTable l t).1 i = some (Ext.loaded r) ↔
      find t.1 i = some (Ext.loaded r)
        ∨ (find l i = some r ∧ ∀ j, j < i → ∀ q, find (buildTable l t).1 j = some (Ext.loaded q) →
          q.slot ≠ r.slot) := by
  induction l generalizing t with
  | nil => exact ⟨h, fun i r => by simp [buildTable]⟩
  | cons x l ih =>
    obtain ⟨k, r₀⟩ := x
    obtain ⟨exts, m⟩ := t
    have fresh : find exts k = none := by
      cases f : find exts k with
      | none => rfl
      | some e => exact absurd (above k e f k List.mem_cons_self) (lt_irrefl k)
    have notLater : find l k = none := find_tail_of_sorted rise le_rfl
    have tail := sorted_tail rise
    simp only [buildTable]
    cases taken : find m r₀.slot with
    | some j =>
      obtain ⟨built, takes⟩ := ih tail h fun i e f z m => above i e f z (List.mem_cons_of_mem _ m)
      refine ⟨built, fun i r => ?_⟩
      rw [takes, find]
      by_cases e : k = i
      · subst e
        obtain ⟨q, at_, slot⟩ := (h.map _ j).1 taken
        simp only [fresh, notLater, if_true, Option.some.injEq, reduceCtorEq, false_or, false_and, false_iff,
          not_and, not_forall]
        rintro rfl
        exact ⟨j, above j _ at_ k List.mem_cons_self, q, (takes j q).2 (.inl at_), fun d => d slot⟩
      · rw [if_neg e]
    | none =>
      have built' := h.put fresh taken
      obtain ⟨built, takes⟩ := ih tail built' (by
        intro i e f z mz
        have rises : k < z := (List.pairwise_cons.1 (Table.sorted_iff.1 rise)).1 z mz
        simp only [Table.find_put] at f
        split_ifs at f
        · omega
        · exact above i e f z (List.mem_cons_of_mem _ mz))
      refine ⟨built, fun i r => ?_⟩
      have lower : ∀ j, j < k → ∀ q, find (buildTable l (put exts k (Ext.loaded r₀), put m r₀.slot k)).1 j
          = some (Ext.loaded q) → q.slot ≠ r₀.slot := by
        intro j lt q at_ slot
        obtain old | ⟨later, -⟩ := (takes j q).1 at_
        · rw [Table.find_put_other _ _ (by omega)] at old
          have := (h.map r₀.slot j).2 ⟨q, old, slot⟩
          rw [taken] at this; cases this
        · have := find_cons_of_sorted rise later; omega
      rw [takes, Table.find_put, find]
      by_cases e : k = i
      · subst e
        simp only [if_true, notLater, fresh, Option.some.injEq, reduceCtorEq, false_and, or_false, false_or]
        refine ⟨fun same => ?_, fun ⟨same, _⟩ => same ▸ rfl⟩
        cases loaded_injective same
        exact ⟨rfl, lower⟩
      · rw [if_neg e, if_neg e]

theorem buildTable_sorted (l : Table Stored) {t : Table Ext × Table Nat} (h : sorted t.1 = true ∧ sorted t.2 = true) :
    sorted (buildTable l t).1 = true ∧ sorted (buildTable l t).2 = true := by
  induction l generalizing t with
  | nil => exact h
  | cons x l ih =>
    obtain ⟨i, r⟩ := x
    obtain ⟨exts, m⟩ := t
    simp only [buildTable]
    refine ih ?_
    split
    · exact h
    · exact ⟨Table.sorted_put h.1 i _, Table.sorted_put h.2 _ i⟩

/-- Every record the build lists is a loaded one. -/
theorem buildTable_mem (l : Table Stored) {t : Table Ext × Table Nat} (h : ∀ e ∈ t.1, ∃ r, e.2 = Ext.loaded r) :
    ∀ e ∈ (buildTable l t).1, ∃ r, e.2 = Ext.loaded r := by
  induction l generalizing t with
  | nil => exact h
  | cons x l ih =>
    obtain ⟨i, r⟩ := x
    obtain ⟨exts, m⟩ := t
    simp only [buildTable]
    refine ih ?_
    split
    · exact h
    · intro e m
      obtain rfl | m := mem_put m
      · exact ⟨r, rfl⟩
      · exact h e m

theorem built_nil : Built (([] : Table Ext), ([] : Table Nat)) :=
  ⟨by simp, by simp⟩

/-! ## The load (R33, R34) -/

theorem startUpLoad_exts {s : State} (h : s.boot = .reset) :
    (startUpLoad s).exts = (buildTable s.extStore ([], [])).1
      ∧ (startUpLoad s).slotMap = (buildTable s.extStore ([], [])).2 := by
  rw [startUpLoad, if_pos h]
  simp only []
  split_ifs <;> exact ⟨rfl, rfl⟩

/-- The extensions after the load: loaded records and VACANT ones. -/
theorem startUpLoad_ext {s : State} (h : s.boot = .reset) (rise : sorted s.extStore = true) (i : Nat) :
    (startUpLoad s).ext i = Ext.vacant ∨ ∃ r, (startUpLoad s).ext i = Ext.loaded r := by
  have built := (buildTable_takes rise built_nil (by simp)).1
  unfold State.ext
  rw [(startUpLoad_exts h).1]
  cases f : find (buildTable s.extStore ([], [])).1 i with
  | none => exact .inl rfl
  | some e =>
    obtain ⟨r, rfl⟩ := built.loaded i e f
    exact .inr ⟨r, rfl⟩

theorem startUpLoad_stored {s : State} (h : s.boot = .reset) (i : Nat) (r : Stored) :
    ((startUpLoad s).ext i).stored = some r ↔
      ∃ e, find (buildTable s.extStore ([], [])).1 i = some e ∧ e.stored = some r := by
  unfold State.ext
  rw [(startUpLoad_exts h).1]
  cases find (buildTable s.extStore ([], [])).1 i with
  | none => simp [Ext.vacant]
  | some e => simp

theorem stored_iff_loaded {s : State} (h : s.boot = .reset) (rise : sorted s.extStore = true) (i : Nat) (r : Stored) :
    ((startUpLoad s).ext i).stored = some r ↔ find (buildTable s.extStore ([], [])).1 i = some (Ext.loaded r) := by
  rw [startUpLoad_stored h]
  constructor
  · rintro ⟨e, found, stored⟩
    obtain ⟨q, rfl⟩ := (buildTable_takes rise built_nil (by simp)).1.loaded i e found
    cases stored; exact found
  · exact fun found => ⟨_, found, rfl⟩

/-- An index has its present record exactly when no lower index of the table has taken its slot. -/
theorem startUpLoad_takes {s : State} (h : s.boot = .reset) (rise : sorted s.extStore = true) (i : Nat) (r : Stored) :
    ((startUpLoad s).ext i).stored = some r ↔ find s.extStore i = some r
      ∧ ∀ j, j < i → ∀ q, ((startUpLoad s).ext j).stored = some q → q.slot ≠ r.slot := by
  simp only [stored_iff_loaded h rise]
  rw [(buildTable_takes rise built_nil (by simp)).2 i r]
  simp

theorem startUpLoad_map {s : State} (h : s.boot = .reset) (rise : sorted s.extStore = true) (n i : Nat) :
    find (startUpLoad s).slotMap n = some i ↔ ∃ r, ((startUpLoad s).ext i).stored = some r ∧ r.slot = n := by
  simp only [stored_iff_loaded h rise]
  rw [(startUpLoad_exts h).2, (buildTable_takes rise built_nil (by simp)).1.map n i]

theorem startUpLoad_record {s : State} (h : s.boot = .reset) (rise : sorted s.extStore = true) (i : Nat) :
    (startUpLoad s).ext i =
      { stored := ((startUpLoad s).ext i).stored,
        standing := if ((startUpLoad s).ext i).stored = none then .vacant else .idle,
        programming := false, failures := 0, challenge := none, expired := false, path := none } := by
  obtain e | ⟨r, e⟩ := startUpLoad_ext h rise i
  · rw [e]; rfl
  · rw [e]; rfl

/-- Settles O19: the build over the rising store, entry by entry, and the start count program's completion. -/
theorem startUpLoadBuildsTheTable : Obligations.StartUpLoadBuildsTheTable := by
  refine ⟨fun s h rise => ⟨startUpLoad s, rfl, startUpLoad_takes h rise, startUpLoad_record h rise,
    startUpLoad_map h rise, fun more => ?_, fun ceiling => ?_⟩, fun s v due => ?_⟩
  · rw [startUpLoad, if_pos h]
    simp only [if_neg more]
    rfl
  · rw [startUpLoad, if_pos h]
    simp only [if_pos ceiling]
    simp only [endLoad, nonceSeed, ceiling]
    rfl
  · show Host.Outcome.next (startCountDone (workDue s)) = _
    rw [startCountDone, due]
    rfl

end Sys2Proof.Machine
end

