-- ==== Sys2Proof/Proofs/Extensions.lean ====
section
/-! PROOF. The extensions, the store and the start under every change, and O13 and O15. -/

namespace Sys2Proof.Machine

open Table (find put del mapAll sorted)

/-! ## Paths in use that move -/

/-- Extensions change in their paths in use alone; the store, its engine and the start stand. -/
structure PathsMoved (s t : State) : Prop where
  same : t.extStore = s.extStore ∧ t.slotMap = s.slotMap ∧ t.engine = s.engine ∧ t.failLimit = s.failLimit
    ∧ t.boot = s.boot ∧ (t.nonce = none → s.nonce = none)
  ext : sorted s.exts = true → ∀ i, ∃ p, t.ext i = { s.ext i with path := p }
  reserved : ∀ i, (s.ext i).Reserved → (t.ext i).Reserved
  lawful : ∀ limit, 1 ≤ limit → (∀ e ∈ s.exts, ExtLaw limit e.2) → ∀ e ∈ t.exts, ExtLaw limit e.2
  rise : sorted s.exts = true → sorted t.exts = true

theorem PathsMoved.trans {s t u : State} (a : PathsMoved s t) (b : PathsMoved t u) : PathsMoved s u where
  same := by
    obtain ⟨a1, a2, a3, a4, a5, a6⟩ := a.same
    obtain ⟨b1, b2, b3, b4, b5, b6⟩ := b.same
    exact ⟨b1.trans a1, b2.trans a2, b3.trans a3, b4.trans a4, b5.trans a5, a6 ∘ b6⟩
  ext rise i := by
    obtain ⟨p, hp⟩ := a.ext rise i
    obtain ⟨q, hq⟩ := b.ext (a.rise rise) i
    exact ⟨q, by rw [hq, hp]⟩
  reserved i := b.reserved i ∘ a.reserved i
  lawful limit pos := b.lawful limit pos ∘ a.lawful limit pos
  rise := b.rise ∘ a.rise

theorem PathsMoved.of_eq {s t : State} (exts : t.exts = s.exts) (extStore : t.extStore = s.extStore)
    (slotMap : t.slotMap = s.slotMap) (engine : t.engine = s.engine) (limit : t.failLimit = s.failLimit)
    (boot : t.boot = s.boot) (nonce : t.nonce = none → s.nonce = none) : PathsMoved s t where
  same := ⟨extStore, slotMap, engine, limit, boot, nonce⟩
  ext _ i := ⟨(s.ext i).path, State.ext_congr exts i⟩
  reserved i h := by rwa [State.ext_congr exts i]
  lawful _ _ h := by rwa [exts]
  rise h := by rwa [exts]

theorem PathsMoved.refl (s : State) : PathsMoved s s := .of_eq rfl rfl rfl rfl rfl rfl id

theorem PortsKept.pathsMoved {s t : State} (h : PortsKept s t) : PathsMoved s t := by
  rw [h.rest]; exact .of_eq rfl rfl rfl rfl rfl rfl id

/-! ## Lists of lawful extensions -/

theorem vacant_lawful {limit : Nat} (pos : 1 ≤ limit) : ExtLaw limit Ext.vacant := ⟨pos, rfl, rfl⟩

/-- The law of a record rests on its standing, failures, challenge and stored fields. -/
theorem ExtLaw.of_eq {limit : Nat} {e f : Ext} (h : ExtLaw limit e) (standing : f.standing = e.standing)
    (failures : f.failures = e.failures) (challenge : f.challenge = e.challenge) (stored : f.stored = e.stored) :
    ExtLaw limit f := by
  unfold ExtLaw at h ⊢
  rw [standing, failures, challenge, stored]; exact h

theorem ExtLaw.withPath {limit : Nat} {e : Ext} (h : ExtLaw limit e)
    (p : Option Nat) : ExtLaw limit { e with path := p } :=
  h.of_eq rfl rfl rfl rfl

theorem lawful_ext {limit : Nat} (pos : 1 ≤ limit) {s : State} (h : ∀ e ∈ s.exts, ExtLaw limit e.2) (i : Nat) :
    ExtLaw limit (s.ext i) := by
  unfold State.ext
  cases f : find s.exts i with
  | none => exact vacant_lawful pos
  | some e => exact h _ (Table.mem_of_find f)

theorem setExt_mem {s : State} {i : Nat} {e : Ext} {x : Nat × Ext} (m : x ∈ (s.setExt i e).exts) :
    x = (i, e) ∨ x ∈ s.exts := by
  simp only [State.setExt] at m
  split_ifs at m
  · exact .inr (mem_del m)
  · exact mem_put m

theorem setExt_lawful {limit : Nat} {s : State} {i : Nat} {e : Ext} (h : ∀ x ∈ s.exts, ExtLaw limit x.2)
    (new : ExtLaw limit e) : ∀ x ∈ (s.setExt i e).exts, ExtLaw limit x.2 := by
  intro x m
  obtain rfl | m := setExt_mem m
  · exact new
  · exact h x m

theorem setExt_sorted {s : State} (h : sorted s.exts = true) (i : Nat)
    (e : Ext) : sorted (s.setExt i e).exts = true := by
  simp only [State.setExt]
  split_ifs
  · exact Table.sorted_del h i
  · exact Table.sorted_put h i e

theorem setExtPath_moved (i : Nat) (p : Option Nat) (s : State) : PathsMoved s (setExtPath i p s) where
  same := ⟨rfl, rfl, rfl, rfl, rfl, id⟩
  ext _ j := by
    rw [setExtPath, State.ext_setExt]
    split_ifs with e
    · exact ⟨p, by rw [e]⟩
    · exact ⟨(s.ext j).path, rfl⟩
  reserved j h := by
    rw [setExtPath, State.ext_setExt]
    split_ifs with e
    · subst e; exact h
    · exact h
  lawful _ pos h := setExt_lawful h ((lawful_ext pos h i).withPath p)
  rise h := setExt_sorted h i _

/-- A path's extension alone changes, in its path in use. -/
theorem elimExt_moved {s t : State} {o : Option Nat} {p : Option Nat}
    (exts : t.exts = o.elim s.exts fun e => (setExtPath e p s).exts) (extStore : t.extStore = s.extStore)
    (slotMap : t.slotMap = s.slotMap) (engine : t.engine = s.engine) (limit : t.failLimit = s.failLimit)
    (boot : t.boot = s.boot) (nonce : t.nonce = s.nonce) : PathsMoved s t := by
  cases o with
  | none => exact .of_eq exts extStore slotMap engine limit boot (by rw [nonce]; exact id)
  | some e =>
    exact (setExtPath_moved e p s).trans (.of_eq exts extStore slotMap engine limit boot (by rw [nonce]; exact id))

theorem freePathRecord_exts (id : Nat) (p : Path) (s : State) :
    (freePathRecord id p s).exts = p.kind.ext.elim s.exts fun e => (setExtPath e none s).exts := by
  unfold freePathRecord
  cases p.kind.station <;> cases p.kind.tieSlot <;> cases p.kind.ctx <;> cases p.kind.ext <;> rfl

theorem clearPath_exts {s : State} {id : Nat} {p : Path} (h : find s.paths id = some p) (cause : ClearCause) :
    (clearPath id cause s).exts = p.kind.ext.elim s.exts fun e => (setExtPath e none s).exts := by
  rw [← freePathRecord_exts id p s, (clearPath_ports h cause).rest]
  cases p.kind.bridge with
  | none => rfl
  | some b => simp only [Option.elim]; rw [dropLeg_eq]

theorem clearPath_moved (id : Nat) (cause : ClearCause) (s : State) : PathsMoved s (clearPath id cause s) := by
  cases f : find s.paths id with
  | none => rw [clearPath_of_none f]; exact .refl s
  | some p =>
    exact elimExt_moved (clearPath_exts f cause) (by simp) (by simp) (by simp) (by simp) (by simp) (by simp)

theorem closeBridge_moved (b : Nat) (cause : ClearCause) (s : State) : PathsMoved s (closeBridge b cause s) := by
  unfold closeBridge
  split
  · rename_i x _
    have cleared := forEach_keeps (P := PathsMoved s) (fun p _ h => h.trans (clearPath_moved p cause _))
      (x.legs.map Leg.path) (.refl s)
    exact cleared.trans (.of_eq rfl rfl rfl rfl rfl rfl id)
  · exact .refl s

theorem clearExtPath_moved (p : Option Nat) (cause : ClearCause)
    (s : State) : PathsMoved s (clearExtPath p cause s) := by
  cases p with
  | none => exact .refl s
  | some id => exact clearPath_moved id cause s

theorem Opened.moved {s t : State} {id : Nat} {p : Path} (o : Opened s t id p) : PathsMoved s t :=
  elimExt_moved o.exts (by rw [o.rest]) (by rw [o.rest]) (by rw [o.rest]) (by rw [o.rest]) (by rw [o.rest])
    (by rw [o.rest])

/-! ## RESET_TRAFFIC's extensions -/

/-- The listed extensions without their paths in use; one that is VACANT by that is unlisted. -/
def withoutPaths (t : Table Ext) : Table Ext :=
  t.filterMap fun x => let e := { x.2 with path := none }; if e = Ext.vacant then none else some (x.1, e)

theorem clearTraffic_exts (s : State) : (clearTraffic s).exts = withoutPaths s.exts := rfl

theorem mem_withoutPaths {t : Table Ext} {x : Nat × Ext} (m : x ∈ withoutPaths t) :
    ∃ y ∈ t, x = (y.1, { y.2 with path := none }) := by
  obtain ⟨y, my, e⟩ := List.mem_filterMap.1 m
  simp only [Option.ite_none_left_eq_some, Option.some.injEq] at e
  exact ⟨y, my, e.2.symm⟩

theorem keys_withoutPaths_sublist (t : Table Ext) : (Table.keys (withoutPaths t)).Sublist (Table.keys t) := by
  induction t with
  | nil => exact .refl _
  | cons x t ih =>
    simp only [withoutPaths, List.filterMap_cons, Table.keys, List.map_cons] at ih ⊢
    split_ifs
    · exact ih.cons _
    · exact ih.cons_cons _

/-- A listed extension that is not VACANT without its path stays listed, first as it was. -/
theorem find_withoutPaths {t : Table Ext} {i : Nat} {e : Ext} (found : find t i = some e)
    (kept : { e with path := none } ≠ Ext.vacant) : find (withoutPaths t) i = some { e with path := none } := by
  induction t with
  | nil => cases found
  | cons x t ih =>
    obtain ⟨k, w⟩ := x
    simp only [find] at found
    simp only [withoutPaths, List.filterMap_cons] at ih ⊢
    split_ifs at found with q
    · cases found
      rw [if_neg kept]
      simp [find, q]
    · split_ifs
      · exact ih found
      · simp only [find, if_neg q]; exact ih found

theorem withoutPaths_ext {s : State} (rise : sorted s.exts = true) (i : Nat) :
    (clearTraffic s).ext i = { s.ext i with path := none } := by
  unfold State.ext
  rw [clearTraffic_exts]
  cases f : find s.exts i with
  | none =>
    have : find (withoutPaths s.exts) i = none := by
      rw [Table.find_eq_none_iff] at f ⊢
      exact fun m => f ((keys_withoutPaths_sublist _).subset m)
    rw [this]; rfl
  | some e =>
    by_cases v : { e with path := none } = Ext.vacant
    · have : find (withoutPaths s.exts) i = none := by
        cases g : find (withoutPaths s.exts) i with
        | none => rfl
        | some d =>
          obtain ⟨y, my, e'⟩ := List.mem_filterMap.1 (Table.mem_of_find g)
          simp only [Option.ite_none_left_eq_some, Option.some.injEq, Prod.mk.injEq] at e'
          obtain ⟨listed, rfl, -⟩ := e'
          rw [Table.find_of_mem rise my] at f; cases f
          exact absurd v listed
      rw [this]; exact v.symm
    · rw [find_withoutPaths f v]; rfl

theorem clearTraffic_moved (s : State) : PathsMoved s (clearTraffic s) where
  same := ⟨rfl, rfl, rfl, rfl, rfl, id⟩
  ext rise i := ⟨none, withoutPaths_ext rise i⟩
  reserved i h := by
    have marked := h.1
    unfold State.ext at h marked ⊢
    cases f : find s.exts i with
    | none => rw [f] at marked; cases marked
    | some e =>
      rw [f] at h marked
      have kept : { e with path := none } ≠ Ext.vacant := fun v => by
        have := congrArg Ext.programming v
        simp only [Option.getD_some] at marked
        rw [marked] at this; cases this
      rw [clearTraffic_exts, find_withoutPaths f kept]
      exact h
  lawful limit _ h e m := by
    obtain ⟨y, my, rfl⟩ := mem_withoutPaths m
    exact (h y my).withPath none
  rise h := Table.sorted_iff.2 ((Table.sorted_iff.1 h).sublist (keys_withoutPaths_sublist _))

/-! ## What every change does outside the store -/

theorem Aside.moved {s t : State} (h : Aside s t) : PathsMoved s t := by
  cases h with
  | ports h => exact h.pathsMoved
  | nonce f => exact .of_eq rfl rfl rfl rfl rfl rfl fun h => by simpa using h
  | _ => exact .of_eq rfl rfl rfl rfl rfl rfl id

/-- An extension leaves ADMITTED. -/
def Leaving (s u : State) : Prop :=
  ∃ i e, u = s.setExt i e ∧ ExtStep s.failLimit (s.ext i) e ∧ (s.ext i).isAdmitted = true ∧ e.isAdmitted = false

/-- A change is one of the extensions, or moves paths in use alone, of an extension that leaves ADMITTED first or of
none. -/
theorem Change.moved {s t : State} (h : Change s t) :
    ExtChange s t ∨ (∃ u, Leaving s u ∧ PathsMoved u t) ∨ PathsMoved s t := by
  cases h with
  | aside h => exact .inr (.inr h.moved)
  | ext h => exact .inl h
  | linkUp l => exact .inr (.inr (.of_eq (by simp) (by simp) (by simp) (by simp) (by simp) (by simp) (by simp)))
  | linkDown l => exact .inr (.inr (.of_eq (by simp) (by simp) (by simp) (by simp) (by simp) (by simp) (by simp)))
  | managerDown => exact .inr (.inr (.of_eq (by simp) (by simp) (by simp) (by simp) (by simp) (by simp) (by simp)))
  | clear id cause => exact .inr (.inr (clearPath_moved id cause s))
  | close b cause => exact .inr (.inr (closeBridge_moved b cause s))
  | clearAll => exact .inr (.inr (clearTraffic_moved s))
  | leave u i e cause step was isnt events =>
    exact .inr (.inl ⟨_, ⟨i, e, rfl, step, was, isnt⟩, events.pathsMoved.trans (clearExtPath_moved _ cause u)⟩)
  | openTie l id station e tie priv k t _ _ range check free =>
    exact .inr (.inr (openedTie_opened l k (takeTiming t) range check free).moved)
  | join b x id g e k t gain mode _ range check free =>
    exact .inr (.inr (joinedLeg_opened k (takeTiming t) gain mode range check free).moved)
  | _ => exact .inr (.inr (.of_eq rfl rfl rfl rfl rfl rfl id))

/-! ## Admission (O13) -/

/-- The extension a store operation is on is reserved for it. -/
def EngineReserves (s : State) : Prop := ∀ g ∈ s.engine, ∀ x ∈ g.job.target, (s.ext x.1).Reserved

theorem admissionLaw_iff (s : State) :
    AdmissionLaw s ↔ 1 ≤ s.failLimit ∧ (∀ e ∈ s.exts, ExtLaw s.failLimit e.2) ∧ (s.boot = .reset → s.engine = none)
      ∧ EngineReserves s := Iff.rfl

theorem PathsMoved.admission {s t : State} (h : PathsMoved s t) (law : AdmissionLaw s) : AdmissionLaw t := by
  obtain ⟨pos, lawful, idle, reserves⟩ := (admissionLaw_iff s).1 law
  obtain ⟨-, -, engine, limit, boot, -⟩ := h.same
  rw [admissionLaw_iff, limit, boot, engine]
  refine ⟨pos, h.lawful _ pos lawful, idle, fun g busy x target => ?_⟩
  rw [engine] at busy
  exact h.reserved x.1 (reserves g busy x target)

/-- One record changes as `ExtStep` says. -/
theorem setExt_admission {s : State} {i : Nat} {e : Ext} (step : ExtStep s.failLimit (s.ext i) e)
    (law : AdmissionLaw s) :
    AdmissionLaw (s.setExt i e) := by
  obtain ⟨pos, lawful, idle, reserves⟩ := (admissionLaw_iff s).1 law
  refine (admissionLaw_iff _).2 ⟨pos, setExt_lawful lawful (step.law pos (lawful_ext pos lawful i)), idle,
    fun g busy x target => ?_⟩
  rw [State.ext_setExt]
  have kept := reserves g busy x target
  split_ifs with q
  · rw [← q] at kept; exact step.reserved kept
  · exact kept

theorem frame_isAdmitted (e : Ext) : e.frame.isAdmitted = e.isAdmitted := by
  unfold Ext.frame
  split
  · rename_i n locked
    simp [Ext.isAdmitted, locked]
  all_goals rfl

theorem frame_same (e : Ext) : e.frame.failures = e.failures ∧ e.frame.challenge = e.challenge
    ∧ e.frame.stored = e.stored ∧ e.frame.programming = e.programming ∧ e.frame.path = e.path := by
  unfold Ext.frame
  cases e.standing <;> simp

theorem ExtLaw.frame {limit : Nat} {e : Ext} (h : ExtLaw limit e) : ExtLaw limit e.frame := by
  unfold Ext.frame
  split
  · rename_i n locked
    unfold ExtLaw at h ⊢
    rw [locked] at h; exact h
  all_goals exact h

theorem Ext.Reserved.frame {e : Ext} (h : e.Reserved) : e.frame.Reserved := by
  obtain ⟨-, challenge, -, programming, -⟩ := frame_same e
  exact ⟨programming.trans h.1, challenge.trans h.2.1, (frame_isAdmitted e).trans h.2.2⟩

theorem adjust_same (limit : Nat) (e : Ext) : (e.adjust limit).standing = e.standing
    ∧ (e.adjust limit).challenge = e.challenge ∧ (e.adjust limit).stored = e.stored
    ∧ (e.adjust limit).programming = e.programming ∧ (e.adjust limit).path = e.path := by
  unfold Ext.adjust
  split
  · simp
  all_goals split <;> simp

theorem adjust_failures {limit : Nat} (pos : 1 ≤ limit) (e : Ext) :
    (∃ n, e.standing = .locked n) ∧ (e.adjust limit).failures = limit
      ∨ (∀ n, e.standing ≠ .locked n) ∧ (e.adjust limit).failures < limit := by
  unfold Ext.adjust
  cases e.standing with
  | locked n => exact .inl ⟨⟨n, rfl⟩, rfl⟩
  | vacant | idle | admitted =>
    refine .inr ⟨by simp, ?_⟩
    by_cases many : limit ≤ e.failures
    · simp only [if_pos many]; omega
    · simp only [if_neg many]; omega

theorem ExtLaw.adjust {old limit : Nat} (pos : 1 ≤ limit) {e : Ext} (h : ExtLaw old e) : ExtLaw limit
    (e.adjust limit) := by
  obtain ⟨standing, challenge, stored, -⟩ := adjust_same limit e
  have few := adjust_failures pos e
  unfold ExtLaw at h ⊢
  rw [standing, challenge, stored]
  cases q : e.standing with
  | vacant => rw [q] at h few; exact ⟨by simpa using few, h.2⟩
  | idle => rw [q] at h few; exact ⟨by simpa using few, h.2⟩
  | admitted => rw [q] at h few; exact ⟨by simpa using few, h.2⟩
  | locked => rw [q] at h few; exact ⟨by simpa using few, h.2⟩

theorem Ext.Reserved.adjust {e : Ext} (h : e.Reserved) (limit : Nat) : (e.adjust limit).Reserved := by
  obtain ⟨standing, challenge, -, programming, -⟩ := adjust_same limit e
  refine ⟨programming.trans h.1, challenge.trans h.2.1, ?_⟩
  rw [← h.2.2]
  unfold Ext.isAdmitted
  rw [standing]

/-- An extension's record after one function on all listed ones that leaves the unlisted as it is. -/
theorem ext_mapAll {s t : State} {f : Ext → Ext} (exts : t.exts = mapAll s.exts f) (vacant : f Ext.vacant = Ext.vacant)
    (i : Nat) : t.ext i = f (s.ext i) := by
  unfold State.ext
  rw [exts, Table.find_mapAll]
  cases find s.exts i with
  | none => exact vacant.symm
  | some e => rfl

theorem vacant_adjust {limit : Nat} (pos : 1 ≤ limit) : Ext.vacant.adjust limit = Ext.vacant := by
  have few : ¬limit ≤ Ext.vacant.failures := by simp [Ext.vacant]; omega
  show (if limit ≤ Ext.vacant.failures then _ else _) = _
  rw [if_neg few]

section
variable (i : Nat) (r : Stored) (s : State)

/-- The record that a completed program leaves, and the one a completed erase does (R38, R39). -/
def Ext.programmed (e : Ext) (r : Stored) : Ext :=
  { e with stored := some r, standing := .idle, failures := 0, expired := false, programming := false }
def Ext.erased (e : Ext) : Ext :=
  { e with stored := none, standing := .vacant, failures := 0, expired := false, programming := false }

/-- The store, map and engine of a completed program and of a completed erase. -/
def programStored : State :=
  { s with extStore := put s.extStore i r, slotMap := put (unbind i s.slotMap) r.slot i, engine := none }
def eraseStored : State := { s with slotMap := unbind i s.slotMap, engine := none }

/-- A completed program, but for the change sets. -/
theorem finishProgram_ports :
    PortsKept ((programStored i r s).setExt i ((s.ext i).programmed r)) (finishProgram i r s) := by
  unfold finishProgram
  simp only []
  split
  · exact .refl _
  · exact noteChange_kept _ _

/-- A completed erase, but for the change sets. -/
theorem finishErase_ports : PortsKept ((eraseStored i s).setExt i (s.ext i).erased) (finishErase i s) := by
  unfold finishErase
  simp only []
  split
  · exact .refl _
  · exact noteChange_kept _ _

theorem finishProgram_exts :
    (finishProgram i r s).exts = (s.setExt i ((s.ext i).programmed r)).exts := by
  rw [(finishProgram_ports i r s).rest]; rfl

theorem finishErase_exts : (finishErase i s).exts = (s.setExt i (s.ext i).erased).exts := by
  rw [(finishErase_ports i s).rest]; rfl

theorem finishProgram_store : (finishProgram i r s).extStore = put s.extStore i r
    ∧ (finishProgram i r s).slotMap = put (unbind i s.slotMap) r.slot i ∧ (finishProgram i r s).engine = none := by
  rw [(finishProgram_ports i r s).rest]; exact ⟨rfl, rfl, rfl⟩

theorem finishErase_store : (finishErase i s).extStore = s.extStore
    ∧ (finishErase i s).slotMap = unbind i s.slotMap ∧ (finishErase i s).engine = none := by
  rw [(finishErase_ports i s).rest]; exact ⟨rfl, rfl, rfl⟩

theorem finishProgram_limit : (finishProgram i r s).failLimit = s.failLimit := by
  rw [(finishProgram_ports i r s).rest]; rfl

theorem finishErase_limit : (finishErase i s).failLimit = s.failLimit := by
  rw [(finishErase_ports i s).rest]; rfl

theorem finishProgram_ext (j : Nat) :
    (finishProgram i r s).ext j = if i = j then (s.ext i).programmed r else s.ext j := by
  rw [(finishProgram_ports i r s).ext j, State.ext_setExt]
  rfl

theorem finishErase_ext (j : Nat) : (finishErase i s).ext j = if i = j then (s.ext i).erased else s.ext j := by
  rw [(finishErase_ports i s).ext j, State.ext_setExt]
  rfl

end

theorem finishProgram_admission {i : Nat} {r : Stored} {s : State} (law : AdmissionLaw s) :
    AdmissionLaw (finishProgram i r s) := by
  obtain ⟨pos, lawful, -, -⟩ := law
  have idle : ExtLaw s.failLimit ((s.ext i).programmed r) := extLaw_idle rfl pos (by simp [Ext.programmed])
  have free := (finishProgram_store i r s).2.2
  rw [admissionLaw_iff, EngineReserves, finishProgram_limit, finishProgram_exts, free]
  exact ⟨pos, setExt_lawful lawful idle, fun _ => rfl, fun g busy => by cases busy⟩

theorem finishErase_admission {i : Nat} {s : State} (law : AdmissionLaw s) (free : (s.ext i).challenge = none) :
    AdmissionLaw (finishErase i s) := by
  obtain ⟨pos, lawful, -, -⟩ := law
  have vacant : ExtLaw s.failLimit (s.ext i).erased := ⟨pos, free, rfl⟩
  have ended := (finishErase_store i s).2.2
  rw [admissionLaw_iff, EngineReserves, finishErase_limit, finishErase_exts, ended]
  exact ⟨pos, setExt_lawful lawful vacant, fun _ => rfl, fun g busy => by cases busy⟩

theorem beginJob_ext (i : Nat) (job : Job) (s : State) (j : Nat) :
    (beginJob i job s).ext j = if i = j then { s.ext i with programming := true } else s.ext j := by
  rw [beginJob, State.ext_setExt]
  rfl

theorem beginJob_admission {i : Nat} {job : Job} {slot : Option Nat} {s : State} (law : AdmissionLaw s)
    (loaded : s.boot ≠ .reset) (target : job.target = some (i, slot))
    (free : (s.ext i).challenge = none ∧ (s.ext i).isAdmitted = false) : AdmissionLaw (beginJob i job s) := by
  obtain ⟨pos, lawful, -, -⟩ := law
  refine (admissionLaw_iff _).2 ⟨pos, ?_, fun reset => absurd reset loaded, fun g busy x at_ => ?_⟩
  · exact setExt_lawful (s := { s with
        extStore := del s.extStore i, engine := some { job := job, remaining := Config.storeFrames } }) lawful
      ((lawful_ext pos lawful i).of_eq rfl rfl rfl rfl)
  · have same : g.job = job := by cases busy; rfl
    rw [same, target] at at_
    cases at_
    rw [beginJob_ext, if_pos rfl]
    exact ⟨rfl, free⟩

theorem ExtChange.admission {s t : State} (h : ExtChange s t) (law : AdmissionLaw s) : AdmissionLaw t := by
  have whole := law
  obtain ⟨pos, lawful, idle, reserves⟩ := (admissionLaw_iff s).1 law
  have loaded : ∀ g, s.engine = some g → s.boot ≠ .reset := fun g busy reset => by
    rw [idle reset] at busy; cases busy
  cases h with
  | frame =>
    refine (admissionLaw_iff _).2 ⟨pos, fun e m => ?_, fun reset => by simp [idle reset], fun g busy x target => ?_⟩
    · obtain ⟨y, my, q⟩ := mem_mapAll m
      rw [q]; exact (lawful y my).frame
    · obtain ⟨d, was, rfl⟩ := Option.map_eq_some_iff.1 busy
      rw [ext_mapAll (s := s) rfl rfl]
      exact (reserves d was x target).frame
  | record i e step stays => exact setExt_admission step whole
  | limits limit window lockout least =>
    refine (admissionLaw_iff _).2 ⟨least, fun e m => ?_, idle, fun g busy x target => ?_⟩
    · obtain ⟨y, my, q⟩ := mem_mapAll m
      rw [q]; exact (lawful y my).adjust least
    · rw [ext_mapAll (s := s) rfl (vacant_adjust least)]
      exact (reserves g busy x target).adjust limit
  | begun i job slot loaded target free => exact beginJob_admission whole loaded target free
  | programmed i r g busy target => exact finishProgram_admission whole
  | nextBegun i r g busy target j job slot next free =>
    refine beginJob_admission (finishProgram_admission whole) ?_ next free
    rw [finishProgram_boot]; exact loaded g busy
  | erased i g busy target => exact finishErase_admission whole (reserves g busy _ (by rw [target]; rfl)).2.1
  | load reset =>
    have started : (startUpLoad s).failLimit = s.failLimit ∧ ∀ g ∈ (startUpLoad s).engine, g.job.target = none := by
      rw [startUpLoad, if_pos reset]
      simp only []
      split_ifs
      · exact ⟨rfl, fun g busy => by rw [show (_ : Option Engine) = s.engine from rfl, idle reset] at busy; cases busy⟩
      · exact ⟨rfl, fun g busy => by cases busy; rfl⟩
    rw [admissionLaw_iff, started.1]
    refine ⟨pos, fun e m => ?_, fun again => absurd again (startUpLoad_boot s), fun g busy x target => ?_⟩
    · rw [(startUpLoad_exts reset).1] at m
      obtain ⟨r, q⟩ := buildTable_mem _ (by simp) e m
      rw [q]; exact extLaw_idle rfl pos (by simp [Ext.loaded])
    · rw [started.2 g busy] at target; cases target
  | count =>
    unfold startCountDone
    split
    · exact (admissionLaw_iff _).2 ⟨pos, lawful, fun _ => rfl, fun g busy => by cases busy⟩
    · exact whole

theorem Change.admission {s t : State} (h : Change s t) (law : AdmissionLaw s) : AdmissionLaw t := by
  obtain h | ⟨u, ⟨i, e, rfl, step, -, -⟩, moved⟩ | moved := h.moved
  · exact h.admission law
  · exact moved.admission (setExt_admission step law)
  · exact moved.admission law

/-- Settles O13: each change of a record keeps its law, and nothing but its own store operation unmarks an extension. -/
theorem stepKeepsAdmissionLaw : Obligations.StepKeepsAdmissionLaw := fun _ _ law h =>
  step_keeps (fun s _ => by simp [AdmissionLaw, powerOnReset, State.reset]) (fun _ _ => Change.admission) law h

end Sys2Proof.Machine
end

