-- ==== Sys2Proof/Proofs/CanonicalForm.lean ====
section
/-! PROOF. The canonical form of the tables and the start-up law, and O15. -/

namespace Sys2Proof.Machine

open Table (find put del mapAll sorted)

/-! ## What is driven, delivered and surveyed -/

/-- What a frame rests on stands: highways, buffers, what is driven, and the survey. -/
structure FrameSame (s t : State) : Prop where
  highways : t.highways = s.highways
  buffer : t.buffer = s.buffer
  reading : t.reading = s.reading
  drivenStation : t.drivenStation = s.drivenStation
  drivenTie : t.drivenTie = s.drivenTie
  survey : t.survey = s.survey

theorem FrameSame.trans {s t u : State} (a : FrameSame s t) (b : FrameSame t u) : FrameSame s u :=
  ⟨b.1.trans a.1, b.2.trans a.2, b.3.trans a.3, b.4.trans a.4, b.5.trans a.5, b.6.trans a.6⟩

theorem FrameSame.refl (s : State) : FrameSame s s := ⟨rfl, rfl, rfl, rfl, rfl, rfl⟩

theorem ClearsOnly.frames {s t : State} (h : ClearsOnly s t) : FrameSame s t := by
  rw [h.rest]; exact ⟨rfl, rfl, rfl, rfl, rfl, rfl⟩

theorem Opened.frames {s t : State} {id : Nat} {p : Path} (h : Opened s t id p) : FrameSame s t := by
  rw [h.rest]; exact ⟨rfl, rfl, rfl, rfl, rfl, rfl⟩

theorem PortsKept.frames {s t : State} (h : PortsKept s t) : FrameSame s t := h.clearsOnly.frames

theorem finishProgram_frames (i : Nat) (r : Stored) (s : State) : FrameSame s (finishProgram i r s) :=
  FrameSame.trans (t := (programStored i r s).setExt i ((s.ext i).programmed r)) ⟨rfl, rfl, rfl, rfl, rfl, rfl⟩
    (finishProgram_ports i r s).frames

theorem finishErase_frames (i : Nat) (s : State) : FrameSame s (finishErase i s) :=
  FrameSame.trans (t := (eraseStored i s).setExt i (s.ext i).erased) ⟨rfl, rfl, rfl, rfl, rfl, rfl⟩
    (finishErase_ports i s).frames

theorem ExtChange.frames {s t : State} (h : ExtChange s t) : FrameSame s t := by
  cases h with
  | programmed i r => exact finishProgram_frames i r s
  | nextBegun i r => exact (finishProgram_frames i r s).trans ⟨rfl, rfl, rfl, rfl, rfl, rfl⟩
  | erased i => exact finishErase_frames i s
  | load reset =>
    rw [startUpLoad, if_pos reset]
    simp only []
    split_ifs <;> exact ⟨rfl, rfl, rfl, rfl, rfl, rfl⟩
  | count => unfold startCountDone; split <;> exact ⟨rfl, rfl, rfl, rfl, rfl, rfl⟩
  | _ => exact ⟨rfl, rfl, rfl, rfl, rfl, rfl⟩

/-- The part of the canonical form that a frame rests on. -/
def CanonicalFrame (s : State) : Prop :=
  sorted s.drivenStation = true ∧ sorted s.drivenTie = true ∧ sorted s.buffer.station = true
    ∧ sorted s.reading.station = true ∧ sorted s.survey.results = true
    ∧ s.highways.length = 8 ∧ s.buffer.tie.length = 8 ∧ s.reading.tie.length = 8

theorem FrameSame.canonical {s t : State} (h : FrameSame s t) (c : CanonicalFrame s) : CanonicalFrame t := by
  unfold CanonicalFrame
  rw [h.1, h.2, h.3, h.4, h.5, h.6]; exact c

theorem Aside.canonicalFrame {s t : State} (h : Aside s t) (c : CanonicalFrame s) : CanonicalFrame t := by
  have whole := c
  obtain ⟨station, tie, buffer, reading, survey, eight, buffered, read⟩ := c
  cases h with
  | ports h => exact h.frames.canonical whole
  | survey v h => exact ⟨station, tie, buffer, reading, h survey, eight, buffered, read⟩
  | drive ds dt hs ht => exact ⟨hs station, ht tie, buffer, reading, survey, eight, buffered, read⟩
  | highways hs h => exact ⟨station, tie, buffer, reading, survey, h.trans eight, buffered, read⟩
  | buffers now r h ht => exact ⟨station, tie, reading, h, survey, eight, read, ht.trans eight⟩
  | _ => exact whole

theorem restart_results (v : Survey) : v.restart.results = v.results := by
  unfold Survey.restart
  cases v.state <;> rfl

theorem Change.canonicalFrame {s t : State} (h : Change s t) (c : CanonicalFrame s) : CanonicalFrame t := by
  cases h with
  | aside h => exact h.canonicalFrame c
  | ext h => exact h.frames.canonical c
  | linkUp l => exact FrameSame.canonical ⟨by simp, by simp, by simp, by simp, by simp, by simp⟩ c
  | linkDown l => exact FrameSame.canonical ⟨by simp, by simp, by simp, by simp, by simp, by simp⟩ c
  | managerDown => exact FrameSame.canonical ⟨by simp, by simp, by simp, by simp, by simp, by simp⟩ c
  | clear id cause => exact (clearPath_clearsOnly id cause s).frames.canonical c
  | close b cause => exact (closeBridge_clearsOnly b cause s).frames.canonical c
  | clearAll =>
    obtain ⟨station, tie, buffer, reading, survey, rest⟩ := c
    exact ⟨station, tie, buffer, reading, (congrArg sorted (restart_results s.survey)).trans survey, rest⟩
  | leave u i e cause _ _ _ events =>
    exact (events.frames.trans (clearExtPath_clearsOnly _ cause u).frames).canonical
      (FrameSame.canonical (t := s.setExt i e) ⟨rfl, rfl, rfl, rfl, rfl, rfl⟩ c)
  | openTie l id station e tie priv k t _ _ range check free =>
    exact (openedTie_opened l k (takeTiming t) range check free).frames.canonical c
  | join b x id g e k t gain mode _ range check free =>
    exact (joinedLeg_opened k (takeTiming t) gain mode range check free).frames.canonical c
  | _ => exact FrameSame.canonical ⟨rfl, rfl, rfl, rfl, rfl, rfl⟩ c

/-! ## The tables of traffic -/

/-- The tables of paths, slots, contexts and bridges rise. -/
def TrafficRises (s : State) : Prop :=
  sorted s.paths = true ∧ sorted s.stationOcc = true ∧ sorted s.tieOcc = true ∧ sorted s.ctxs = true
    ∧ sorted s.bridges = true

theorem TrafficRises.of_eq {s t : State} (h : TrafficRises s) (paths : t.paths = s.paths)
    (station : t.stationOcc = s.stationOcc) (tie : t.tieOcc = s.tieOcc) (ctxs : t.ctxs = s.ctxs)
    (bridges : t.bridges = s.bridges) : TrafficRises t := by
  unfold TrafficRises
  rwa [paths, station, tie, ctxs, bridges]

theorem TrafficSame.rises {s t : State} (h : TrafficSame s t) (r : TrafficRises s) : TrafficRises t :=
  r.of_eq h.paths h.stationOcc h.tieOcc h.ctxs h.bridges

theorem sorted_elim_del {α : Type} {t : Table α} (h : sorted t = true) (o : Option Nat) :
    sorted (o.elim t (del t)) = true := by
  cases o with
  | none => exact h
  | some i => exact Table.sorted_del h i

theorem sorted_elim_put {t : Table Nat} (h : sorted t = true) (o : Option Nat) (id : Nat) :
    sorted (o.elim t fun n => put t n id) = true := by
  cases o with
  | none => exact h
  | some i => exact Table.sorted_put h i id

theorem clearPath_rises (id : Nat) (cause : ClearCause) {s : State} (r : TrafficRises s) :
    TrafficRises (clearPath id cause s) := by
  cases f : find s.paths id with
  | none => rwa [clearPath_of_none f]
  | some p =>
    obtain ⟨paths, station, tie, ctxs, bridges⟩ := r
    unfold TrafficRises
    rw [clearPath_paths, clearPath_stationOcc f, clearPath_tieOcc f, clearPath_ctxs f]
    exact ⟨Table.sorted_del paths id, sorted_elim_del station _, sorted_elim_del tie _, sorted_elim_del ctxs _,
      clearPath_sortedBridges id cause bridges⟩

theorem closeBridge_rises (b : Nat) (cause : ClearCause) {s : State} (r : TrafficRises s) :
    TrafficRises (closeBridge b cause s) := by
  unfold closeBridge
  split
  · rename_i x _
    obtain ⟨paths, station, tie, ctxs, bridges⟩ := forEach_keeps (P := TrafficRises)
      (fun p _ => clearPath_rises p cause) (x.legs.map Leg.path) r
    exact ⟨paths, station, tie, ctxs, Table.sorted_del bridges b⟩
  · exact r

theorem Opened.rises {s t : State} {id : Nat} {p : Path} (o : Opened s t id p) (r : TrafficRises s)
    (bridges : sorted t.bridges = true) : TrafficRises t := by
  obtain ⟨paths, station, tie, ctxs, -⟩ := r
  refine ⟨o.paths ▸ Table.sorted_put paths _ _, ?_, ?_, ?_, bridges⟩
  · rw [o.stationOcc]; exact sorted_elim_put station _ id
  · rw [o.tieOcc]; exact sorted_elim_put tie _ id
  · obtain ⟨-, same⟩ | ⟨i, c, -, -, new, -⟩ := o.context
    · rwa [same]
    · rw [new]; exact Table.sorted_put ctxs i c

theorem recontrol_rises (f : Controller → Bool) (c : Controller) {s : State} (r : TrafficRises s) :
    TrafficRises (recontrol f c s) := by
  obtain ⟨paths, station, tie, ctxs, bridges⟩ := r
  unfold TrafficRises
  rw [recontrol_paths, recontrol_bridges]
  exact ⟨Table.sorted_mapAll paths _, station, tie, ctxs, Table.sorted_mapAll bridges _⟩

theorem onPort_rises (l : Link) (f : Port → Port) {s : State} (r : TrafficRises s) : TrafficRises (s.onPort l f) :=
  r.of_eq (by simp) (by simp) (by simp) (by simp) (by simp)

theorem Change.rises {s t : State} (h : Change s t) (r : TrafficRises s) : TrafficRises t := by
  have whole := r
  obtain ⟨paths, station, tie, ctxs, bridges⟩ := r
  cases h with
  | aside h => exact h.traffic.rises whole
  | ext h => exact h.traffic.rises whole
  | linkUp l => exact onPort_rises l _ whole
  | linkDown l d => exact recontrol_rises _ _ (onPort_rises l _ whole)
  | managerDown => exact onPort_rises .m _ whole
  | adopt k l => exact recontrol_rises _ _ whole
  | context i c d => exact ⟨paths, station, tie, Table.sorted_put ctxs i d, bridges⟩
  | bridge b x y => exact ⟨paths, station, tie, ctxs, Table.sorted_put bridges b y⟩
  | clear id cause => exact clearPath_rises id cause whole
  | close b cause => exact closeBridge_rises b cause whole
  | clearAll => exact ⟨rfl, rfl, rfl, rfl, rfl⟩
  | leave u i e cause _ _ _ events =>
    have told : TrafficRises u := events.traffic.rises (TrafficRises.of_eq
      (t := s.setExt i e) whole rfl rfl rfl rfl rfl)
    cases (s.ext i).path with
    | none => exact told
    | some id => exact clearPath_rises id cause told
  | openBridge l b => exact ⟨paths, station, tie, ctxs, Table.sorted_put bridges b _⟩
  | openTie l id station e tie priv k t _ _ range check free =>
    refine (openedTie_opened l k (takeTiming t) range check free).rises whole ?_
    rw [openedTie, writePath_eq, allocate_eq]; exact bridges
  | join b x id g e k t gain mode _ range check free =>
    refine (joinedLeg_opened k (takeTiming t) gain mode range check free).rises whole ?_
    rw [joinedLeg_bridges]; exact Table.sorted_put bridges b _

/-! ## The tables of extensions -/

/-- The extension table, the store and the station-slot map rise. -/
def ExtsRise (s : State) : Prop := sorted s.exts = true ∧ sorted s.extStore = true ∧ sorted s.slotMap = true

theorem finishProgram_rises {i : Nat} {r : Stored} {s : State} (h : ExtsRise s) : ExtsRise (finishProgram i r s) := by
  obtain ⟨exts, store, map⟩ := h
  obtain ⟨stored, bound, -⟩ := finishProgram_store i r s
  rw [ExtsRise, finishProgram_exts, stored, bound]
  exact ⟨setExt_sorted exts i _, Table.sorted_put store i r, Table.sorted_put (Table.sorted_filter map _) _ i⟩

theorem finishErase_rises {i : Nat} {s : State} (h : ExtsRise s) : ExtsRise (finishErase i s) := by
  obtain ⟨exts, store, map⟩ := h
  obtain ⟨stored, bound, -⟩ := finishErase_store i s
  rw [ExtsRise, finishErase_exts, stored, bound]
  exact ⟨setExt_sorted exts i _, store, Table.sorted_filter map _⟩

theorem beginJob_rises {i : Nat} {job : Job} {s : State} (h : ExtsRise s) : ExtsRise (beginJob i job s) := by
  obtain ⟨exts, store, map⟩ := h
  exact ⟨setExt_sorted (s := { s with
      extStore := del s.extStore i, engine := some { job := job, remaining := Config.storeFrames } }) exts i _,
    Table.sorted_del store i, map⟩

theorem ExtChange.rises {s t : State} (h : ExtChange s t) (r : ExtsRise s) : ExtsRise t := by
  have whole := r
  obtain ⟨exts, store, map⟩ := r
  cases h with
  | frame => exact ⟨Table.sorted_mapAll exts _, store, map⟩
  | record i e => exact ⟨setExt_sorted exts i e, store, map⟩
  | limits => exact ⟨Table.sorted_mapAll exts _, store, map⟩
  | begun i job => exact beginJob_rises whole
  | programmed i r => exact finishProgram_rises whole
  | nextBegun i r g _ _ j => exact beginJob_rises (finishProgram_rises whole)
  | erased i => exact finishErase_rises whole
  | load reset =>
    obtain ⟨table, bound⟩ := startUpLoad_exts reset
    have kept : (startUpLoad s).extStore = s.extStore := by
      rw [startUpLoad, if_pos reset]; simp only []; split_ifs <;> rfl
    obtain ⟨a, b⟩ := buildTable_sorted s.extStore (t := ([], [])) ⟨rfl, rfl⟩
    exact ⟨table ▸ a, kept ▸ store, bound ▸ b⟩
  | count => unfold startCountDone; split <;> exact whole

theorem PathsMoved.rises {s t : State} (h : PathsMoved s t) (r : ExtsRise s) : ExtsRise t := by
  obtain ⟨store, map, -⟩ := h.same
  exact ⟨h.rise r.1, store ▸ r.2.1, map ▸ r.2.2⟩

theorem Change.extsRise {s t : State} (h : Change s t) (r : ExtsRise s) : ExtsRise t := by
  obtain h | ⟨u, ⟨i, e, rfl, -⟩, moved⟩ | moved := h.moved
  · exact h.rises r
  · exact moved.rises ⟨setExt_sorted r.1 i e, r.2⟩
  · exact moved.rises r

/-! ## Ports and the start -/

theorem risingIndices_range (n : Nat) : risingIndices (List.range n) = true :=
    risingIndices_iff.2 List.pairwise_lt_range

theorem goUp_changes (p : Port) : p.goUp.changes = List.range Config.extensions := by
  rw [Port.goUp]

theorem Change.changes {s t : State} (h : Change s t) (l : Link) (r : risingIndices (s.port l).changes = true) :
    risingIndices (t.port l).changes = true := by
  obtain kept | ⟨up, -⟩ | down := h.port l
  · exact kept.changes r
  · rw [up, goUp_changes]; exact risingIndices_range _
  · rw [down]; exact r

/-- The start after a change: the load is over if it was, and over only with the nonce generator seeded. -/
theorem Change.started {s t : State} (h : Change s t) (seeded : s.boot = .ended → s.nonce ≠ none) :
    (s.boot = .ended → t.boot = .ended) ∧ (t.boot = .ended → t.nonce ≠ none) := by
  have moves : ∀ u : State, u.boot = s.boot → u.nonce = s.nonce → PathsMoved u t →
      (s.boot = .ended → t.boot = .ended) ∧ (t.boot = .ended → t.nonce ≠ none) := by
    intro u boot nonce moved
    obtain ⟨-, -, -, -, same, none_⟩ := moved.same
    refine ⟨fun e => by rw [same, boot, e], fun e n => ?_⟩
    rw [same, boot] at e
    exact seeded e (nonce ▸ none_ n)
  obtain h | ⟨u, ⟨i, e, rfl, -, -, -⟩, moved⟩ | moved := h.moved
  · have stands : ∀ u : State, u.boot = s.boot → u.nonce = s.nonce →
        (s.boot = .ended → u.boot = .ended) ∧ (u.boot = .ended → u.nonce ≠ none) := fun u boot nonce =>
      ⟨fun e => by rw [boot, e], fun e => by rw [nonce]; exact seeded (boot ▸ e)⟩
    cases h with
    | programmed i r => exact stands _ (finishProgram_boot i r s) (by rw [(finishProgram_ports i r s).rest]; rfl)
    | nextBegun i r g _ _ j =>
      exact stands _ (finishProgram_boot i r s)
        (show (finishProgram i r s).nonce = _ by rw [(finishProgram_ports i r s).rest]; rfl)
    | erased i => exact stands _ (finishErase_boot i s) (by rw [(finishErase_ports i s).rest]; rfl)
    | load reset =>
      refine ⟨fun e => absurd (reset.symm.trans e) (by decide), ?_⟩
      rw [startUpLoad, if_pos reset]
      simp only []
      split_ifs
      · exact fun _ => by simp [endLoad]
      · rintro ⟨⟩
    | count =>
      unfold startCountDone
      split
      · exact ⟨fun _ => rfl, fun _ => by simp [endLoad]⟩
      · exact ⟨id, seeded⟩
    | _ => exact stands _ rfl rfl
  · exact moves (s.setExt i e) rfl rfl moved
  · exact moves s rfl rfl moved

theorem mem_allLinks (l : Link) : l ∈ allLinks := by cases l <;> decide

theorem Change.startLaw {s t : State} (h : Change s t) (law : StartLaw s) : StartLaw t := by
  obtain ⟨ended, seeded⟩ := law
  obtain ⟨stays, nonce⟩ := h.started seeded
  refine ⟨fun l m up => stays ?_, nonce⟩
  obtain kept | ⟨-, done⟩ | down := h.port l
  · exact ended l m (kept.up.1 up)
  · exact done
  · rw [down] at up; cases up

/-! ## The canonical form (O15) -/

theorem canonical_iff (s : State) :
    Canonical s ↔ ExtsRise s ∧ TrafficRises s ∧ CanonicalFrame s ∧ ∀ l, risingIndices (s.port l).changes = true := by
  have links : (∀ l ∈ allLinks, risingIndices (s.port l).changes = true) ↔ ∀ l,
    risingIndices (s.port l).changes = true :=
    ⟨fun h l => h l (mem_allLinks l), fun h l _ => h l⟩
  unfold Canonical ExtsRise TrafficRises CanonicalFrame
  rw [links]
  tauto

theorem Change.canonical {s t : State} (h : Change s t) (c : Canonical s) : Canonical t := by
  obtain ⟨exts, traffic, frame, changes⟩ := (canonical_iff s).1 c
  exact (canonical_iff t).2 ⟨h.extsRise exts, h.rises traffic, h.canonicalFrame frame, fun l => h.changes l (changes l)⟩

theorem reset_canonical {s : State} (store : sorted s.extStore = true) : Canonical (powerOnReset s) := by
  refine (canonical_iff _).2 ⟨⟨rfl, store, rfl⟩, ⟨rfl, rfl, rfl, rfl, rfl⟩, ?_, fun l => by cases l <;> rfl⟩
  exact ⟨rfl, rfl, rfl, rfl, rfl, by simp [powerOnReset, State.reset, Config.tieHighways],
    by simp [powerOnReset, State.reset, FrameCodes.idle, Config.tieHighways],
    by simp [powerOnReset, State.reset, FrameCodes.idle, Config.tieHighways]⟩

theorem reset_startLaw (s : State) : StartLaw (powerOnReset s) :=
  ⟨fun l _ up => by (cases l <;> cases up), fun e => by cases e⟩

/-- Settles O15: every change writes its tables in order, and a link goes UP only once the load has ended. -/
theorem stepKeepsCanonicalForm : Obligations.StepKeepsCanonicalForm := fun _ _ canonical start h =>
  ⟨step_keeps (P := Canonical) (fun _ h => reset_canonical h.2.1) (fun _ _ => Change.canonical) canonical h,
    step_keeps (fun s _ => reset_startLaw s) (fun _ _ => Change.startLaw) start h⟩

end Sys2Proof.Machine
end

