-- ==== Sys2Proof/Proofs/Stations.lean ====
section
/-! PROOF. Station paths and bindings, all the laws together, and O14 and O16. -/

namespace Sys2Proof.Machine

open Table (find put del mapAll sorted)

/-! ## The law, part by part -/

/-- A path of a station slot names the extension bound to it and is its path in use; the extension is ADMITTED, but
perhaps on the path `but`, which is to be cleared. -/
def PathsServe (but : Option Nat) (s : State) : Prop :=
  ∀ id p slot, find s.paths id = some p → p.kind.station = some slot →
    ∃ e, p.kind.ext = some e ∧ (but ≠ some id → (s.ext e).isAdmitted = true) ∧ (s.ext e).path = some id
      ∧ find s.slotMap slot = some e

/-- A path in use is a path of a station slot that names its extension. -/
def PathsInUse (s : State) : Prop :=
  ∀ e id, (s.ext e).path = some id → ∃ p, find s.paths id = some p ∧ p.kind.ext = some e ∧ p.kind.station ≠ none

/-- Every binding is a stored one. -/
def BindingsStored (s : State) : Prop :=
  ∀ slot e, find s.slotMap slot = some e → ∃ r, (s.ext e).stored = some r ∧ r.slot = slot

/-- A slot that a store operation is to bind is bound to no other extension. -/
def TargetsUnbound (s : State) : Prop :=
  ∀ g ∈ s.engine, ∀ x ∈ g.job.target, ∀ slot ∈ x.2, ∀ e ∈ find s.slotMap slot, e = x.1

/-- The station law, but that the extension of the path `but` need not be ADMITTED. -/
structure StationLawBut (but : Option Nat) (s : State) : Prop where
  serve : PathsServe but s
  inUse : PathsInUse s
  unstarted : s.boot = .reset → s.paths = []
  stored : BindingsStored s
  targets : TargetsUnbound s

theorem stationLaw_iff (s : State) : StationLaw s ↔ StationLawBut none s := by
  constructor
  · rintro ⟨serve, inUse, unstarted, stored, targets⟩
    refine ⟨fun id p slot f k => ?_, inUse, unstarted, stored, targets⟩
    obtain ⟨e, ext, admitted, rest⟩ := serve id p slot f k
    exact ⟨e, ext, fun _ => admitted, rest⟩
  · rintro ⟨serve, inUse, unstarted, stored, targets⟩
    refine ⟨fun id p slot f k => ?_, inUse, unstarted, stored, targets⟩
    obtain ⟨e, ext, admitted, rest⟩ := serve id p slot f k
    exact ⟨e, ext, admitted (by simp), rest⟩

theorem StationLawBut.weaken {s : State} (h : StationLawBut none s) (but : Option Nat) : StationLawBut but s where
  serve id p slot f k := by
    obtain ⟨e, ext, admitted, rest⟩ := h.serve id p slot f k
    exact ⟨e, ext, fun _ => admitted (by simp), rest⟩
  inUse := h.inUse
  unstarted := h.unstarted
  stored := h.stored
  targets := h.targets

/-- A path has an extension exactly where it has a station slot. -/
theorem PathKind.ext_of_station {k : PathKind} : k.ext = none ↔
    k.station = none := by cases k <;> simp [PathKind.ext, PathKind.station]

/-- The path of an extension in use is its path in use. -/
theorem PathsServe.path {s : State} {but : Option Nat} (h : PathsServe but s) {id : Nat} {p : Path} {e : Nat}
    (f : find s.paths id = some p) (ext : p.kind.ext = some e) : (s.ext e).path = some id := by
  cases k : p.kind.station with
  | none => rw [PathKind.ext_of_station.2 k] at ext; cases ext
  | some slot =>
    obtain ⟨d, ext', -, path, -⟩ := h id p slot f k
    rw [ext] at ext'; cases ext'; exact path

/-! ## Changes that leave paths and bindings -/

/-- Paths keep their kinds, and extensions their paths in use, stored fields and admission. -/
theorem StationLawBut.congr {but : Option Nat} {s t : State} (h : StationLawBut none s) (kinds : SameKinds s t)
    (empty : t.boot = .reset → s.boot = .reset ∧ (s.paths = [] → t.paths = []))
    (ext : ∀ i, (t.ext i).path = (s.ext i).path ∧ (t.ext i).stored = (s.ext i).stored)
    (admitted : ∀ i, (s.ext i).isAdmitted = true → (s.ext i).path ≠ but → (t.ext i).isAdmitted = true)
    (map : t.slotMap = s.slotMap) (targets : TargetsUnbound t) : StationLawBut but t where
  serve id p slot f k := by
    obtain ⟨q, at_, same, station⟩ :=
      (kinds.exists_iff id fun x => x = p.kind ∧ x.station = some slot).1 ⟨p, f, rfl, k⟩
    obtain ⟨e, named, was, path, bound⟩ := h.serve id q slot at_ station
    refine ⟨e, same ▸ named, fun other => admitted e (was (by
      simp)) ?_, by rw [(ext e).1]; exact path, by rw [map]; exact bound⟩
    rw [path]; exact other.symm
  inUse e id path := by
    rw [(ext e).1] at path
    exact (kinds.exists_iff id fun x => x.ext = some e ∧ x.station ≠ none).2 (h.inUse e id path)
  unstarted reset := (empty reset).2 (h.unstarted (empty reset).1)
  stored slot e bound := by
    rw [(ext e).2]; exact h.stored slot e (map ▸ bound)
  targets := targets

theorem TargetsUnbound.congr {s t : State} (h : TargetsUnbound s) (engine : t.engine = s.engine)
    (map : t.slotMap = s.slotMap) : TargetsUnbound t := by
  unfold TargetsUnbound; rwa [engine, map]

theorem StationLawBut.same {s t : State} (h : StationLawBut none s) (kinds : SameKinds s t)
    (empty : s.paths = [] → t.paths = []) (exts : t.exts = s.exts) (boot : t.boot = s.boot)
      (map : t.slotMap = s.slotMap)
    (engine : t.engine = s.engine) : StationLawBut none t :=
  h.congr kinds (fun reset => ⟨boot ▸ reset, empty⟩) (fun i => by rw [State.ext_congr exts i]; exact ⟨rfl, rfl⟩)
    (fun i a _ => by rwa [State.ext_congr exts i]) map (h.targets.congr engine map)

theorem StationLawBut.samePaths {but : Option Nat} {s t : State} (h : StationLawBut but s) (paths : t.paths = s.paths)
    (exts : t.exts = s.exts) (boot : t.boot = s.boot) (map : t.slotMap = s.slotMap) (engine : t.engine = s.engine) :
    StationLawBut but t := by
  have ext : ∀ i, t.ext i = s.ext i := State.ext_congr exts
  refine ⟨?_, ?_, ?_, ?_, h.targets.congr engine map⟩
  · unfold PathsServe; rw [paths, map]; simp only [ext]; exact h.serve
  · unfold PathsInUse; rw [paths]; simp only [ext]; exact h.inUse
  · rw [boot, paths]; exact h.unstarted
  · unfold BindingsStored; rw [map]; simp only [ext]; exact h.stored

/-! ## Clearing -/

theorem clearPath_station (id : Nat) (cause : ClearCause) {s : State} (h : StationLawBut (some id) s) :
    StationLawBut none (clearPath id cause s) := by
  cases f : find s.paths id with
  | none =>
    rw [clearPath_of_none f]
    refine { h with serve := fun j p slot at_ k => ?_ }
    obtain ⟨e, ext, admitted, rest⟩ := h.serve j p slot at_ k
    refine ⟨e, ext, fun _ => admitted ?_, rest⟩
    rintro ⟨⟩
    rw [f] at at_; cases at_
  | some p =>
    have stored : ∀ i, ((clearPath id cause s).ext i).stored = (s.ext i).stored := fun i => by
      rw [clearPath_ext f]; split_ifs <;> rfl
    have admitted : ∀ i, ((clearPath id cause s).ext i).isAdmitted = (s.ext i).isAdmitted := fun i => by
      rw [clearPath_ext f]; split_ifs <;> rfl
    refine ⟨fun j q slot at_ k => ?_, fun e j path => ?_, fun reset => ?_, fun slot e bound => ?_,
      h.targets.congr (by simp) (by simp)⟩
    · rw [clearPath_paths, Table.find_del] at at_
      split_ifs at at_ with other
      obtain ⟨e, ext, was, path, bound⟩ := h.serve j q slot at_ k
      have notMine : p.kind.ext ≠ some e := fun mine => by
        have := h.serve.path f mine
        rw [path] at this; cases this; exact other rfl
      refine ⟨e, ext, fun _ => ?_, ?_, by simpa using bound⟩
      · rw [admitted]; exact was (by simpa using other)
      · rw [clearPath_ext f, if_neg notMine]; exact path
    · rw [clearPath_ext f] at path
      split_ifs at path with mine
      obtain ⟨q, at_, rest⟩ := h.inUse e j path
      refine ⟨q, ?_, rest⟩
      rw [clearPath_paths, Table.find_del_other]
      · exact at_
      · rintro rfl
        rw [f] at at_; cases at_
        exact mine rest.1
    · rw [clearPath_paths, h.unstarted (by simpa using reset)]; rfl
    · rw [stored]; exact h.stored slot e (by simpa using bound)

theorem closeBridge_station (b : Nat) (cause : ClearCause) {s : State} (h : StationLawBut none s) :
    StationLawBut none (closeBridge b cause s) := by
  unfold closeBridge
  split
  · rename_i x _
    have cleared := forEach_keeps (P := StationLawBut none) (fun p _ h => clearPath_station p cause (h.weaken _))
      (x.legs.map Leg.path) h
    exact cleared.samePaths rfl rfl rfl rfl rfl
  · exact h

theorem clearTraffic_station {s : State} (h : StationLawBut none s) (rise : sorted s.exts = true) :
    StationLawBut none (clearTraffic s) where
  serve id p slot f := by cases f
  inUse e id path := by rw [withoutPaths_ext rise] at path; cases path
  unstarted _ := rfl
  stored slot e bound := by rw [withoutPaths_ext rise]; exact h.stored slot e bound
  targets := h.targets.congr rfl rfl

/-! ## Opening -/

/-- The extension of a slot that an open takes has no path in use: it would be one on that very slot. -/
theorem Opened.unused {s t : State} {id : Nat} {p : Path} (o : Opened s t id p) (h : StationLawBut none s)
    (occupancy : OccupancyLaw s) {e : Nat} (ext : p.kind.ext = some e) : (s.ext e).path = none := by
  cases used : (s.ext e).path with
  | none => rfl
  | some j =>
    cases k : p.kind.station with
    | none => rw [PathKind.ext_of_station.2 k] at ext; cases ext
    | some slot =>
      obtain ⟨free, -, d, ext', -, bound⟩ := o.station slot k
      rw [ext] at ext'; cases ext'
      obtain ⟨q, at_, named, on⟩ := h.inUse e j used
      cases m : q.kind.station with
      | none => exact absurd m on
      | some n =>
        obtain ⟨d, named', -, -, bound'⟩ := h.serve j q n at_ m
        rw [named] at named'; cases named'
        obtain ⟨r, st, slot_⟩ := h.stored slot e bound
        obtain ⟨r', st', n_⟩ := h.stored n e bound'
        rw [st] at st'; cases st'
        rw [slot_] at n_; subst n_
        rw [(occupancy.1 slot j).2 ⟨q, at_, m⟩] at free; cases free

theorem Opened.ext {s t : State} {id : Nat} {p : Path} (o : Opened s t id p) (i : Nat) :
    t.ext i = if p.kind.ext = some i then { s.ext i with path := some id } else s.ext i := by
  have exts := o.exts
  cases k : p.kind.ext with
  | none =>
    rw [k] at exts
    rw [if_neg (by simp)]; exact State.ext_congr exts i
  | some e =>
    rw [k] at exts
    rw [State.ext_congr (t := setExtPath e (some id) s) exts i, setExtPath, State.ext_setExt]
    by_cases same : e = i
    · subst same; simp
    · rw [if_neg same, if_neg (by simpa using same)]

theorem Opened.stations {s t : State} {id : Nat} {p : Path} (o : Opened s t id p) (h : StationLawBut none s)
    (occupancy : OccupancyLaw s) (loaded : s.boot ≠ .reset) : StationLawBut none t := by
  obtain ⟨-, map, engine, -, boot, -⟩ := o.moved.same
  have mine : ∀ e, p.kind.ext = some e → t.ext e = { s.ext e with path := some id } := fun e k => by
    rw [o.ext, if_pos k]
  have others : ∀ e j, (s.ext e).path = some j → t.ext e = s.ext e := fun e j path => by
    rw [o.ext, if_neg]
    intro k
    rw [o.unused h occupancy k] at path; cases path
  refine ⟨fun j q slot at_ k => ?_, fun e j path => ?_, fun reset => absurd (boot ▸ reset) loaded,
    fun slot e bound => ?_, h.targets.congr engine map⟩
  · rw [o.paths, Table.find_put] at at_
    split_ifs at at_ with new
    · cases at_; subst new
      obtain ⟨-, -, e, ext, admitted, bound⟩ := o.station slot k
      refine ⟨e, ext, fun _ => ?_, ?_, map ▸ bound⟩
      · rw [mine e ext]; exact admitted
      · rw [mine e ext]
    · obtain ⟨e, ext, admitted, path, bound⟩ := h.serve j q slot at_ k
      refine ⟨e, ext, fun n => ?_, ?_, map ▸ bound⟩
      · rw [others e j path]; exact admitted n
      · rw [others e j path]; exact path
  · rw [o.ext] at path
    split_ifs at path with k
    · cases path
      refine ⟨p, by rw [o.paths, Table.find_put_same], k, fun n => ?_⟩
      rw [o.bound n] at k; cases k
    · obtain ⟨q, at_, rest⟩ := h.inUse e j path
      refine ⟨q, ?_, rest⟩
      rw [o.paths, Table.find_put_other]
      · exact at_
      · rintro rfl; rw [o.fresh.2] at at_; cases at_
  · obtain ⟨r, st, at_⟩ := h.stored slot e (map ▸ bound)
    refine ⟨r, ?_, at_⟩
    rw [o.ext]; split_ifs <;> exact st

/-! ## The extensions -/

/-- An extension that is not ADMITTED has no path in use, and no path names it. -/
theorem StationLawBut.unused {s : State} (h : StationLawBut none s) {i : Nat} (out : (s.ext i).isAdmitted = false) :
    (s.ext i).path = none := by
  cases used : (s.ext i).path with
  | none => rfl
  | some id =>
    obtain ⟨p, at_, named, on⟩ := h.inUse i id used
    cases k : p.kind.station with
    | none => exact absurd k on
    | some slot =>
      obtain ⟨e, named', admitted, -⟩ := h.serve id p slot at_ k
      rw [named] at named'; cases named'
      rw [admitted (by simp)] at out; cases out

theorem find_of_unbind {m : Table Nat} (rise : sorted m = true) {i n j : Nat} (h : find (unbind i m) n = some j) :
    find m n = some j ∧ j ≠ i := by
  have listed := Table.mem_of_find h
  simp only [unbind, List.mem_filter, decide_eq_true_eq] at listed
  exact ⟨Table.find_of_mem rise listed.1, listed.2⟩

/-- A store operation's completion changes the record and the bindings of one extension that is not ADMITTED. -/
theorem complete_station {s t : State} {i : Nat} (h : StationLawBut none s) (out : (s.ext i).isAdmitted = false)
    (paths : t.paths = s.paths) (boot : t.boot = s.boot) (others : ∀ j, i ≠ j → t.ext j = s.ext j)
    (path : (t.ext i).path = (s.ext i).path) (kept : ∀ n j, i ≠ j → find s.slotMap n = some j →
      find t.slotMap n = some j)
    (bound : ∀ n j, find t.slotMap n = some j →
      find s.slotMap n = some j ∧ i ≠ j ∨ i = j ∧ ∃ r, (t.ext i).stored = some r ∧ r.slot = n)
    (idle : t.engine = none) : StationLawBut none t where
  serve id p slot f k := by
    rw [paths] at f
    obtain ⟨e, ext, admitted, path', bound'⟩ := h.serve id p slot f k
    have other : i ≠ e := by
      rintro rfl
      rw [h.unused out] at path'; cases path'
    exact ⟨e, ext, by rwa [others e other], by rwa [others e other], kept slot e other bound'⟩
  inUse e id used := by
    rw [paths]
    by_cases same : i = e
    · subst same
      rw [path, h.unused out] at used; cases used
    · rw [others e same] at used; exact h.inUse e id used
  unstarted reset := by rw [paths]; exact h.unstarted (boot ▸ reset)
  stored n j b := by
    obtain ⟨old, other⟩ | ⟨rfl, here⟩ := bound n j b
    · rw [others j other]; exact h.stored n j old
    · exact here
  targets g busy := by rw [idle] at busy; cases busy

theorem finishProgram_station {i : Nat} {r : Stored} {s : State} (h : StationLawBut none s)
    (out : (s.ext i).isAdmitted = false) (rise : sorted s.slotMap = true)
    (free : ∀ e ∈ find s.slotMap r.slot, e = i) : StationLawBut none (finishProgram i r s) := by
  obtain ⟨-, map, idle⟩ := finishProgram_store i r s
  refine complete_station h out ?_ (finishProgram_boot i r s)
    (fun j n => by rw [finishProgram_ext, if_neg n]) ?_ ?_ ?_ idle
  · rw [(finishProgram_ports i r s).rest]; rfl
  · rw [finishProgram_ext, if_pos rfl]; rfl
  · intro n j other old
    have elsewhere : r.slot ≠ n := by rintro rfl; exact other (free j old).symm
    rw [map, Table.find_put_other _ _ elsewhere]
    exact find_unbind old other.symm
  · intro n j b
    rw [map, Table.find_put] at b
    split_ifs at b with here
    · cases b
      exact .inr ⟨rfl, r, by rw [finishProgram_ext, if_pos rfl]; rfl, here⟩
    · obtain ⟨old, other⟩ := find_of_unbind rise b
      exact .inl ⟨old, other.symm⟩

theorem finishErase_station {i : Nat} {s : State} (h : StationLawBut none s) (out : (s.ext i).isAdmitted = false)
    (rise : sorted s.slotMap = true) : StationLawBut none (finishErase i s) := by
  obtain ⟨-, map, idle⟩ := finishErase_store i s
  refine complete_station h out ?_ (finishErase_boot i s) (fun j n => by rw [finishErase_ext, if_neg n]) ?_ ?_ ?_ idle
  · rw [(finishErase_ports i s).rest]; rfl
  · rw [finishErase_ext, if_pos rfl]; rfl
  · intro n j other old
    rw [map]; exact find_unbind old other.symm
  · intro n j b
    rw [map] at b
    obtain ⟨old, other⟩ := find_of_unbind rise b
    exact .inl ⟨old, other.symm⟩

theorem beginJob_station {i : Nat} {job : Job} {slot : Option Nat} {s : State} (h : StationLawBut none s)
    (target : job.target = some (i, slot)) (unbound : ∀ n ∈ slot, ∀ e ∈ find s.slotMap n, e = i) :
    StationLawBut none (beginJob i job s) := by
  have ext := beginJob_ext i job s
  refine h.congr (.of_eq rfl) (fun reset => ⟨reset, id⟩) (fun j => ?_) (fun j a _ => ?_) rfl ?_
  · rw [ext]; split_ifs with same
    · subst same; exact ⟨rfl, rfl⟩
    · exact ⟨rfl, rfl⟩
  · rw [ext]; split_ifs with same
    · subst same; exact a
    · exact a
  · intro g busy x at_
    have same : g.job = job := by cases busy; rfl
    rw [same, target] at at_
    cases at_
    exact unbound

theorem startUpLoad_station {s : State} (reset : s.boot = .reset) (rise : sorted s.extStore = true)
    (h : StationLawBut none s) (free : s.engine = none) : StationLawBut none (startUpLoad s) := by
  have empty : (startUpLoad s).paths = [] := by
    rw [← h.unstarted reset, startUpLoad, if_pos reset]; simp only []; split_ifs <;> rfl
  have idle : ∀ g ∈ (startUpLoad s).engine, g.job.target = none := by
    rw [startUpLoad, if_pos reset]
    simp only []
    split_ifs
    · exact fun g busy => by rw [show (_ : Option Engine) = s.engine from rfl, free] at busy; cases busy
    · exact fun g busy => by cases busy; rfl
  refine ⟨fun id p slot f => by (rw [empty] at f; cases f), fun e id path => ?_, fun _ => empty, fun slot e bound => ?_,
    fun g busy x target => by (rw [idle g busy] at target; cases target)⟩
  · rw [startUpLoad_record reset rise] at path; cases path
  · exact (startUpLoad_map reset rise slot e).1 bound

theorem ExtChange.stations {s t : State} (h : ExtChange s t) (law : StationLawBut none s) (admission : AdmissionLaw s)
    (rise : ExtsRise s) : StationLawBut none t := by
  obtain ⟨-, -, free, reserves⟩ := (admissionLaw_iff s).1 admission
  obtain ⟨-, store, map⟩ := rise
  have kept : ∀ f : Ext → Ext, ∀ u : State, u.paths = s.paths → u.boot = s.boot → u.slotMap = s.slotMap →
      TargetsUnbound u → (∀ i, u.ext i = f (s.ext i)) → (∀ e, (f e).path = e.path ∧ (f e).stored = e.stored
        ∧ (f e).isAdmitted = e.isAdmitted) → StationLawBut none u := fun f u paths boot map targets ext same =>
    law.congr (.of_eq paths) (fun reset => ⟨boot ▸ reset, fun e => by rw [paths, e]⟩)
      (fun i => by rw [ext]; exact ⟨(same _).1, (same _).2.1⟩) (fun i a _ => by rw [ext, (same _).2.2]; exact a) map targets
  cases h with
  | frame =>
    refine kept Ext.frame _ rfl rfl rfl ?_ (ext_mapAll rfl rfl) fun e => ?_
    · intro g busy
      obtain ⟨d, was, rfl⟩ := Option.map_eq_some_iff.1 busy
      exact law.targets d was
    · obtain ⟨-, -, stored, -, path⟩ := frame_same e
      exact ⟨path, stored, frame_isAdmitted e⟩
  | record i e step stays =>
    refine law.congr (.of_eq rfl) (fun reset => ⟨reset, id⟩) (fun j => ?_) (fun j a _ => ?_) rfl law.targets
    · rw [State.ext_setExt]; split_ifs with same
      · subst same; exact ⟨step.path, step.stored⟩
      · exact ⟨rfl, rfl⟩
    · rw [State.ext_setExt]; split_ifs with same
      · subst same; exact stays a
      · exact a
  | limits limit window lockout least =>
    refine kept (Ext.adjust limit) _ rfl rfl rfl law.targets (ext_mapAll rfl (vacant_adjust least)) fun e => ?_
    obtain ⟨standing, -, stored, -, path⟩ := adjust_same limit e
    exact ⟨path, stored, by unfold Ext.isAdmitted; rw [standing]⟩
  | begun i job slot loaded target free unbound => exact beginJob_station law target unbound
  | programmed i r g busy target =>
    have out := reserves g busy (i, some r.slot) target
    exact finishProgram_station law out.2.2 map (law.targets g busy (i, some r.slot) target r.slot rfl)
  | nextBegun i r g busy target j job slot next free unbound =>
    have out := reserves g busy (i, some r.slot) target
    exact beginJob_station
      (finishProgram_station law out.2.2 map (law.targets g busy (i, some r.slot) target r.slot rfl)) next unbound
  | erased i g busy target =>
    have out := reserves g busy (i, none) target
    exact finishErase_station law out.2.2 map
  | load reset => exact startUpLoad_station reset store law (free reset)
  | count =>
    unfold startCountDone
    split
    · exact { law with unstarted := fun reset => (by cases reset), targets := fun g busy => (by cases busy) }
    · exact law

/-! ## Every change (O14) -/

theorem PortsKept.station {s t : State} (h : PortsKept s t) {but : Option Nat} (law : StationLawBut but s) :
    StationLawBut but t := by
  rw [h.rest]; exact law.samePaths rfl rfl rfl rfl rfl

theorem Aside.station {s t : State} (h : Aside s t) (law : StationLawBut none s) : StationLawBut none t := by
  cases h with
  | ports h => exact h.station law
  | _ => exact law.samePaths rfl rfl rfl rfl rfl

/-- An extension that leaves ADMITTED keeps the law but on the path that is cleared for it. -/
theorem leave_station {s : State} {i : Nat} {e : Ext} (law : StationLawBut none s)
    (step : ExtStep s.failLimit (s.ext i) e) :
    StationLawBut (s.ext i).path (s.setExt i e) := by
  refine law.congr (.of_eq rfl) (fun reset => ⟨reset, id⟩) (fun j => ?_) (fun j a other => ?_) rfl law.targets
  · rw [State.ext_setExt]; split_ifs with same
    · subst same; exact ⟨step.path, step.stored⟩
    · exact ⟨rfl, rfl⟩
  · rw [State.ext_setExt]; split_ifs with same
    · subst same; exact absurd rfl other
    · exact a

theorem recontrol_station (f : Controller → Bool) (c : Controller) {s t : State} (law : StationLawBut none s)
    (same : t = { s with portA := t.portA, portB := t.portB, portM := t.portM }) :
    StationLawBut none (recontrol f c t) := by
  rw [same]
  exact law.same (recontrol_sameKinds _ _ rfl) (fun e => by simp [e, mapAll]) rfl rfl rfl rfl

theorem onPort_eq (l : Link) (f : Port → Port) (s : State) :
    s.onPort l f = { s with portA := (s.onPort l f).portA, portB := (s.onPort l f).portB, portM := (s.onPort l f).portM } := by
  cases l <;> rfl

theorem onPort_station (l : Link) (f : Port → Port) {s : State} (law : StationLawBut none s) :
    StationLawBut none (s.onPort l f) := by
  rw [onPort_eq]; exact law.samePaths rfl rfl rfl rfl rfl

theorem Change.stations {s t : State} (h : Change s t) (laws : Laws s) : StationLawBut none t := by
  have law := (stationLaw_iff s).1 laws.stations
  obtain ⟨exts, -⟩ := (canonical_iff s).1 laws.canonical
  have loaded : ∀ l, (s.port l).state = .up → s.boot ≠ .reset := fun l up reset => by
    rw [laws.start.1 l (mem_allLinks l) up] at reset; cases reset
  cases h with
  | aside h => exact h.station law
  | ext h => exact h.stations law laws.admission exts
  | linkUp l => exact onPort_station l _ law
  | linkDown l d => exact recontrol_station _ _ law (onPort_eq l _ s)
  | managerDown => exact onPort_station .m _ law
  | adopt k l => exact recontrol_station _ _ law rfl
  | clear id cause => exact clearPath_station id cause (law.weaken _)
  | close b cause => exact closeBridge_station b cause law
  | clearAll => exact clearTraffic_station law exts.1
  | leave u i e cause step _ _ events =>
    have told := events.station (leave_station law step)
    cases path : (s.ext i).path with
    | none => rwa [path] at told
    | some id => rw [path] at told; exact clearPath_station id cause told
  | openTie l id station e tie priv k t _ up range check free =>
    exact (openedTie_opened l k (takeTiming t) range check free).stations law laws.occupancy (loaded l up)
  | join b x id g e k t gain mode found range check free loaded =>
    exact (joinedLeg_opened k (takeTiming t) gain mode range check free).stations law laws.occupancy loaded
  | _ => exact law.samePaths rfl rfl rfl rfl rfl

theorem Change.laws {s t : State} (h : Change s t) (laws : Laws s) : Laws t where
  ports := h.portBounds laws.ports
  generators := h.generators laws.generators
  occupancy := h.occupancy laws.occupancy
  contexts := h.contexts laws.contexts
  bridges := h.bridgeLaw laws.bridges
  controllers := h.controllers laws.controllers
  admission := h.admission laws.admission
  stations := (stationLaw_iff t).2 (h.stations laws)
  start := h.startLaw laws.start
  canonical := h.canonical laws.canonical

theorem Reaches.laws {s t : State} (h : Reaches s t) (laws : Laws s) : Laws t :=
  h.keeps (P := Laws) (fun _ _ => Change.laws) laws

/-- A power-on reset leaves every law, but for the order of the store that it keeps. -/
theorem reset_laws {s : State} (store : sorted s.extStore = true) : Laws (powerOnReset s) where
  ports l _ := by cases l <;> simp [powerOnReset, State.port, State.reset, Port.reset]
  generators _ m := by cases m
  occupancy := by simp [OccupancyLaw, powerOnReset, State.reset]
  contexts := by simp [ContextLaw, powerOnReset, State.reset]
  bridges := by simp [BridgeLaw, powerOnReset, State.reset, State.legsInUse, sorted]
  controllers := by simp [ControllerLaw, powerOnReset, State.reset]
  admission := by simp [AdmissionLaw, powerOnReset, State.reset]
  stations := by
    refine ⟨?_, ?_, fun _ => rfl, ?_, ?_⟩ <;> simp [powerOnReset, State.reset, State.ext, Ext.vacant]
  start := reset_startLaw s
  canonical := reset_canonical store

/-- Settles O14: a clearing frees the extension with its path, an open takes an extension without one, and a store
operation is on an extension without one. -/
theorem stepKeepsStationLaw : Obligations.StepKeepsStationLaw := fun _ _ laws h =>
  (step_keeps (P := Laws) (fun _ laws => reset_laws laws.canonical.2.1) (fun _ _ => Change.laws) laws h).stations

/-- Settles O16: the reset state is a power-on reset of itself. -/
theorem resetHasTheLaws : Obligations.ResetHasTheLaws :=
  show Laws (powerOnReset State.reset) from reset_laws rfl

end Sys2Proof.Machine
end

