-- ==== Sys2Proof/Proofs/Replies.lean ====
section
/-! PROOF. The replies of the owners, and O4, O5 and O17: an owner refuses and changes nothing, or it answers or waits and
leaves every port's response; under the laws an open finds a path record, a CHALLENGE a seeded generator, an ANSWER a
secret. -/

namespace Sys2Proof.Machine

open Table (find put del mapAll sorted)

/-! ## Room for a path (R69) -/

/-- The tie slots in use. -/
def tieSlotsHeld (s : State) : Finset Nat := (Finset.range 256).filter fun n => find s.tieOcc n ≠ none

/-- The paths of all legs. -/
def legPaths (t : Table Bridge) : List Nat := t.flatMap fun e => e.2.legs.map Leg.path

theorem legPaths_length (t : Table Bridge) : (legPaths t).length = legsOf t := by
  simp [legPaths, legsOf, List.length_flatMap]

theorem mem_legPaths {t : Table Bridge} {b : Nat} {x : Bridge} (found : find t b = some x) {g : Leg} (m : g ∈ x.legs) :
    g.path ∈ legPaths t :=
  List.mem_flatMap.2 ⟨(b, x), Table.mem_of_find found, List.mem_map.2 ⟨g, m, rfl⟩⟩

/-- A path holds a tie slot or is a leg's. -/
theorem path_held {s : State} (occupancy : OccupancyLaw s) (bridges : BridgeLaw s) {id : Nat} {p : Path}
    (found : find s.paths id = some p) :
    id ∈ (tieSlotsHeld s).image (fun n => (find s.tieOcc n).getD 0) ∪ (legPaths s.bridges).toFinset := by
  rw [Finset.mem_union]
  have slot : ∀ n, p.kind.tieSlot = some n → id ∈ (tieSlotsHeld s).image fun n => (find s.tieOcc n).getD 0 := by
    intro n k
    have held := (occupancy.2.1 n id).2 ⟨p, found, k⟩
    refine Finset.mem_image.2 ⟨n, Finset.mem_filter.2 ⟨?_, by simp [held]⟩, by simp [held]⟩
    exact Finset.mem_range.2 (occupancy.2.2.2 n id held)
  cases k : p.kind with
  | tie station e n priv => exact .inl (slot n (by rw [k]; rfl))
  | bridgeTie n priv b => exact .inl (slot n (by rw [k]; rfl))
  | bridgeStation n e b =>
    obtain ⟨x, at_, g, m, rfl⟩ := bridges.2.2.2 id p b found (by rw [k]; rfl)
    exact .inr (List.mem_toFinset.2 (mem_legPaths at_ m))

theorem freePath_of_room {s : State} (occupancy : OccupancyLaw s) (bridges : BridgeLaw s)
    (room : (tieSlotsHeld s).card + legsOf s.bridges < 384) : ∃ id, s.freePath = some id := by
  refine Option.ne_none_iff_exists'.1 fun full => ?_
  have used := Table.lowestFree_eq_none.1 full
  have all : Finset.range 384 ⊆
      (tieSlotsHeld s).image (fun n => (find s.tieOcc n).getD 0) ∪ (legPaths s.bridges).toFinset := by
    intro id m
    obtain ⟨p, found⟩ := Option.ne_none_iff_exists'.1 (used id (Finset.mem_range.1 m))
    exact path_held occupancy bridges found
  have count := (Finset.card_le_card all).trans (Finset.card_union_le _ _)
  have slots := Finset.card_image_le (s := tieSlotsHeld s) (f := fun n => (find s.tieOcc n).getD 0)
  have legs := List.toFinset_card_le (legPaths s.bridges)
  rw [legPaths_length] at legs
  rw [Finset.card_range] at count
  omega

theorem freePath_of_tieFree {s : State} (laws : Laws s) {n : Nat} (range : n < 256) (free : find s.tieOcc n = none) :
    ∃ id, s.freePath = some id := by
  refine freePath_of_room laws.occupancy laws.bridges ?_
  have fewer : tieSlotsHeld s ⊆ (Finset.range 256).erase n := by
    intro k m
    obtain ⟨low, held⟩ := Finset.mem_filter.1 m
    exact Finset.mem_erase.2 ⟨fun e => held (e ▸ free), low⟩
  have card := Finset.card_le_card fewer
  rw [Finset.card_erase_of_mem (Finset.mem_range.2 range), Finset.card_range] at card
  have := ((bridgeLaw_iff s).1 laws.bridges).2.1
  omega

theorem freePath_of_legFree {s : State} (laws : Laws s) (room : s.legsInUse < 128) : ∃ id, s.freePath = some id := by
  refine freePath_of_room laws.occupancy laws.bridges ?_
  have card := Finset.card_le_card (Finset.filter_subset (fun n => find s.tieOcc n ≠ none) (Finset.range 256))
  rw [Finset.card_range] at card
  have : legsOf s.bridges < 128 := room
  show (Finset.filter _ _).card + _ < _
  omega

/-! ## Responses that stand -/

/-- No port's response and no command in progress changes. -/
def SameResponses (s t : State) : Prop :=
  ∀ k, (t.port k).response = (s.port k).response ∧ (t.port k).inProgress = (s.port k).inProgress

theorem SameResponses.refl (s : State) : SameResponses s s := fun _ => ⟨rfl, rfl⟩

theorem SameResponses.trans {s t u : State} (a : SameResponses s t) (b : SameResponses t u) : SameResponses s u :=
  fun k => ⟨(b k).1.trans (a k).1, (b k).2.trans (a k).2⟩

theorem SameResponses.of_ports {s t : State} (a : t.portA = s.portA) (b : t.portB = s.portB) (m : t.portM = s.portM) :
    SameResponses s t := fun k => by rw [State.port_congr a b m k]; exact ⟨rfl, rfl⟩

theorem onPort_responses {s : State} {l : Link} {f : Port → Port}
    (response : (f (s.port l)).response = (s.port l).response)
    (progress : (f (s.port l)).inProgress = (s.port l).inProgress) : SameResponses s (s.onPort l f) := fun k => by
  rw [State.port_onPort]
  split_ifs with e
  · rw [e]; exact ⟨response, progress⟩
  · exact ⟨rfl, rfl⟩

theorem queueEvent_responses (p : Port) (e : Event) :
    (p.queueEvent e).response = p.response ∧ (p.queueEvent e).inProgress = p.inProgress := by
  unfold Port.queueEvent
  split
  · split <;> exact ⟨rfl, rfl⟩
  · exact ⟨rfl, rfl⟩

theorem raiseOn_responses (k : EventKind) (ls : List Link) (s : State) : SameResponses s (raiseOn k ls s) := by
  induction ls generalizing s with
  | nil => exact .refl s
  | cons l ls ih =>
    exact (onPort_responses (queueEvent_responses _ _).1 (queueEvent_responses _ _).2).trans (ih _)

theorem raiseIf_responses (e : Option (EventKind × List Link)) (s : State) : SameResponses s (raiseIf e s) := by
  cases e with
  | none => exact .refl s
  | some x => exact raiseOn_responses x.1 x.2 s

theorem noteChange_responses (i : Nat) (s : State) : SameResponses s (noteChange i s) := fun k => by
  rw [noteChange_port]; exact ⟨rfl, rfl⟩

theorem setExt_responses (i : Nat) (e : Ext) (s : State) : SameResponses s (s.setExt i e) := .of_ports rfl rfl rfl

theorem clearPath_responses (id : Nat) (cause : ClearCause) (s : State) : SameResponses s (clearPath id cause s) := by
  cases f : find s.paths id with
  | none => rw [clearPath_of_none f]; exact .refl s
  | some p =>
    simp only [clearPath, f]
    have freed : SameResponses s (freePathRecord id p s) := by rw [freePathRecord_eq]; exact .of_ports rfl rfl rfl
    cases p.kind.bridge with
    | none => exact freed.trans ((raiseOn_responses _ _ _).trans (raiseIf_responses _ _))
    | some b =>
      have dropped : SameResponses (freePathRecord id p s) (dropLeg id b (freePathRecord id p s)).1 := by
        rw [dropLeg_eq]; exact .of_ports rfl rfl rfl
      exact (freed.trans dropped).trans ((raiseOn_responses _ _ _).trans (raiseIf_responses _ _))

theorem closeBridge_responses (b : Nat) (cause : ClearCause) (s : State) : SameResponses s (closeBridge b cause s) := by
  unfold closeBridge
  split
  · rename_i x _
    have cleared := forEach_keeps (P := SameResponses s) (fun p _ h => h.trans (clearPath_responses p cause _))
      (x.legs.map Leg.path) (.refl s)
    exact cleared.trans (.of_ports rfl rfl rfl)
  · exact .refl s

theorem cascade_responses (i : Nat) (cause : DeadmitCause) (links : List Link) (path : Option Nat) (s : State) :
    SameResponses s (cascade i cause links path s) := by
  cases path with
  | none => exact raiseOn_responses _ _ s
  | some id => exact (raiseOn_responses _ _ s).trans (clearPath_responses id _ _)

theorem SameResponses.maybe {s t u : State} (a : SameResponses s t) (b : SameResponses t u) (p : Prop) [Decidable p] :
    SameResponses s (if p then u else t) := by
  split
  · exact a.trans b
  · exact a

theorem failChallenge_responses (i : Nat) (ch : Challenge) (cause : FailCause) (s : State) :
    SameResponses s (failChallenge i ch cause s) := by
  have told : SameResponses s (failTold i ch cause s) := by
    unfold failTold
    simp only []
    exact .maybe (.maybe (.maybe (setExt_responses _ _ _) (noteChange_responses _ _) _) (raiseOn_responses _ _ _) _)
      (raiseOn_responses _ _ _) _
  rw [failChallenge_eq]
  exact .maybe told (cascade_responses _ _ _ _ _) _

theorem writePath_responses (id : Nat) (p : Path) (s : State) : SameResponses s (writePath id p s) := by
  rw [writePath_eq]; exact .of_ports rfl rfl rfl

theorem allocate_responses (priv : Bool) (id tie : Nat) (k : KeyBlock) (t : Timing) (s : State) :
    SameResponses s (allocate priv id tie k t s).1 := by
  rw [allocate_eq]; exact .of_ports rfl rfl rfl

theorem joinedLeg_responses (b : Nat) (x : Bridge) (id : Nat) (g : NewLeg) (e : Option Nat) (k : KeyBlock) (t : Timing)
    (gain : Nat) (mode : Mode) (s : State) : SameResponses s (joinedLeg b x id g e k t gain mode s) := fun j => by
  rw [joinedLeg_port]; exact ⟨rfl, rfl⟩

/-! ## What an owner's reply is -/

/-- The results that are no refusals: OK, PARTIAL, REPLACED and WRONG_ANSWER (R188). -/
def carriedOut : List Result := [.ok, .partial_, .replaced, .wrongAnswer]

/-- A reply carries a command out, with every response left as it is, or refuses it and changes nothing; `stop` says
whether it may stop. -/
def Reply.Proper (stop : Prop) (s : State) : Reply → Prop
  | .done r body t => r ∈ carriedOut ∧ SameResponses s t ∨ body = [] ∧ t = s
  | .waits t => SameResponses s t
  | .stops _ => stop

section
variable {stop : Prop} {s t : State}

theorem refuse_proper (why : Result) : (refuse why s).Proper stop s := .inr ⟨rfl, rfl⟩

theorem ok_proper {body : List Byte} (h : SameResponses s t) : (Reply.done .ok body t).Proper stop s :=
  .inl ⟨List.mem_cons_self, h⟩

theorem replaced_proper {body : List Byte} (p : Prop) [Decidable p] (h : SameResponses s t) :
    (Reply.done (if p then .replaced else .ok) body t).Proper stop s :=
  .inl ⟨by split <;> decide, h⟩

theorem Reply.Proper.mono {r : Reply} (h : r.Proper stop s) {also : Prop} (w : stop → also) : r.Proper also s := by
  cases r with
  | done => exact h
  | waits => exact h
  | stops => exact w h

end

theorem ownOpenTie_proper (l : Link) (o : OpenTieOps) (u : State) : (ownOpenTie l o u).Proper True u := by
  unfold ownOpenTie
  split
  · exact refuse_proper _
  · split
    · exact refuse_proper _
    · split
      · trivial
      · exact ok_proper ((allocate_responses _ _ _ _ _ _).trans (writePath_responses _ _ _))

theorem ownAddLeg_proper (l : Link) (o : AddLegOps) (u : State) : (ownAddLeg l o u).Proper True u := by
  unfold ownAddLeg
  split
  · split
    · exact refuse_proper _
    · split
      · exact refuse_proper _
      · split
        · trivial
        · exact ok_proper (joinedLeg_responses _ _ _ _ _ _ _ _ _ u)
  · exact refuse_proper _

theorem ownChallenge_proper (l : Link) (x : Word16) (u : State) : (ownChallenge l x u).Proper True u := by
  unfold ownChallenge
  split
  · exact refuse_proper _
  · split
    · exact refuse_proper _
    · split
      · trivial
      · exact ok_proper (.of_ports rfl rfl rfl)

theorem ownAnswer_proper (l : Link) (o : AnswerOps) (u : State) : (ownAnswer l o u).Proper True u := by
  unfold ownAnswer
  split
  · exact refuse_proper _
  · split
    · exact refuse_proper _
    · split
      · trivial
      · split
        · unfold answerMatch
          simp only []
          split
          · exact ok_proper (.of_ports rfl rfl rfl)
          · refine ok_proper (((setExt_responses _ _ _).trans (noteChange_responses _ _)).trans
              (raiseOn_responses _ _ _))
        · exact .inl ⟨by decide, failChallenge_responses _ _ _ _⟩

theorem ownStageKey_proper (l : Link) (o : StageKeyOps) (u : State) : (ownStageKey l o u).Proper False u := by
  unfold ownStageKey
  split
  · split
    · exact refuse_proper _
    · exact replaced_proper _ (.of_ports rfl rfl rfl)
  · exact refuse_proper _

theorem loadTurn_ports {entries : List StoredOps} {k : Nat} {s t : State} (h : loadTurn entries k s = .begun t) :
    SameResponses s t := by
  unfold loadTurn at h
  split at h
  · cases h
  · split at h
    · cases h
    · split at h
      · cases h
      · cases h; exact .of_ports rfl rfl rfl

theorem ownLoadExtensions_proper (o : LoadOps) (u : State) : (ownLoadExtensions o u).Proper False u := by
  unfold ownLoadExtensions
  split
  · exact refuse_proper _
  · split
    · exact ok_proper (.refl u)
    · exact .inl ⟨by decide, .refl u⟩
    · rename_i begun
      exact loadTurn_ports begun

theorem setOwnHold_responses (p : Port) (hold : Bool) :
    (p.setOwnHold hold).response = p.response ∧ (p.setOwnHold hold).inProgress = p.inProgress := by
  unfold Port.setOwnHold
  split <;> exact ⟨rfl, rfl⟩

/-- The owners of commands that never stop. -/
def neverStops : Instr → Prop
  | .openTie .. | .addLeg .. | .challenge .. | .answer .. => False
  | _ => True

/-- Every owner's reply is a proper one, and four alone may stop. -/
theorem ownerOf_proper (i : Instr) (u : State) : (ownerOf i u).Proper (¬neverStops i) u := by
  have unstopped : ∀ {r : Reply}, r.Proper False u → r.Proper (¬neverStops i) u := fun h => h.mono False.elim
  cases i with
  | openTie l _ o => exact (ownOpenTie_proper l o u).mono fun _ => id
  | addLeg l _ o => exact (ownAddLeg_proper l o u).mono fun _ => id
  | challenge l _ x => exact (ownChallenge_proper l x u).mono fun _ => id
  | answer l _ o => exact (ownAnswer_proper l o u).mono fun _ => id
  | stageKey l _ o => exact unstopped (ownStageKey_proper l o u)
  | loadExtensions _ _ o => exact unstopped (ownLoadExtensions_proper o u)
  | setLink l _ x => exact ok_proper (onPort_responses (setOwnHold_responses _ _).1 (setOwnHold_responses _ _).2)
  | setEvents l _ o =>
    show (ownSetEvents l o u).Proper _ u
    unfold ownSetEvents
    split
    · exact ok_proper (onPort_responses rfl rfl)
    · exact refuse_proper _
  | setExtension _ _ o =>
    show (ownSetExtension o u).Proper _ u
    unfold ownSetExtension
    split
    · exact refuse_proper _
    · exact SameResponses.of_ports rfl rfl rfl
  | eraseExtension _ _ x =>
    show (ownEraseExtension x u).Proper _ u
    unfold ownEraseExtension
    split
    · exact refuse_proper _
    · split
      · exact refuse_proper _
      · exact SameResponses.of_ports rfl rfl rfl
  | readExtension _ _ x =>
    show (ownReadExtension x u).Proper _ u
    unfold ownReadExtension
    split
    · exact refuse_proper _
    · exact ok_proper (.refl u)
  | collectChanges l _ => exact ok_proper (onPort_responses rfl rfl)
  | release _ _ x =>
    show (ownRelease x u).Proper _ u
    unfold ownRelease
    split
    · exact refuse_proper _
    · simp only []
      split
      · exact ok_proper (((setExt_responses _ _ _).trans (noteChange_responses _ _)).trans
          (cascade_responses _ _ _ _ _))
      · exact refuse_proper _
  | unlock _ _ x =>
    show (ownUnlock x u).Proper _ u
    unfold ownUnlock
    split
    · exact refuse_proper _
    · split
      · exact ok_proper (((setExt_responses _ _ _).trans (noteChange_responses _ _)).trans (raiseOn_responses _ _ _))
      all_goals exact ok_proper (.refl u)
  | clearPath l _ o =>
    show (ownClearPath l o u).Proper _ u
    unfold ownClearPath
    split
    · exact refuse_proper _
    · split
      · exact ok_proper (clearPath_responses _ _ _)
      · exact refuse_proper _
  | readPath _ _ o =>
    show (ownReadPath o u).Proper _ u
    unfold ownReadPath
    split
    · exact refuse_proper _
    · split
      · exact ok_proper (.refl u)
      · exact refuse_proper _
  | readContext _ _ x =>
    show (ownReadContext x u).Proper _ u
    unfold ownReadContext
    split
    · exact refuse_proper _
    · split
      · exact refuse_proper _
      · exact ok_proper (.of_ports rfl rfl rfl)
  | resyncTx l _ o =>
    show (ownResyncTx l o u).Proper _ u
    unfold ownResyncTx
    split
    · exact refuse_proper _
    · exact ok_proper (.of_ports rfl rfl rfl)
  | setGuard l _ o =>
    show (ownSetGuard l o u).Proper _ u
    unfold ownSetGuard
    split
    · exact refuse_proper _
    · split
      · exact refuse_proper _
      · exact ok_proper (.of_ports rfl rfl rfl)
  | openBridge l _ o =>
    show (ownOpenBridge l o u).Proper _ u
    unfold ownOpenBridge
    split
    · exact refuse_proper _
    · simp only []
      split
      · exact refuse_proper _
      · exact ok_proper (.of_ports rfl rfl rfl)
  | removeLeg l _ o =>
    show (ownRemoveLeg l o u).Proper _ u
    unfold ownRemoveLeg
    split
    · exact refuse_proper _
    · exact ok_proper (clearPath_responses _ _ _)
  | setLeg l _ o =>
    show (ownSetLeg l o u).Proper _ u
    unfold ownSetLeg
    split
    · exact refuse_proper _
    · split
      · exact refuse_proper _
      · exact replaced_proper _ (.of_ports rfl rfl rfl)
  | setTalker l _ o =>
    show (ownSetTalker l o u).Proper _ u
    unfold ownSetTalker
    split
    · exact refuse_proper _
    · exact replaced_proper _ (.of_ports rfl rfl rfl)
  | closeBridge l _ o =>
    show (ownCloseBridge l o u).Proper _ u
    unfold ownCloseBridge
    split
    · exact refuse_proper _
    · split
      · exact ok_proper (closeBridge_responses _ _ _)
      · exact refuse_proper _
  | readBridge _ _ x =>
    show (ownReadBridge x u).Proper _ u
    unfold ownReadBridge
    split
    · exact refuse_proper _
    · split
      · exact refuse_proper _
      · exact ok_proper (.refl u)
  | setSurvey _ _ o =>
    show (ownSetSurvey o u).Proper _ u
    unfold ownSetSurvey
    split
    · exact refuse_proper _
    · exact ok_proper (.of_ports rfl rfl rfl)
  | startSurvey =>
    show (ownStartSurvey u).Proper _ u
    unfold ownStartSurvey
    split
    · exact refuse_proper _
    · exact ok_proper (.of_ports rfl rfl rfl)
  | adopt l _ x =>
    show (ownAdopt l x u).Proper _ u
    unfold ownAdopt
    split
    · exact refuse_proper _
    · exact ok_proper (SameResponses.trans (.of_ports rfl rfl rfl) (raiseOn_responses _ _ _))
  | readPart | readSurvey => exact ok_proper (.refl u)
  | setAdmission | resetTraffic | setPrivacyDefaults | stopSurvey | setOrphanHold =>
    exact ok_proper (.of_ports rfl rfl rfl)
  | _ => exact refuse_proper _

/-! ## Taken and answered (O4, O5) -/

/-- A taken command is answered with a refusal and changes nothing, or its owner's reply is answered. -/
theorem command_answered {i : Instr} {s t : State} {l : Link} {p : Port} {kind tag : Byte} {ops : List Byte}
    (e : encodeOperands i = some (l, kind, tag, ops)) (taken : TakenBy i s l p) (h : exec i s = .next t) :
    (∃ why, t = (s.taking l p).answer l kind tag why []) ∨
      (∃ r body u, t = u.answer l kind tag r body ∧ r ∈ carriedOut ∧ SameResponses (s.taking l p) u) ∨
      ∃ u, t = u.await l kind tag ∧ SameResponses (s.taking l p) u := by
  have frame : ((settle s).port l).take (commandFrame kind tag ops) = some p := by
    simp only [TakenBy, encodeCommand, e] at taken; exact taken.2
  rw [exec_eq_command e, command] at h
  simp only [e, takeCommand, frame] at h
  have refused : ∀ why, (answerCommand l kind tag (refuse why (s.taking l p))) = .next t →
      ∃ why, t = (s.taking l p).answer l kind tag why [] := fun why a => ⟨why, by injection a with a; exact a.symm⟩
  split_ifs at h
  · exact .inl (refused _ h)
  · have proper := ownerOf_proper i (s.taking l p)
    replace h : answerCommand l kind tag (ownerOf i (s.taking l p)) = .next t := h
    cases reply : ownerOf i (s.taking l p) with
    | done r body u =>
      rw [reply] at h proper
      have answered : t = u.answer l kind tag r body := by injection h with h; exact h.symm
      obtain ⟨done, same⟩ | ⟨rfl, rfl⟩ := proper
      · exact .inr (.inl ⟨r, body, u, answered, done, same⟩)
      · exact .inl ⟨r, answered⟩
    | waits u =>
      rw [reply] at h proper
      exact .inr (.inr ⟨u, by injection h with h; exact h.symm, proper⟩)
    | stops f => rw [reply] at h; cases h
  · exact .inl (refused _ h)

/-- The port that takes a command has no response and nothing in progress. -/
theorem takenBy_idle {i : Instr} {s : State} {l : Link} {p : Port} (h : TakenBy i s l p) :
    p.response = none ∧ p.inProgress = none ∧ p.state = .up := by
  unfold TakenBy at h
  split at h
  · obtain ⟨-, taken⟩ := h
    obtain ⟨-, -, -, up, progress, response, -⟩ := take_eq_some taken
    exact ⟨response, progress, up⟩
  · exact h.elim

theorem answer_port_other (s : State) {l k : Link} (other : k ≠ l) (kind tag : Byte) (r : Result) (body : List Byte) :
    (s.answer l kind tag r body).port k = s.port k := by
  rw [State.answer, State.port_onPort, if_neg other]

theorem await_port_other (s : State) {l k : Link} (other : k ≠ l) (kind tag : Byte) :
    (s.await l kind tag).port k = s.port k := by
  rw [State.await, State.port_onPort, if_neg other]

theorem answer_port (s : State) (l : Link) (kind tag : Byte) (r : Result) (body : List Byte) :
    (s.answer l kind tag r body).port l =
      { s.port l with response := some { kind := kind, tag := tag, result := r, body := body } } := by
  rw [State.answer, State.port_onPort, if_pos rfl]

theorem await_port (s : State) (l : Link) (kind tag : Byte) :
    (s.await l kind tag).port l = { s.port l with inProgress := some { kind := kind, tag := tag, earlier := false } } := by
  rw [State.await, State.port_onPort, if_pos rfl]

/-- Settles O4: an answer or a mark in progress, on the command's own link; no owner touches a response. -/
theorem everyTakenCommandIsAnsweredOnce : Obligations.EveryTakenCommandIsAnsweredOnce := by
  intro i s t l p kind tag ops e taken h
  obtain ⟨response, progress, -⟩ := takenBy_idle taken
  have others : ∀ u : State, SameResponses (s.taking l p) u → ∀ k, k ≠ l →
    (u.port k).response = ((settle s).port k).response
      ∧ (u.port k).inProgress = ((settle s).port k).inProgress := fun u same k other => by
    rw [← State.taking_port_other s p other]; exact same k
  have own : ∀ u : State, SameResponses (s.taking l p) u → (u.port l).response = none ∧ (u.port l).inProgress = none :=
    fun u same => by
      have := same l
      rw [State.taking_port] at this
      exact ⟨this.1.trans response, this.2.trans progress⟩
  have answered : ∀ (u : State) r body, SameResponses (s.taking l p) u → t = u.answer l kind tag r body →
      (∃ r body, (t.port l).response = some { kind := kind, tag := tag, result := r, body := body }
          ∧ (t.port l).inProgress = none)
        ∧ ∀ k, k ≠ l → (t.port k).response = ((settle s).port k).response
          ∧ (t.port k).inProgress = ((settle s).port k).inProgress := by
    rintro u r body same rfl
    refine ⟨⟨r, body, by rw [answer_port], by rw [answer_port]; exact (own u same).2⟩, fun k other => ?_⟩
    rw [answer_port_other _ other]; exact others u same k other
  obtain ⟨why, refused⟩ | ⟨r, body, u, done, -, same⟩ | ⟨u, rfl, same⟩ := command_answered e taken h
  · exact (answered _ _ _ (.refl _) refused).imp_left .inl
  · exact (answered u r body same done).imp_left .inl
  · refine ⟨.inr ⟨by rw [await_port]; exact (own u same).1, by rw [await_port]⟩, fun k other => ?_⟩
    rw [await_port_other _ other]; exact others u same k other

/-- Settles O5: what is answered with a refusal is the state as it was taken. -/
theorem refusedCommandChangesNothing : Obligations.RefusedCommandChangesNothing := by
  refine ⟨fun i s t l p kind tag ops r e taken h placed refusal => ?_, fun i s l p kind tag ops w e taken out => ?_⟩
  · obtain ⟨why, rfl⟩ | ⟨result, body, u, rfl, done, -⟩ | ⟨u, rfl, same⟩ := command_answered e taken h
    · rw [answer_port] at placed; cases placed; rfl
    · rw [answer_port] at placed; cases placed
      exact absurd done refusal
    · rw [await_port] at placed
      have idle := (same l).1
      rw [State.taking_port, (takenBy_idle taken).1] at idle
      rw [idle] at placed; cases placed
  · rw [exec_eq_command e, command_taken (ownerOf i) w e taken, if_neg (by simp [out])]

/-! ## No step stops (O17) -/

/-- A reply that answers or waits. -/
def Reply.Goes : Reply → Prop
  | .done .. => True
  | .waits _ => True
  | .stops _ => False

theorem Reply.Proper.goes {s : State} {r : Reply} (h : r.Proper False s) : r.Goes := by
  cases r with
  | done => trivial
  | waits => trivial
  | stops => exact h

theorem readOpenTieOps_range {o : OpenTieOps} {station tie : Nat} {priv : Bool}
    (h : readOpenTieOps o = some (station, tie, priv)) : station < 512 ∧ tie < 256 := by
  simp only [readOpenTieOps, Option.bind_eq_bind, Option.pure_def, Option.bind_eq_some_iff, below_eq_some,
    Config.stationSlots, Option.some.injEq, Prod.mk.injEq] at h
  obtain ⟨n, ⟨low, rfl⟩, -, -, rfl, rfl, -⟩ := h
  exact ⟨low, o.tie.isLt⟩

theorem ownOpenTie_goes (l : Link) (o : OpenTieOps) {u : State} (laws : Laws u) : (ownOpenTie l o u).Goes := by
  unfold ownOpenTie
  split
  · trivial
  · rename_i station tie priv read
    split
    · trivial
    · rename_i check
      obtain ⟨id, free⟩ := freePath_of_tieFree laws (readOpenTieOps_range read).2 (checkOpenTie_ok check).2.1
      rw [free]; trivial

theorem ownAddLeg_goes (l : Link) (o : AddLegOps) {u : State} (laws : Laws u) : (ownAddLeg l o u).Goes := by
  unfold ownAddLeg
  split
  · split
    · trivial
    · split
      · trivial
      · rename_i check
        obtain ⟨id, free⟩ := freePath_of_legFree laws (checkNewLeg_ok check).2.1
        rw [free]; trivial
  · trivial

theorem ownChallenge_goes (l : Link) (x : Word16) {u : State} (laws : Laws u) (w : Working l u) :
    (ownChallenge l x u).Goes := by
  unfold ownChallenge
  split
  · trivial
  · split
    · trivial
    · obtain ⟨n, seeded⟩ := Option.ne_none_iff_exists'.1 (laws.start.2 (laws.start.1 l (mem_allLinks l) w.up))
      rw [seeded]; trivial

theorem ownAnswer_goes (l : Link) (o : AnswerOps) {u : State} (laws : Laws u) : (ownAnswer l o u).Goes := by
  unfold ownAnswer
  split
  · trivial
  · rename_i i _
    split
    · trivial
    · rename_i c pending
      have law := lawful_ext laws.admission.1 laws.admission.2.1 i
      obtain ⟨r, secret⟩ := Option.ne_none_iff_exists'.1 (law.challenged pending).2
      rw [secret]
      simp only []
      split
      · unfold answerMatch; simp only []; split <;> trivial
      · trivial

/-- Under the laws no owner stops. -/
theorem ownerOf_goes (i : Instr) {l : Link} {kind tag : Byte} {ops : List Byte}
    (e : encodeOperands i = some (l, kind, tag, ops)) {u : State} (laws : Laws u) (w : Working l u) :
    (ownerOf i u).Goes := by
  cases i with
  | openTie k t o => exact ownOpenTie_goes k o laws
  | addLeg k t o => exact ownAddLeg_goes k o laws
  | challenge k t x => cases e; exact ownChallenge_goes _ x laws w
  | answer k t o => exact ownAnswer_goes k o laws
  | _ =>
    refine Reply.Proper.goes ((ownerOf_proper _ u).mono ?_)
    exact fun h => h trivial

theorem answerCommand_goes (l : Link) (kind tag : Byte) {r : Reply} (h : r.Goes) :
    ∃ t, answerCommand l kind tag r = .next t := by
  cases r with
  | done => exact ⟨_, rfl⟩
  | waits => exact ⟨_, rfl⟩
  | stops => exact h.elim

theorem command_goes {i : Instr} {l : Link} {kind tag : Byte} {ops : List Byte}
    (e : encodeOperands i = some (l, kind, tag, ops)) {s : State} (laws : Laws s) :
    ∃ t, command i s (ownerOf i) = .next t := by
  simp only [command, e, takeCommand]
  cases taken : ((settle s).port l).take (commandFrame kind tag ops) with
  | none => exact ⟨_, rfl⟩
  | some p =>
    simp only []
    have ready : Laws ((settle s).setPort l p) :=
      Reaches.laws ((settle_reaches s).trans (PortsKept.setPort (take_kept taken)).reaches) laws
    split_ifs
    · exact ⟨_, rfl⟩
    · refine answerCommand_goes l kind tag (ownerOf_goes i e ready ⟨?_, ?_⟩)
      · rw [State.port_setPort_same]; exact (take_eq_some taken).2.2.2.1
      · rw [State.setPort_boot]; exact settle_boot s
    · exact ⟨_, rfl⟩

theorem exec_goes (i : Instr) {s : State} (laws : Laws s) : ∃ t, exec i s = .next t := by
  cases e : encodeOperands i with
  | some x =>
    obtain ⟨l, kind, tag, ops⟩ := x
    rw [exec_eq_command e]
    exact command_goes e laws
  | none =>
    cases i with
    | badFrameCommand l f =>
      show ∃ t, execBadFrameCommand l f s = .next t
      unfold execBadFrameCommand
      simp only []
      split
      · split <;> exact ⟨_, rfl⟩
      · exact ⟨_, rfl⟩
    | powerOnReset | startUpLoad | startCountProgramDone | frameStart | preambleEnd | keyDueWarning | rollover
    | huntReport | guardWindowEnd | bridgeWindowBoundary | surveyEntryComplete | challengeExpiry | lockoutExpiry
    | orphanDeadline | programComplete | eraseComplete | loadEntryComplete | tieFrameArrival | highwayLostSilent
    | highwayRestore | alignReceived | linkAligning | startReceived | otherSymbolReceived | linkDown | holdOnReceived
    | holdOffReceived | commandFrameReceived | outboundFrameStart => exact ⟨_, rfl⟩
    | _ => cases e

/-- Settles O17: an open finds a record by count, and the other two stops are ruled out by a law each. -/
theorem noStepStopsUnderTheLaws : Obligations.NoStepStopsUnderTheLaws := by
  intro s laws
  unfold step
  split
  · exact ⟨s, rfl⟩
  · rename_i c rest _
    exact exec_goes c (Change.laws (.aside (.queue s rest)) laws)

end Sys2Proof.Machine
end

