-- ==== Sys2Proof/Proofs/Frames.lean ====
section
/-! PROOF. Frames and commands, and O2: a well-formed command's operands are read back member by member; and every member
that a length leaves room for is one that is written, so a frame that passes the frame check is a command's. -/

namespace Sys2Proof

open Sys2Proof.Machine

/-! ## The last member of a frame -/

@[simp] theorem readOpt16_write_end (o : Opt 16) : readOpt16 (writeOpt16 o) = (o, []) := by
  simpa using readOpt16_write o []
@[simp] theorem readStored_write_end (o : StoredOps) : readStored (writeStored o) = (o, []) := by
  simpa using readStored_write o []
@[simp] theorem readTiming_write_end (o : TimingOps) : readTiming (writeTiming o) = (o, []) := by
  simpa using readTiming_write o []
@[simp] theorem readPathRef_write_end (o : PathRefOps) : readPathRef (writePathRef o) = (o, []) := by
  simpa using readPathRef_write o []
@[simp] theorem readBridgeRef_write_end (o : BridgeRefOps) : readBridgeRef (writeBridgeRef o) = (o, []) := by
  simpa using readBridgeRef_write o []
@[simp] theorem readHalf_write_end (o : HalfOps) : readHalf (writeHalf o) = (o, []) := by
  simpa using readHalf_write o []
@[simp] theorem readThree_write_end (o : ThreeOps) : readThree (writeThree o) = (o, []) := by
  simpa using readThree_write o []

/-! ## Operands read back -/

theorem readOpenTie_write (o : OpenTieOps) : readOpenTie (writeOpenTie o) = o := by simp [readOpenTie, writeOpenTie]
theorem readAddLeg_write (o : AddLegOps) : readAddLeg (writeAddLeg o) = o := by simp [readAddLeg, writeAddLeg]
theorem readStageKey_write (o : StageKeyOps) : readStageKey (writeStageKey o) = o := by
  simp [readStageKey, writeStageKey]
theorem readSetGuard_write (o : SetGuardOps) : readSetGuard (writeSetGuard o) = o := by
  simp [readSetGuard, writeSetGuard]
theorem readSetLeg_write (o : SetLegOps) : readSetLeg (writeSetLeg o) = o := by simp [readSetLeg, writeSetLeg]
theorem readEnables_write (o : EnableOps) : readEnables (writeEnables o) = o := by simp [readEnables, writeEnables]

theorem readLoad_write {o : LoadOps} (count : o.entries.length = o.count.toNat) : readLoad (writeLoad o) = o := by
  have many := readMany_writeMany readStored writeStored readStored_write o.entries []
  rw [List.append_nil, count] at many
  simp [readLoad, writeLoad, many]

theorem readSetSurvey_write {o : SetSurveyOps} (count : o.entries.length = o.count.toNat) :
    readSetSurvey (writeSetSurvey o) = o := by
  have many := readMany_writeMany readSurveyEntry writeSurveyEntry readSurveyEntry_write o.entries
  simp only [count] at many
  simp [readSetSurvey, writeSetSurvey, many]

/-- A well-formed command is read back from its frame. -/
theorem decodeCommand_commandFrame {i : Instr} {l : Link} {kind tag : Byte} {ops : List Byte} (w : i.wellFormed = true)
    (e : encodeOperands i = some (l, kind, tag, ops)) : decodeCommand l (commandFrame kind tag ops) = some i := by
  have good := badFrame_commandFrame w e
  unfold decodeCommand
  rw [good]
  cases i with
  | loadExtensions k t o =>
    simp only [Instr.wellFormed, Bool.and_eq_true, decide_eq_true_eq] at w
    cases e
    simp [frameKind, frameTag, commandFrame, readLoad_write w.1]
  | setSurvey k t o =>
    simp only [Instr.wellFormed, Bool.and_eq_true, decide_eq_true_eq] at w
    cases e
    simp [frameKind, frameTag, commandFrame, readSetSurvey_write w.1]
  | _ =>
    cases e <;>
    simp [frameKind, frameTag, commandFrame, readEnables_write, readOpenTie_write, readAddLeg_write, readStageKey_write,
      readSetGuard_write, readSetLeg_write]

/-! ## Every member is written -/

/-- Any `n` bytes at the head of a list are a member written. -/
def Fills {α : Type} (n : Nat) (write : α → List Byte) : Prop :=
  ∀ b : List Byte, n ≤ b.length → ∃ x r, b = write x ++ r ∧ b.length = n + r.length

theorem fills8 : Fills 1 fun x : Byte => [x] := by
  rintro (_ | ⟨x, r⟩) h
  · cases h
  · exact ⟨x, r, rfl, by simp [Nat.add_comm]⟩

theorem extract_low {m n : Nat} (x : BitVec m) (y : BitVec n) : (x ++ y).extractLsb' 0 n = y := by
  ext i h
  simp [BitVec.getLsbD_append, h]

theorem extract_high {m n : Nat} (x : BitVec m) (y : BitVec n) : (x ++ y).extractLsb' n m = x := by
  ext i h
  simp [BitVec.getLsbD_append, h]

theorem extract_upper {m n : Nat} (x : BitVec m) (y : BitVec n) (k w : Nat) :
    (x ++ y).extractLsb' (n + k) w = x.extractLsb' k w := by
  ext i h
  simp [BitVec.getLsbD_append, Nat.add_assoc]

theorem extract_lower {m n : Nat} (x : BitVec m) (y : BitVec n) {k w : Nat} (h : k + w ≤ n) :
    (x ++ y).extractLsb' k w = y.extractLsb' k w := by
  ext i hi
  simp [BitVec.getLsbD_append, show k + i < n by omega]

theorem fills16 : Fills 2 bytes16 := by
  rintro (_ | ⟨x, _ | ⟨y, r⟩⟩) h
  · cases h
  · simp at h
  · refine ⟨x ++ y, r, ?_, by simp; omega⟩
    have high := extract_high x y
    have low := extract_low x y
    simp only [bytes16, high, low, List.cons_append, List.nil_append]

theorem fills32 : Fills 4 bytes32 := by
  rintro (_ | ⟨x, _ | ⟨y, _ | ⟨z, _ | ⟨w, r⟩⟩⟩⟩) h
  · cases h
  · simp at h
  · simp at h
  · simp at h
  · refine ⟨(x ++ y) ++ (z ++ w), r, ?_, by simp; omega⟩
    have parts : ∀ v : Word32, v = (x ++ y) ++ (z ++ w) → bytes32 v = [x, y, z, w] := by
      rintro v rfl
      have high := extract_high x y
      have low := extract_low x y
      have high' := extract_high z w
      have low' := extract_low z w
      simp only [bytes32, extract_upper (x ++ y) (z ++ w) 8 8, extract_upper (x ++ y) (z ++ w) 0 8,
        extract_lower (x ++ y) (z ++ w) (show 8 + 8 ≤ 16 by omega),
        extract_lower (x ++ y) (z ++ w) (show 0 + 8 ≤ 16 by omega), high, low, high', low']
    rw [parts _ rfl]; rfl

/-! ## Members of members -/

section
variable {α β : Type} {m n : Nat} {f : α → List Byte} {g : β → List Byte}

theorem Fills.pair (a : Fills m f) (b : Fills n g) : Fills (m + n) fun x : α × β => f x.1 ++ g x.2 := by
  intro l h
  obtain ⟨x, r, rfl, lx⟩ := a l (by omega)
  obtain ⟨y, r', rfl, ly⟩ := b r (by omega)
  exact ⟨(x, y), r', by simp, by omega⟩

/-- What a product of members fills, a record of them fills. -/
theorem Fills.of (a : Fills m f) (h : α → β) (e : ∀ x, g (h x) = f x) : Fills m g := by
  intro l len
  obtain ⟨x, r, rfl, lx⟩ := a l len
  exact ⟨h x, r, by rw [e], lx⟩

theorem Fills.exact (a : Fills m f) {b : List Byte} (len : b.length = m) : ∃ x, b = f x := by
  obtain ⟨x, r, rfl, lx⟩ := a b (by omega)
  have : r = [] := List.length_eq_zero_iff.1 (by omega)
  exact ⟨x, by simp [this]⟩

theorem Fills.many (a : Fills m f) (k : Nat) : ∀ b : List Byte, m * k ≤ b.length →
    ∃ xs r, xs.length = k ∧ b = writeMany f xs ++ r ∧ b.length = m * k + r.length := by
  induction k with
  | zero => exact fun b _ => ⟨[], b, rfl, rfl, by simp⟩
  | succ k ih =>
    intro b h
    rw [Nat.mul_succ] at h ⊢
    obtain ⟨x, r, rfl, lx⟩ := a b (by omega)
    obtain ⟨xs, r', count, rfl, lxs⟩ := ih r (by omega)
    exact ⟨x :: xs, r', by simp [count], by simp [writeMany], by omega⟩

end

theorem fillsOpt16 : Fills 3 writeOpt16 := (fills8.pair fills16).of (fun x => ⟨x.1, x.2⟩) fun _ => rfl
theorem fillsOpt32 : Fills 5 writeOpt32 := (fills8.pair fills32).of (fun x => ⟨x.1, x.2⟩) fun _ => rfl
theorem fillsStored : Fills 12 writeStored :=
  (fills16.pair (fills32.pair (fills16.pair (fills8.pair (fills8.pair fills16))))).of
    (fun ⟨a, b, c, d, e, f⟩ => ⟨a, b, c, d, e, f⟩) fun _ => rfl
theorem fillsKeys : Fills 12 writeKeys :=
  (fills32.pair (fills16.pair (fills32.pair fills16))).of (fun ⟨a, b, c, d⟩ => ⟨a, b, c, d⟩) fun _ => rfl
theorem fillsTiming : Fills 8 writeTiming :=
  (fills16.pair (fills16.pair (fills16.pair fills16))).of (fun ⟨a, b, c, d⟩ => ⟨a, b, c, d⟩) fun _ => rfl
theorem fillsPathRef : Fills 7 writePathRef := (fills16.pair fillsOpt32).of (fun ⟨a, b⟩ => ⟨a, b⟩) fun _ => rfl
theorem fillsBridgeRef : Fills 6 writeBridgeRef := (fills8.pair fillsOpt32).of (fun ⟨a, b⟩ => ⟨a, b⟩) fun _ => rfl
theorem fillsHalf : Fills 13 writeHalf :=
  (fills8.pair (fills32.pair (fills16.pair (fillsOpt16.pair fillsOpt16)))).of
    (fun ⟨a, b, c, d, e⟩ => ⟨a, b, c, d, e⟩) fun _ => rfl
theorem fillsThree : Fills 6 writeThree :=
  (fills16.pair (fills16.pair fills16)).of (fun ⟨a, b, c⟩ => ⟨a, b, c⟩) fun _ => rfl
theorem fillsSurveyEntry : Fills 4 writeSurveyEntry :=
  (fills8.pair (fills16.pair fills8)).of (fun ⟨a, b, c⟩ => ⟨a, b, c⟩) fun _ => rfl
theorem fillsOpenTie : Fills 24 writeOpenTie :=
  (fills16.pair (fills8.pair (fills8.pair (fillsKeys.pair fillsTiming)))).of
    (fun ⟨a, b, c, d, e⟩ => ⟨a, b, c, d, e⟩) fun _ => rfl
theorem fillsAddLeg : Fills 33 writeAddLeg :=
  (fillsBridgeRef.pair (fills8.pair (fills16.pair (fills8.pair (fills8.pair (fillsKeys.pair (fillsTiming.pair
    (fills8.pair fills8)))))))).of (fun ⟨a, b, c, d, e, f, g, h, i⟩ => ⟨a, b, c, d, e, f, g, h, i⟩) fun _ => rfl
theorem fillsStageKey : Fills 33 writeStageKey :=
  (fillsPathRef.pair (fillsHalf.pair fillsHalf)).of (fun ⟨a, b, c⟩ => ⟨a, b, c⟩) fun _ => rfl
theorem fillsSetGuard : Fills 12 writeSetGuard :=
  (fillsPathRef.pair (fills16.pair (fills16.pair fills8))).of (fun ⟨a, b, c, d⟩ => ⟨a, b, c, d⟩) fun _ => rfl
theorem fillsSetLeg : Fills 10 writeSetLeg :=
  (fillsBridgeRef.pair (fills16.pair (fills8.pair fills8))).of (fun ⟨a, b, c, d⟩ => ⟨a, b, c, d⟩) fun _ => rfl
theorem fillsEnables : Fills 8 writeEnables :=
  (fills8.pair (fills8.pair (fills8.pair (fills8.pair (fills8.pair (fills8.pair (fills8.pair fills8))))))).of
    (fun ⟨a, b, c, d, e, f, g, h⟩ => ⟨a, b, c, d, e, f, g, h⟩) fun _ => rfl
theorem fillsAnswer : Fills 6 fun o : AnswerOps => bytes16 o.ext ++ bytes32 o.response :=
  (fills16.pair fills32).of (fun ⟨a, b⟩ => ⟨a, b⟩) fun _ => rfl
theorem fillsReadPath : Fills 3 fun o : ReadPathOps => [o.form] ++ bytes16 o.number :=
  (fills8.pair fills16).of (fun ⟨a, b⟩ => ⟨a, b⟩) fun _ => rfl
theorem fillsRemoveLeg : Fills 8 fun o : RemoveLegOps => writeBridgeRef o.ref ++ bytes16 o.path :=
  (fillsBridgeRef.pair fills16).of (fun ⟨a, b⟩ => ⟨a, b⟩) fun _ => rfl
theorem fillsSetTalker : Fills 8 fun o : SetTalkerOps => writeBridgeRef o.ref ++ bytes16 o.threshold :=
  (fillsBridgeRef.pair fills16).of (fun ⟨a, b⟩ => ⟨a, b⟩) fun _ => rfl

/-- A load's operands of the length that their count gives. -/
theorem load_exact {ops : List Byte} (len : ops.length = 1 + 12 * (ops.headD 0).toNat) :
    ∃ o : LoadOps, ops = writeLoad o ∧ o.entries.length = o.count.toNat := by
  obtain ⟨c, r, rfl, lc⟩ := fills8 ops (by omega)
  simp only [List.singleton_append, List.headD_cons, List.length_cons] at len
  obtain ⟨xs, r', count, rfl, lxs⟩ := fillsStored.many c.toNat r (by omega)
  have : r' = [] := List.length_eq_zero_iff.1 (by omega)
  exact ⟨⟨c, xs⟩, by simp [writeLoad, this], count⟩

/-- A survey's operands of the length that their count gives. -/
theorem setSurvey_exact {ops : List Byte} (len : ops.length = 12 + 4 * (ops.headD 0).toNat) :
    ∃ o : SetSurveyOps, ops = writeSetSurvey o ∧ o.entries.length = o.count.toNat := by
  obtain ⟨c, r, rfl, lc⟩ := fills8 ops (by omega)
  simp only [List.singleton_append, List.headD_cons, List.length_cons] at len
  obtain ⟨xs, r', count, rfl, lxs⟩ := fillsSurveyEntry.many c.toNat r (by omega)
  have rest : Fills 11 _ :=
    fills8.pair (fills8.pair (fills8.pair (fills8.pair (fills16.pair (fills16.pair (fills16.pair fills8))))))
  obtain ⟨⟨a, b, d, e, f, g, h, i⟩, rfl⟩ := rest.exact (b := r') (by omega)
  exact ⟨⟨c, xs, a, b, d, e, f, g, h, i⟩, rfl, count⟩

/-! ## A frame that passes the frame check -/

/-- Operands of the length their kind requires are a well-formed command's. -/
theorem exists_command (l : Link) {k : Byte} (t : Byte) {ops : List Byte} (known : 1 ≤ k.toNat ∧ k.toNat ≤ 35)
    (len : ops.length = requiredLength k.toNat ops) (fits : ops.length < 256) :
    ∃ i, encodeOperands i = some (l, k, t, ops) ∧ i.wellFormed = true := by
  obtain ⟨n, e⟩ : ∃ n, k.toNat = n := ⟨_, rfl⟩
  obtain rfl : k = BitVec.ofNat 8 n := by rw [← e]; simp
  rw [e] at known len
  clear e
  obtain ⟨low, high⟩ := known
  interval_cases n
  · obtain rfl := List.length_eq_zero_iff.1 len
    exact ⟨.readPart l t, rfl, rfl⟩
  · obtain ⟨o, rfl⟩ := fills16.exact len
    exact ⟨.setLink l t o, rfl, rfl⟩
  · obtain ⟨o, rfl⟩ := fillsEnables.exact len
    exact ⟨.setEvents l t o, rfl, rfl⟩
  · obtain ⟨o, rfl⟩ := fillsStored.exact len
    exact ⟨.setExtension l t o, rfl, rfl⟩
  · obtain ⟨o, rfl⟩ := fills16.exact len
    exact ⟨.eraseExtension l t o, rfl, rfl⟩
  · obtain ⟨o, rfl, count⟩ := load_exact len
    have size : (writeLoad o).length = 1 + 12 * o.entries.length := by
      simp [writeLoad, length_writeMany length_writeStored, Nat.add_comm]
    exact ⟨.loadExtensions l t o, rfl, by simp only [Instr.wellFormed, Bool.and_eq_true, decide_eq_true_eq]; omega⟩
  · obtain ⟨o, rfl⟩ := fills16.exact len
    exact ⟨.readExtension l t o, rfl, rfl⟩
  · obtain rfl := List.length_eq_zero_iff.1 len
    exact ⟨.collectChanges l t, rfl, rfl⟩
  · obtain ⟨o, rfl⟩ := fills16.exact len
    exact ⟨.challenge l t o, rfl, rfl⟩
  · obtain ⟨o, rfl⟩ := fillsAnswer.exact len
    exact ⟨.answer l t o, rfl, rfl⟩
  · obtain ⟨o, rfl⟩ := fills16.exact len
    exact ⟨.release l t o, rfl, rfl⟩
  · obtain ⟨o, rfl⟩ := fills16.exact len
    exact ⟨.unlock l t o, rfl, rfl⟩
  · obtain ⟨o, rfl⟩ := fillsThree.exact len
    exact ⟨.setAdmission l t o, rfl, rfl⟩
  · obtain ⟨o, rfl⟩ := fillsOpenTie.exact len
    exact ⟨.openTie l t o, rfl, rfl⟩
  · obtain ⟨o, rfl⟩ := fillsPathRef.exact len
    exact ⟨.clearPath l t o, rfl, rfl⟩
  · obtain ⟨o, rfl⟩ := fillsReadPath.exact len
    exact ⟨.readPath l t o, rfl, rfl⟩
  · obtain rfl := List.length_eq_zero_iff.1 len
    exact ⟨.resetTraffic l t, rfl, rfl⟩
  · obtain ⟨o, rfl⟩ := fillsStageKey.exact len
    exact ⟨.stageKey l t o, rfl, rfl⟩
  · obtain ⟨o, rfl⟩ := fills8.exact len
    exact ⟨.readContext l t o, rfl, rfl⟩
  · obtain ⟨o, rfl⟩ := fillsPathRef.exact len
    exact ⟨.resyncTx l t o, rfl, rfl⟩
  · obtain ⟨o, rfl⟩ := fillsSetGuard.exact len
    exact ⟨.setGuard l t o, rfl, rfl⟩
  · obtain ⟨o, rfl⟩ := fillsThree.exact len
    exact ⟨.setPrivacyDefaults l t o, rfl, rfl⟩
  · obtain ⟨o, rfl⟩ := fillsOpt16.exact len
    exact ⟨.openBridge l t o, rfl, rfl⟩
  · obtain ⟨o, rfl⟩ := fillsAddLeg.exact len
    exact ⟨.addLeg l t o, rfl, rfl⟩
  · obtain ⟨o, rfl⟩ := fillsRemoveLeg.exact len
    exact ⟨.removeLeg l t o, rfl, rfl⟩
  · obtain ⟨o, rfl⟩ := fillsSetLeg.exact len
    exact ⟨.setLeg l t o, rfl, rfl⟩
  · obtain ⟨o, rfl⟩ := fillsSetTalker.exact len
    exact ⟨.setTalker l t o, rfl, rfl⟩
  · obtain ⟨o, rfl⟩ := fillsBridgeRef.exact len
    exact ⟨.closeBridge l t o, rfl, rfl⟩
  · obtain ⟨o, rfl⟩ := fills8.exact len
    exact ⟨.readBridge l t o, rfl, rfl⟩
  · obtain ⟨o, rfl, count⟩ := setSurvey_exact len
    have size : (writeSetSurvey o).length = 12 + 4 * o.entries.length := by
      simp [writeSetSurvey, length_writeMany length_writeSurveyEntry]; omega
    exact ⟨.setSurvey l t o, rfl, by simp only [Instr.wellFormed, Bool.and_eq_true, decide_eq_true_eq]; omega⟩
  · obtain rfl := List.length_eq_zero_iff.1 len
    exact ⟨.startSurvey l t, rfl, rfl⟩
  · obtain rfl := List.length_eq_zero_iff.1 len
    exact ⟨.stopSurvey l t, rfl, rfl⟩
  · obtain rfl := List.length_eq_zero_iff.1 len
    exact ⟨.readSurvey l t, rfl, rfl⟩
  · obtain ⟨o, rfl⟩ := fills8.exact len
    exact ⟨.adopt l t o, rfl, rfl⟩
  · obtain ⟨o, rfl⟩ := fills16.exact len
    exact ⟨.setOrphanHold l t o, rfl, rfl⟩

theorem badFrame_short {f : List Byte} (h : f.length < 3) : badFrame f = true := by
  match f, h with
  | [], _ => rfl
  | [_], _ => rfl
  | [_, _], _ => rfl

/-- A frame that passes the frame check is a well-formed command's. -/
theorem exists_command_of_good (l : Link) {f : List Byte} (good : badFrame f = false) :
    ∃ i, encodeCommand i = some (l, f) ∧ i.wellFormed = true := by
  match f, good with
  | k :: t :: n :: ops, good =>
    obtain ⟨known, count, len⟩ := (badFrame_cons k t n ops).1 good
    obtain ⟨i, e, w⟩ := exists_command l t known len (count ▸ n.isLt)
    refine ⟨i, ?_, w⟩
    have size : BitVec.ofNat 8 ops.length = n := by rw [← count]; simp
    simp only [encodeCommand, e, commandFrame, size]

/-- Settles O2: a frame is read as the command it was written from, and every frame that passes the frame check was
written from one. -/
theorem framesAndCommandsAgree : Obligations.FramesAndCommandsAgree := by
  have back : ∀ (i : Instr) (l : Link) (f : List Byte),
      i.wellFormed = true → encodeCommand i = some (l, f) → decodeCommand l f = some i := by
    intro i l f w h
    unfold encodeCommand at h
    split at h
    · rename_i k kind tag ops e
      cases h
      exact decodeCommand_commandFrame w e
    · cases h
  refine ⟨back, fun l f i h => ?_⟩
  have good : badFrame f = false := by
    unfold decodeCommand at h
    split at h
    · cases h
    · rename_i q; exact Bool.eq_false_iff.2 q
  obtain ⟨j, e, w⟩ := exists_command_of_good l good
  rw [back j l f w e] at h
  cases h
  exact ⟨e, w⟩

end Sys2Proof
end

