-- ==== Sys2Proof/Proofs/NothingDue.lean ====
section
/-! PROOF. The front of the queue, the frames that the frame check refuses, and the taking of a command; what each due
step does where it is not due. -/

namespace Sys2Proof.Machine

open Table (find put del mapAll sorted)

/-- Settles O1. -/
theorem stepRunsTheFrontCommand : Obligations.StepRunsTheFrontCommand := by
  unfold Obligations.StepRunsTheFrontCommand
  constructor
  · intro c rest s front
    simp only [step, front]
  · intro s idle
    simp only [step, idle]

/-! ## Refused frames -/

/-- The number of operand bytes of each kind, as a list (12.2). -/
theorem requiredLength_listed {k : Nat} (low : 1 ≤ k) (high : k ≤ 35) (ops : List Byte) :
    requiredLength k ops =
      if k = 6 then 1 + 12 * (ops.headD 0).toNat
      else if k = 30 then 12 + 4 * (ops.headD 0).toNat
      else ([0, 0, 2, 8, 12, 2, 0, 2, 0, 2, 6, 2, 2, 6, 24, 7, 3, 0, 33, 1, 7, 12, 6, 3, 33, 8, 10, 8, 6, 1, 0, 0,
             0, 0, 1, 2] : List Nat).getD k 0 := by
  interval_cases k <;> rfl

/-- A taken frame that the frame check refuses is answered BAD_FRAME. -/
theorem exec_badFrame {s : State} {l : Link} {kind : Byte} {rest : List Byte} {p : Port}
    (bad : badFrame (kind :: rest) = true) (takes : ((settle s).port l).take (kind :: rest) = some p) :
    exec (.badFrameCommand l (kind :: rest)) s = .next ((s.taking l p).answer l kind (rest.headD 0) .badFrame []) := by
  show execBadFrameCommand l (kind :: rest) s = _
  simp only [execBadFrameCommand]
  rw [if_pos ⟨bad, List.cons_ne_nil _ _⟩, takes]
  rfl

/-- Settles O6: the frame check, case by case. -/
theorem badFrameIsAnswered : Obligations.BadFrameIsAnswered := by
  unfold Obligations.BadFrameIsAnswered
  refine ⟨fun s l kind rest p => exec_badFrame, fun f => badFrame_short, ?_, ?_, ?_⟩
  · intro k t n ops unknown
    have out : (decide (1 ≤ k.toNat) && decide (k.toNat ≤ 35)) = false := by
      rcases unknown with zero | above
      · simp [zero]
      · simp [Nat.not_le.2 above]
    simp [badFrame, out]
  · intro k t n ops disagree
    simp [badFrame, disagree]
  · intro k t n ops low high agree
    simp [badFrame, low, high, agree, requiredLength_listed low high]

/-! ## A port and the head of its queue -/

theorem ready_eq_false {p : Port} (h : p.state ≠ .up ∨ p.inProgress ≠ none ∨ p.response ≠ none) : p.ready = false := by
  unfold Port.ready
  rcases h with down | busy | full
  · simp [down]
  · simp [busy]
  · simp [Option.isSome_iff_ne_none.2 full]

theorem ready_eq_true {p : Port} (up : p.state = .up) (idle : p.inProgress = none) (empty : p.response = none) :
    p.ready = true := by simp [Port.ready, up, idle, empty]

/-- The head of a queue taken: below the threshold the own hold is released. -/
theorem takeHead_of_queue {p : Port} {f : List Byte} {rest : List (List Byte)} (q : p.queue = f :: rest) :
    p.takeHead =
      if rest.length < p.threshold ∧ p.ownHold = true then
        { p with queue := rest, ownHold := false, lastControl := some .holdOff }
      else { p with queue := rest } := by
  unfold Port.takeHead
  simp only [q, List.drop_succ_cons, List.drop_zero]
  by_cases below : rest.length < p.threshold
  · rw [if_pos below, Port.setOwnHold]
    cases own : p.ownHold <;> simp [below]
  · rw [if_neg below, if_neg fun x => below x.1]

/-- A frame that reaches an empty queue is taken as it arrives: it is the head of a queue of one. -/
theorem take_of_emptyQueue {p : Port} {f : List Byte} (up : p.state = .up) (idle : p.inProgress = none)
    (empty : p.response = none) (q : p.queue = []) (high : 4 ≤ p.threshold) :
    p.take f = some
      (if p.ownHold = true then
        { p with alignRun := 0, invalidRun := 0, receiving := none, ownHold := false, lastControl := some .holdOff }
      else { p with alignRun := 0, invalidRun := 0, receiving := none }) := by
  have received : Port.frameReceived { p.validSymbol with receiving := none } f
      = { p with alignRun := 0, invalidRun := 0, receiving := none, queue := [f] } := by
    have below : ¬ p.threshold ≤ 1 := by omega
    simp [Port.frameReceived, Port.validSymbol, q, Config.commandQueue, below]
  unfold Port.take
  rw [if_pos (ready_eq_true up idle empty)]
  simp only [q, received]
  rw [takeHead_of_queue rfl]
  have below : 0 < p.threshold := by omega
  cases own : p.ownHold <;> simp [below]

/-! ## A due step that is not due -/

theorem preambleEnd_fixed {i : Nat} {s : State}
    (h : ∀ c n, find s.ctxs i = some c → c.tx.phase = .preamble n → n < 24 ∨ c.tx.dir.owed = 0) :
    preambleEnd i s = s := by
  unfold preambleEnd
  cases f : find s.ctxs i with
  | none => rfl
  | some c =>
    cases e : c.tx.phase with
    | preamble n =>
      simp only [e]
      exact if_neg fun due => by have := h c n f e; omega
    | running => simp only [e]

theorem huntReport_fixed {i : Nat} {s : State}
    (h : ∀ c x, find s.ctxs i = some c → c.rx.phase = .hunt x → x.reportDue = false) : huntReport i s = s := by
  unfold huntReport
  cases f : find s.ctxs i with
  | none => rfl
  | some c =>
    cases e : c.rx.phase with
    | hunt x =>
      simp only [e]
      exact if_neg (by simp [h c x f e])
    | running => simp only [e]

theorem guardWindowEnd_fixed {i : Nat} {s : State} (h : windowFull i s = false) : guardWindowEnd i s = s := by
  simp [guardWindowEnd, h]

/-- A context whose directions have made their advances has no KEY step due. -/
theorem keyAdvances_fixed {i : Nat} {s : State} {c : Context} (f : find s.ctxs i = some c)
    (made : ∀ d, c.running d = true → (c.dir d).made) : keyAdvances i s = s := by
  have warned (d : Dir) : keyDueWarning i d s = s := keyDueWarning_idle f fun run => (made d run).2
  have rolled (d : Dir) : rollover i d s = s := rollover_idle f fun run => (made d run).1
  simp only [keyAdvances, warned, rolled]

/-- Nothing is due of a context: its steps leave the state. -/
theorem contextDue_fixed {i : Nat} {s : State} (h : ∀ c, find s.ctxs i = some c → c.nothingDue) :
    contextDue i s = s := by
  cases f : find s.ctxs i with
  | none =>
    simp only [contextDue, keyAdvances, preambleEnd, keyDueWarning, rollover, huntReport, guardWindowEnd, windowFull, f]
    rfl
  | some c =>
    obtain ⟨tx, rx⟩ := h c f
    have ended : preambleEnd i s = s := by
      refine preambleEnd_fixed fun d n g e => ?_
      obtain rfl : c = d := Option.some.inj (f.symm.trans g)
      simpa only [e] using tx
    have advanced : keyAdvances i s = s := by
      refine keyAdvances_fixed f fun d run => ?_
      cases d with
      | tx =>
        have e : c.tx.phase = .running := by simpa [Context.running] using run
        simpa only [e, Context.dir] using tx
      | rx =>
        have e : c.rx.phase = .running := by simpa [Context.running] using run
        simp only [e] at rx
        exact rx.1
    have reported : huntReport i s = s := by
      refine huntReport_fixed fun d x g e => ?_
      obtain rfl : c = d := Option.some.inj (f.symm.trans g)
      simpa only [e] using rx
    have judged : windowFull i s = false := by
      simp only [windowFull, f]
      cases e : c.rx.phase with
      | hunt x => simp [Context.running, e]
      | running =>
        simp only [e] at rx
        simp [rx.2]
    rw [contextDue, ended, advanced, reported, guardWindowEnd_fixed judged]

theorem bridgeBoundary_fixed {b : Nat} {s : State} (h : ∀ x, find s.bridges b = some x → x.windowCount < 64) :
    bridgeBoundary b s = s := by
  unfold bridgeBoundary
  cases f : find s.bridges b with
  | none => rfl
  | some x => exact if_neg (Nat.not_le.2 (h x f))

theorem surveyComplete_fixed {s : State} (h : ∀ i sum peak n, s.survey.state = .measuring i sum peak n →
    n < s.survey.window) :
    surveyComplete s = s := by
  unfold surveyComplete
  cases e : s.survey.state with
  | measuring i sum peak n => exact if_neg (Nat.not_le.2 (h i sum peak n e))
  | stopped => rfl
  | standby => rfl

theorem surveyDue_unowed {s : State} (h : s.work.surveyOwed = none) : surveyDue s = surveyComplete s := by
  simp [surveyDue, h]

/-- Nothing of the frame's work is due: taking it leaves the state. -/
theorem workDue_fixed {s : State} (h : WorkSettled s) : workDue s = s := by
  obtain ⟨_, owed, contexts, bridges, survey⟩ := h
  unfold workDue
  simp only []
  rw [forEach_fixed fun i _ => contextDue_fixed (contexts i), forEach_fixed fun b _ => bridgeBoundary_fixed (bridges b),
    surveyDue_unowed owed, surveyComplete_fixed survey]

theorem lostSilent_fixed {h : Nat} {s : State} (x : (s.highway h).up = true → (s.highway h).emptyRun < 4) :
    lostSilent h s = s :=
  if_neg fun due => by have := x due.1; omega

theorem restoreHighway_fixed {h : Nat} {s : State} (x : (s.highway h).up = false → (s.highway h).restoreRun < 8) :
    restoreHighway h s = s :=
  if_neg fun due => by have := x due.1; omega

/-- What holds of every highway there is and of the reset one holds of highway `h`. -/
theorem highway_of_all {P : Highway → Prop} {s : State} (h : ∀ x ∈ s.highways, P x)
    (reset : P Highway.reset) (n : Nat) :
    P (s.highway n) := by
  unfold State.highway
  rw [List.getD_eq_getElem?_getD]
  cases e : s.highways[n]? with
  | none => exact reset
  | some x => exact h x (List.mem_of_getElem? e)

/-- No store operation stands at its end: none completes. -/
theorem storeSteps_fixed {s : State} (h : ∀ g, s.engine = some g → 0 < g.remaining) :
    programComplete s = s ∧ eraseComplete s = s ∧ loadEntryComplete s = s ∧ startCountDone s = s := by
  unfold programComplete eraseComplete loadEntryComplete startCountDone
  cases e : s.engine with
  | none => exact ⟨rfl, rfl, rfl, rfl⟩
  | some g =>
    obtain ⟨job, n⟩ := g
    have more : 0 < n := h _ e
    obtain ⟨m, rfl⟩ : ∃ m, n = m + 1 := ⟨n - 1, by omega⟩
    cases job <;> exact ⟨rfl, rfl, rfl, rfl⟩

theorem lockoutExpiry_fixed {i : Nat} {s : State} (h : (s.ext i).standing ≠ .locked 0) : lockoutExpiry i s = s := by
  unfold lockoutExpiry
  split
  · rename_i e; exact absurd e h
  all_goals rfl

theorem challengeExpiry_fixed {i : Nat} {s : State} (h : ∀ ch,
    (s.ext i).challenge = some ch → ch.expiry ≠ s.frameCount) :
    challengeExpiry i s = s := by
  unfold challengeExpiry
  cases e : (s.ext i).challenge with
  | none => rfl
  | some ch => exact if_neg (h ch e)

theorem isTie_iff (p : Path) : p.isTie = true ↔ p.kind.code = 0 := by rw [isTie_eq_decide_code, decide_eq_true_iff]

theorem passes_iff (c : Controller) (now : Word32) : c.passes now = true ↔ ∃ x, c = .orphan x now := by
  cases c <;> simp [Controller.passes]

theorem orphanDeadline_path_fixed {id : Nat} {s : State}
    (h : ∀ p x d, find s.paths id = some p → p.kind.code = 0 → p.controller = .orphan x d → d ≠ s.frameCount) :
    orphanDeadline (.path id) s = s := by
  simp only [orphanDeadline]
  cases f : find s.paths id with
  | none => rfl
  | some p =>
    refine if_neg fun due => ?_
    rw [Bool.and_eq_true, isTie_iff, passes_iff] at due
    obtain ⟨tie, x, c⟩ := due
    exact h p x _ f tie c rfl

theorem orphanDeadline_bridge_fixed {b : Nat} {s : State}
    (h : ∀ y x d, find s.bridges b = some y → y.controller = .orphan x d → d ≠ s.frameCount) :
    orphanDeadline (.bridge b) s = s := by
  simp only [orphanDeadline]
  cases f : find s.bridges b with
  | none => rfl
  | some y =>
    refine if_neg fun due => ?_
    obtain ⟨x, c⟩ := (passes_iff _ _).1 due
    exact h y x _ f c rfl

/-- Nothing is due at the frame's start: taking it leaves the state. -/
theorem startDue_fixed {s : State} (h : StartSettled s) : startDue s = s := by
  obtain ⟨highways, engine, exts, paths, bridges⟩ := h
  obtain ⟨program, erase, load, count⟩ := storeSteps_fixed engine
  unfold startDue
  simp only []
  rw [forEach_fixed fun n _ => lostSilent_fixed (highway_of_all highways
    (by simp [Highway.reset]) n), program, erase, load,
    count, forEach_fixed fun i _ => lockoutExpiry_fixed (exts i).1,
    forEach_fixed fun i _ => challengeExpiry_fixed (exts i).2,
    forEach_fixed fun id _ => orphanDeadline_path_fixed (paths id),
    forEach_fixed fun b _ => orphanDeadline_bridge_fixed (bridges b)]

theorem onPort_fixed {s : State} {l : Link} {f : Port → Port} (h : f (s.port l) = s.port l) : s.onPort l f = s := by
  unfold State.onPort
  rw [h]
  cases l <;> rfl

theorem linkDownDue_fixed {l : Link} {s : State} (h : (s.port l).downCause = none) : linkDownDue l s = s := by
  simp [linkDownDue, h]

theorem linkDue_fixed {l : Link} {s : State}
    (h : s.boot = .ended →
      ((s.port l).state = .up → (s.port l).invalidRun < 16 ∧ (s.port l).alignRun < 64)
        ∧ ((s.port l).state = .down → (s.port l).alignRun < 64)) : linkDue l s = s := by
  unfold linkDue whenLoaded
  by_cases loaded : s.boot = .ended
  · rw [if_pos loaded]
    obtain ⟨up, down⟩ := h loaded
    by_cases isUp : (s.port l).state = .up
    · simp only [if_pos isUp]
      obtain ⟨valid, run⟩ := up isUp
      refine linkDownDue_fixed ?_
      rw [Port.downCause, if_pos isUp, if_neg (by omega), if_neg (by omega)]
    · simp only [if_neg isUp]
      exact onPort_fixed (if_neg fun due => by have := down due.1; omega)
  · rw [if_neg loaded]

/-- Where nothing is due, taking what is due changes nothing. -/
theorem quiet_of_nothingDue {s : State} (h : NothingDue s) : beginWork s = s ∧ workDue s = s ∧ Quiet s := by
  obtain ⟨boot, work, start, restore, links⟩ := h
  have begun : beginWork s = s := beginWork_of_begun work.1
  refine ⟨begun, workDue_fixed work, ?_⟩
  unfold Quiet settle symbolDue
  simp only []
  rw [startUpLoad_loaded boot, begun, workDue_fixed work, startDue_fixed start,
    forEach_fixed fun n _ => restoreHighway_fixed (highway_of_all restore (by simp [Highway.reset]) n),
    linkDue_fixed (links .a), linkDue_fixed (links .b), linkDue_fixed (links .m)]

/-- Settles O3: a port's four cases, a command that is not taken, and the steps that are not due. -/
theorem portTakesTheHeadOfItsQueue : Obligations.PortTakesTheHeadOfItsQueue := by
  unfold Obligations.PortTakesTheHeadOfItsQueue
  refine ⟨⟨?_, ?_, ?_, ?_⟩, ?_, fun s => quiet_of_nothingDue⟩
  · intro p f blocked
    simp [Port.take, ready_eq_false blocked]
  · intro p f g rest q other
    simp [Port.take, q, other]
  · intro p f rest up idle empty q
    rw [← takeHead_of_queue q]
    simp [Port.take, ready_eq_true up idle empty, q]
  · intro p f up idle empty q high
    exact take_of_emptyQueue up idle empty q high
  · intro i s l f e untaken
    obtain ⟨kind, tag, ops, operands⟩ : ∃ kind tag ops, encodeOperands i = some (l, kind, tag, ops) := by
      unfold encodeCommand at e
      split at e
      · rename_i l' kind tag ops e'
        cases e
        exact ⟨kind, tag, ops, e'⟩
      · cases e
    rw [exec_eq_command operands, command_untaken (ownerOf i) e untaken]

end Sys2Proof.Machine
end

