-- ==== Sys2Proof/Proofs/FrameStarts.lean ====
section
/-! PROOF. The power-on reset (O18), the start of a frame (O20), the tie highways (O21, O22); and what a frame's
processing can change. -/

namespace Sys2Proof.Machine

open Table (find put del mapAll sorted)

/-! ## The reset -/

/-- Every tie highway's entry of a read is idle after a reset. -/
theorem reset_tieRead (h : Nat) : State.reset.tieRead h = { codes := idleFrame, slip := .normal } := by
  show (List.replicate Config.tieHighways { codes := idleFrame, slip := .normal : TieRead }).getD h _ = _
  rw [List.getD_eq_getElem?_getD, List.getElem?_replicate]
  split <;> rfl

theorem reset_tieCode (slot : Nat) : State.reset.tieCode slot = 0 := by
  rw [State.tieCode, reset_tieRead]
  show (List.replicate Config.slotsPerTie (0 : Code)).getD (tiePlace slot) idleCode = 0
  rw [List.getD_eq_getElem?_getD, List.getElem?_replicate]
  split <;> rfl

/-- Settles O18: each field as the reset state gives it. -/
theorem powerOnResetLeaves : Obligations.PowerOnResetLeaves := by
  unfold Obligations.PowerOnResetLeaves
  intro s
  refine ⟨powerOnReset s, rfl, rfl, rfl, rfl, rfl, rfl, rfl, rfl, rfl, rfl, ?highways, rfl, fun _ => rfl,
    fun slot _ => reset_tieCode slot, fun h _ => congrArg TieRead.slip (reset_tieRead h), rfl, rfl, rfl, rfl, rfl, rfl,
    rfl, rfl, rfl, rfl, rfl, rfl, rfl, rfl, rfl, fun l => by cases l <;> rfl⟩
  intro h below
  show (List.replicate 8 Highway.reset)[h]? = _
  rw [List.getElem?_replicate, if_pos below]
  rfl

/-! ## What a frame's processing can change -/

/-- A port that has only had events routed to it. -/
def Port.Told (p q : Port) : Prop := q = { p with events := q.events, lost := q.lost }

theorem Port.Told.refl (p : Port) : p.Told p := rfl

theorem Port.Told.trans {p q r : Port} (a : p.Told q) (b : q.Told r) : p.Told r := by
  unfold Port.Told at *
  rw [b, a]

theorem queueEvent_told (p : Port) (e : Event) : p.Told (p.queueEvent e) := by
  unfold Port.queueEvent
  split_ifs <;> rfl

theorem raiseOn_told (k : EventKind) (ls : List Link) (s : State)
    (l : Link) : (s.port l).Told ((raiseOn k ls s).port l) := by
  induction ls generalizing s with
  | nil => exact .refl _
  | cons l' ls ih =>
    refine Port.Told.trans ?_ (ih _)
    rw [State.port_onPort]
    split_ifs with same
    · subst same; exact queueEvent_told _ _
    · exact .refl _

theorem raiseSlips_told (h : Nat) (rs : List TieRead) (s : State)
    (l : Link) : (s.port l).Told ((raiseSlips h rs s).port l) := by
  induction rs generalizing h s with
  | nil => exact .refl _
  | cons r rs ih =>
    refine Port.Told.trans ?_ (ih _ _)
    cases r.slip
    · exact .refl _
    · exact raiseOn_told _ _ _ _
    · exact raiseOn_told _ _ _ _

/-- Only the records of a frame's work change: contexts, bridges, survey and driven slots; and ports are told of
events. -/
structure FrameOnly (s t : State) : Prop where
  rest : t = { s with
    ctxs := t.ctxs, bridges := t.bridges, survey := t.survey, drivenStation := t.drivenStation,
    drivenTie := t.drivenTie, portA := t.portA, portB := t.portB, portM := t.portM }
  told : ∀ l, (s.port l).Told (t.port l)

theorem FrameOnly.refl (s : State) : FrameOnly s s := ⟨rfl, fun _ => .refl _⟩

theorem FrameOnly.trans {s t u : State} (a : FrameOnly s t) (b : FrameOnly t u) : FrameOnly s u where
  rest := by rw [b.rest, a.rest]
  told l := (a.told l).trans (b.told l)

theorem FrameOnly.raise {s t : State} (a : FrameOnly s t) (k : EventKind)
    (ls : List Link) : FrameOnly s (raiseOn k ls t) :=
  a.trans ⟨by rw [raiseOn_eq], raiseOn_told k ls t⟩

/-- Ports stand and only records of the frame's work change. -/
theorem FrameOnly.of_eq {s t : State}
    (rest : t = { s with
      ctxs := t.ctxs, bridges := t.bridges, survey := t.survey, drivenStation := t.drivenStation,
      drivenTie := t.drivenTie }) : FrameOnly s t where
  rest := by rw [rest]
  told l := by rw [rest]; cases l <;> exact .refl _

theorem receiveContext_frameOnly (i : Nat) (x : State × Table Code) : FrameOnly x.1 (receiveContext i x).1 := by
  simp only [receiveContext]
  split
  · split
    · exact (FrameOnly.of_eq rfl).raise _ _
    · exact .of_eq rfl
  · exact .refl _

theorem receiveContexts_frameOnly (is : List Nat) (x : State × Table Code) : FrameOnly x.1
    (receiveContexts is x).1 := by
  induction is generalizing x with
  | nil => exact .refl _
  | cons i is ih => exact (receiveContext_frameOnly i x).trans (ih _)

theorem transmit_frameOnly (i n : Nat) (c : Code) (s : State) : FrameOnly s (transmit i n c s) := by
  unfold transmit
  split
  · exact .of_eq rfl
  · exact .refl _

theorem tiePathFrame_frameOnly (heard : Table Code) (id : Nat) (s : State) : FrameOnly s (tiePathFrame heard id s) := by
  unfold tiePathFrame
  split
  · split
    · exact .of_eq rfl
    · exact (transmit_frameOnly _ _ _ _).trans (.of_eq rfl)
    · exact .refl _
    · exact .refl _
  · exact .refl _

theorem sendLeg_frameOnly (g : Leg) (c : Code) (s : State) : FrameOnly s (sendLeg g c s) := by
  unfold sendLeg
  split
  · exact .of_eq rfl
  · exact .of_eq rfl
  · exact transmit_frameOnly _ _ _ _

theorem sendLegs_frameOnly (cs : List Int) (gs : List Leg) (k : Nat)
    (s : State) : FrameOnly s (sendLegs cs k gs s) := by
  induction gs generalizing k s with
  | nil => exact .refl _
  | cons g gs ih => exact (sendLeg_frameOnly _ _ _).trans (ih _ _)

theorem bridgeFrame_frameOnly (heard : Table Code) (b : Nat) (s : State) : FrameOnly s (bridgeFrame heard b s) := by
  unfold bridgeFrame
  split
  · exact FrameOnly.trans (.of_eq rfl) (sendLegs_frameOnly _ _ _ _)
  · exact .refl _

theorem forEach_frameOnly {f : Nat → State → State} (h : ∀ i s, FrameOnly s (f i s)) (l : List Nat) (s : State) :
    FrameOnly s (forEach f l s) :=
  forEach_keeps (P := FrameOnly s) (fun i t a => a.trans (h i t)) l (.refl s)

/-- The parts of a frame's processing in order: no slot driven; the receive directions' work and the codes it delivers;
the direct paths'; the bridges'. -/
def State.undriven (s : State) : State := { s with drivenStation := [], drivenTie := [] }
def State.received (s : State) : State := (receiveContexts (Table.keys s.ctxs) (s.undriven, [])).1
def State.heard (s : State) : Table Code := (receiveContexts (Table.keys s.ctxs) (s.undriven, [])).2
def State.pathsSent (s : State) : State :=
  forEach (tiePathFrame s.heard) (Table.keys s.received.paths) s.received
def State.legsSent (s : State) : State :=
  forEach (bridgeFrame s.heard) (Table.keys s.pathsSent.bridges) s.pathsSent

theorem processFrame_eq (s : State) :
    processFrame s =
      if s.legsSent.work.surveyLater then
        { s.legsSent with work := { s.legsSent.work with surveyOwed := some s.heard } }
      else surveyCount s.heard s.legsSent := rfl

theorem received_frameOnly (s : State) : FrameOnly s s.received :=
  FrameOnly.trans (t := s.undriven) (.of_eq rfl) (receiveContexts_frameOnly _ (s.undriven, []))

theorem pathsSent_frameOnly (s : State) : FrameOnly s s.pathsSent :=
  (received_frameOnly s).trans (forEach_frameOnly (tiePathFrame_frameOnly _) _ _)

theorem legsSent_frameOnly (s : State) : FrameOnly s s.legsSent :=
  (pathsSent_frameOnly s).trans (forEach_frameOnly (bridgeFrame_frameOnly _) _ _)

/-- The marks of the frame's work written on both sides, and the survey's work done. -/
theorem FrameOnly.marked {s t : State} (a : FrameOnly s t) (w : FrameWork) (v : Survey) :
    FrameOnly { s with work := w } { t with work := w, survey := v } where
  rest := by rw [a.rest]
  told l := by have := a.told l; cases l <;> exact this

/-- A frame's processing changes the records of its work and the mark of the survey work still owed. -/
theorem processFrame_frameOnly (s : State) : FrameOnly { s with work := (processFrame s).work } (processFrame s) := by
  rw [processFrame_eq]
  split
  · exact (legsSent_frameOnly s).marked _ _
  · have counted := (legsSent_frameOnly s).marked s.legsSent.work (surveyCount s.heard s.legsSent).survey
    rw [surveyCount_eq]
    exact counted

theorem beginWork_frameOnly (s : State) : FrameOnly { s with work := (beginWork s).work } (beginWork s) := by
  unfold beginWork
  split
  · exact processFrame_frameOnly { s with work := { s.work with held := false } }
  · exact .refl s

/-! ## The start of a frame -/

theorem risingBelow_cons {n k : Nat} {c : Code} {rest : List (Nat × Code)} (h : risingBelow n ((k, c) :: rest) = true) :
    k < n ∧ risingBelow n rest = true ∧ ∀ e ∈ rest, k < e.1 := by
  induction rest generalizing k c with
  | nil => simpa [risingBelow] using h
  | cons e rest ih =>
    obtain ⟨j, d⟩ := e
    simp only [risingBelow, Bool.and_eq_true, decide_eq_true_eq] at h
    obtain ⟨first, more⟩ := h
    obtain ⟨below, _, above⟩ := ih more
    refine ⟨by omega, more, ?_⟩
    intro e m
    rcases List.mem_cons.1 m with rfl | m
    · exact first
    · exact first.trans (above e m)

/-- The codes of a frame as the buffer holds them: those listed, over what stood. -/
theorem code_stationCodes {cs : List (Nat × Code)} (h : risingBelow 512 cs = true) (t : Table Code) (slot : Nat) :
    Table.code (stationCodes cs t) slot = (find cs slot).getD (Table.code t slot) := by
  induction cs generalizing t with
  | nil => rfl
  | cons e rest ih =>
    obtain ⟨k, c⟩ := e
    obtain ⟨below, rising, above⟩ := risingBelow_cons h
    have inRange : k < Config.stationSlots := below
    rw [stationCodes, if_pos inRange, ih rising, Table.code_putCode]
    by_cases same : k = slot
    · subst same
      have unlisted : find rest k = none := by
        cases f : find rest k with
        | none => rfl
        | some d => exact absurd (above _ (Table.mem_of_find f)) (lt_irrefl k)
      simp [Table.find, unlisted]
    · simp [Table.find, same]

/-- The slips of a frame start, one delivery after another. -/
theorem raiseSlips_eq_foldl (h : Nat) (rs : List TieRead) (s : State) :
    raiseSlips h rs s = (rs.zipIdx h).foldl
      (fun u x => match x.1.slip with
        | .normal => u
        | .repeated => raiseOn (.tieSlip x.2 false) [.a, .b, .m] u
        | .deleted => raiseOn (.tieSlip x.2 true) [.a, .b, .m] u) s := by
  induction rs generalizing h s with
  | nil => rfl
  | cons r rs ih =>
    rw [raiseSlips, List.zipIdx_cons, List.foldl_cons, ih]
    cases r.slip <;> rfl

theorem raiseSlips_eq (h : Nat) (rs : List TieRead) (s : State) :
    raiseSlips h rs s =
      { s with portA := (raiseSlips h rs s).portA, portB := (raiseSlips h rs s).portB, portM := (raiseSlips h rs s).portM } :=
  (raiseSlips_kept h rs s).rest

/-- The state of a frame start before its slips are raised. -/
def frameMoved (o : FrameOps) (s : State) : State :=
  { s with
    frameCount := s.frameCount + 1, buffer := s.reading,
    reading := { station := stationCodes o.codes [], tie := (s.highways.map Highway.deliver).map Prod.snd },
    highways := (s.highways.map Highway.deliver).map Prod.fst, nonce := s.nonce.map nonceStep,
    engine := s.engine.map Engine.frame, exts := mapAll s.exts Ext.frame,
    work := { held := true, surveyLater := o.surveyLater, surveyOwed := none } }

theorem beginFrame_eq (o : FrameOps) (s : State) :
    beginFrame o s = raiseSlips 0 ((s.highways.map Highway.deliver).map Prod.snd) (frameMoved o s) := rfl

/-- A frame start tells ports of slips, and the rest is as the frame moved it. -/
theorem beginFrame_frameOnly (o : FrameOps) (s : State) : FrameOnly (frameMoved o s) (beginFrame o s) where
  rest := by rw [beginFrame_eq, raiseSlips_eq]
  told := by rw [beginFrame_eq]; exact raiseSlips_told _ _ _

/-- FRAME_START: the frame moved, and its processing if it comes at once. -/
theorem exec_frameStart (o : FrameOps) (s : State) :
    exec (.frameStart o) s
      = .next (if o.workFirst then beginWork (beginFrame o (settle s)) else beginFrame o (settle s)) := rfl

theorem frameStart_frameOnly (o : FrameOps) (s : State) :
    ∃ w, FrameOnly { frameMoved o s with work := w }
      (if o.workFirst then beginWork (beginFrame o s) else beginFrame o s) := by
  have begun := beginFrame_frameOnly o s
  split
  · exact ⟨_, (begun.marked _ (beginFrame o s).survey).trans (beginWork_frameOnly _)⟩
  · exact ⟨_, begun⟩

theorem frame_of_locked {e : Ext} {n : Nat} (h : e.standing = .locked n) : e.frame =
    { e with standing := .locked (n - 1) } := by
  simp only [Ext.frame, h]

theorem frame_of_unlocked {e : Ext} (h : ∀ n, e.standing ≠ .locked n) : e.frame = e := by
  unfold Ext.frame
  split
  · rename_i n f; exact absurd f (h n)
  all_goals rfl

theorem frameMoved_ext (o : FrameOps) (s : State) (i : Nat) : (frameMoved o s).ext i = (s.ext i).frame :=
  ext_mapAll rfl rfl i

/-- Settles O20: the frame moved, then only the records of its processing and the events of ports. -/
theorem frameStartMovesTheFrame : Obligations.FrameStartMovesTheFrame := by
  unfold Obligations.FrameStartMovesTheFrame
  intro s o rising
  refine ⟨_, exec_frameStart o s, ?_⟩
  generalize settle s = u
  obtain ⟨w, only⟩ := frameStart_frameOnly o u
  have held : o.workFirst = false →
      (if o.workFirst then beginWork (beginFrame o u) else beginFrame o u) = beginFrame o u :=
        fun h => if_neg (by simp [h])
  generalize (if o.workFirst then beginWork (beginFrame o u) else beginFrame o u) = t at only held
  have rest := only.rest
  have exts (i : Nat) : t.ext i = (u.ext i).frame :=
    (State.ext_congr (by rw [rest]) i).trans (frameMoved_ext o u i)
  have codes (slot : Nat) : Table.code t.reading.station slot = Table.code o.codes slot := by
    rw [rest]
    show Table.code (stationCodes o.codes []) slot = _
    rw [code_stationCodes rising]
    rfl
  refine ⟨by rw [rest]; rfl, by rw [rest]; rfl, codes, ?_, ?_, by rw [rest]; rfl, by rw [rest]; rfl,
    fun i n locked => (exts i).trans (frame_of_locked locked), fun i open_ => (exts i).trans (frame_of_unlocked open_),
    by rw [rest]; rfl, by rw [rest]; rfl, by rw [rest]; rfl, by rw [rest]; rfl, by rw [rest]; rfl, by rw [rest]; rfl,
    by rw [rest]; rfl, by rw [rest]; rfl, by rw [rest]; rfl, by rw [rest]; rfl, by rw [rest]; rfl, by rw [rest]; rfl,
    by rw [rest]; rfl, by rw [rest]; rfl, by rw [rest]; rfl, by rw [rest]; rfl, ?_, ?_⟩
  · rw [rest]
    exact List.map_map
  · rw [rest]
    exact List.map_map
  · intro later
    have before : { beginFrame o u with portA := u.portA, portB := u.portB, portM := u.portM } = frameMoved o u := by
      rw [beginFrame_eq, raiseSlips_eq]; rfl
    have reads : (beginFrame o u).reading.tie = (u.highways.map Highway.deliver).map Prod.snd := by
      rw [beginFrame_eq, raiseSlips_eq]; rfl
    rw [held later, before, reads]
    exact raiseSlips_eq_foldl 0 _ _
  · intro l
    have told : (u.port l).Told (t.port l) := by
      have := only.told l
      cases l <;> exact this
    rw [told]
    exact ⟨rfl, rfl, rfl, rfl⟩

end Sys2Proof.Machine
end

