-- ==== Sys2Proof/Proofs/Highways.lean ====
section
/-! PROOF. The tie highways: what their elastic stores take and deliver (O21), their loss and restoration (O22). -/

namespace Sys2Proof.Machine

open Table (find put del mapAll sorted)

/-! ## Elastic stores -/

theorem highway_of_listed {s : State} {h : Nat} {x : Highway} (listed : s.highways[h]? = some x) : s.highway h = x := by
  rw [State.highway, List.getD_eq_getElem?_getD, listed]
  rfl

theorem below_of_listed {s : State} {h : Nat} {x : Highway} (listed : s.highways[h]? = some x) :
    h < s.highways.length :=
  (List.getElem?_eq_some_iff.1 listed).1

/-- A loss as the highway's number and the declaration's events give it (R10). -/
theorem declareLost_of_listed {s : State} {h : Nat} {x : Highway} (listed : s.highways[h]? = some x)
    (cause : LostCause) :
    declareLost h cause s = privacyLoss h (raiseOn (.tieLost h cause) allLinks (s.setHighway h
      { up := false, store := [], deleted := false, lastDelivered := idleFrame, emptyRun := 0, restoreRun := 0,
        arrived := false })) := by
  rw [declareLost, highway_of_listed listed]
  rfl

theorem arrive_short {x : Highway} (f : List Code) (short : x.store.length ≤ 1) :
    x.arrive f = some { x with store := x.store ++ [f] } := by
  unfold Highway.arrive
  split
  · rename_i e; simp [e] at short
  · rfl

theorem arrive_full {x : Highway} {a b : List Code} (f : List Code) (full : x.store = [a, b]) :
    x.arrive f = if x.deleted then none else some { x with store := [b, f], deleted := true } := by
  simp only [Highway.arrive, full]

/-- An arrival at an UP highway. -/
theorem tieArrival_up {s : State} {h : Nat} {x : Highway} {f : List Code} (listed : s.highways[h]? = some x)
    (complete : f.length = 32) (up : x.up = true) :
    tieArrival h f s =
      match x.arrive f with
      | some y => s.setHighway h { y with arrived := true }
      | none => declareLost h .overrun s := by
  have whole : f.length = Config.slotsPerTie := complete
  rw [tieArrival, if_pos whole, highway_of_listed listed]
  simp only [up, if_true]
  cases x.arrive f with
  | some y => rfl
  | none => exact if_pos (below_of_listed listed)

/-- An arrival at a LOST highway (R11). -/
theorem tieArrival_lost {s : State} {h : Nat} {x : Highway} {f : List Code} (listed : s.highways[h]? = some x)
    (complete : f.length = 32) (lost : x.up = false) :
    tieArrival h f s =
      if x.restoreRun < 7 then s.setHighway h { x with restoreRun := x.restoreRun + 1, arrived := true }
      else s.setHighway h { x with restoreRun := 8, store := [f], arrived := true } := by
  have whole : f.length = Config.slotsPerTie := complete
  rw [tieArrival, if_pos whole, highway_of_listed listed]
  simp only [lost, Bool.false_eq_true, if_false]

theorem exec_tieFrameArrival (h : Nat) (f : List Code) (s : State) :
    exec (.tieFrameArrival h f) s = .next (tieArrival h f (settle s)) := rfl

/-- Settles O21: deliveries by the highway's store, arrivals by its state. -/
theorem tieHighwayStoresAndDelivers : Obligations.TieHighwayStoresAndDelivers := by
  unfold Obligations.TieHighwayStoresAndDelivers
  refine ⟨⟨?_, ?_, ?_, ?_⟩, ?_⟩
  · intro x f rest up store
    simp [Highway.deliver, up, store]
  · intro x up empty early
    simp [Highway.deliver, up, empty, early]
  · intro x up empty third
    simp [Highway.deliver, up, empty, third, idleFrame, Config.slotsPerTie]
  · intro x lost
    simp [Highway.deliver, lost, idleFrame, Config.slotsPerTie]
  intro s h x f listed
  refine ⟨?_, fun complete => ⟨?_, ?_, ?_, ?_, ?_⟩⟩
  · intro incomplete
    have part : f.length ≠ Config.slotsPerTie := incomplete
    rw [exec_tieFrameArrival, tieArrival, if_neg part]
  · intro held up store short
    subst store
    rw [exec_tieFrameArrival, tieArrival_up listed complete up, arrive_short f short]
  · intro a b up full kept
    rw [exec_tieFrameArrival, tieArrival_up listed complete up, arrive_full f full, if_neg (by simp [kept])]
  · intro a b up full again
    rw [exec_tieFrameArrival, tieArrival_up listed complete up, arrive_full f full, if_pos again]
    exact congrArg _ (declareLost_of_listed listed .overrun)
  · intro lost early
    rw [exec_tieFrameArrival, tieArrival_lost listed complete lost, if_pos early]
  · intro lost eighth
    rw [exec_tieFrameArrival, tieArrival_lost listed complete lost, if_neg (by omega)]

/-! ## Loss and restoration -/

/-- What a highway's loss makes of a context on it (R112, R119). -/
def Context.onLoss (c : Context) : Context :=
  match c.rx.phase with
  | .running => Context.flagSyncLost { c with rx := c.rx.newHunt }
  | .hunt x => { c with rx := { c.rx with phase := .hunt { x with run := 0, endSeen := false } } }

/-- A lost synchronisation writes the context and leaves every other. -/
theorem loseSync_ctxs (i : Nat) (c : Context) (cause : SyncCause) (s : State) :
    (loseSync i c cause s).ctxs = put s.ctxs i (Context.flagSyncLost { c with rx := c.rx.newHunt }) := by
  rw [loseSync, surveyTrigger_eq]
  simp only [raiseOn_ctxs]
  rfl

/-- A loss at context `i`: that context alone, if it is on the highway. -/
theorem contextLoss_ctx (h i : Nat) (s : State) (j : Nat) :
    find (contextLoss h i s).ctxs j =
      if i = j then (find s.ctxs j).map fun c => if c.tieSlot / 32 = h then c.onLoss else c else find s.ctxs j := by
  unfold contextLoss
  have number (slot : Nat) : tieHighway slot = slot / 32 := rfl
  cases f : find s.ctxs i with
  | none =>
    split_ifs with same
    · subst same; simp [f]
    · rfl
  | some c =>
    simp only [number]
    by_cases on : c.tieSlot / 32 = h
    · rw [if_pos on]
      have written : find (match c.rx.phase with
          | .running => loseSync i c .highway s
          | .hunt x => s.setCtx i { c with rx := { c.rx with phase := .hunt { x with run := 0, endSeen := false } } }).ctxs j
          = find (put s.ctxs i c.onLoss) j := by
        unfold Context.onLoss
        cases c.rx.phase with
        | running => simp only [loseSync_ctxs]
        | hunt x => rfl
      refine written.trans ?_
      rw [Table.find_put]
      split_ifs with same
      · subst same; simp [f, on]
      · rfl
    · rw [if_neg on]
      split_ifs with same
      · subst same; simp [f, on]
      · rfl

/-- What each operation of a pass does to the context of its number alone, the pass does to each context listed once. -/
theorem forEach_ctx {f : Nat → State → State} {g : Context → Context} {j : Nat}
    (one : ∀ i s, find (f i s).ctxs j = if i = j then (find s.ctxs j).map g else find s.ctxs j)
      {l : List Nat} (nodup : l.Nodup)
    (s : State) : find (forEach f l s).ctxs j = if j ∈ l then (find s.ctxs j).map g else find s.ctxs j := by
  induction l generalizing s with
  | nil => rfl
  | cons i l ih =>
    obtain ⟨fresh, nodup⟩ := List.nodup_cons.1 nodup
    rw [forEach_cons, ih nodup, one]
    by_cases same : i = j
    · subst same; simp [fresh]
    · simp [same, Ne.symm same]

theorem privacyLoss_ctx {s : State} (rise : sorted s.ctxs = true) (h i : Nat)
    {c : Context} (found : find s.ctxs i = some c) :
    find (privacyLoss h s).ctxs i = some (if c.tieSlot / 32 = h then c.onLoss else c) := by
  rw [privacyLoss, forEach_ctx (fun i s => contextLoss_ctx h i s _) (nodup_keys rise),
    if_pos (Table.mem_keys_of_find found),
    found]
  rfl

theorem contextLinks_eq (s : State) (c : Context) :
    contextLinks s c = ((find s.paths c.path).map fun p => p.controller.links).getD [] := by
  unfold contextLinks
  cases find s.paths c.path <;> rfl

/-- Settles O22: the two steps of a highway, then the pass over the contexts, each met once. -/
theorem highwayLossReachesItsContexts : Obligations.HighwayLossReachesItsContexts := by
  unfold Obligations.HighwayLossReachesItsContexts
  refine ⟨⟨?_, ?_⟩, ?_, ?_⟩
  · intro s h x listed up fourth
    have due : ((workDue s).highway h).up = true ∧ 4 ≤ ((workDue s).highway h).emptyRun := by
      rw [highway_of_listed listed]; exact ⟨up, by omega⟩
    show Host.Outcome.next (lostSilent h (workDue s)) = _
    rw [lostSilent, if_pos due, declareLost_of_listed listed]
    rfl
  · intro s h x listed lost eighth
    show Host.Outcome.next (restoreHighway h s) = _
    rw [restoreHighway, highway_of_listed listed]
    exact congrArg _ (if_pos ⟨lost, by omega⟩)
  · intro s h i c rise found
    refine ⟨fun off => ?_, fun on running => ?_, fun x on hunting => ?_⟩
    · rw [privacyLoss_ctx rise h i found, if_neg off]
    · rw [privacyLoss_ctx rise h i found, if_pos on, Context.onLoss, running]
      rfl
    · rw [privacyLoss_ctx rise h i found, if_pos on, Context.onLoss, hunting]
  · intro s h
    rw [privacyLoss, forEach_eq_foldl]
    congr 1
    funext u i
    unfold contextLoss
    cases find u.ctxs i with
    | none => rfl
    | some c =>
      simp only [loseSync, contextLinks_eq]
      rfl

end Sys2Proof.Machine
end

