-- ==== Sys2Proof/Proofs/FarEnds.lean ====
section
/-! PROOF. The privacy unit's directions: what a transmitting and a receiving direction do in a frame, case by case (O24,
O25). -/

namespace Sys2Proof.Machine

open Table (find put del mapAll sorted)

/-! ## The advances of a frame -/

/-- The generator at index 1 of the next epoch: of the staged half, or of the half in force without one. -/
def DirState.nextFirst (d : DirState) : Word32 :=
  keyStep ((d.staged.map Staged.step).getD d.step) ((d.staged.map Staged.seed).getD d.seed)

theorem roll_nextFirst (d : DirState) : d.roll.gen = d.nextFirst := by
  rw [roll_gen, DirState.nextFirst]
  cases d.staged <;> simp only [Option.map_none, Option.map_some, Option.getD_none, Option.getD_some]

theorem makeOwed_one_inside {d : DirState} (h : d.f < d.length) :
    DirState.makeOwed 1 d =
      { d with
        f := d.f + 1, gen := keyStep d.step d.gen, owed := 0,
        warnDue := d.warnDue || decide (0 < d.lead ∧ d.staged = none ∧ d.f + 1 = d.length - d.lead) } := by
  rw [makeOwed_inside 0 h, makeOwed_zero, plainAdvance_eq]

theorem makeOwed_two_inside {d : DirState} (h : d.f + 1 < d.length) :
    DirState.makeOwed 2 d =
      { d with
        f := d.f + 2, gen := keyStep d.step (keyStep d.step d.gen), owed := 0,
        warnDue := d.warnDue
          || decide (0 < d.lead ∧ d.staged = none ∧ (d.f + 1 = d.length - d.lead ∨ d.f + 2 = d.length - d.lead)) } := by
  have first : d.f < d.length := by omega
  have second : d.plainAdvance.f < d.plainAdvance.length := by rwa [plainAdvance_f, plainAdvance_length]
  rw [makeOwed_inside 1 first, makeOwed_inside 0 second, makeOwed_zero, plainAdvance_twice]

/-- The last advance of an epoch made, the rollover stays owed; no warning falls due at the epoch's end. -/
theorem makeOwed_two_last {d : DirState} (h : d.f + 1 = d.length) :
    DirState.makeOwed 2 d = { d with f := d.length, gen := keyStep d.step d.gen, owed := 1 } := by
  have last : d.plainAdvance.f = d.plainAdvance.length := by rwa [plainAdvance_f, plainAdvance_length]
  have unwarned : decide (0 < d.lead ∧ d.staged = none ∧ d.f + 1 = d.length - d.lead) = false :=
    decide_eq_false fun x => by omega
  rw [makeOwed_inside 1 (by omega), makeOwed_at_end 0 last, plainAdvance_eq, unwarned, Bool.or_false, h]

theorem ahead_one_inside {d : DirState} (h : d.f < d.length) : (DirState.ahead 1 d).gen = keyStep d.step d.gen := by
  rw [ahead_inside 0 h, ahead_zero, plainAdvance_gen]

theorem ahead_two_inside {d : DirState} (h : d.f + 1 < d.length) :
    (DirState.ahead 2 d).gen = keyStep d.step (keyStep d.step d.gen) := by
  have second : d.plainAdvance.f < d.plainAdvance.length := by rwa [plainAdvance_f, plainAdvance_length]
  rw [ahead_inside 1 (by omega), ahead_inside 0 second, ahead_zero, plainAdvance_gen, plainAdvance_gen, plainAdvance_step]

theorem ahead_one_at_end {d : DirState} (h : d.f = d.length) :
    (DirState.ahead 1 d).gen = d.nextFirst := by
  rw [ahead_at_end 0 h, ahead_zero, roll_nextFirst]

theorem ahead_two_last {d : DirState} (h : d.f + 1 = d.length) :
    (DirState.ahead 2 d).gen = d.nextFirst := by
  have last : d.plainAdvance.f = d.plainAdvance.length := by rwa [plainAdvance_f, plainAdvance_length]
  rw [ahead_inside 1 (by omega), ahead_at_end 0 last, ahead_zero, roll_nextFirst, DirState.nextFirst,
    plainAdvance_staged, plainAdvance_step, plainAdvance_seed, DirState.nextFirst]

theorem ahead_two_at_end {d : DirState} (h : d.f = d.length)
    (long : 8000 ≤ (d.staged.bind Staged.length).getD d.length) :
    (DirState.ahead 2 d).gen = keyStep ((d.staged.map Staged.step).getD d.step) d.nextFirst := by
  have inside : d.roll.f < d.roll.length := by rw [roll_f, roll_length]; omega
  rw [ahead_at_end 1 h, ahead_one_inside inside, roll_nextFirst, roll_step]

/-! ## A transmitting direction's frame -/

theorem txFrame_early {t : TxState} {n : Nat} (phase : t.phase = .preamble n) (early : n < 23) (code : Code) :
    txFrame t code = ({ t with phase := .preamble (n + 1) }, 90) := by
  simp only [txFrame, phase, if_pos early]

theorem txFrame_24th {t : TxState} (phase : t.phase = .preamble 23) (code : Code) :
    txFrame t code = ({ t with phase := .preamble 24 }, 165) := by
  simp [txFrame, phase]

theorem txFrame_first {t : TxState} (phase : t.phase = .preamble 24) (code : Code) :
    txFrame t code
      = ({ t with dir := { t.dir with owed := 1 } }, scramble code (keyByte (keyStep t.dir.step t.dir.seed))) := by
  simp [txFrame, phase]

theorem txFrame_running {t : TxState} (phase : t.phase = .running) (code : Code) :
    txFrame t code
      = ({ t with dir := DirState.makeOwed 1 t.dir }, scramble code (keyByte (DirState.ahead 1 t.dir).gen)) := by
  simp only [txFrame, phase]

/-! ## A receiving direction's frame -/

section
variable {r : RxState} (huntTime : Nat) (lost guardOn : Bool) (code : Code)

theorem rxFrame_repeated (phase : r.phase = .running) :
    rxFrame huntTime lost guardOn code .repeated r = { rx := r, delivered := some r.last, aligned := none } := by
  simp only [rxFrame, phase]

theorem rxFrame_normal (phase : r.phase = .running) :
    rxFrame huntTime lost guardOn code .normal r =
      { rx := (r.receive guardOn 1 code).1, delivered := some (r.receive guardOn 1 code).2, aligned := none } := by
  simp only [rxFrame, phase]

theorem rxFrame_deleted (phase : r.phase = .running) :
    rxFrame huntTime lost guardOn code .deleted r =
      { rx := (r.receive guardOn 2 code).1, delivered := some (r.receive guardOn 2 code).2, aligned := none } := by
  simp only [rxFrame, phase]

variable {h : Hunt}

theorem rxFrame_hunting (phase : r.phase = .hunt h) (open_ : h.endSeen = false) (slip : Slip) :
    rxFrame huntTime lost guardOn code slip r =
      { rx := { r with phase := .hunt (h.frame huntTime lost code) }, delivered := none, aligned := none } := by
  simp only [rxFrame, phase, open_, Bool.false_eq_true, if_false]

theorem rxFrame_heldBack (phase : r.phase = .hunt h) (seen : h.endSeen = true) :
    rxFrame huntTime lost guardOn code .repeated r = { rx := r, delivered := none, aligned := none } := by
  simp only [rxFrame, phase, seen, if_true]

theorem rxFrame_aligns (phase : r.phase = .hunt h) (seen : h.endSeen = true) (deleted : Bool) :
    rxFrame huntTime lost guardOn code (if deleted then .deleted else .normal) r =
      { rx := (r.align guardOn deleted code).1, delivered := some (r.align guardOn deleted code).2,
        aligned := some (h.elapsed, deleted) } := by
  cases deleted <;> simp only [rxFrame, phase, seen, if_true, Bool.false_eq_true, if_false]

end

/-- The first direction in force after an alignment: index 1, or 2 with a frame deleted (R114). -/
def DirState.aligned (d : DirState) (deleted : Bool) : DirState :=
  if deleted then (d.epochStart 1).advance else d.epochStart 1

/-- What an alignment leaves: RUNNING, the code held and counted by an enabled guard. -/
theorem align_eq (r : RxState) (guardOn deleted : Bool) (code : Code) :
    r.align guardOn deleted code =
      ({ phase := .running, dir := r.dir.aligned deleted,
         last := descramble code (keyByte (r.dir.aligned deleted).gen),
         guardSum := if guardOn then magnitude (descramble code (keyByte (r.dir.aligned deleted).gen)) else 0,
         guardCount := if guardOn then 1 else 0, strikes := 0 },
        descramble code (keyByte (r.dir.aligned deleted).gen)) := by
  have same : (if deleted then (r.dir.epochStart 1).advance else r.dir.epochStart 1) = r.dir.aligned deleted := rfl
  unfold RxState.align
  simp only [same]
  generalize r.dir.aligned deleted = d
  generalize descramble code (keyByte d.gen) = c
  cases guardOn <;> simp [RxState.count]

theorem aligned_first (d : DirState) : d.aligned false = { d with f := 1, epoch := 1, gen := keyStep d.step d.seed } := by
  rw [DirState.aligned, if_neg (by simp), DirState.epochStart]

/-- With a frame deleted the second index is reached; the warning index lies further on. -/
theorem aligned_second {d : DirState} (long : d.lead + 8000 ≤ d.length) :
    d.aligned true = { d with f := 2, epoch := 1, gen := keyStep d.step (keyStep d.step d.seed) } := by
  have inside : (d.epochStart 1).f < (d.epochStart 1).length := by rw [epochStart_f, epochStart_length]; omega
  have unwarned : decide (0 < (d.epochStart 1).lead ∧ (d.epochStart 1).staged = none
      ∧ (d.epochStart 1).f + 1 = (d.epochStart 1).length - (d.epochStart 1).lead) = false :=
    decide_eq_false fun x => by rw [epochStart_f, epochStart_length, epochStart_lead] at x; omega
  rw [DirState.aligned, if_pos rfl, DirState.advance, if_pos inside, plainAdvance_eq, unwarned, Bool.or_false,
    DirState.epochStart]

/-! ## The far end -/

/-- A code scrambled and descrambled with one byte is the code (R22). -/
theorem descramble_scramble (c k : Code) : descramble (scramble c k) k = c := BitVec.add_sub_cancel c k

theorem keyStep_toNat (step : Word16) (x : Word32) :
    (keyStep step x).toNat = (x.toNat * 743605 + (2 * step.toNat + 1)) % 4294967296 := by
  have constant : (743605#32).toNat = 743605 := by decide
  rw [keyStep, BitVec.toNat_add, BitVec.toNat_mul, constant, BitVec.toNat_ofNat, ← Nat.add_mod]

theorem keyByte_toNat (x : Word32) : (keyByte x).toNat = x.toNat / 16777216 := by
  have := x.isLt
  rw [keyByte, BitVec.extractLsb'_toNat, Nat.shiftRight_eq_div_pow]
  omega

theorem scramble_toNat (c k : Code) : (scramble c k).toNat = (c.toNat + k.toNat) % 256 := BitVec.toNat_add c k

theorem descramble_toNat (c k : Code) : (descramble c k).toNat = (c.toNat + 256 - k.toNat) % 256 := by
  have := k.isLt
  rw [descramble, BitVec.toNat_sub]
  congr 1
  omega

/-- A frame without a slip, sent by a RUNNING direction and received by a RUNNING one in step with it. -/
theorem received_in_step {tx : TxState} {rx : RxState} (huntTime : Nat) (lost guardOn : Bool) (code : Code)
    (sends : tx.phase = .running) (receives : rx.phase = .running) (same : tx.dir = rx.dir) :
    (rxFrame huntTime lost guardOn (txFrame tx code).2 .normal rx).delivered = some code
      ∧ (rxFrame huntTime lost guardOn (txFrame tx code).2 .normal rx).rx.dir = (txFrame tx code).1.dir := by
  rw [txFrame_running sends, rxFrame_normal _ _ _ _ receives, receive_eq, same]
  simp only [descramble_scramble, and_self]

/-- Settles O24: the two ends in step, the first frame of an epoch, and the arithmetic. -/
theorem farEndHearsWhatWasSent : Obligations.FarEndHearsWhatWasSent := by
  unfold Obligations.FarEndHearsWhatWasSent
  refine ⟨fun tx rx huntTime lost guardOn code => received_in_step huntTime lost guardOn code, ?_, ?_,
    keyByte_toNat, ?_,
    fun c k => ⟨scramble_toNat c k, descramble_toNat c k⟩⟩
  · intro tx rx h huntTime lost guardOn code sent hunting seen seed step
    have aligns : rxFrame huntTime lost guardOn (txFrame tx code).2 .normal rx = _ :=
      rxFrame_aligns huntTime lost guardOn (txFrame tx code).2 hunting seen false
    rw [aligns, align_eq, txFrame_first sent, seed, step, aligned_first]
    simp only [descramble_scramble, and_self]
  · exact fun step x => ⟨rfl, keyStep_toNat step x⟩
  · exact fun step seed n => ⟨keySteps_zero step seed, keySteps_succ step seed n⟩

/-! ## The preamble -/

/-- The hunt after a code of 90 on an UP highway: the run one longer, held at 8. -/
theorem frame_run {h : Hunt} (huntTime : Nat) (open_ : h.endSeen = false) :
    (h.frame huntTime false 90).run = min 8 (h.run + 1) ∧ (h.frame huntTime false 90).endSeen = false := by
  simp only [Hunt.frame, Hunt.examine, Bool.false_eq_true, if_false, if_true]
  split_ifs <;> exact ⟨rfl, open_⟩

/-- The hunt after the code 165 with the run at 8: the preamble's end is seen. -/
theorem frame_end {h : Hunt} (huntTime : Nat) (full : h.run = 8) : (h.frame huntTime false 165).endSeen = true := by
  simp only [Hunt.frame, Hunt.examine, Bool.false_eq_true, if_false]
  split_ifs <;> simp_all

/-- One frame of a preamble, sent and received without a slip. -/
def preambleFrame (huntTime : Nat) (guardOn : Bool) (x : TxState × RxState) (code : Code) : TxState × RxState :=
  ((txFrame x.1 code).1, (rxFrame huntTime false guardOn (txFrame x.1 code).2 .normal x.2).rx)

/-- A hunt that has received the first `n` frames of a preamble: the run has grown by as many, held at 8. -/
def Hunt.Heard (h : Hunt) (n : Nat) : Prop := h.endSeen = false ∧ min 8 n ≤ h.run ∧ (0 < n → h.run ≤ 8)

/-- What the frames of a preamble from number `n` on leave, before its 24th. -/
theorem preambleFrames_run (huntTime : Nat) (guardOn : Bool) (codes : List Code) :
    ∀ (n : Nat) (x : TxState × RxState) (h : Hunt), n + codes.length ≤ 23 → x.1.phase = .preamble n →
      x.2.phase = .hunt h →
      h.Heard n →
      (codes.foldl (preambleFrame huntTime guardOn) x).1.phase = .preamble (n + codes.length)
        ∧ ∃ k, (codes.foldl (preambleFrame huntTime guardOn) x).2.phase = .hunt k ∧ k.Heard (n + codes.length) := by
  induction codes with
  | nil => exact fun n x h _ sends hunts heard => ⟨sends, h, hunts, heard⟩
  | cons c codes ih =>
    intro n x h room sends hunts ⟨open_, run, _⟩
    rw [List.length_cons] at room ⊢
    obtain ⟨longer, still⟩ := frame_run huntTime open_
    have sent : (preambleFrame huntTime guardOn x c).1.phase = .preamble (n + 1) := by
      rw [preambleFrame, txFrame_early sends (by omega)]
    have received : (preambleFrame huntTime guardOn x c).2.phase = .hunt (h.frame huntTime false 90) := by
      rw [preambleFrame, txFrame_early sends (by omega), rxFrame_hunting _ _ _ _ hunts open_]
    have heard : (h.frame huntTime false 90).Heard (n + 1) := ⟨still, by omega, fun _ => by omega⟩
    rw [List.foldl_cons, show n + (codes.length + 1) = n + 1 + codes.length by omega]
    exact ih (n + 1) _ _ (by omega) sent received heard

/-- Settles O25: 23 frames of 90 fill the run, the 24th shows the end. -/
theorem preambleIsSentAndFound : Obligations.PreambleIsSentAndFound := by
  unfold Obligations.PreambleIsSentAndFound
  intro tx rx h huntTime guardOn codes sends hunts open_ whole
  obtain ⟨front, last, rfl⟩ : ∃ front last, codes = front ++ [last] :=
    ⟨_, _, (List.dropLast_append_getLast (List.ne_nil_of_length_pos (by omega))).symm⟩
  have short : front.length = 23 := by simpa using whole
  show ((front ++ [last]).foldl (preambleFrame huntTime guardOn) (tx, rx)).1.phase = .preamble 24
    ∧ ∃ k, ((front ++ [last]).foldl (preambleFrame huntTime guardOn) (tx, rx)).2.phase = .hunt k ∧ k.endSeen = true
  obtain ⟨sent, k, hunting, still, run, atMost⟩ :=
    preambleFrames_run huntTime guardOn front 0 (tx, rx) h (by omega) sends hunts ⟨open_, by omega, by omega⟩
  rw [List.foldl_append, List.foldl_cons, List.foldl_nil]
  generalize front.foldl (preambleFrame huntTime guardOn) (tx, rx) = x at sent hunting
  rw [short] at sent run atMost
  have full : k.run = 8 := by omega
  rw [preambleFrame, txFrame_24th sent, rxFrame_hunting _ _ _ _ hunting still]
  exact ⟨rfl, _, rfl, frame_end huntTime full⟩

end Sys2Proof.Machine
end

