-- ==== Sys2Proof/Proofs/KeySteps.lean ====
section
/-! PROOF. The privacy unit's own steps: the epoch start, the warning, the hunt report, the rollover and the end of a
guard window (O27 to O30). -/

namespace Sys2Proof.Machine

open Table (find put del mapAll sorted)

/-! ## The preamble's end -/

/-- Settles O27. -/
theorem preambleEndStartsTheFirstEpoch : Obligations.PreambleEndStartsTheFirstEpoch := by
  unfold Obligations.PreambleEndStartsTheFirstEpoch
  intro s i c found sent owed
  show Host.Outcome.next (preambleEnd i (beginWork s)) = _
  simp only [preambleEnd, found, sent]
  rw [if_pos ⟨le_refl 24, by omega⟩, DirState.epochStart]

/-! ## The warning and the hunt report -/

/-- When the advance of a frame makes the warning due (R101). -/
theorem warned_iff {d : DirState} (fresh : d.warnDue = false) :
    (d.warnDue || decide (0 < d.lead ∧ d.staged = none ∧ d.f + 1 = d.length - d.lead)) = true
      ↔ 0 < d.lead ∧ d.f + 1 = d.length - d.lead ∧ d.staged = none := by
  rw [fresh, Bool.false_or, decide_eq_true_iff]
  tauto

theorem advance_inside {d : DirState} (h : d.f < d.length) : d.advance = d.plainAdvance := if_pos h

/-- The frame's one advance inside the epoch is an advance with none left owed. -/
theorem makeOwed_one_eq_advance {d : DirState} (h : d.f < d.length) :
    DirState.makeOwed 1 d = { d.advance with owed := 0 } := by
  rw [makeOwed_inside 0 h, makeOwed_zero, advance_inside h]

theorem makeOwed_one_warned {d : DirState} (h : d.f < d.length) (fresh : d.warnDue = false) :
    (DirState.makeOwed 1 d).warnDue = true ↔ 0 < d.lead ∧ d.f + 1 = d.length - d.lead ∧ d.staged = none := by
  rw [makeOwed_one_inside h]
  exact warned_iff fresh

theorem contextLinks_found {s : State} {c : Context} {p : Path} (path : find s.paths c.path = some p) :
    contextLinks s c = p.controller.links := by
  rw [contextLinks, path]

/-- Settles O28: the warning falls due, is raised; and the hunt report. -/
theorem keyDueAndHuntReportAreRaised : Obligations.KeyDueAndHuntReportAreRaised := by
  unfold Obligations.KeyDueAndHuntReportAreRaised
  refine ⟨⟨⟨?_, ?_, ?_⟩, ?_⟩, ?_⟩
  · intro d inside fresh
    rw [advance_inside inside, plainAdvance_eq]
    exact warned_iff fresh
  · intro x code running inside
    rw [txFrame_running running]
    exact ⟨by rw [makeOwed_one_eq_advance inside], makeOwed_one_warned inside⟩
  · intro x huntTime lost guardOn code running inside
    rw [rxFrame_normal _ _ _ _ running, receive_eq]
    exact ⟨makeOwed_one_eq_advance inside, makeOwed_one_warned inside⟩
  · intro s i d c p found path running due
    show Host.Outcome.next (keyDueWarning i d (beginWork s)) = _
    simp only [keyDueWarning, found]
    rw [if_pos ⟨running, due⟩, contextLinks_found path]
    cases d <;> rfl
  · intro s i c h p found path hunting due
    show Host.Outcome.next (huntReport i (beginWork s)) = _
    simp only [huntReport, found, hunting, due, if_true, contextLinks_found path]
    rfl

/-! ## The rollover -/

/-- A rollover with a half staged takes it up (R98). -/
theorem roll_fresh {d : DirState} {h : Staged} (staged : d.staged = some h) :
    d.roll =
      { d with
        seed := h.seed, step := h.step, length := h.length.getD d.length, lead := h.lead.getD d.lead, staged := none,
        f := 1, epoch := nextEpoch d.epoch, gen := keyStep h.step h.seed } := by
  simp only [DirState.roll, staged]
  rw [DirState.epochStart]

/-- One without starts the half in force again (R99). -/
theorem roll_stale {d : DirState} (staged : d.staged = none) :
    d.roll = { d with f := 1, epoch := nextEpoch d.epoch, gen := keyStep d.step d.seed } := by
  unfold DirState.roll
  split
  · rename_i h e; rw [staged] at e; cases e
  · rw [DirState.epochStart]

/-- The second advance after a rollover reaches index 2, short of the warning index. -/
theorem makeOwed_second {d : DirState} (first : d.f = 1) (long : d.lead + 8000 ≤ d.length) :
    DirState.makeOwed 1 d = { d with f := 2, gen := keyStep d.step d.gen, owed := 0 } := by
  have unwarned : decide (0 < d.lead ∧ d.staged = none ∧ d.f + 1 = d.length - d.lead) = false :=
    decide_eq_false fun x => by omega
  rw [makeOwed_one_inside (by omega), unwarned, Bool.or_false, first]

/-- A rollover and the second of two owed advances, with a half staged and without one. -/
theorem roll_fresh_second {d : DirState} {h : Staged} (staged : d.staged = some h)
    (long : h.lead.getD d.lead + 8000 ≤ h.length.getD d.length) :
    DirState.makeOwed 1 d.roll =
      { d with
        seed := h.seed, step := h.step, length := h.length.getD d.length, lead := h.lead.getD d.lead, staged := none,
        f := 2, epoch := nextEpoch d.epoch, gen := keyStep h.step (keyStep h.step h.seed), owed := 0 } := by
  rw [roll_fresh staged]
  generalize keyStep h.step h.seed = g
  rw [makeOwed_second (by rfl) (by exact long)]

theorem roll_stale_second {d : DirState} (staged : d.staged = none) (long : d.lead + 8000 ≤ d.length) :
    DirState.makeOwed 1 d.roll =
      { d with f := 2, epoch := nextEpoch d.epoch, gen := keyStep d.step (keyStep d.step d.seed), owed := 0 } := by
  rw [roll_stale staged]
  generalize keyStep d.step d.seed = g
  rw [makeOwed_second (by rfl) (by exact long)]

/-- A rollover that is due, with the direction after the rest of the frame's advances. -/
theorem exec_rollover {s : State} {i : Nat} {d : Dir} {c : Context} {p : Path}
    (found : find (beginWork s).ctxs i = some c) (path : find (beginWork s).paths c.path = some p)
    (running : c.running d = true) (owed : 0 < (c.dir d).owed) (atEnd : (c.dir d).f = (c.dir d).length) :
    exec (.rollover i d) s = .next (surveyTrigger (.rollover i d)
      (raiseOn
        (.keyRolled i c.path d (c.dir d).roll.epoch (c.dir d).staged.isNone ((c.dir d).roll.length / 8000)
          ((c.dir d).roll.lead / 8000))
        p.controller.links
        ((beginWork s).setCtx i
          (if (c.dir d).staged.isNone then
            (c.setDir d (DirState.makeOwed ((c.dir d).owed - 1) (c.dir d).roll)).flagKeyStale
          else c.setDir d (DirState.makeOwed ((c.dir d).owed - 1) (c.dir d).roll))))) := by
  show Host.Outcome.next (rollover i d (beginWork s)) = _
  simp only [rollover, found]
  rw [if_pos ⟨running, owed, by omega⟩, contextLinks_found path]
  rfl

theorem setDir_flags (c : Context) (d : Dir) (x : DirState) : (c.setDir d x).flags = c.flags := by cases d <;> rfl

theorem nextEpoch_eq (n : Nat) : (if n < 4294967295 then n + 1 else 1) = nextEpoch n := rfl

/-- Settles O29: fresh and stale, with one advance owed and with two. -/
theorem rolloverStartsTheNextEpoch : Obligations.RolloverStartsTheNextEpoch := by
  unfold Obligations.RolloverStartsTheNextEpoch
  constructor
  · intro s i d c p found path running owed atEnd
    constructor
    · intro h staged
      rw [exec_rollover found path running (by omega) atEnd, owed, roll_fresh staged, staged, makeOwed_zero]
      rw [nextEpoch_eq]
      generalize nextEpoch (c.dir d).epoch = n
      generalize keyStep h.step h.seed = g
      rfl
    · intro staged
      have unstaged : (c.dir d).staged.isNone = true := by rw [staged]; rfl
      rw [exec_rollover found path running (by omega) atEnd, owed, roll_stale staged, unstaged, if_pos rfl, makeOwed_zero]
      rw [nextEpoch_eq]
      generalize nextEpoch (c.dir d).epoch = n
      generalize keyStep (c.dir d).step (c.dir d).seed = g
      rw [Context.flagKeyStale, setDir_flags]
  · intro s i d c p found path running owed atEnd
    constructor
    · intro h staged long
      rw [exec_rollover found path running (by omega) atEnd, owed, roll_fresh_second staged long, roll_fresh staged, staged]
      rw [nextEpoch_eq]
      generalize nextEpoch (c.dir d).epoch = n
      generalize keyStep h.step h.seed = g
      generalize keyStep h.step g = k
      rfl
    · intro staged long
      have unstaged : (c.dir d).staged.isNone = true := by rw [staged]; rfl
      rw [exec_rollover found path running (by omega) atEnd, owed, roll_stale_second staged long, roll_stale staged,
        unstaged, if_pos rfl]
      rw [nextEpoch_eq]
      generalize nextEpoch (c.dir d).epoch = n
      generalize keyStep (c.dir d).step (c.dir d).seed = g
      generalize keyStep (c.dir d).step g = k
      rw [Context.flagKeyStale, setDir_flags]

/-! ## The guard window -/

section
variable {s : State} {i : Nat} {c : Context}

/-- A mean at or below the ceiling clears the strikes. -/
theorem judgeWindow_low (found : find s.ctxs i = some c) (low : c.rx.guardSum / 64 ≤ c.ceiling) :
    judgeWindow i s = s.setCtx i { c with rx := { c.rx with guardSum := 0, guardCount := 0, strikes := 0 } } := by
  have below : ¬ c.ceiling < c.rx.guardSum / 64 := by omega
  simp only [judgeWindow, found, below, false_and, if_false]

/-- A mean above it adds a strike, below the limit. -/
theorem judgeWindow_strike (found : find s.ctxs i = some c) (high : c.ceiling < c.rx.guardSum / 64)
    (few : c.rx.strikes + 1 < c.strikesLimit) :
    judgeWindow i s
      = s.setCtx i { c with rx := { c.rx with guardSum := 0, guardCount := 0, strikes := c.rx.strikes + 1 } } := by
  simp only [judgeWindow, found, if_pos high]
  exact if_neg fun x => by omega

/-- The strike that reaches the limit ends the synchronisation. -/
theorem judgeWindow_last (found : find s.ctxs i = some c) (high : c.ceiling < c.rx.guardSum / 64)
    (last : c.strikesLimit ≤ c.rx.strikes + 1) :
    judgeWindow i s = loseSync i c (.guard (c.rx.guardSum / 64) c.strikesLimit) s := by
  simp only [judgeWindow, found, if_pos high]
  exact if_pos ⟨high, last⟩

end

/-- Settles O30: the steps of the frame's advances one after another, then the window judged. -/
theorem guardWindowIsJudged : Obligations.GuardWindowIsJudged := by
  unfold Obligations.GuardWindowIsJudged
  constructor
  · intro s i c p found path running full
    have begun := beginWork_held s
    generalize begins : beginWork s = v at found path begun
    have kept1 := keyDueWarning_guard i .tx v
    have kept2 := kept1.trans (rollover_guard i .tx _)
    have kept3 := kept2.trans (keyDueWarning_guard i .rx _)
    have kept4 := kept3.trans (rollover_guard i .rx _)
    have again {u : State} (k : GuardKept i v u) : beginWork u = u := beginWork_of_begun (by rw [k.work, begun])
    obtain ⟨d, found', same⟩ := kept4.ctx c found
    have judged : exec (.guardWindowEnd i) s = .next (judgeWindow i (keyAdvances i v)) := by
      show Host.Outcome.next (guardWindowEnd i (beginWork s)) = _
      rw [begins, guardWindowEnd, if_pos]
      simp [windowFull, found, Context.running, running, full]
    have advanced : find (keyAdvances i v).ctxs i = some d := found'
    have path' : find (keyAdvances i v).paths d.path = some p := by
      rw [same.path]; exact (congrArg (find · c.path) kept4.paths).trans path
    refine ⟨_, _, _, keyAdvances i v, d, congrArg (fun x => Host.Outcome.next (keyDueWarning i .tx x)) begins,
      congrArg (fun x => Host.Outcome.next (rollover i .tx x)) (again kept1),
      congrArg (fun x => Host.Outcome.next (keyDueWarning i .rx x)) (again kept2),
      congrArg (fun x => Host.Outcome.next (rollover i .rx x)) (again kept3), advanced,
      same.path, same.tieSlot, same.ceiling, same.limit, same.phase, same.last, same.sum, same.count,
        same.strikes, ?_, ?_,
      ?_, ?_⟩
    · intro owed warned sends
      have idle : keyAdvances i v = v := by
        refine keyAdvances_fixed found fun x run => ?_
        cases x with
        | tx => exact sends (by simpa [Context.running] using run)
        | rx => exact ⟨owed, warned⟩
      rw [idle, found] at advanced
      exact ⟨idle, (Option.some.inj advanced).symm⟩
    · intro low
      rw [judged, judgeWindow_low advanced (by rw [same.ceiling, same.sum]; exact low)]
    · intro high few
      rw [judged, judgeWindow_strike advanced (by rw [same.ceiling, same.sum]; exact high)
        (by rw [same.limit, same.strikes]; exact few), same.strikes]
    · intro high last
      rw [judged, judgeWindow_last advanced (by rw [same.ceiling, same.sum]; exact high)
        (by rw [same.limit, same.strikes]; omega), loseSync, contextLinks_found path', same.path, same.tieSlot, same.sum,
        same.limit]
      rfl
  · intro s i unfull
    refine congrArg Host.Outcome.next (guardWindowEnd_fixed ?_)
    unfold windowFull
    cases found : find (beginWork s).ctxs i with
    | none => rfl
    | some c =>
      rcases unfull c found with hunting | early
      · simp [Context.running, hunting]
      · simp [early]

end Sys2Proof.Machine
end

