-- ==== Sys2Proof/Proofs/Receivers.lean ====
section
/-! PROOF. The receive directions in a frame (O26): the hunt, the alignment, and the RUNNING frame at each slip indication,
inside an epoch and at its end; and the ports of a frame's processing. -/

namespace Sys2Proof.Machine

open Table (find put del mapAll sorted)

/-! ## The hunt -/

/-- The examination of a code changes the run and the end-seen marker alone. -/
theorem examine_eq (h : Hunt) (lost : Bool) (code : Code) :
    h.examine lost code =
      { h with
        run := if lost then 0 else if code = 90 then min 8 (h.run + 1)
          else if code = 165 ∧ h.run = 8 then h.run else 0,
        endSeen := h.endSeen || decide (lost = false ∧ code = 165 ∧ h.run = 8) } := by
  unfold Hunt.examine
  cases lost with
  | true => simp
  | false =>
    by_cases ninety : code = 90#8
    · subst ninety; simp
    · by_cases last : code = 165#8
      · subst last
        by_cases full : h.run = 8
        · simp [full]
        · simp [full]
      · simp [ninety, last]

/-- A hunt's frame: elapsed, report and examination. -/
theorem hunt_frame_eq (h : Hunt) (huntTime : Nat) (lost : Bool) (code : Code) :
    h.frame huntTime lost code =
      { run := if lost then 0 else if code = 90 then min 8 (h.run + 1) else if code = 165 ∧ h.run = 8 then h.run else 0,
        elapsed := min 240000 (h.elapsed + 1),
        endSeen := h.endSeen || decide (lost = false ∧ code = 165 ∧ h.run = 8),
        reported := h.reported,
        reportDue := h.reportDue
          || decide (8000 * huntTime ≤ min 240000 (h.elapsed + 1) ∧ h.reported = false) } := by
  have inFrames : seconds huntTime = 8000 * huntTime := Nat.mul_comm _ _
  unfold Hunt.frame
  simp only [inFrames]
  by_cases due : 8000 * huntTime ≤ min 240000 (h.elapsed + 1) ∧ h.reported = false
  · rw [if_pos due, examine_eq, decide_eq_true due, Bool.or_true]
  · rw [if_neg due, examine_eq, decide_eq_false due, Bool.or_false]

/-! ## A RUNNING frame -/

/-- What a RUNNING frame of `n` advances leaves and delivers, by the byte that descrambles and the advances made. -/
theorem receive_of {r : RxState} {n : Nat} {code c : Code} {d : DirState} {g : Word32} (guardOn : Bool)
    (gen : (DirState.ahead n r.dir).gen = g) (heard : c = code - g.extractLsb' 24 8)
      (made : DirState.makeOwed n r.dir = d) :
    r.receive guardOn n code =
      ({ r with
          dir := d, last := c, guardSum := r.guardSum + (if guardOn then magnitude c else 0),
          guardCount := r.guardCount + (if guardOn then 1 else 0) }, c) := by
  have key : descramble code (keyByte g) = c := heard.symm
  rw [receive_eq, made, gen, key]

theorem align_of {r : RxState} {deleted : Bool} {code c : Code} {d : DirState} (guardOn : Bool)
    (first : r.dir.aligned deleted = d) (heard : c = code - d.gen.extractLsb' 24 8) :
    r.align guardOn deleted code =
      ({ phase := .running, dir := d, last := c, guardSum := if guardOn then magnitude c else 0,
         guardCount := if guardOn then 1 else 0, strikes := 0 }, c) := by
  have key : descramble code (keyByte d.gen) = c := heard.symm
  rw [align_eq, first, key]

/-- The half in force at the next epoch, as the statements write it. -/
theorem nextFirst_fresh {d : DirState} {h : Staged} (staged : d.staged = some h) : d.nextFirst =
    keyStep h.step h.seed := by
  rw [DirState.nextFirst, staged, Option.map_some, Option.map_some, Option.getD_some, Option.getD_some]

theorem nextFirst_stale {d : DirState} (staged : d.staged = none) : d.nextFirst = keyStep d.step d.seed := by
  rw [DirState.nextFirst, staged, Option.map_none, Option.map_none, Option.getD_none, Option.getD_none]

/-! ## The ports of a frame's processing -/

theorem bridgeFrame_port (heard : Table Code) (b : Nat) (s : State)
    (l : Link) : (bridgeFrame heard b s).port l = s.port l := by
  unfold bridgeFrame
  split
  · simp only []
    rw [(sendLegs_sendsOnly _ _ _ _).ports]
    cases l <;> rfl
  · rfl

theorem surveyCount_port (heard : Table Code) (s : State) (l : Link) : (surveyCount heard s).port l = s.port l := by
  rw [surveyCount_eq]
  cases l <;> rfl

/-- A frame's processing tells ports by its receive directions alone. -/
theorem processFrame_port (s : State) (l : Link) : (processFrame s).port l = s.received.port l := by
  have legs : s.legsSent.port l = s.pathsSent.port l :=
    forEach_keeps (P := fun u => u.port l = s.pathsSent.port l) (fun b u h => (bridgeFrame_port _ b u l).trans h) _ rfl
  have paths : s.pathsSent.port l = s.received.port l := (tiePathFrames_sendsOnly _ _ _).ports l
  rw [processFrame_eq, ← paths, ← legs]
  split
  · cases l <;> rfl
  · rw [surveyCount_port]

/-- An alignment in a frame's receive work tells the links of the path's controller (R125). -/
theorem receiveContext_aligned {s : State} {heard : Table Code} {i : Nat} {c : Context} {p : Path} {n : Nat}
    {deleted : Bool} (found : find s.ctxs i = some c) (path : find s.paths c.path = some p)
    (aligned : (receiveResult s c).aligned = some (n, deleted)) :
    receiveContext i (s, heard)
      = (raiseOn (.rxAligned i c.path c.tieSlot n deleted) p.controller.links
          (s.setCtx i { c with rx := (receiveResult s c).rx }),
        put heard c.tieSlot ((receiveResult s c).delivered.getD 0)) := by
  have number : tieHighway c.tieSlot = c.tieSlot / 32 := rfl
  have result : rxFrame s.huntTime (!(s.highway (c.tieSlot / 32)).up) c.guardOn (s.tieCode c.tieSlot)
      (s.tieRead (c.tieSlot / 32)).slip c.rx = receiveResult s c := rfl
  simp only [receiveContext, found, number, result, aligned, contextLinks_found path]
  rfl

/-- Settles O26: the hunt, the RUNNING frame inside an epoch, the alignment, the frame at an epoch's end, and ports. -/
theorem receiverHuntsAndFollowsTheSlips : Obligations.ReceiverHuntsAndFollowsTheSlips := by
  unfold Obligations.ReceiverHuntsAndFollowsTheSlips
  refine ⟨?_, ?_, ?_, ?_, ?_, ?_⟩
  · intro rx h huntTime lost guardOn code slip hunting open_ short fresh
    refine ⟨h.frame huntTime lost code, ?_⟩
    rw [rxFrame_hunting _ _ _ _ hunting open_, hunt_frame_eq, open_, fresh]
    refine ⟨rfl, rfl, ?_, rfl, ?_, ?_, ?_⟩
    · dsimp only; split_ifs <;> omega
    · simp
    · dsimp only; split_ifs <;> omega
    · simp
  · intro rx huntTime lost guardOn code c g1 g2 running first second
    refine ⟨rxFrame_repeated _ _ _ _ running, fun inside heard => ?_, fun inside heard => ?_⟩
    · rw [rxFrame_normal _ _ _ _ running,
        receive_of guardOn ((ahead_one_inside inside).trans first.symm) heard (makeOwed_one_inside inside), ← first]
    · have twice : keyStep rx.dir.step (keyStep rx.dir.step rx.dir.gen) = g2 := by rw [second, first]
      rw [rxFrame_deleted _ _ _ _ running,
        receive_of guardOn ((ahead_two_inside inside).trans twice) heard (makeOwed_two_inside inside), twice]
  · intro rx h huntTime lost guardOn code c k1 k2 hunting seen first second
    refine ⟨rxFrame_heldBack _ _ _ _ hunting seen, fun heard => ?_, fun heard long => ?_⟩
    · have one : rx.dir.aligned false = { rx.dir with f := 1, epoch := 1, gen := k1 } := by rw [aligned_first, first]
      have aligns : rxFrame huntTime lost guardOn code .normal rx = _ :=
        rxFrame_aligns huntTime lost guardOn code hunting seen false
      rw [aligns, align_of guardOn one heard]
    · have two : rx.dir.aligned true = { rx.dir with f := 2, epoch := 1, gen := k2 } := by
        rw [aligned_second long, second, first]
      have aligns : rxFrame huntTime lost guardOn code .deleted rx = _ :=
        rxFrame_aligns huntTime lost guardOn code hunting seen true
      rw [aligns, align_of guardOn two heard]
  · intro rx huntTime lost guardOn code c k1 k2 running first second
    have nextFirst : rx.dir.nextFirst = k1 := by
      rw [first]
      split
      · rename_i h staged; exact nextFirst_fresh staged
      · rename_i staged; exact nextFirst_stale staged
    refine ⟨fun atEnd heard => ?_, fun last heard => ?_, fun atEnd heard long => ?_, fun room fresh => ?_⟩
    · rw [rxFrame_normal _ _ _ _ running,
        receive_of guardOn ((ahead_one_at_end atEnd).trans nextFirst) heard (makeOwed_at_end 0 atEnd)]
    · rw [rxFrame_deleted _ _ _ _ running,
        receive_of guardOn ((ahead_two_last last).trans nextFirst) heard (makeOwed_two_last last)]
    · have long' : 8000 ≤ (rx.dir.staged.bind Staged.length).getD rx.dir.length := by
        split at long
        · rename_i h staged; rw [staged]; exact long
        · rename_i staged; rw [staged]; exact long
      have nextSecond : keyStep ((rx.dir.staged.map Staged.step).getD rx.dir.step) k1 = k2 := by
        rw [second]
        split
        · rename_i h staged; rw [staged, Option.map_some, Option.getD_some]
        · rename_i staged; rw [staged, Option.map_none, Option.getD_none]
      have gen : (DirState.ahead 2 rx.dir).gen = k2 := by
        rw [ahead_two_at_end atEnd long', nextFirst, nextSecond]
      rw [rxFrame_deleted _ _ _ _ running, receive_of guardOn gen heard (makeOwed_at_end 1 atEnd)]
    · rw [rxFrame_deleted _ _ _ _ running, receive_eq, makeOwed_two_inside (by omega)]
      simp only [fresh, Bool.false_or, decide_eq_true_iff]
  · intro s heard i c p h deleted y found path hunting seen slip result
    have aligned : (receiveResult s c).aligned = some (h.elapsed, deleted) := by
      rw [receiveResult, slip, rxFrame_aligns _ _ _ _ hunting seen]
    subst result
    exact receiveContext_aligned found path aligned
  · intro s l
    rw [processFrame_port, State.received, receiveContexts_eq_foldl]
    rfl

end Sys2Proof.Machine
end

