-- ==== Sys2Proof/Proofs/DrivenSlots.lean ====
section
/-! PROOF. What a frame drives on each slot (O23): each path's work is done once and nothing after it touches its slots. -/

namespace Sys2Proof.Machine

open Table (find put del mapAll sorted)

/-! ## One number of a pass -/

/-- In a pass over numbers listed once, what holds before number `i` until its turn, and what its turn brings about until
the end. -/
theorem forEach_once {f : Nat → State → State} {l : List Nat} {i : Nat} {Q R : State → Prop} (nodup : l.Nodup)
    (listed : i ∈ l)
    (before : ∀ j ∈ l, j ≠ i → ∀ u, Q u → Q (f j u)) (turn : ∀ u, Q u → R (f i u))
    (after : ∀ j ∈ l, j ≠ i → ∀ u, R u → R (f j u)) {s : State} (start : Q s) : R (forEach f l s) := by
  have keeps (P : State → Prop) : ∀ (m : List Nat) (u : State),
    (∀ j ∈ m, ∀ v, P v → P (f j v)) → P u → P (forEach f m u) := by
    intro m
    induction m with
    | nil => exact fun u _ h => h
    | cons j m ih => exact fun u one h => ih _ (fun k mk => one k (by simp [mk])) (one j (by simp) u h)
  obtain ⟨a, b, rfl⟩ := List.append_of_mem listed
  obtain ⟨_, ⟨notB, _⟩, disjoint⟩ := List.nodup_append.1 nodup |>.imp id fun x => x.imp List.nodup_cons.1 id
  have notA : ∀ j ∈ a, j ≠ i := fun j ja => disjoint j ja i (by simp)
  have first := keeps Q a s (fun j ja v => before j (by simp [ja]) (notA j ja) v) start
  rw [forEach_append, forEach_cons]
  refine keeps R b _ (fun j jb v => after j (by simp [jb]) ?_ v) (turn _ first)
  rintro rfl
  exact notB jb

/-! ## Direct paths -/

section
variable (heard : Table Code) {id : Nat} {u : State}

/-- A path that does not hold a slot, or a context, leaves what is driven there, or the context. -/
theorem tiePathFrame_tie_other {n : Nat} (other : ∀ p, find u.paths id = some p → p.kind.tieSlot ≠ some n) :
    find (tiePathFrame heard id u).drivenTie n = find u.drivenTie n := by
  unfold tiePathFrame
  split
  · rename_i p found
    have slot := other p found
    split
    · rename_i k
      rw [k] at slot
      exact Table.find_put_other _ _ fun e => slot (congrArg some e)
    · rename_i k
      rw [k] at slot
      exact transmit_tie_other _ _ _ fun e => slot (congrArg some e)
    · rfl
    · rfl
  · rfl

theorem tiePathFrame_station_other {n : Nat} (other : ∀ p, find u.paths id = some p → p.kind.station ≠ some n) :
    find (tiePathFrame heard id u).drivenStation n = find u.drivenStation n := by
  unfold tiePathFrame
  split
  · rename_i p found
    have slot := other p found
    split
    · rename_i k
      rw [k] at slot
      exact Table.find_put_other _ _ fun e => slot (congrArg some e)
    · rename_i k
      rw [k] at slot
      refine (Table.find_put_other _ _ fun e => slot (congrArg some e)).trans ?_
      rw [transmit_station]
    · rfl
    · rfl
  · rfl

theorem tiePathFrame_ctx_other {i : Nat} (other : ∀ p, find u.paths id = some p → p.kind.code = 0 →
    p.kind.ctx ≠ some i) :
    find (tiePathFrame heard id u).ctxs i = find u.ctxs i := by
  unfold tiePathFrame
  split
  · rename_i p found
    have held := other p found
    split
    · rfl
    · rename_i k
      rw [k] at held
      exact transmit_ctx_other _ _ _ fun e => held rfl (congrArg some e)
    · rfl
    · rfl
  · rfl

variable {p : Path} {station ext tie i : Nat}

theorem tiePathFrame_clear (found : find u.paths id = some p) (kind : p.kind = .tie station ext tie .clear) :
    tiePathFrame heard id u
      = driveStation station (u.tieCode tie) (driveTie tie (u.stationCode station) u) := by
  simp only [tiePathFrame, found, kind]

theorem tiePathFrame_private (found : find u.paths id = some p) (kind : p.kind = .tie station ext tie (.priv i)) :
    tiePathFrame heard id u
      = driveStation station (Table.code heard tie) (transmit i tie (u.stationCode station) u) := by
  simp only [tiePathFrame, found, kind]

end

/-! ## Receive work -/

theorem receiveContext_driven (i : Nat) (x : State × Table Code) :
    (receiveContext i x).1.drivenStation = x.1.drivenStation ∧ (receiveContext i x).1.drivenTie = x.1.drivenTie := by
  simp only [receiveContext]
  split
  · split
    · simp only [raiseOn_drivenStation, raiseOn_drivenTie]
      exact ⟨rfl, rfl⟩
    · exact ⟨rfl, rfl⟩
  · exact ⟨rfl, rfl⟩

theorem receiveContexts_driven (is : List Nat) (x : State × Table Code) :
    (receiveContexts is x).1.drivenStation = x.1.drivenStation ∧
      (receiveContexts is x).1.drivenTie = x.1.drivenTie := by
  induction is generalizing x with
  | nil => exact ⟨rfl, rfl⟩
  | cons i is ih =>
    obtain ⟨station, tie⟩ := receiveContext_driven i x
    obtain ⟨stations, ties⟩ := ih (receiveContext i x)
    exact ⟨stations.trans station, ties.trans tie⟩

/-- The receive directions drive nothing. -/
theorem received_undriven (s : State) : s.received.drivenStation = [] ∧ s.received.drivenTie = [] :=
  receiveContexts_driven _ (s.undriven, [])

theorem received_reads (s : State) : ReadsSame s s.received where
  buffer := by rw [(received_frameOnly s).rest]
  highways := by rw [(received_frameOnly s).rest]
  hunt := by rw [(received_frameOnly s).rest]
  paths := by rw [(received_frameOnly s).rest]

theorem received_bridges (s : State) : s.received.bridges = s.bridges := by
  unfold State.received
  generalize start : (s.undriven, ([] : Table Code)) = x
  have same : x.1.bridges = s.bridges := by rw [← start]; rfl
  rw [← same]
  clear start same
  induction Table.keys s.ctxs generalizing x with
  | nil => rfl
  | cons i is ih =>
    refine (ih _).trans ?_
    simp only [receiveContext]
    split
    · split
      · rw [raiseOn_bridges]; rfl
      · rfl
    · rfl

/-- The receive side of context `i` after a frame's receive work. -/
theorem received_ctx {s : State} {i : Nat} {c : Context} (rise : sorted s.ctxs = true)
    (found : find s.ctxs i = some c) :
    find s.received.ctxs i = some { c with rx := (receiveResult s c).rx } := by
  have same : receiveResult s.undriven c = receiveResult s c := rfl
  obtain ⟨_, _, ctxs, _, _⟩ := receiveContexts_does (Table.keys s.ctxs) s.undriven [] (nodup_keys rise)
    fun j m => Table.find_of_mem_keys m
  refine (ctxs i).trans ?_
  rw [if_pos (Table.mem_keys_of_find found), ← same]
  exact congrArg (Option.map _) found

/-- The code heard on the tie slot of context `i`, which no other context holds. -/
theorem heard_of_alone {s : State} {i : Nat} {c : Context} (rise : sorted s.ctxs = true)
    (found : find s.ctxs i = some c)
    (alone : ∀ e ∈ s.ctxs, e.1 ≠ i → e.2.tieSlot ≠ c.tieSlot) :
    find s.heard c.tieSlot = some ((receiveResult s c).delivered.getD 0) := by
  have same : receiveResult s.undriven c = receiveResult s c := rfl
  obtain ⟨_, _, _, _, heard⟩ := receiveContexts_does (Table.keys s.ctxs) s.undriven [] (nodup_keys rise)
    fun j m => Table.find_of_mem_keys m
  rw [← same]
  exact heard i c (Table.mem_keys_of_find found) found fun j _ other d e => alone (j, d) (Table.mem_of_find e) other

/-- No code is heard on a slot that no context holds. -/
theorem heard_of_unheld {s : State} {n : Nat} (rise : sorted s.ctxs = true) (unheld : ∀ e ∈ s.ctxs, e.2.tieSlot ≠ n) :
    find s.heard n = none := by
  obtain ⟨_, _, _, silent, _⟩ := receiveContexts_does (Table.keys s.ctxs) s.undriven [] (nodup_keys rise)
    fun j m => Table.find_of_mem_keys m
  exact silent n fun j _ d e => unheld (j, d) (Table.mem_of_find e)

/-! ## Legs -/

/-- The legs of every bridge satisfy a property of the bridge's number and their slot. -/
def LegSlots (P : Nat → LegSlot → Prop) (s : State) : Prop := ∀ e ∈ s.bridges, ∀ g ∈ e.2.legs, P e.1 g.slot

theorem measured_slots {P : LegSlot → Prop} {gs : List Leg} (h : ∀ g ∈ gs, P g.slot) (xs : List Int) :
    ∀ g ∈ List.zipWith Leg.measure gs xs, P g.slot := by
  induction gs generalizing xs with
  | nil => simp
  | cons g gs ih =>
    cases xs with
    | nil => simp
    | cons x xs =>
      intro k m
      rcases List.mem_cons.1 m with rfl | m
      · exact h g (by simp)
      · exact ih (fun g' m' => h g' (by simp [m'])) xs k m

theorem pathsSent_bridges (s : State) : s.pathsSent.bridges = s.bridges :=
  (tiePathFrames_sendsOnly _ _ _).bridges.trans (received_bridges s)

/-- A frame's work of a bridge leaves its legs their slots. -/
theorem bridgeFrame_slots {P : Nat → LegSlot → Prop} (heard : Table Code) (b : Nat) {u : State} (legs : LegSlots P u) :
    LegSlots P (bridgeFrame heard b u) := by
  unfold bridgeFrame
  split
  · rename_i x found
    intro e m
    rw [(sendLegs_sendsOnly _ _ _ _).bridges] at m
    rcases mem_put m with rfl | m
    · exact measured_slots (legs _ (Table.mem_of_find found)) _
    · exact legs e m
  · exact legs

/-- What the sending of no leg of bridge `b` changes, its work leaves. -/
theorem bridgeFrame_keeps {α : Type} {F : State → α} {P : LegSlot → Prop} (one : ∀ g c u, P g.slot →
    F (sendLeg g c u) = F u)
    (bridges : ∀ (u : State) (t : Table Bridge), F { u with bridges := t } = F u) (heard : Table Code)
      (b : Nat) {u : State}
    (own : ∀ x, find u.bridges b = some x → ∀ g ∈ x.legs, P g.slot) : F (bridgeFrame heard b u) = F u := by
  unfold bridgeFrame
  split
  · rename_i x found
    exact (sendLegs_keep F (P := fun g => P g.slot) one _ _ (own x found) _ _).trans (bridges _ _)
  · rfl

theorem legsSent_keeps {α : Type} {F : State → α} {P : LegSlot → Prop} (one : ∀ g c u, P g.slot →
    F (sendLeg g c u) = F u)
    (bridges : ∀ (u : State) (t : Table Bridge), F { u with bridges := t } = F u) {s : State}
    (legs : LegSlots (fun _ => P) s) : F s.legsSent = F s.pathsSent := by
  have start : LegSlots (fun _ => P) s.pathsSent := by
    intro e m
    rw [pathsSent_bridges] at m
    exact legs e m
  refine (forEach_keeps (P := fun u => F u = F s.pathsSent ∧ LegSlots (fun _ => P) u)
    (fun b u h => ?_) _ ⟨rfl, start⟩).1
  obtain ⟨same, slots⟩ := h
  have kept := bridgeFrame_keeps one bridges s.heard b fun x found => slots _ (Table.mem_of_find found)
  exact ⟨kept.trans same, bridgeFrame_slots _ b slots⟩

theorem legsSent_tie {s : State} {n : Nat} (free : ∀ e ∈ s.bridges, ∀ g ∈ e.2.legs, ∀ v, g.slot ≠ .tie n v) :
    find s.legsSent.drivenTie n = find s.pathsSent.drivenTie n :=
  legsSent_keeps (F := fun u => find u.drivenTie n) (P := fun slot => ∀ v, slot ≠ .tie n v)
    (fun _ _ _ h => sendLeg_tie_other _ _ h) (fun _ _ => rfl) free

theorem legsSent_station {s : State} {n : Nat} (free : ∀ e ∈ s.bridges, ∀ g ∈ e.2.legs, g.slot ≠ .station n) :
    find s.legsSent.drivenStation n = find s.pathsSent.drivenStation n :=
  legsSent_keeps (F := fun u => find u.drivenStation n) (P := fun slot => slot ≠ .station n)
    (fun _ _ _ h => sendLeg_station_other _ _ h) (fun _ _ => rfl) free

theorem legsSent_ctx {s : State} {i : Nat} (free : ∀ e ∈ s.bridges, ∀ g ∈ e.2.legs, ∀ n, g.slot ≠ .tie n (.priv i)) :
    find s.legsSent.ctxs i = find s.pathsSent.ctxs i :=
  legsSent_keeps (F := fun u => find u.ctxs i) (P := fun slot => ∀ n, slot ≠ .tie n (.priv i))
    (fun _ _ _ h => sendLeg_ctx_other _ _ h) (fun _ _ => rfl) free

/-! ## The frame -/

/-- The survey's work and the frame's marks drive nothing. -/
theorem processFrame_driven (s : State) :
    (processFrame s).drivenStation = s.legsSent.drivenStation ∧ (processFrame s).drivenTie = s.legsSent.drivenTie
      ∧ (processFrame s).ctxs = s.legsSent.ctxs ∧ (processFrame s).bridges = s.legsSent.bridges := by
  rw [processFrame_eq]
  split
  · exact ⟨rfl, rfl, rfl, rfl⟩
  · rw [surveyCount_eq]
    exact ⟨rfl, rfl, rfl, rfl⟩

/-- A slot that no path holds is driven by no path's work. -/
theorem pathsSent_undriven {s : State} {n : Nat} :
    ((∀ e ∈ s.paths, e.2.kind.station ≠ some n) → find s.pathsSent.drivenStation n = none)
      ∧ ((∀ e ∈ s.paths, e.2.kind.tieSlot ≠ some n) → find s.pathsSent.drivenTie n = none) := by
  have reads := received_reads s
  obtain ⟨station, tie⟩ := received_undriven s
  constructor
  · intro free
    refine (forEach_keeps (P := fun u => u.paths = s.paths ∧ find u.drivenStation n = none) (fun id u h => ?_) _
      ⟨reads.paths, by rw [station]; rfl⟩).2
    obtain ⟨paths, none_⟩ := h
    refine ⟨(tiePathFrame_sendsOnly _ id u).reads.paths.trans paths, ?_⟩
    rw [tiePathFrame_station_other _ fun p found => free _ (Table.mem_of_find (paths ▸ found)), none_]
  · intro free
    refine (forEach_keeps (P := fun u => u.paths = s.paths ∧ find u.drivenTie n = none) (fun id u h => ?_) _
      ⟨reads.paths, by rw [tie]; rfl⟩).2
    obtain ⟨paths, none_⟩ := h
    refine ⟨(tiePathFrame_sendsOnly _ id u).reads.paths.trans paths, ?_⟩
    rw [tiePathFrame_tie_other _ fun p found => free _ (Table.mem_of_find (paths ▸ found)), none_]

section
variable {s : State} {id station ext tie : Nat} {p : Path}

/-- A CLEAR TIE path that alone holds its slots exchanges its two codes. -/
theorem pathsSent_clear (found : find s.paths id = some p) (kind : p.kind = .tie station ext tie .clear)
    (alone : ∀ e ∈ s.paths, e.1 ≠ id → e.2.kind.station ≠ some station ∧ e.2.kind.tieSlot ≠ some tie)
    (rise : sorted s.paths = true) :
    find s.pathsSent.drivenTie tie = some (s.stationCode station)
      ∧ find s.pathsSent.drivenStation station = some (s.tieCode tie) := by
  have reads := received_reads s
  have paths : s.received.paths = s.paths := reads.paths
  refine (forEach_once (i := id) (Q := ReadsSame s)
    (R := fun u => ReadsSame s u ∧ find u.drivenTie tie = some (s.stationCode station)
      ∧ find u.drivenStation station = some (s.tieCode tie)) ?_ ?_ ?_ ?_ ?_ reads).2
  · rw [paths]; exact nodup_keys rise
  · rw [paths]; exact Table.mem_keys_of_find found
  · exact fun j _ _ u h => h.trans (tiePathFrame_sendsOnly _ j u).reads
  · intro u h
    refine ⟨h.trans (tiePathFrame_sendsOnly _ id u).reads, ?_⟩
    rw [tiePathFrame_clear _ (by rw [h.paths]; exact found) kind, h.stationCode, h.tieCode]
    exact ⟨Table.find_put_same _ _ _, Table.find_put_same _ _ _⟩
  · intro j _ other u ⟨h, ties, stations⟩
    have free (q : Path) (e : find u.paths j = some q) :=
      alone (j, q) (Table.mem_of_find (h.paths ▸ e)) other
    refine ⟨h.trans (tiePathFrame_sendsOnly _ j u).reads, ?_, ?_⟩
    · rw [tiePathFrame_tie_other _ fun q e => (free q e).2, ties]
    · rw [tiePathFrame_station_other _ fun q e => (free q e).1, stations]

variable {i : Nat} {c : Context}

/-- A PRIVATE TIE path that alone holds its slots and context drives what its directions return and deliver. -/
theorem pathsSent_private (found : find s.paths id = some p) (kind : p.kind = .tie station ext tie (.priv i))
    (ctx : find s.ctxs i = some c) (slot : c.tieSlot = tie) (rise : sorted s.paths = true)
    (ctxsRise : sorted s.ctxs = true)
    (alone : ∀ e ∈ s.paths, e.1 ≠ id →
      e.2.kind.station ≠ some station ∧ e.2.kind.tieSlot ≠ some tie ∧ e.2.kind.ctx ≠ some i)
    (ctxAlone : ∀ e ∈ s.ctxs, e.1 ≠ i → e.2.tieSlot ≠ tie) :
    find s.pathsSent.drivenTie tie = some (txFrame c.tx (s.stationCode station)).2
      ∧ find s.pathsSent.drivenStation station = some ((receiveResult s c).delivered.getD 0)
      ∧ find s.pathsSent.ctxs i
        = some { c with tx := (txFrame c.tx (s.stationCode station)).1, rx := (receiveResult s c).rx } := by
  subst slot
  have reads := received_reads s
  have paths : s.received.paths = s.paths := reads.paths
  have rx := received_ctx ctxsRise ctx
  have heard := heard_of_alone ctxsRise ctx ctxAlone
  refine (forEach_once (i := id)
    (Q := fun u => ReadsSame s u ∧ find u.ctxs i = some { c with rx := (receiveResult s c).rx })
    (R := fun u => ReadsSame s u ∧ find u.drivenTie c.tieSlot = some (txFrame c.tx (s.stationCode station)).2
      ∧ find u.drivenStation station = some ((receiveResult s c).delivered.getD 0)
      ∧ find u.ctxs i
        = some { c with tx := (txFrame c.tx (s.stationCode station)).1, rx := (receiveResult s c).rx })
    ?_ ?_ ?_ ?_ ?_ ⟨reads, rx⟩).2
  · rw [paths]; exact nodup_keys rise
  · rw [paths]; exact Table.mem_keys_of_find found
  · intro j _ other u ⟨h, before⟩
    refine ⟨h.trans (tiePathFrame_sendsOnly _ j u).reads, ?_⟩
    rw [tiePathFrame_ctx_other _ fun q e _ => (alone (j, q) (Table.mem_of_find (h.paths ▸ e)) other).2.2, before]
  · intro u ⟨h, before⟩
    refine ⟨h.trans (tiePathFrame_sendsOnly _ id u).reads, ?_⟩
    rw [tiePathFrame_private _ (by rw [h.paths]; exact found) kind, h.stationCode, transmit, before, Table.code, heard]
    exact ⟨Table.find_put_same _ _ _, Table.find_put_same _ _ _, Table.find_put_same _ _ _⟩
  · intro j _ other u ⟨h, ties, stations, after⟩
    have free (q : Path) (e : find u.paths j = some q) :=
      alone (j, q) (Table.mem_of_find (h.paths ▸ e)) other
    refine ⟨h.trans (tiePathFrame_sendsOnly _ j u).reads, ?_, ?_, ?_⟩
    · rw [tiePathFrame_tie_other _ fun q e => (free q e).2.1, ties]
    · rw [tiePathFrame_station_other _ fun q e => (free q e).1, stations]
    · rw [tiePathFrame_ctx_other _ fun q e _ => (free q e).2.2, after]

end

/-- A frame start holds its processing back until it is done. -/
theorem beginFrame_held (o : FrameOps) (s : State) : (beginFrame o s).work.held = true := by
  rw [beginFrame_eq, raiseSlips_eq]
  rfl

/-- The start of a frame is the same whether its processing comes at once or not. -/
theorem beginFrame_workFirst (codes : List (Nat × Code)) (w later : Bool) (s : State) :
    beginFrame ⟨codes, w, later⟩ s = beginFrame ⟨codes, false, later⟩ s := rfl

/-- Settles O23: CLEAR paths, slots that nothing holds, PRIVATE paths, the transmit direction's frames, and a frame start
with its processing held or done. -/
theorem frameDrivesTheHeldSlots : Obligations.FrameDrivesTheHeldSlots := by
  unfold Obligations.FrameDrivesTheHeldSlots
  refine ⟨?_, ?_, ?_, ?_, ?_⟩
  · intro s id station ext tie p found kind alone rise legs
    obtain ⟨stations, ties, _⟩ := processFrame_driven s
    rw [stations, ties, legsSent_tie fun e m g l => (legs e m g l).2, legsSent_station fun e m g l => (legs e m g l).1]
    exact pathsSent_clear found kind alone rise
  · intro s
    obtain ⟨stations, ties, _⟩ := processFrame_driven s
    rw [stations, ties]
    refine ⟨fun station paths legs => ?_, fun tie paths legs => ?_⟩
    · rw [legsSent_station legs]; exact pathsSent_undriven.1 paths
    · rw [legsSent_tie legs]; exact pathsSent_undriven.2 paths
  · intro s id i station ext tie p c found kind ctx slot rise ctxsRise alone ctxAlone legs y result
    obtain ⟨stations, ties, ctxs, _⟩ := processFrame_driven s
    have same : y = receiveResult s c := by rw [result, receiveResult, slot]
    rw [stations, ties, ctxs, same, legsSent_tie fun e m g l => (legs e m g l).2.1,
      legsSent_station fun e m g l => (legs e m g l).1, legsSent_ctx fun e m g l => (legs e m g l).2.2]
    exact pathsSent_private found kind ctx slot rise ctxsRise alone ctxAlone
  · intro x code
    refine ⟨fun n phase early => txFrame_early phase early code, fun phase => txFrame_24th phase code,
      fun phase => txFrame_first phase code, fun k1 running atEnd first => ?_, fun running inside => ?_⟩
    · have gen : (DirState.ahead 1 x.dir).gen = k1 := by
        rw [ahead_one_at_end atEnd, first]
        split
        · rename_i h staged; exact nextFirst_fresh staged
        · rename_i staged; exact nextFirst_stale staged
      rw [txFrame_running running, gen, makeOwed_at_end 0 atEnd]
      rfl
    · rw [txFrame_running running, ahead_one_inside inside, makeOwed_one_inside inside]
      exact ⟨rfl, rfl, rfl⟩
  · intro s u codes later held
    have begun : beginFrame ⟨codes, false, later⟩ (settle s) = u := by
      rw [exec_frameStart, if_neg Bool.false_ne_true] at held
      exact Host.Outcome.next.inj held
    have same : beginFrame ⟨codes, true, later⟩ (settle s) = u :=
      (beginFrame_workFirst _ _ _ _).trans begun
    have waits : u.work.held = true := by rw [← begun]; exact beginFrame_held _ _
    refine ⟨waits, ?_⟩
    rw [exec_frameStart, if_pos rfl, same, beginWork, if_pos waits]

end Sys2Proof.Machine
end

