-- ==== Sys2Proof/Proofs/Bridges.lean ====
section
/-! PROOF. The conference bridges: what a bridge's work in a frame sends and measures (O31), and the talker of a window
(O32). -/

namespace Sys2Proof.Machine

open Table (find put del mapAll sorted)

/-! ## The mix -/

theorem encodeSample_clamped (x : Int) : encodeSample (max (-3952) (min 3952 x)) = encodeSample x := by
  have once : clampLinear (clampLinear x) = clampLinear x := clampLinear_of_natAbs_le (natAbs_clampLinear_le x)
  rw [← clampLinear_eq_max_min]
  simp only [encodeSample, once]

theorem legOutput_eq (before after : List Int) (own : Int) :
    legOutput (before ++ own :: after) before.length = encodeSample (max (-3952)
      (min 3952 (before.sum + after.sum))) := by
  rw [encodeSample_clamped, legOutput, sumOfOthers, List.eraseIdx_append_of_length_le (le_refl _), Nat.sub_self,
    List.eraseIdx_cons_zero, List.sum_append]

/-- The input of a leg in a frame of `s` (R140). -/
def State.input (s : State) (g : Leg) : Int := legInput s s.heard g

/-- Every leg measured, and every contribution to the mix. -/
def measured (s : State) (gs : List Leg) : List Leg := gs.map fun g => { g with sum := g.sum + (s.input g).natAbs }
def contributions (s : State) (gs : List Leg) : List Int := gs.map fun g => contribution g (s.input g)

theorem legInput_reads {s u : State} (h : ReadsSame s u) (g : Leg) : legInput u s.heard g = s.input g := by
  unfold State.input legInput
  simp only [h.stationCode, h.tieCode]

/-- A bridge's work in a frame, by the inputs of its legs. -/
theorem bridgeFrame_found {s u : State} {b : Nat} {x : Bridge} (reads : ReadsSame s u)
    (found : find u.bridges b = some x) :
    bridgeFrame s.heard b u =
      sendLegs (contributions s x.legs) 0 x.legs
        { u with
          bridges := put u.bridges b { x with legs := measured s x.legs, windowCount := x.windowCount + 1 } } := by
  have inputs : x.legs.map (legInput u s.heard) = x.legs.map s.input :=
    List.map_congr_left fun g _ => legInput_reads reads g
  have measures : List.zipWith Leg.measure x.legs (x.legs.map s.input) = measured s x.legs := by
    rw [List.zipWith_map_right, List.zipWith_self]; rfl
  have contributes : List.zipWith contribution x.legs (x.legs.map s.input) = contributions s x.legs := by
    rw [List.zipWith_map_right, List.zipWith_self]; rfl
  simp only [bridgeFrame, found, inputs, measures, contributes]

theorem pathsSent_reads (s : State) : ReadsSame s s.pathsSent :=
  (received_reads s).trans (tiePathFrames_sendsOnly _ _ _).reads

/-- A property of the slots of every bridge's legs but those of `b`. -/
def OffBridge (b : Nat) (P : LegSlot → Prop) (j : Nat) (slot : LegSlot) : Prop := j ≠ b → P slot

section
variable {s : State} {b : Nat} {x : Bridge}

/-- A bridge after a frame: its legs measured, the window one frame on (R140, R142). -/
theorem legsSent_bridge (rise : sorted s.bridges = true) (found : find s.bridges b = some x) :
    find s.legsSent.bridges b = some { x with legs := measured s x.legs, windowCount := x.windowCount + 1 } := by
  refine forEach_once (i := b) (Q := fun u => ReadsSame s u ∧ find u.bridges b = some x)
    (R := fun u => find u.bridges b = some { x with legs := measured s x.legs, windowCount := x.windowCount + 1 })
    ?_ ?_ ?_ ?_ ?_ ⟨pathsSent_reads s, by rw [pathsSent_bridges]; exact found⟩
  · rw [pathsSent_bridges]; exact nodup_keys rise
  · rw [pathsSent_bridges]; exact Table.mem_keys_of_find found
  · intro j _ other u ⟨reads, here⟩
    exact ⟨reads.trans (bridgeFrame_reads _ _ _), (bridgeFrame_other _ _ (Ne.symm other)).trans here⟩
  · intro u ⟨reads, here⟩
    rw [bridgeFrame_found reads here, (sendLegs_sendsOnly _ _ _ _).bridges]
    exact Table.find_put_same _ _ _
  · exact fun j _ other u here => (bridgeFrame_other _ _ (Ne.symm other)).trans here

/-- What the sending of one leg brings about, where no other leg's sending touches it, stands after the frame. -/
theorem legsSent_hit {α : Type} {F : State → α} {P : LegSlot → Prop} {v : α} {before after : List Leg} {g : Leg}
    (one : ∀ h c u, P h.slot → F (sendLeg h c u) = F u)
    (bridges : ∀ (u : State) (t : Table Bridge), F { u with bridges := t } = F u)
    (rise : sorted s.bridges = true) (found : find s.bridges b = some x) (legs : x.legs = before ++ g :: after)
    (own : ∀ h ∈ before ++ after, P h.slot) (others : ∀ e ∈ s.bridges, e.1 ≠ b → ∀ h ∈ e.2.legs, P h.slot)
    (hit : ∀ u, F u = F s.pathsSent →
      F (sendLeg g (encodeSample (max (-3952) (min 3952 ((contributions s before).sum +
        (contributions s after).sum)))) u) = v) :
    F s.legsSent = v := by
  refine (forEach_once (i := b)
    (Q := fun u => ReadsSame s u ∧ find u.bridges b = some x ∧ LegSlots (OffBridge b P) u ∧ F u = F s.pathsSent)
    (R := fun u => LegSlots (OffBridge b P) u ∧ F u = v)
    ?_ ?_ ?_ ?_ ?_ ⟨pathsSent_reads s, by rw [pathsSent_bridges]; exact found, ?_, rfl⟩).2
  · rw [pathsSent_bridges]; exact nodup_keys rise
  · rw [pathsSent_bridges]; exact Table.mem_keys_of_find found
  · intro j _ other u ⟨reads, here, free, same⟩
    refine ⟨reads.trans (bridgeFrame_reads _ _ _), (bridgeFrame_other _ _ (Ne.symm other)).trans here,
      bridgeFrame_slots _ _ free, ?_⟩
    rw [bridgeFrame_keeps one bridges _ _ fun y f g m => free _ (Table.mem_of_find f) g m other, same]
  · intro u ⟨reads, here, free, same⟩
    refine ⟨bridgeFrame_slots _ _ free, ?_⟩
    have place : (contributions s before).length = before.length := List.length_map _
    have mixed : contributions s x.legs = contributions s before ++ contribution g (s.input g)
      :: contributions s after := by
      rw [legs, contributions, List.map_append, List.map_cons]; rfl
    rw [bridgeFrame_found reads here, legs, sendLegs_append, sendLegs, ← legs, mixed, Nat.zero_add,
      ← place, legOutput_eq]
    refine (sendLegs_keep F (P := fun h => P h.slot) one _ after (fun h m => own h (by simp [m])) _ _).trans (hit _ ?_)
    refine (sendLegs_keep F (P := fun h => P h.slot) one _ before (fun h m => own h (by simp [m])) _ _).trans ?_
    rw [bridges, same]
  · intro j _ other u ⟨free, same⟩
    refine ⟨bridgeFrame_slots _ _ free, ?_⟩
    rw [bridgeFrame_keeps one bridges _ _ fun y f g m => free _ (Table.mem_of_find f) g m other, same]
  · intro e m h mh other
    rw [pathsSent_bridges] at m
    exact others e m other h mh

end

/-- The transmit direction of a context that no direct path holds, before the bridges' work. -/
theorem pathsSent_tx {s : State} {i : Nat} {c : Context} (rise : sorted s.ctxs = true) (found : find s.ctxs i = some c)
    (free : ∀ e ∈ s.paths, e.2.kind.code = 0 → e.2.kind.ctx ≠ some i) :
    (find s.pathsSent.ctxs i).map Context.tx = some c.tx := by
  refine (forEach_keeps (P := fun u => u.paths = s.paths ∧ (find u.ctxs i).map Context.tx = some c.tx)
    (fun id u h => ?_) _
    ⟨(received_reads s).paths, by rw [received_ctx rise found]; rfl⟩).2
  obtain ⟨paths, tx⟩ := h
  refine ⟨(tiePathFrame_sendsOnly _ id u).reads.paths.trans paths, ?_⟩
  rw [tiePathFrame_ctx_other _ fun p f => free _ (Table.mem_of_find (paths ▸ f)), tx]

/-- Settles O31: contributions and outputs; the inputs, the measures, and each leg sent its output. -/
theorem bridgeMixesTheOtherLegs : Obligations.BridgeMixesTheOtherLegs := by
  unfold Obligations.BridgeMixesTheOtherLegs
  refine ⟨fun g x talk => ?_, fun g x listen => ?_, legOutput_eq, fun own => ?_, ?_⟩
  · simp only [contribution, talk]
  · simp only [contribution, listen]
  · have silent : encodeSample 0 = 0 := by decide
    exact silent
  intro s b x rise ctxsRise found
  obtain ⟨stations, ties, ctxs, bridges⟩ := processFrame_driven s
  rw [stations, ties, ctxs, bridges]
  refine ⟨s.input, fun g n slot => ?_, fun g n slot => ?_, ?_, legsSent_bridge rise found, ?_⟩
  · simp only [State.input, legInput, slot]
  · simp only [State.input, legInput, slot]
  · intro g n i j c slot ctx tie alone
    subst tie
    simp only [State.input, legInput, slot, Table.code, heard_of_alone ctxsRise ctx alone]
    rfl
  intro before g after out legs output
  have sent : encodeSample (max (-3952) (min 3952 ((contributions s before).sum +
    (contributions s after).sum))) = out :=
    output.symm
  refine ⟨fun n slot _ own others => ?_, fun n slot _ own others => ?_, fun n i c slot ctx free own others => ?_⟩
  · refine legsSent_hit (F := fun u => find u.drivenStation n) (P := fun slot => slot ≠ .station n)
      (fun _ _ _ h => sendLeg_station_other _ _ h) (fun _ _ => rfl) rise found legs own others fun u _ => ?_
    rw [sent]
    simp only [sendLeg, slot]
    exact Table.find_put_same _ _ _
  · refine legsSent_hit (F := fun u => find u.drivenTie n) (P := fun slot => ∀ v, slot ≠ .tie n v)
      (fun _ _ _ h => sendLeg_tie_other _ _ h) (fun _ _ => rfl) rise found legs own others fun u _ => ?_
    rw [sent]
    simp only [sendLeg, slot]
    exact Table.find_put_same _ _ _
  · have tx := pathsSent_tx ctxsRise ctx fun e m k => (free e m k).2
    have both := legsSent_hit (F := fun u => (find u.drivenTie n, (find u.ctxs i).map Context.tx))
      (P := fun slot => (∀ v, slot ≠ .tie n v) ∧ ∀ m, slot ≠ .tie m (.priv i))
      (v := (some (txFrame c.tx out).2, some (txFrame c.tx out).1))
      (fun _ _ _ h => Prod.ext (sendLeg_tie_other _ _ h.1) (congrArg (Option.map Context.tx)
        (sendLeg_ctx_other _ _ h.2)))
      (fun _ _ => rfl) rise found legs own others fun u same => ?_
    · exact ⟨congrArg Prod.fst both, congrArg Prod.snd both⟩
    · have before_ : (find u.ctxs i).map Context.tx = some c.tx := (congrArg Prod.snd same).trans tx
      obtain ⟨d, found', txSame⟩ := Option.map_eq_some_iff.1 before_
      rw [sent]
      simp only [sendLeg, slot, transmit, found', txSame]
      exact Prod.ext (Table.find_put_same _ _ _) (congrArg (Option.map Context.tx) (Table.find_put_same _ _ _))

/-! ## The talker -/

/-- A leg that a window may choose: TALK, with a mean at or above the threshold (R142). -/
def Leg.Heard (t : Nat) (g : Leg) : Prop := g.mode = .talk ∧ t ≤ g.sum / 64

/-- The talker of a list of legs: the highest mean, the earliest of equals. -/
def Chosen (t : Nat) (gs : List Leg) (pm : Nat × Nat) : Prop :=
  ∃ before g after, gs = before ++ g :: after ∧ pm = (g.path, g.sum / 64) ∧ g.Heard t
    ∧ (∀ h ∈ before, h.Heard t → h.sum / 64 < g.sum / 64) ∧ ∀ h ∈ after, h.Heard t → h.sum / 64 ≤ g.sum / 64

theorem chooseTalker_silent {t : Nat} {g : Leg} (silent : ¬ g.Heard t) (gs : List Leg) :
    chooseTalker t (g :: gs) = chooseTalker t gs := if_neg silent

theorem chooseTalker_heard {t : Nat} {g : Leg} (heard : g.Heard t) (gs : List Leg) :
    chooseTalker t (g :: gs) =
      match chooseTalker t gs with
      | some (p, m) => if g.sum / 64 < m then some (p, m) else some (g.path, g.sum / 64)
      | none => some (g.path, g.sum / 64) := if_pos heard

/-- None is chosen only where none is heard. -/
theorem chooseTalker_none {t : Nat} {gs : List Leg} (h : chooseTalker t gs = none) : ∀ g ∈ gs, ¬ g.Heard t := by
  induction gs with
  | nil => simp
  | cons g gs ih =>
    by_cases heard : g.Heard t
    · rw [chooseTalker_heard heard] at h
      cases later : chooseTalker t gs with
      | none => rw [later] at h; cases h
      | some pm => rw [later] at h; simp only at h; split_ifs at h
    · rw [chooseTalker_silent heard] at h
      exact List.forall_mem_cons.2 ⟨heard, ih h⟩

theorem chosen_of_chooseTalker {t : Nat} {gs : List Leg} {pm : Nat × Nat} (h : chooseTalker t gs = some pm) :
    Chosen t gs pm := by
  induction gs generalizing pm with
  | nil => cases h
  | cons g gs ih =>
    by_cases heard : g.Heard t
    · rw [chooseTalker_heard heard] at h
      cases later : chooseTalker t gs with
      | none =>
        rw [later] at h
        obtain rfl := Option.some.inj h
        exact ⟨[], g, gs, rfl, rfl, heard, by simp, fun k m hk => absurd hk (chooseTalker_none later k m)⟩
      | some qm =>
        obtain ⟨q, m⟩ := qm
        rw [later] at h
        obtain ⟨before, k, after, split_, is, kHeard, lower, notHigher⟩ := ih later
        obtain ⟨rfl, rfl⟩ := Prod.mk.inj is
        simp only at h
        by_cases higher : g.sum / 64 < k.sum / 64
        · rw [if_pos higher] at h
          obtain rfl := Option.some.inj h
          exact ⟨g :: before, k, after, by rw [split_]; rfl, rfl, kHeard,
            List.forall_mem_cons.2 ⟨fun _ => higher, lower⟩, notHigher⟩
        · rw [if_neg higher] at h
          obtain rfl := Option.some.inj h
          refine ⟨[], g, gs, rfl, rfl, heard, by simp, fun l m hl => ?_⟩
          rw [split_] at m
          rcases List.mem_append.1 m with m | m
          · have := lower l m hl; omega
          · rcases List.mem_cons.1 m with rfl | m
            · omega
            · have := notHigher l m hl; omega
    · rw [chooseTalker_silent heard] at h
      obtain ⟨before, k, after, split_, is, kHeard, lower, notHigher⟩ := ih h
      exact ⟨g :: before, k, after, by rw [split_]; rfl, is, kHeard,
        List.forall_mem_cons.2 ⟨fun hg => absurd hg heard, lower⟩, notHigher⟩

theorem chooseTalker_of_chosen {t : Nat} {gs : List Leg} {pm : Nat × Nat} (h : Chosen t gs pm) :
    chooseTalker t gs = some pm := by
  obtain ⟨before, g, after, rfl, rfl, heard, lower, notHigher⟩ := h
  induction before with
  | nil =>
    rw [List.nil_append, chooseTalker_heard heard]
    cases later : chooseTalker t after with
    | none => rfl
    | some qm =>
      obtain ⟨_, k, _, split_, rfl, kHeard, _⟩ := chosen_of_chooseTalker later
      have := notHigher k (by rw [split_]; simp) kHeard
      exact if_neg (by omega)
  | cons h before ih =>
    obtain ⟨first, rest⟩ := List.forall_mem_cons.1 lower
    have later := ih rest
    by_cases hHeard : h.Heard t
    · rw [List.cons_append, chooseTalker_heard hHeard, later]
      exact if_pos (first hHeard)
    · rw [List.cons_append, chooseTalker_silent hHeard, later]

theorem boundary_eq (g : Leg) :
    g.boundary =
      { g with
        gain := (g.staged.map Prod.fst).getD g.gain, mode := (g.staged.map Prod.snd).getD g.mode, staged := none,
        sum := 0 } := by
  obtain ⟨path, slot, mode, gain, staged, sum⟩ := g
  cases staged <;> rfl

/-- Settles O32: the choice characterised, and the boundary's state. -/
theorem windowBoundaryChoosesTheTalker : Obligations.WindowBoundaryChoosesTheTalker := by
  unfold Obligations.WindowBoundaryChoosesTheTalker
  intro s b x found full
  refine ⟨chooseTalker x.threshold x.legs, fun pm => ⟨fun h => ?_, fun h => ?_⟩, ?_⟩
  · obtain ⟨before, g, after, legs, is, ⟨talk, loud⟩, lower, notHigher⟩ := chosen_of_chooseTalker h
    exact ⟨before, g, after, legs, is, talk, loud, fun k m a b => lower k m ⟨a, b⟩, fun k m a b => notHigher k m ⟨a, b⟩⟩
  · obtain ⟨before, g, after, legs, is, talk, loud, lower, notHigher⟩ := h
    exact chooseTalker_of_chosen
      ⟨before, g, after, legs, is, ⟨talk, loud⟩, fun k m a => lower k m a.1 a.2, fun k m a => notHigher k m a.1 a.2⟩
  · have settings : x.legs.map Leg.boundary = x.legs.map fun g =>
        { g with
          gain := (g.staged.map Prod.fst).getD g.gain, mode := (g.staged.map Prod.snd).getD g.mode, staged := none,
          sum := 0 } := List.map_congr_left fun g _ => boundary_eq g
    show Host.Outcome.next (bridgeBoundary b (beginWork s)) = _
    simp only [bridgeBoundary, found]
    rw [if_pos (by omega), settings]
    split_ifs <;> rfl

end Sys2Proof.Machine
end

