-- ==== Sys2Proof/Proofs/Survey.lean ====
section
/-! PROOF. The level survey: what it measures, its triggers, the completion of an entry (O33, O34); and the raising of one
event (O35). -/

namespace Sys2Proof.Machine

open Table (find put del mapAll sorted)

/-! ## Triggers -/

section
variable {s : State} {t : Trigger}

theorem surveyTrigger_other (other : s.survey.trigger ≠ t) : surveyTrigger t s = s := if_neg other

/-- A trigger that the settings name, with no completion due, starts the pass where the survey is not STOPPED. -/
theorem surveyTrigger_named (named : s.survey.trigger = t)
    (undue : ∀ i sum peak n, s.survey.state = .measuring i sum peak n → n < s.survey.window) :
    surveyTrigger t s =
      if s.survey.state = .stopped then s else { s with survey := { s.survey with state := .measuring 1 0 0 0 } } := by
  rw [surveyTrigger, if_pos named]
  simp only [surveyComplete_fixed undue]
  cases s.survey.state <;> simp

end

/-! ## The survey's work in a frame -/

theorem legsSent_reads (s : State) : ReadsSame s s.legsSent :=
  forEach_keeps (P := ReadsSame s) (fun b u h => h.trans (bridgeFrame_reads _ b u)) _ (pathsSent_reads s)

theorem legsSent_survey (s : State) : SurveySame s s.legsSent :=
  SurveySame.trans (v := s.undriven) ⟨rfl, rfl⟩ ((receiveContexts_surveySame _ (s.undriven, [])).trans
    ((forEach_surveySame (tiePathFrame_surveySame _) _ _).trans (forEach_surveySame (bridgeFrame_surveySame _) _ _)))

theorem heard_eq_foldl (s : State) :
    s.heard = ((Table.keys s.ctxs).foldl (fun x i => receiveContext i x)
      ({ s with drivenStation := [], drivenTie := [] }, [])).2 := by
  rw [State.heard, receiveContexts_eq_foldl]
  rfl

/-- The survey and the frame's marks after a frame's processing. -/
theorem processFrame_survey (s : State) :
    (s.work.surveyLater = false → (processFrame s).survey = (surveyCount s.heard s).survey ∧
      (processFrame s).work = s.work)
      ∧ (s.work.surveyLater = true →
        (processFrame s).survey = s.survey ∧ (processFrame s).work = { s.work with surveyOwed := some s.heard }) := by
  obtain ⟨survey, work⟩ := legsSent_survey s
  rw [processFrame_eq]
  constructor
  · intro now
    rw [if_neg (by rw [work, now]; exact Bool.false_ne_true)]
    refine ⟨surveyCount_congr (legsSent_reads s) survey _, ?_⟩
    rw [surveyCount_eq]
    exact work
  · intro later
    rw [if_pos (by rw [work, later])]
    exact ⟨survey, by rw [work]⟩

/-- Settles O33: the count of a frame, the triggers, the code measured, and the work done now or left for later. -/
theorem surveyMeasuresOnTriggers : Obligations.SurveyMeasuresOnTriggers := by
  unfold Obligations.SurveyMeasuresOnTriggers
  refine ⟨⟨?_, ?_⟩, ?_, ?_, ?_, ?_⟩
  · intro s clear i sum peak n e measuring entry
    have larger (m : Nat) : max peak m = if peak < m then m else peak := by split_ifs <;> omega
    simp only [surveyCount, measuring, entry, larger]
  · intro s clear idle
    rcases idle with stopped | standby
    · simp only [surveyCount, stopped]
    · simp only [surveyCount, standby]
  · intro s t
    refine ⟨surveyTrigger_other, fun stopped => ?_, fun named standby => ?_,
      fun i sum peak n named measuring short => ?_⟩
    · by_cases named : s.survey.trigger = t
      · rw [surveyTrigger_named named (by simp [stopped]), if_pos stopped]
      · exact surveyTrigger_other named
    · rw [surveyTrigger_named named (by simp [standby]), if_neg (by simp [standby])]
    · refine (surveyTrigger_named named fun j a b m e => ?_).trans (if_neg (by simp [measuring]))
      rw [measuring] at e
      cases e
      exact short
  · intro s clear n point
    refine ⟨rfl, rfl, fun unheld => ?_, fun c held => ?_⟩
    · simp [surveyCode, unheld]
    · simp [surveyCode, held]
  · intro s heard is
    obtain rfl : heard = s.heard := is.trans (heard_eq_foldl s).symm
    obtain ⟨now, later⟩ := processFrame_survey s
    exact ⟨now, later, fun rise n unheld => heard_of_unheld rise unheld,
      fun i c rise found alone => heard_of_alone rise found alone⟩
  · intro s heard owed
    show Host.Outcome.next (surveyDue (beginWork s)) = _
    simp only [surveyDue, owed]

/-! ## The completion of an entry -/

/-- The verdict on a mean (R152). -/
def Survey.outside (v : Survey) (mean : Nat) : Bool := !(decide (v.low ≤ mean) && decide (mean ≤ v.high))

theorem outside_iff (v : Survey) (mean : Nat) : v.outside mean = false ↔ v.low ≤ mean ∧ mean ≤ v.high := by
  simp [Survey.outside]

theorem admits_iff (r : Report) (outside : Bool) :
    r.admits outside = true ↔ r = .all ∨ (r = .outside ∧ outside = true) ∨ (r = .inside ∧ outside = false) := by
  cases r <;> simp [Report.admits]

/-- An entry whose window is full completes. -/
theorem surveyComplete_full {s : State} {i sum peak : Nat} {e : SurveyEntry}
    (measuring : s.survey.state = .measuring i sum peak s.survey.window) (entry : s.survey.entries[i - 1]? = some e) :
    surveyComplete s =
      (if s.survey.report.admits (s.survey.outside (sum / s.survey.window)) = true then
          raiseOn (.surveyResult i e
            { mean := sum / s.survey.window, peak := peak, at_ := s.frameCount,
              outside := s.survey.outside (sum / s.survey.window) }
            s.survey.window s.survey.low s.survey.high) [.m]
        else id)
        { s with
          survey :=
            { s.survey with
              results := put s.survey.results i
                { mean := sum / s.survey.window, peak := peak, at_ := s.frameCount,
                  outside := s.survey.outside (sum / s.survey.window) },
              state := s.survey.nextState i } } := by
  simp only [surveyComplete, measuring, entry, le_refl, if_true]
  by_cases told : s.survey.report.admits (s.survey.outside (sum / s.survey.window)) = true
  · rw [if_pos told]; exact if_pos told
  · rw [if_neg told]; exact if_neg told

/-- Settles O34. -/
theorem surveyEntryCompletes : Obligations.SurveyEntryCompletes := by
  unfold Obligations.SurveyEntryCompletes
  intro s i sum peak e unowed measuring entry
  generalize begins : beginWork s = v at unowed measuring entry
  refine ⟨v.survey.outside (sum / v.survey.window), outside_iff _ _, ?_⟩
  show Host.Outcome.next (surveyDue (beginWork s)) = _
  rw [begins, surveyDue_unowed unowed, surveyComplete_full measuring entry]
  simp only [admits_iff]
  rfl

/-! ## One event -/

/-- Settles O35: the routing of one event by the port's state and the class's enable. -/
theorem eventIsQueuedOrLost : Obligations.EventIsQueuedOrLost := by
  unfold Obligations.EventIsQueuedOrLost
  intro k l s
  have routed : raiseOn k [l] s = s.setPort l ((s.port l).queueEvent { kind := k, stamp := s.frameCount }) := rfl
  refine ⟨fun shut => ?_, fun up enabled room => ?_, fun up enabled full => ?_, fun e => by cases k <;> rfl⟩
  · refine onPort_fixed (if_neg ?_)
    rintro ⟨up, enabled⟩
    rcases shut with down | off
    · exact down up
    · rw [enabled] at off; cases off
  · have below : (s.port l).events.length < Config.eventQueue := room
    rw [routed, Port.queueEvent, if_pos ⟨up, enabled⟩, if_pos below]
  · have above : ¬ (s.port l).events.length < Config.eventQueue := Nat.not_lt.2 full
    rw [routed, Port.queueEvent, if_pos ⟨up, enabled⟩, if_neg above]

end Sys2Proof.Machine
end

