-- ==== Sys2Proof/Proofs/Failures.lean ====
section
/-! PROOF. The failure of a challenge (O36), the end of a lockout (O37) and an orphan's deadline (O40). -/

namespace Sys2Proof.Machine

open Table (find put del mapAll sorted)

/-! ## A failure -/

theorem seconds_eq (n : Nat) : seconds n = 8000 * n := Nat.mul_comm _ _

theorem exec_challengeExpiry (s : State) (i : Nat) : exec (.challengeExpiry i) s = .next
    (challengeExpiry i (workDue s)) := rfl

/-- The clearing of an extension's path touches other fields of no extension. -/
theorem clearExtPath_ext (p : Option Nat) (cause : ClearCause) (s : State) (j : Nat) :
    ∃ q, (clearExtPath p cause s).ext j = { s.ext j with path := q } := by
  cases p with
  | none => exact ⟨(s.ext j).path, rfl⟩
  | some id =>
    show ∃ q, (clearPath id cause s).ext j = _
    cases found : find s.paths id with
    | none => exact ⟨(s.ext j).path, by rw [clearPath_of_none found]⟩
    | some p =>
      rw [clearPath_ext found]
      split_ifs
      · exact ⟨_, rfl⟩
      · exact ⟨(s.ext j).path, rfl⟩

/-- A failure writes the extension's record, but for the path that a de-admission clears. -/
theorem failChallenge_ext (i : Nat) (ch : Challenge) (cause : FailCause) (s : State) (j : Nat) :
    ∃ q, (failChallenge i ch cause s).ext j =
      { (if i = j then (s.ext i).fail cause s.failLimit (8000 * s.lockoutTime) else s.ext j) with path := q } := by
  have told := (failTold_kept i ch cause s).ext j
  rw [State.ext_setExt, seconds_eq] at told
  rw [failChallenge_eq, ← told]
  split
  · rw [cascade_eq]
    obtain ⟨q, cleared⟩ := clearExtPath_ext (s.ext i).path .deadmitted
      (raiseOn (.deadmitted i cause.deadmit (s.ext i).path) (challengeLinks s ch.issuer) (failTold i ch cause s)) j
    exact ⟨q, by rw [cleared, (raiseOn_kept _ _ _).ext j]⟩
  · exact ⟨_, rfl⟩

theorem failTold_paths (i : Nat) (ch : Challenge) (cause : FailCause)
    (s : State) : (failTold i ch cause s).paths = s.paths := by
  rw [(failTold_kept i ch cause s).rest]
  rfl

/-- An ADMITTED extension that fails has no path left, and its path's record is free. -/
theorem failChallenge_path {i : Nat} {s : State} (law : StationLaw s) (was : (s.ext i).isAdmitted = true)
    (ch : Challenge)
    (cause : FailCause) :
    ((failChallenge i ch cause s).ext i).path = none
      ∧ ∀ id, (s.ext i).path = some id → find (failChallenge i ch cause s).paths id = none := by
  obtain ⟨_, inUse, _⟩ := law
  rw [failChallenge_eq, if_pos was, cascade_eq]
  have told := ((failTold_kept i ch cause s).trans
    (raiseOn_kept (.deadmitted i cause.deadmit (s.ext i).path) (challengeLinks s ch.issuer) _)).ext i
  have paths : (raiseOn (.deadmitted i cause.deadmit (s.ext i).path) (challengeLinks s ch.issuer)
      (failTold i ch cause s)).paths = s.paths := by rw [raiseOn_paths, failTold_paths]
  generalize raiseOn (.deadmitted i cause.deadmit (s.ext i).path) (challengeLinks s ch.issuer)
    (failTold i ch cause s) = u
    at told paths ⊢
  rw [State.ext_setExt, if_pos rfl] at told
  cases inPath : (s.ext i).path with
  | none =>
    refine ⟨?_, fun id e => by cases e⟩
    show (u.ext i).path = none
    rw [told, Ext.fail_path, inPath]
  | some id =>
    obtain ⟨p, found, ext, _⟩ := inUse i id inPath
    have here : find u.paths id = some p := by rw [paths]; exact found
    constructor
    · show ((clearPath id .deadmitted u).ext i).path = none
      rw [clearPath_ext here, if_pos ext]
    · intro k e
      obtain rfl : id = k := Option.some.inj e
      show find (clearPath id .deadmitted u).paths id = none
      rw [clearPath_paths, Table.find_del_same]

theorem fail_eq (e : Ext) (cause : FailCause) (limit lockout : Nat) :
    e.fail cause limit lockout =
      { e with
        challenge := none, failures := e.failures + 1, expired := e.expired || decide (cause = .expired),
        standing := if decide (limit ≤ e.failures + 1) = true then .locked lockout else .idle } := by
  simp only [Ext.fail, decide_eq_true_eq]

/-- What a failure writes and tells before an ADMITTED extension leaves: the record, the change sets, ADMISSION_FAILED
for an expiry, LOCKED_OUT at the limit (R55 to R57). -/
theorem failTold_eq (i : Nat) (ch : Challenge) (cause : FailCause) (s : State) : failTold i ch cause s =
    (let n := (s.ext i).failures + 1
     let locks : Bool := decide (s.failLimit ≤ n)
     let links := challengeLinks s ch.issuer
     let s1 := s.setExt i
       { s.ext i with
         challenge := none, failures := n, expired := (s.ext i).expired || decide (cause = .expired),
         standing := if locks then .locked (8000 * s.lockoutTime) else .idle }
     let s2 := if (s.ext i).isAdmitted || locks then noteChange i s1 else s1
     let s3 := if cause = .expired then raiseOn (.admissionFailed i n locks) links s2 else s2
     if locks then raiseOn (.lockedOut i cause (8000 * s.lockoutTime)) (links ++ [.m]) s3 else s3) := by
  rw [failTold, fail_eq, seconds_eq]

/-- Settles O36: the expiry's frame, what a failure leaves, and its events in order. -/
theorem challengeExpiryIsAFailure : Obligations.ChallengeExpiryIsAFailure := by
  unfold Obligations.ChallengeExpiryIsAFailure
  refine ⟨?_, ?_, ?_, ?_⟩
  · intro s i c pending
    rw [exec_challengeExpiry, challengeExpiry, pending]
    exact ⟨fun now => congrArg _ (if_pos now), fun later => congrArg _ (if_neg later)⟩
  · intro s i c cause law
    obtain ⟨q, own⟩ := failChallenge_ext i c cause s i
    rw [if_pos rfl] at own
    refine ⟨by rw [own]; rfl, by rw [own]; rfl, by rw [own]; rfl, by rw [own]; rfl,
      fun was => failChallenge_path law was c cause, fun j other => ?_⟩
    obtain ⟨r, same⟩ := failChallenge_ext i c cause s j
    rw [same, if_neg (Ne.symm other)]
  · intro s i c cause
    rw [failChallenge_eq, failTold_eq]
    rfl
  · intro s i unchallenged
    rw [exec_challengeExpiry, challengeExpiry, unchallenged]

/-! ## A lockout's end -/

theorem below_in_range {n k : Nat} (h : k < n) : below n k = some k := if_pos h

theorem below_out_of_range {n k : Nat} (h : n ≤ k) : below n k = none := if_neg (Nat.not_lt.2 h)

theorem lockoutExpiry_due {s : State} {i : Nat} (due : (s.ext i).standing = .locked 0) :
    lockoutExpiry i s = endLockout i .timer s := by
  simp only [lockoutExpiry, due]

theorem ownUnlock_locked {x : Word16} {s : State} {n : Nat} (inRange : x.toNat < 2048)
    (locked : (s.ext x.toNat).standing = .locked n) :
    ownUnlock x s = .done .ok [1] (endLockout x.toNat .command s) := by
  have index : below Config.extensions x.toNat = some x.toNat := below_in_range inRange
  simp only [ownUnlock, index, locked]
  rfl

theorem ownUnlock_unlocked {x : Word16} {s : State} (inRange : x.toNat < 2048)
    (unlocked : ∀ n, (s.ext x.toNat).standing ≠ .locked n) :
    ownUnlock x s = .done .ok (num8 (s.ext x.toNat).standing.code) s := by
  have index : below Config.extensions x.toNat = some x.toNat := below_in_range inRange
  simp only [ownUnlock, index]
  split
  · rename_i n e; exact absurd e (unlocked n)
  all_goals rfl

/-- Settles O37: the timer, and UNLOCK by the extension's state. -/
theorem lockoutEnds : Obligations.LockoutEnds := by
  unfold Obligations.LockoutEnds
  refine ⟨?_, ?_, ?_, ?_⟩
  · intro s i due
    show Host.Outcome.next (lockoutExpiry i (workDue s)) = _
    rw [lockoutExpiry_due due]
    rfl
  · intro s t x p n taken inRange locked
    exact exec_eq_answer_of_owner (owner := ownUnlock x) taken rfl rfl rfl rfl (ownUnlock_locked inRange locked)
  · intro s t x p taken inRange unlocked
    refine (exec_eq_answer_of_owner (owner := ownUnlock x) taken rfl rfl rfl rfl
      (ownUnlock_unlocked inRange unlocked)).trans ?_
    refine congrArg (fun body => Host.Outcome.next ((s.taking .m p).answer .m 12 t .ok body)) ?_
    cases ((s.taking .m p).ext x.toNat).standing <;> rfl
  · intro s t x p taken outOfRange
    have none_ : below Config.extensions x.toNat = none := below_out_of_range outOfRange
    refine refusedWith_of_owner (owner := ownUnlock x) taken rfl rfl rfl rfl ?_
    simp only [ownUnlock, none_]

/-! ## An orphan's deadline -/

theorem passes_orphan (x : Link) (d now : Word32) : (Controller.orphan x d).passes now = decide (d = now) := rfl

/-- Settles O40: a TIE path's and a bridge's deadline, and where nothing passes. -/
theorem orphanDeadlinePasses : Obligations.OrphanDeadlinePasses := by
  unfold Obligations.OrphanDeadlinePasses
  have dispatched (r : OrphanRef) (s : State) : exec (.orphanDeadline r) s = .next (orphanDeadline r (workDue s)) := rfl
  refine ⟨?_, ?_, ?_, ?_, ?_⟩
  · intro s id p x d found orphan tie
    simp only [dispatched, orphanDeadline, found, orphan, passes_orphan,
      (isTie_iff p).2 tie, Bool.true_and, decide_eq_true_eq]
  · intro s b y x d found orphan
    simp only [dispatched, orphanDeadline, found, orphan, passes_orphan, decide_eq_true_eq]
  · intro s id p l found controlled
    rw [dispatched, orphanDeadline_path_fixed]
    intro q x d f _ orphan
    rw [found] at f
    obtain rfl := Option.some.inj f
    rw [controlled] at orphan
    cases orphan
  · intro s b y l found controlled
    rw [dispatched, orphanDeadline_bridge_fixed]
    intro q x d f orphan
    rw [found] at f
    obtain rfl := Option.some.inj f
    rw [controlled] at orphan
    cases orphan
  · intro s id p found leg
    rw [dispatched, orphanDeadline_path_fixed]
    intro q x d f tie
    rw [found] at f
    obtain rfl := Option.some.inj f
    exact absurd tie leg

end Sys2Proof.Machine
end

