-- ==== Sys2Proof/Proofs/Completions.lean ====
section
/-! PROOF. The completions of the store engine: a program and an erase (O38), an entry of a bulk load (O39). -/

namespace Sys2Proof.Machine

open Table (find put del mapAll sorted)

/-! ## The command in progress -/

theorem onPort_congr {s : State} {l : Link} {f g : Port → Port} (h : f (s.port l) = g (s.port l)) :
    s.onPort l f = s.onPort l g := by
  rw [State.onPort, State.onPort, h]

/-- A port whose command in progress completes: the response is placed, or discarded with an earlier session. -/
def Port.completed (p : Port) (c : InProgress) (r : Result) (body : List Byte) : Port :=
  { p with
    inProgress := none,
    response := if c.earlier then p.response else some { kind := c.kind, tag := c.tag, result := r, body := body } }

theorem completeCommand_eq {s : State} {l : Link} {c : InProgress} (busy : (s.port l).inProgress = some c) (r : Result)
    (body : List Byte) : completeCommand l r body s = s.onPort l fun p => p.completed c r body := by
  refine onPort_congr ?_
  obtain ⟨kind, tag, earlier⟩ := c
  simp only [busy, Port.completed]
  cases earlier <;> rfl

/-! ## The state where it changed -/

/-- The change sets gain an index, unless `same` says that its state has not changed. -/
def notedUnless (same : Prop) [Decidable same] (i : Nat) : State → State := if same then id else noteChange i

section
variable (same : Prop) [Decidable same] (i : Nat) (s : State)

theorem notedUnless_kept : PortsKept s (notedUnless same i s) := by
  unfold notedUnless
  split
  · exact .refl s
  · exact noteChange_kept i s

/-- Of a port its change set alone. -/
theorem notedUnless_port (l : Link) :
    (notedUnless same i s).port l = { s.port l with changes := ((notedUnless same i s).port l).changes } := by
  unfold notedUnless
  split
  · rfl
  · cases l <;> rfl

theorem mem_notedUnless (l : Link) (j : Nat) :
    j ∈ ((notedUnless same i s).port l).changes ↔ j ∈ (s.port l).changes ∨ (j = i ∧ ¬ same) := by
  unfold notedUnless
  split
  · rename_i h; simp [h]
  · rename_i h
    rw [noteChange, State.port_onPorts]
    simp [h, or_comm]

theorem notedUnless_onPort {f : Port → Port}
    (apart : ∀ p x, f { p with changes := x } = { f p with changes := x }) (kept : ∀ p, (f p).changes = p.changes) :
    (notedUnless same i s).onPort .m f = notedUnless same i (s.onPort .m f) := by
  unfold notedUnless
  split
  · rfl
  · show ({ s with
        portA := _, portB := _, portM := f { s.portM with changes := insertIndex s.portM.changes i } } : State) = _
    rw [apart, ← kept]
    rfl

theorem finishProgram_eq (r : Stored) :
    finishProgram i r s = notedUnless ((s.ext i).standing = .idle) i
      ((programStored i r s).setExt i ((s.ext i).programmed r)) := by
  unfold finishProgram notedUnless
  simp only []
  split <;> rfl

theorem finishErase_eq :
    finishErase i s = notedUnless ((s.ext i).standing = .vacant) i ((eraseStored i s).setExt i (s.ext i).erased) := by
  unfold finishErase notedUnless
  simp only []
  split <;> rfl

end

/-! ## A program and an erase -/

section
variable {s : State} {c : InProgress}

theorem completed_notedUnless {same : Prop} [Decidable same] {i : Nat} {u : State}
    (busy : (u.port .m).inProgress = some c)
    (r : Result) (body : List Byte) :
    completeCommand .m r body (notedUnless same i u) = notedUnless same i
      (u.onPort .m fun p => p.completed c r body) := by
  have stands : ((notedUnless same i u).port .m).inProgress = some c := by rw [notedUnless_port, busy]
  rw [completeCommand_eq stands]
  exact notedUnless_onPort same i u (f := fun p => p.completed c r body) (fun _ _ => rfl) fun _ => rfl

/-- What the program's map holds: the extension at its record's slot alone, every other entry as it was. -/
theorem programmed_map (m : Table Nat) (i slot : Nat) :
    find (put (unbind i m) slot i) slot = some i ∧ (∀ n, n ≠ slot → find (put (unbind i m) slot i) n ≠ some i)
      ∧ ∀ n j, n ≠ slot → j ≠ i → find m n = some j → find (put (unbind i m) slot i) n = some j := by
  refine ⟨Table.find_put_same _ _ _, fun n other => ?_, fun n j other ne found => ?_⟩
  · rw [Table.find_put_other _ _ (Ne.symm other)]; exact unbind_ne m i n
  · rw [Table.find_put_other _ _ (Ne.symm other)]; exact find_unbind found ne

end

/-- A state whose operation on extension `i` has ended with record `e`, the command in progress completed with OK. -/
def State.ended (v : State) (i : Nat) (e : Ext) (c : InProgress) : State :=
  (v.setExt i e).onPort .m fun p => p.completed c .ok []

theorem ended_ext (v : State) (i : Nat) (e : Ext) (c : InProgress) (same : Prop) [Decidable same] (j : Nat) :
    (notedUnless same i (v.ended i e c)).ext j = if i = j then e else v.ext j := by
  rw [(notedUnless_kept same i _).ext j, ← State.ext_setExt]
  rfl

theorem ended_changes (v : State) (i : Nat) (e : Ext) (c : InProgress) (same : Prop)
    [Decidable same] (l : Link) (j : Nat) :
    j ∈ ((notedUnless same i (v.ended i e c)).port l).changes ↔ j ∈ (v.port l).changes ∨ (j = i ∧ ¬ same) := by
  rw [mem_notedUnless]
  cases l <;> rfl

section
variable (v : State) (i : Nat) (e : Ext) (c : InProgress) (same : Prop) [Decidable same]

/-- Of an ended operation: the ports but for the change sets, and the rest. -/
theorem ended_portM :
    ((notedUnless same i (v.ended i e c)).port .m).response = (v.portM.completed c .ok []).response
      ∧ ((notedUnless same i (v.ended i e c)).port .m).inProgress = none := by
  rw [notedUnless_port]
  exact ⟨rfl, rfl⟩

theorem ended_rest :
    (notedUnless same i (v.ended i e c)).engine = v.engine ∧ (notedUnless same i (v.ended i e c)).extStore = v.extStore
      ∧ (notedUnless same i (v.ended i e c)).slotMap = v.slotMap ∧ (notedUnless same i (v.ended i e c)).paths = v.paths
      ∧ (notedUnless same i (v.ended i e c)).nonce = v.nonce := by
  rw [(notedUnless_kept same i (v.ended i e c)).rest]
  exact ⟨rfl, rfl, rfl, rfl, rfl⟩

end

/-- Settles O38: the finished operation, then the response. -/
theorem storeOperationCompletes : Obligations.StoreOperationCompletes := by
  unfold Obligations.StoreOperationCompletes
  constructor
  · intro s i r k t earlier engine busy
    have done : exec .programComplete s = .next (completeCommand .m .ok [] (finishProgram i r (workDue s))) := by
      show Host.Outcome.next (programComplete (workDue s)) = _
      simp only [programComplete, engine]
    rw [done]
    clear done engine
    generalize workDue s = v at busy ⊢
    obtain ⟨here, unbound, others⟩ := programmed_map v.slotMap i r.slot
    have closed := finishProgram_eq i v r
    have exts := ended_ext (programStored i r v) i ((v.ext i).programmed r) ⟨k, t, earlier⟩ ((v.ext i).standing = .idle)
    obtain ⟨response, progress⟩ :=
      ended_portM (programStored i r v) i ((v.ext i).programmed r) ⟨k, t, earlier⟩ ((v.ext i).standing = .idle)
    obtain ⟨engine, store, map, paths, nonce⟩ :=
      ended_rest (programStored i r v) i ((v.ext i).programmed r) ⟨k, t, earlier⟩ ((v.ext i).standing = .idle)
    have changes (l : Link) := ended_changes (programStored i r v) i ((v.ext i).programmed r) ⟨k, t, earlier⟩
      ((v.ext i).standing = .idle) l
    refine ⟨put (unbind i v.slotMap) r.slot i,
      notedUnless ((v.ext i).standing = .idle) i ((programStored i r v).ended i ((v.ext i).programmed r) ⟨k, t,
        earlier⟩), ?_, rfl, response, progress, engine, ?_, fun j other => ?_,
      (exts i).trans (if_pos rfl), fun j other => (exts j).trans (if_neg (Ne.symm other)), map, here,
      unbound, others, fun l => by cases l <;> exact changes _, paths, nonce⟩
    · rw [closed, completed_notedUnless (c := ⟨k, t, earlier⟩) (by exact busy)]
      rfl
    · exact (congrArg (find · i) store).trans (Table.find_put_same _ _ _)
    · exact (congrArg (find · j) store).trans (Table.find_put_other _ _ (Ne.symm other))
  · intro s i k t earlier engine busy
    have done : exec .eraseComplete s = .next (completeCommand .m .ok [] (finishErase i (workDue s))) := by
      show Host.Outcome.next (eraseComplete (workDue s)) = _
      simp only [eraseComplete, engine]
    rw [done]
    clear done engine
    generalize workDue s = v at busy ⊢
    have closed := finishErase_eq i v
    have exts := ended_ext (eraseStored i v) i (v.ext i).erased ⟨k, t, earlier⟩ ((v.ext i).standing = .vacant)
    obtain ⟨response, progress⟩ :=
      ended_portM (eraseStored i v) i (v.ext i).erased ⟨k, t, earlier⟩ ((v.ext i).standing = .vacant)
    obtain ⟨engine, store, map, paths, nonce⟩ :=
      ended_rest (eraseStored i v) i (v.ext i).erased ⟨k, t, earlier⟩ ((v.ext i).standing = .vacant)
    have changes (l : Link) := ended_changes (eraseStored i v) i (v.ext i).erased ⟨k, t, earlier⟩
      ((v.ext i).standing = .vacant) l
    refine ⟨unbind i v.slotMap,
      notedUnless ((v.ext i).standing = .vacant) i ((eraseStored i v).ended i (v.ext i).erased ⟨k, t,
        earlier⟩), ?_, rfl,
      response, progress, engine, store,
      (exts i).trans (if_pos rfl), fun j other => (exts j).trans (if_neg (Ne.symm other)), map,
      unbind_ne v.slotMap i, fun n j other found => find_unbind found other,
      fun l => by cases l <;> exact changes _, paths, nonce⟩
    rw [closed, completed_notedUnless (c := ⟨k, t, earlier⟩) (by exact busy)]
    rfl

/-! ## An entry of a bulk load -/

section
variable {entries : List StoredOps} {k : Nat} {s : State} {o : StoredOps}

theorem loadTurn_over (last : entries[k]? = none) : loadTurn entries k s = .over := by
  simp only [loadTurn, last]

/-- An entry whose index an earlier one carries. -/
theorem loadTurn_twice (next : entries[k]? = some o) (twice : ∃ q ∈ entries.take k, q.ext = o.ext) :
    loadTurn entries k s = .refused .badOperand := by
  simp only [loadTurn, next]
  exact if_pos (List.any_eq_true.2 (by simpa using twice))

theorem loadTurn_once (next : entries[k]? = some o) (once : ∀ q ∈ entries.take k, q.ext ≠ o.ext) :
    loadTurn entries k s =
      match checkRecord o s with
      | .error why => .refused why
      | .ok (i, r) => .begun (beginJob i (.load entries k i r) s) := by
  simp only [loadTurn, next]
  exact if_neg (by simpa using once)

end

/-- The end of a load's entry: the load goes no further with an earlier session, and takes its next turn otherwise. -/
theorem loadEntryComplete_eq {s : State} {entries : List StoredOps} {k i : Nat} {r : Stored} {c : InProgress}
    (engine : s.engine = some { job := .load entries k i r, remaining := 0 }) (busy : s.portM.inProgress = some c) :
    loadEntryComplete s =
      if c.earlier = true then (finishProgram i r s).onPort .m fun p => p.completed c .ok []
      else
        match loadTurn entries (k + 1) (finishProgram i r s) with
        | .over => (finishProgram i r s).onPort .m fun p => p.completed c .ok []
        | .refused why =>
          (finishProgram i r s).onPort .m fun p => p.completed c .partial_ (partialBody entries (k + 1) why)
        | .begun t => t := by
  have stands : ((finishProgram i r s).port .m).inProgress = some c := by
    rw [finishProgram_eq, notedUnless_port]; exact busy
  have cut : loadCutShort (finishProgram i r s) = c.earlier := by
    have : (finishProgram i r s).portM.inProgress = some c := stands
    simp only [loadCutShort, this]
  simp only [loadEntryComplete, engine, cut, completeCommand_eq stands] <;> rfl

/-- Settles O39: the entry as a program's completion, then the load's end or its next turn. -/
theorem loadEntryCompletes : Obligations.LoadEntryCompletes := by
  unfold Obligations.LoadEntryCompletes
  intro s entries k i r kind t earlier engine busy
  have ends : exec .loadEntryComplete s = .next (loadEntryComplete (workDue s)) := rfl
  rw [ends, loadEntryComplete_eq engine busy]
  clear ends engine
  generalize workDue s = v at busy ⊢
  obtain ⟨here, unbound, others⟩ := programmed_map v.slotMap i r.slot
  refine ⟨put (unbind i v.slotMap) r.slot i, finishProgram i r v, here, unbound, others,
    finishProgram_eq i v r, ?_, ?_, ?_,
    ?_⟩
  · rintro rfl
    rfl
  · rintro rfl last
    rw [if_neg Bool.false_ne_true, loadTurn_over last]
    rfl
  · rintro o why rfl next refusal
    rw [if_neg Bool.false_ne_true]
    rcases refusal with ⟨twice, rfl⟩ | ⟨once, checked⟩
    · rw [loadTurn_twice next twice]
      rfl
    · rw [loadTurn_once next once, checked]
      rfl
  · rintro o j q rfl next once checked
    rw [if_neg Bool.false_ne_true, loadTurn_once next once, checked]
    rfl

end Sys2Proof.Machine
end

