-- ==== Sys2Proof/Proofs/Links.lean ====
section
/-! PROOF. The symbols that reach a port (O41, O42) and the frames its transmitter begins (O44). -/

namespace Sys2Proof.Machine

/-! ## Symbols -/

section
variable {s : State} {l : Link} {q : Port}

/-- A symbol counts once the load has ended, and changes its port alone. -/
theorem onLoadedPort_ended (loaded : (settle s).boot = .ended) (port : (settle s).port l = q) (f : Port → Port) :
    onLoadedPort l f s = (settle s).setPort l (f q) := by
  rw [onLoadedPort, whenLoaded, if_pos loaded, State.onPort, port]

theorem onLoadedPort_unloaded (unloaded : (settle s).boot ≠ .ended)
    (f : Port → Port) : onLoadedPort l f s = settle s := by
  rw [onLoadedPort, whenLoaded, if_neg unloaded]

theorem setPort_own (s : State) (l : Link) : s.setPort l (s.port l) = s := by cases l <;> rfl

theorem exec_alignReceived (l : Link) (s : State) : exec (.alignReceived l) s = .next
    (onLoadedPort l Port.alignSymbol s) := rfl

theorem exec_startReceived (l : Link) (s : State) :
    exec (.startReceived l) s = .next (whenLoaded (startSymbol l) (settle s)) := rfl

theorem exec_otherSymbol (l : Link) (x : OtherSymbol) (s : State) :
    exec (.otherSymbolReceived l x) s = .next (onLoadedPort l (fun p => p.otherSymbol x) s) := rfl

theorem exec_holdOn (l : Link) (s : State) :
    exec (.holdOnReceived l) s = .next (onLoadedPort l (fun p => p.holdSymbol true) s) := rfl

theorem exec_holdOff (l : Link) (s : State) :
    exec (.holdOffReceived l) s = .next (onLoadedPort l (fun p => p.holdSymbol false) s) := rfl

theorem exec_commandFrame (l : Link) (f : List Byte) (s : State) :
    exec (.commandFrameReceived l f) s = .next (onLoadedPort l (fun p => p.wholeFrame f) s) := rfl

/-- START as the port's state takes it, on a loaded state. -/
theorem startSymbol_up {u : State} (up : (u.port l).state = .up) : startSymbol l u = u.onPort l Port.validSymbol := by
  simp only [startSymbol, up]

theorem startSymbol_down {u : State} (down : (u.port l).state = .down) : startSymbol l u =
    u.onPort l Port.breakAlignment := by
  simp only [startSymbol, down]

theorem startSymbol_aligning {u : State} (aligning : (u.port l).state = .aligning) : startSymbol l u = linkUp l u := by
  simp only [startSymbol, aligning]

end

/-- Settles O41: ALIGN and START by the port's state, and the step to ALIGNING. -/
theorem linksAlignAndStart : Obligations.LinksAlignAndStart := by
  unfold Obligations.LinksAlignAndStart
  refine ⟨?_, ?_, ?_⟩
  · intro s l unloaded
    rw [exec_alignReceived, onLoadedPort_unloaded unloaded, exec_startReceived, whenLoaded, if_neg unloaded]
    exact ⟨rfl, rfl⟩
  · intro s l q loaded port
    rw [exec_alignReceived, exec_startReceived, onLoadedPort_ended loaded port, whenLoaded, if_pos loaded]
    generalize settle s = u at port
    subst port
    refine ⟨fun down => ?_, fun aligning => ?_, fun up => ⟨?_, ?_⟩, fun down => ?_, fun aligning => ?_⟩
    · simp only [Port.alignSymbol, down]
    · simp only [Port.alignSymbol, aligning, setPort_own]
    · simp only [Port.alignSymbol, up]
    · rw [startSymbol_up up]; rfl
    · rw [startSymbol_down down, State.onPort, Port.breakAlignment, ← down]
    · rw [startSymbol_aligning aligning]; rfl
  · intro s l loaded down full
    have due : (s.port l).state = .down ∧ 64 ≤ (s.port l).alignRun := ⟨down, by omega⟩
    show Host.Outcome.next (whenLoaded (linkAligningDue l) s) = _
    rw [whenLoaded, if_pos loaded, linkAligningDue, State.onPort, Port.align, if_pos due]

section
variable {q : Port}

/-- Outside UP every symbol returns the port to DOWN (R162). -/
theorem symbol_outside_up (notUp : q.state ≠ .up) :
    (∀ x, q.otherSymbol x = q.breakAlignment) ∧ (∀ h, q.holdSymbol h = q.breakAlignment)
      ∧ ∀ f, q.wholeFrame f = q.breakAlignment := by
  unfold Port.otherSymbol Port.holdSymbol Port.wholeFrame
  cases e : q.state with
  | up => exact absurd e notUp
  | down => exact ⟨fun _ => rfl, fun _ => rfl, fun _ => rfl⟩
  | aligning => exact ⟨fun _ => rfl, fun _ => rfl, fun _ => rfl⟩

theorem otherSymbol_up (up : q.state = .up) (x : OtherSymbol) : q.otherSymbol x = q.upSymbol x := by
  simp only [Port.otherSymbol, up]

theorem holdSymbol_up (up : q.state = .up) (h : Bool) :
    q.holdSymbol h = { q with alignRun := 0, invalidRun := 0, partnerHold := h } := by
  simp only [Port.holdSymbol, Port.validSymbol, up]

theorem wholeFrame_up (up : q.state = .up) (b : Byte) (f : List Byte) :
    q.wholeFrame (b :: f)
      = Port.frameReceived { q with alignRun := 0, invalidRun := 0, receiving := none } (b :: f) := by
  simp only [Port.wholeFrame, Port.validSymbol, up]

/-- A whole frame below 16 in the queue joins it, and asserts the own hold at the threshold (R167). -/
theorem frameReceived_queued {p : Port} (room : p.queue.length < 16) (f : List Byte) :
    p.frameReceived f =
      { p with
        queue := p.queue ++ [f], ownHold := p.ownHold || decide (p.threshold ≤ p.queue.length + 1),
        lastControl := if p.ownHold = false ∧ p.threshold ≤ p.queue.length + 1 then some .holdOn else
          p.lastControl } := by
  have below : p.queue.length < Config.commandQueue := room
  simp only [Port.frameReceived, if_pos below, List.length_append, List.length_singleton, Port.setOwnHold]
  by_cases full : p.threshold ≤ p.queue.length + 1
  · cases own : p.ownHold <;> simp [full]
  · cases own : p.ownHold <;> simp [full]

theorem frameReceived_overrun {p : Port} (full : 16 ≤ p.queue.length) (room : p.overrun.length < 16) (f : List Byte) :
    p.frameReceived f = { p with overrun := p.overrun ++ [frameTag f] } := by
  have above : ¬ p.queue.length < Config.commandQueue := Nat.not_lt.2 full
  have below : p.overrun.length < Config.overrunList := room
  rw [Port.frameReceived, if_neg above, if_pos below]

theorem frameReceived_lost {p : Port} (full : 16 ≤ p.queue.length) (past : 16 ≤ p.overrun.length) (f : List Byte) :
    p.frameReceived f = p := by
  have above : ¬ p.queue.length < Config.commandQueue := Nat.not_lt.2 full
  have past' : ¬ p.overrun.length < Config.overrunList := Nat.not_lt.2 past
  rw [Port.frameReceived, if_neg above, if_neg past']

end

/-- Settles O42: outside UP, then symbol by symbol in UP, then the whole frame. -/
theorem symbolsReachThePort : Obligations.SymbolsReachThePort := by
  unfold Obligations.SymbolsReachThePort
  simp only [exec_otherSymbol, exec_holdOn, exec_holdOff, exec_commandFrame]
  constructor
  · intro s l q loaded port notUp
    obtain ⟨other, hold, whole⟩ := symbol_outside_up notUp
    simp only [onLoadedPort_ended loaded port, other, hold, whole]
    exact ⟨fun _ => rfl, rfl, rfl, fun _ => rfl⟩
  · intro s l q loaded port up
    simp only [onLoadedPort_ended loaded port, otherSymbol_up up, holdSymbol_up up, wholeFrame_up up, Port.upSymbol]
    refine ⟨trivial, rfl, rfl, fun b f received => ?_, fun b idle => ?_, fun b f received => ?_,
      fun received => ?_, trivial,
      trivial, fun b f room => ?_, fun b f full room => ?_, fun b f full past => ?_⟩
    · rw [received]; rfl
    · rw [idle]; rfl
    · rw [received]; rfl
    · rcases received with none_ | empty
      · rw [none_]; rfl
      · rw [empty]; rfl
    · rw [frameReceived_queued (by exact room)]
    · rw [frameReceived_overrun (by exact full) (by exact room)]; rfl
    · rw [frameReceived_lost (by exact full) (by exact past)]

/-! ## The transmitter -/

section
variable {p : Port} (now : Word32)

theorem begin_held (held : p.state ≠ .up ∨ p.partnerHold = true) : p.begin now = p := by
  refine if_neg fun open_ => ?_
  rcases held with down | hold
  · exact down open_.1
  · rw [hold] at open_; cases open_.2

variable (up : p.state = .up) (released : p.partnerHold = false)
include up released

theorem begin_overrun {t : Byte} {rest : List Byte} (past : p.overrun = t :: rest) :
    p.begin now = { p with overrun := rest, sending := some (overrunAnswer t) } := by
  rw [Port.begin, if_pos ⟨up, released⟩, past]

variable (none_ : p.overrun = [])
include none_

theorem begin_response {r : Response} (waits : p.response = some r) :
    p.begin now = { p with response := none, sending := some r.frame } := by
  rw [Port.begin, if_pos ⟨up, released⟩, none_]
  simp only [waits]

variable (empty : p.response = none)
include empty

theorem begin_event {e : Event} {rest : List Event} (queued : p.events = e :: rest) :
    p.begin now =
      match p.lost with
      | some n =>
        { p with events := rest ++ [{ kind := .eventsLost n, stamp := now }], lost := none, sending := some e.frame }
      | none => { p with events := rest, sending := some e.frame } := by
  rw [Port.begin, if_pos ⟨up, released⟩, none_]
  simp only [empty, queued] <;> rfl

theorem begin_nothing (quiet : p.events = []) : p.begin now = p := by
  rw [Port.begin, if_pos ⟨up, released⟩, none_]
  simp only [empty, quiet]

end

/-! ## Event frames -/

@[simp] theorem length_num8 (n : Nat) : (num8 n).length = 1 := rfl
@[simp] theorem length_num16 (n : Nat) : (num16 n).length = 2 := rfl
@[simp] theorem length_num32 (n : Nat) : (num32 n).length = 4 := rfl
@[simp] theorem length_flag8 (b : Bool) : (flag8 b).length = 1 := rfl
@[simp] theorem length_linkByte (l : Link) : (linkByte l).length = 1 := rfl
@[simp] theorem length_dirByte (d : Dir) : (dirByte d).length = 1 := by cases d <;> rfl
@[simp] theorem length_optNum8 (o : Option Nat) : (optNum8 o).length = 2 := by cases o <;> rfl
@[simp] theorem length_optNum16 (o : Option Nat) : (optNum16 o).length = 3 := by cases o <;> rfl

theorem length_surveyResultBytes (i : Nat) (e : SurveyEntry) (r : Option SurveyResult) :
    (surveyResultBytes i e r).length = 15 := by
  obtain ⟨slot, point⟩ := e
  cases slot <;> cases r <;> rfl

/-- No event's body is longer than the part of SYNC_LOST or SURVEY_RESULT: its length is a byte. -/
theorem body_length (k : EventKind) : k.body.length < 256 := by
  cases k with
  | syncLost i p t c e f => cases c <;> simp [EventKind.body]
  | talker b now before removed => cases now <;> simp [EventKind.body]
  | surveyResult i e r w lo hi => simp [EventKind.body, length_surveyResultBytes]
  | linkChange l c => cases c <;> simp [EventKind.body]
  | _ => simp [EventKind.body]

/-- Settles O44: the arbiter's order, and the event's frame. -/
theorem arbiterChoosesTheNextFrame : Obligations.ArbiterChoosesTheNextFrame := by
  unfold Obligations.ArbiterChoosesTheNextFrame
  constructor
  · intro s l q port
    have begins : exec (.outboundFrameStart l) s
        = .next ((settle s).setPort l (((settle s).port l).begin (settle s).frameCount)) := rfl
    simp only [begins]
    generalize settle s = u at port ⊢
    subst port
    refine ⟨fun held => ?_, fun up released => ⟨fun t rest past => ?_, fun r none_ waits => ?_,
      fun e rest none_ empty queued found => ?_, fun e rest n none_ empty queued lost => ?_,
        fun none_ empty quiet => ?_⟩⟩
    · rw [begin_held _ held, setPort_own]
    · rw [begin_overrun _ up released past]; rfl
    · rw [begin_response _ up released none_ waits]; rfl
    · rw [begin_event _ up released none_ empty queued, found]
    · rw [begin_event _ up released none_ empty queued, lost]
    · rw [begin_nothing _ up released none_ empty quiet, setPort_own]
  · intro e
    refine ⟨?_, body_length e.kind⟩
    obtain ⟨kind, stamp⟩ := e
    cases kind <;> rfl

end Sys2Proof.Machine
end

