-- ==== Sys2Proof/Proofs/LinkLoss.lean ====
section
/-! PROOF. A link's loss and what it does to the traffic of its controller (O43). -/

namespace Sys2Proof.Machine

open Table (find put del mapAll sorted)

/-! ## The port that goes DOWN, and the ports an event reaches -/

/-- An UP port with a full invalid run, or short of one with a full alignment run, is to go DOWN. -/
theorem downCause_eq {q : Port} {cause : DownCause} (up : q.state = .up)
    (h : (cause = .lineError ∧ q.invalidRun = 16) ∨ (cause = .partnerRestart ∧ q.invalidRun < 16 ∧ q.alignRun = 64)) :
    q.downCause = some cause := by
  rcases h with ⟨rfl, run⟩ | ⟨rfl, short, run⟩
  · simp [Port.downCause, up, run]
  · simp [Port.downCause, up, run, short]

/-- An event reaches each of its links once, with the frame count as its stamp, and no other port. -/
theorem raiseOn_port (k : EventKind) {ls : List Link} (nodup : ls.Nodup) (s : State) (j : Link) :
    (raiseOn k ls s).port j = if j ∈ ls then (s.port j).queueEvent
      { kind := k, stamp := s.frameCount } else s.port j := by
  induction ls generalizing s with
  | nil => simp [raiseOn]
  | cons l ls ih =>
    obtain ⟨fresh, rest⟩ := List.nodup_cons.1 nodup
    rw [raiseOn, ih rest, State.onPort, State.port_setPort, State.setPort_frameCount]
    by_cases e : j = l
    · subst e; simp [fresh]
    · simp [e]

theorem otherLinks_nodup (l : Link) : (otherLinks l).Nodup := by cases l <;> decide

theorem mem_otherLinks {l k : Link} : k ∈ otherLinks l ↔ k ≠ l := by
  cases l <;> cases k <;> decide

/-! ## The loss under an orphan hold -/

section
variable (s : State) (l : Link)

/-- The loss orphans the paths and bridges of the link. -/
def State.orphaned (s : State) (l : Link) : State :=
  recontrol (fun c => decide (c = .control l)) (.orphan l (s.after (seconds s.orphanHold))) s

theorem orphaned_paths : (s.orphaned l).paths = mapAll s.paths fun p =>
    if p.controller = .control l then { p with controller := .orphan l (s.after (seconds s.orphanHold)) } else p := by
  simp [State.orphaned]

theorem orphaned_bridges : (s.orphaned l).bridges = mapAll s.bridges fun x =>
    if x.controller = .control l then { x with controller := .orphan l (s.after (seconds s.orphanHold)) } else x := by
  simp [State.orphaned]

/-- The TIE paths, leg paths and bridges of the link, as a loss finds them. -/
def State.tiesOf (s : State) (l : Link) : List (Nat × Path) :=
  s.paths.filter fun e => e.2.kind.code = 0 ∧ e.2.controller = .control l

def State.legPathsOf (s : State) (l : Link) : List (Nat × Path) :=
  s.paths.filter fun e => e.2.kind.code ≠ 0 ∧ e.2.controller = .control l

def State.bridgesOf (s : State) (l : Link) : List (Nat × Bridge) :=
  s.bridges.filter fun e => e.2.controller = .control l

/-- PATH_ORPHANED of a loss, with what it counts. -/
def State.orphanedEvent (s : State) (l : Link) : EventKind :=
  .pathOrphaned l (s.tiesOf l).length (s.bridgesOf l).length (s.legPathsOf l).length (s.after (seconds s.orphanHold))

theorem controllerLoss_eq : controllerLoss l s =
    if s.orphanHold = 0 then
      forEach (fun b => closeBridge b .orphanExpired) ((s.bridgesOf l).map Prod.fst)
        (forEach (fun p => clearPath p .orphanExpired) ((s.tiesOf l).map Prod.fst) (s.orphaned l))
    else if s.tiesOf l = [] ∧ s.bridgesOf l = [] then s.orphaned l
    else raiseOn (s.orphanedEvent l) (otherLinks l) (s.orphaned l) := by
  have ties : (s.paths.filter fun e => e.2.isTie && decide (e.2.controller = .control l)) = s.tiesOf l := by
    simp [State.tiesOf, isTie_eq_decide_code]
  have legs : countPaths (fun p => !p.isTie && decide (p.controller = .control l)) s.paths =
    (s.legPathsOf l).length := by
    simp [State.legPathsOf, countPaths, isTie_eq_decide_code]
  simp only [controllerLoss, ties, legs, recontrol_orphanHold, List.length_map, Nat.add_eq_zero_iff,
    List.length_eq_zero_iff]
  rfl

/-- Under a hold above 0 a loss orphans and raises PATH_ORPHANED: nothing but records' controllers and ports changes. -/
theorem controllerLoss_held (hold : s.orphanHold ≠ 0) :
    ∃ ls, controllerLoss l s = raiseOn (s.orphanedEvent l) ls (s.orphaned l)
      ∧ ls = if s.tiesOf l = [] ∧ s.bridgesOf l = [] then [] else otherLinks l := by
  refine ⟨_, ?_, rfl⟩
  rw [controllerLoss_eq, if_neg hold]
  split_ifs <;> rfl

/-- A loss has something to report where a TIE path or a bridge is the link's. -/
theorem loss_reports_iff : ¬(s.tiesOf l = [] ∧ s.bridgesOf l = []) ↔
    (s.paths.any fun e => decide (e.2.kind.code = 0 ∧ e.2.controller = .control l)) = true
      ∨ (s.bridges.any fun e => decide (e.2.controller = .control l)) = true := by
  simp only [State.tiesOf, State.bridgesOf, List.filter_eq_nil_iff, List.any_eq_true, not_and_or, not_forall, not_not]
  simp [and_left_comm]

end

/-! ## The loss without a hold -/

theorem find_del_of_none {α : Type} {t : Table α} {id : Nat} (h : find t id = none)
    (j : Nat) : find (del t j) id = none := by
  rw [Table.find_del, h, ite_self]

/-- Each listed path is cleared. -/
theorem clearPaths_find (cause : ClearCause) {l : List Nat} {id : Nat} (m : id ∈ l) (s : State) :
    find (forEach (fun p => clearPath p cause) l s).paths id = none := by
  induction l generalizing s with
  | nil => cases m
  | cons i l ih =>
    rw [forEach_cons]
    by_cases e : id = i
    · subst e
      exact forEach_keeps (P := fun u => find u.paths id = none)
        (fun i u h => by rw [clearPath_paths]; exact find_del_of_none h i) l (by simp)
    · exact ih ((List.mem_cons.1 m).resolve_left e) _

/-- The record holds a leg path of bridge `b`, or is FREE. -/
def LegOrFree (id b : Nat) (s : State) : Prop := ∀ p, find s.paths id = some p → p.kind.bridge = some b

theorem clearPath_legOrFree {id b : Nat} (i : Nat) (cause : ClearCause) {s : State} (h : LegOrFree id b s) :
    LegOrFree id b (clearPath i cause s) := by
  intro p found
  rw [clearPath_paths, Table.find_del] at found
  split_ifs at found
  exact h p found

theorem clearPath_bridgeFree {b : Nat} (i : Nat) (cause : ClearCause) {s : State} (h : find s.bridges b = none) :
    find (clearPath i cause s).bridges b = none := by
  cases found : find s.paths i with
  | none => rwa [clearPath_of_none found]
  | some p => rw [clearPath_findBridge found, h]; exact ite_self _

/-- What every path clearing keeps, and the removal of a bridge's record too, the closing of a bridge keeps. -/
theorem closeBridge_keeps {P : State → Prop} {cause : ClearCause} (clear : ∀ i u, P u → P (clearPath i cause u))
    (remove : ∀ b u, P u → P { u with bridges := del u.bridges b }) (b : Nat) {s : State} (h : P s) :
    P (closeBridge b cause s) := by
  rw [closeBridge]
  cases find s.bridges b with
  | none => exact h
  | some x => exact remove b _ (forEach_keeps clear _ h)

theorem closeBridge_frees (b : Nat) (cause : ClearCause) (s : State) : find
    (closeBridge b cause s).bridges b = none := by
  cases found : find s.bridges b with
  | none => simp [closeBridge, found]
  | some x => simp [closeBridge, found]

/-- Each listed bridge is closed. -/
theorem closeBridges_find (cause : ClearCause) {l : List Nat} {b : Nat} (m : b ∈ l) (s : State) :
    find (forEach (fun b => closeBridge b cause) l s).bridges b = none := by
  induction l generalizing s with
  | nil => cases m
  | cons k l ih =>
    rw [forEach_cons]
    by_cases e : b = k
    · subst e
      exact forEach_keeps (P := fun u => find u.bridges b = none)
        (fun k u h => closeBridge_keeps (P := fun u => find u.bridges b = none)
          (fun i _ h => clearPath_bridgeFree i cause h)
          (fun k _ h => find_del_of_none h k) k h) l (closeBridge_frees b cause s)
    · exact ih ((List.mem_cons.1 m).resolve_left e) _

theorem closeBridge_eq {s : State} {b : Nat} {x : Bridge} (found : find s.bridges b = some x) (cause : ClearCause) :
    closeBridge b cause s =
      { x.legs.foldl (fun v g => clearPath g.path cause v) s with
        bridges := del (x.legs.foldl (fun v g => clearPath g.path cause v) s).bridges b } := by
  simp only [closeBridge, found, forEach_eq_foldl, List.foldl_map]

section
variable {s : State} {l : Link}

/-- A record of the link stands in the list a loss makes of them. -/
theorem mem_tiesOf {id : Nat} {p : Path} (found : find s.paths id = some p) (tie : p.kind.code = 0)
    (c : p.controller = .control l) : id ∈ (s.tiesOf l).map Prod.fst :=
  List.mem_map.2 ⟨(id, p), List.mem_filter.2 ⟨Table.mem_of_find found, by simp [tie, c]⟩, rfl⟩

theorem mem_bridgesOf {b : Nat} {x : Bridge} (found : find s.bridges b = some x) (c : x.controller = .control l) :
    b ∈ (s.bridgesOf l).map Prod.fst :=
  List.mem_map.2 ⟨(b, x), List.mem_filter.2 ⟨Table.mem_of_find found, by simp [c]⟩, rfl⟩

/-- A path that is no TIE path is a bridge's. -/
theorem bridge_of_code {p : Path} (h : p.kind.code ≠ 0) : ∃ b, p.kind.bridge = some b := by
  cases k : p.kind with
  | tie => rw [k] at h; exact absurd rfl h
  | bridgeStation _ _ b => exact ⟨b, rfl⟩
  | bridgeTie _ _ b => exact ⟨b, rfl⟩

theorem controllerLoss_frees_bridge (hold : s.orphanHold = 0) {b : Nat} {x : Bridge} (found : find s.bridges b = some x)
    (c : x.controller = .control l) : find (controllerLoss l s).bridges b = none := by
  rw [controllerLoss_eq, if_pos hold]
  exact closeBridges_find .orphanExpired (mem_bridgesOf found c) _

/-- A TIE path of the link is cleared as it stands; a leg path's bridge is the link's too, so it is closed, and after
that no path can be its leg. -/
theorem controllerLoss_frees_path (hold : s.orphanHold = 0) (law : BridgeLaw s) {id : Nat} {p : Path}
    (found : find s.paths id = some p) (c : p.controller = .control l) : find (controllerLoss l s).paths id = none := by
  by_cases tie : p.kind.code = 0
  · rw [controllerLoss_eq, if_pos hold]
    exact forEach_keeps (P := fun u => find u.paths id = none)
      (fun b u h => closeBridge_keeps (P := fun u => find u.paths id = none)
        (fun i u h => by rw [clearPath_paths]; exact find_del_of_none h i) (fun _ _ h => h) b h)
      _ (clearPaths_find .orphanExpired (mem_tiesOf found tie c) _)
  · obtain ⟨b, leg⟩ := bridge_of_code tie
    obtain ⟨-, -, answers, paths⟩ := (bridgeLaw_iff s).1 law
    obtain ⟨x, at_, g, m, rfl⟩ := paths id p b found leg
    obtain ⟨-, -, legs⟩ := answers b x at_
    obtain ⟨q, again, -, -, same⟩ := legs g m
    rw [found] at again
    cases again
    have closed := controllerLoss_frees_bridge hold at_ (same.symm.trans c)
    have kept : BridgeLaw (controllerLoss l s) ∧ LegOrFree g.path b (controllerLoss l s) := by
      rw [controllerLoss_eq, if_pos hold]
      refine forEach_keeps (P := fun u => BridgeLaw u ∧ LegOrFree g.path b u)
        (fun k u h => ⟨closeBridge_bridgeLaw k _ h.1, closeBridge_keeps (P := LegOrFree g.path b)
          (fun i _ h => clearPath_legOrFree i _ h) (fun _ _ h => h) k h.2⟩) _
        (forEach_keeps (P := fun u => BridgeLaw u ∧ LegOrFree g.path b u)
          (fun i u h => ⟨clearPath_bridgeLaw i _ h.1, clearPath_legOrFree i _ h.2⟩) _
            ⟨recontrol_bridgeLaw _ _ law rfl rfl, ?_⟩)
      intro q at_
      rw [orphaned_paths, Table.find_mapAll, found] at at_
      obtain rfl := Option.some.inj at_
      show (if p.controller = .control l then _ else p).kind.bridge = some b
      rw [if_pos c]; exact leg
    refine Option.eq_none_iff_forall_ne_some.2 fun q at_ => ?_
    obtain ⟨y, open_, -⟩ := ((bridgeLaw_iff _).1 kept.1).2.2.2 g.path q b at_ (kept.2 q at_)
    rw [closed] at open_
    cases open_

end

/-! ## The obligation -/

/-- Settles O43: the loss under a hold is `recontrol` and PATH_ORPHANED on the other links; without one, the clearings
in the order of the tables. -/
theorem linkLossOrphansItsCalls : Obligations.LinkLossOrphansItsCalls := by
  unfold Obligations.LinkLossOrphansItsCalls
  refine ⟨fun s l q cause loaded port up h => ?down, fun s l hold => ?held, fun s l hold => ?unheld,
    fun s b x cause found => closeBridge_eq found cause,
    fun s l hold law => ⟨fun id p found c => controllerLoss_frees_path hold law found c,
      fun b x found c => controllerLoss_frees_bridge hold found c⟩⟩
  case down =>
    subst port
    show Host.Outcome.next (whenLoaded (linkDownDue l) s) = _
    rw [whenLoaded, if_pos loaded, linkDownDue, downCause_eq up h]
    cases l <;> rfl
  case held =>
    obtain ⟨ls, loss, links⟩ := controllerLoss_held s l hold
    have deadline : s.after (seconds s.orphanHold) = s.frameCount + BitVec.ofNat 32 (8000 * s.orphanHold) := by
      rw [State.after, seconds_eq]
    have nodup : ls.Nodup := by rw [links]; split_ifs; exacts [List.nodup_nil, otherLinks_nodup l]
    refine ⟨fun id => ?_, fun b => ?_, fun k => ?_, ?_, ?_, ?_, ?_⟩
    · rw [loss, raiseOn_paths, orphaned_paths, Table.find_mapAll, deadline]
    · rw [loss, raiseOn_bridges, orphaned_bridges, Table.find_mapAll, deadline]
    · have listed : k ∈ ls ↔ k ≠ l ∧ ¬(s.tiesOf l = [] ∧ s.bridgesOf l = []) := by
        rw [links]
        split_ifs with quiet
        · simp [quiet]
        · simp [quiet, mem_otherLinks]
      rw [loss, raiseOn_port _ nodup]
      simp only [listed, loss_reports_iff, State.orphanedEvent, deadline]
      cases k <;> rfl
    all_goals rw [loss]; simp [State.orphaned]
  case unheld =>
    have orphaned : s.orphaned l = { s with
        paths := s.paths.map fun e =>
          (e.1, if e.2.controller = .control l then { e.2 with controller := .orphan l s.frameCount } else e.2),
        bridges := s.bridges.map fun e =>
          (e.1, if e.2.controller = .control l then { e.2 with controller := .orphan l s.frameCount } else e.2) } := by
      have now : s.after (seconds s.orphanHold) = s.frameCount := by
        rw [State.after, hold, seconds_eq]; exact BitVec.add_zero _
      simp [State.orphaned, now, recontrol, mapAll]
    rw [controllerLoss_eq, if_pos hold, forEach_eq_foldl, forEach_eq_foldl, orphaned]
    rfl

end Sys2Proof.Machine
end

