-- ==== Sys2Proof/Proofs/Reads.lean ====
section
/-! PROOF. The reads, and the bytes of the records they answer with (O47). -/

namespace Sys2Proof.Machine

open Table (find)

/-! ## Numbers in bytes -/

/-- A two-byte number is its high byte and its low byte. -/
theorem num16_eq (n : Nat) : num16 n = num8 (n / 256) ++ num8 n := by
  have high : (BitVec.ofNat 16 n).extractLsb' 8 8 = BitVec.ofNat 8 (n / 256) :=
    BitVec.eq_of_toNat_eq (by simp [BitVec.extractLsb'_toNat, Nat.shiftRight_eq_div_pow]; omega)
  have low : (BitVec.ofNat 16 n).extractLsb' 0 8 = BitVec.ofNat 8 n :=
    BitVec.eq_of_toNat_eq (by simp [BitVec.extractLsb'_toNat])
  rw [num16, bytes16, high, low]
  rfl

/-- A four-byte number is its high half and its low half. -/
theorem num32_eq (n : Nat) : num32 n = num16 (n / 65536) ++ num16 n := by
  have byte3 : (BitVec.ofNat 32 n).extractLsb' 24 8 = (BitVec.ofNat 16 (n / 65536)).extractLsb' 8 8 :=
    BitVec.eq_of_toNat_eq (by simp [BitVec.extractLsb'_toNat, Nat.shiftRight_eq_div_pow]; omega)
  have byte2 : (BitVec.ofNat 32 n).extractLsb' 16 8 = (BitVec.ofNat 16 (n / 65536)).extractLsb' 0 8 :=
    BitVec.eq_of_toNat_eq (by simp [BitVec.extractLsb'_toNat, Nat.shiftRight_eq_div_pow]; omega)
  have byte1 : (BitVec.ofNat 32 n).extractLsb' 8 8 = (BitVec.ofNat 16 n).extractLsb' 8 8 :=
    BitVec.eq_of_toNat_eq (by simp [BitVec.extractLsb'_toNat, Nat.shiftRight_eq_div_pow]; omega)
  have byte0 : (BitVec.ofNat 32 n).extractLsb' 0 8 = (BitVec.ofNat 16 n).extractLsb' 0 8 :=
    BitVec.eq_of_toNat_eq (by simp [BitVec.extractLsb'_toNat])
  rw [num32, bytes32, byte3, byte2, byte1, byte0]
  rfl

theorem bytes32_eq_num32 (x : Word32) : bytes32 x = num32 x.toNat := by rw [num32, BitVec.ofNat_toNat, BitVec.setWidth_eq]

theorem writeMany_eq_flatMap {α : Type} (write : α → List Byte) (l : List α) : writeMany write l = l.flatMap write := by
  induction l with
  | nil => rfl
  | cons x l ih => rw [writeMany, ih, List.flatMap_cons]

/-! ## The survey's results -/

theorem resultList_eq (t : Table SurveyResult) (i : Nat) (l : List SurveyEntry) :
    resultList t i l = (l.zipIdx i).flatMap fun x => surveyResultBytes x.2 x.1 (find t x.2) := by
  induction l generalizing i with
  | nil => rfl
  | cons e l ih => rw [resultList, ih, List.zipIdx_cons, List.flatMap_cons]

/-! ## Records field by field -/

section
variable {a b r : List Byte} {bs : List (List Byte)}

/-- A record's bytes are compared field by field. -/
theorem field_eq (h : a = b) (rest : r = bs.flatten) : a ++ r = (b :: bs).flatten := by rw [h, rest, List.flatten_cons]

theorem lastField_eq (h : a = b) : a = [b].flatten := by rw [h, List.flatten_singleton]

end

theorem accessByte_eq (a : TieAccess) : num8 a.code = [match a with | .none => 0 | .any => 1 | .privateOnly => 2] := by
  cases a <;> rfl

theorem modeByte_eq (m : Mode) : num8 m.code = [match m with | .talk => 0 | .listen => 1] := by cases m <;> rfl

theorem standingByte_eq (t : Standing) :
    num8 t.code = [match t with | .vacant => 0 | .idle => 1 | .admitted _ _ => 2 | .locked _ => 3] := by
  cases t <;> rfl

/-! ## A path by its number -/

section
variable {s : State} {x : Word16} {id : Nat} {q : Path}

/-- A READ_PATH of a path that its operands name. -/
theorem ownReadPath_named {o : ReadPathOps} (name : readPathName o s = .ok id) (found : find s.paths id = some q) :
    ownReadPath o s = .done .ok (pathBytes id q) s := by simp only [ownReadPath, name, found]

theorem ownReadPath_unnamed {o : ReadPathOps} {why : Result} (name : readPathName o s = .error why) :
    ownReadPath o s = refuse why s := by simp only [ownReadPath, name]

theorem readPathName_id (h : x.toNat < 384) : readPathName ⟨0, x⟩ s = .ok x.toNat := by
  simp [readPathName, Config.paths, h]

theorem readPathName_station (h : x.toNat < 512) (held : find s.stationOcc x.toNat = some id) :
    readPathName ⟨1, x⟩ s = .ok id := by
  simp [readPathName, Config.stationSlots, h, held]

theorem readPathName_tie (h : x.toNat < 256) (held : find s.tieOcc x.toNat = some id) :
    readPathName ⟨2, x⟩ s = .ok id := by
  simp [readPathName, Config.tieSlots, h, held]

theorem readPathName_badOperand {f : Byte}
    (h : 3 ≤ f.toNat ∨ (f = 0 ∧ 384 ≤ x.toNat) ∨ (f = 1 ∧ 512 ≤ x.toNat) ∨ (f = 2 ∧ 256 ≤ x.toNat)) :
    readPathName ⟨f, x⟩ s = .error .badOperand := by
  rcases h with h | ⟨rfl, h⟩ | ⟨rfl, h⟩ | ⟨rfl, h⟩
  · have not0 : f ≠ 0 := by rintro rfl; simp at h
    have not1 : f ≠ 1 := by rintro rfl; simp at h
    have not2 : f ≠ 2 := by rintro rfl; simp at h
    simp only [readPathName, if_neg not0, if_neg not1, if_neg not2]
  · simp [readPathName, Config.paths, Nat.not_lt.2 h]
  · simp [readPathName, Config.stationSlots, Nat.not_lt.2 h]
  · simp [readPathName, Config.tieSlots, Nat.not_lt.2 h]

/-- A free record, or a slot that no path holds. -/
theorem ownReadPath_noPath {f : Byte}
    (h : (f = 0 ∧ x.toNat < 384 ∧ find s.paths x.toNat = none) ∨
      (f = 1 ∧ x.toNat < 512 ∧ find s.stationOcc x.toNat = none)
      ∨ (f = 2 ∧ x.toNat < 256 ∧ find s.tieOcc x.toNat = none)) :
    ownReadPath ⟨f, x⟩ s = refuse .noPath s := by
  rcases h with ⟨rfl, h, free⟩ | ⟨rfl, h, free⟩ | ⟨rfl, h, free⟩
  · simp only [ownReadPath, readPathName_id h, free]
  · exact ownReadPath_unnamed (by simp [readPathName, Config.stationSlots, h, free])
  · exact ownReadPath_unnamed (by simp [readPathName, Config.tieSlots, h, free])

end

/-! ## The obligation -/

/-- Settles O47: each owner completes at once on the state with the command taken, and the bodies are compared field by
field. -/
theorem readsAnswerTheRecord : Obligations.ReadsAnswerTheRecord := by
  unfold Obligations.ReadsAnswerTheRecord
  refine ⟨fun s l t x p taken => ?extension,
    fun s l t x p q taken found h => exec_eq_answer_of_owner (owner := ownReadPath ⟨0, x⟩) taken rfl rfl rfl rfl
      (ownReadPath_named (readPathName_id h) (by simpa using found)),
    fun s l t x p id q taken h held found => exec_eq_answer_of_owner (owner := ownReadPath ⟨1, x⟩) taken rfl rfl rfl rfl
      (ownReadPath_named (readPathName_station h (by simpa using held)) (by simpa using found)),
    fun s l t x p id q taken h held found => exec_eq_answer_of_owner (owner := ownReadPath ⟨2, x⟩) taken rfl rfl rfl rfl
      (ownReadPath_named (readPathName_tie h (by simpa using held)) (by simpa using found)),
    fun s l t x p taken h => ?context, fun s l t x p taken h => ?bridge, fun s t p taken => ?survey,
    fun s l t f x p taken => ⟨fun h => refusedWith_of_owner (owner := ownReadPath ⟨f, x⟩) taken rfl rfl rfl rfl
        (ownReadPath_unnamed (readPathName_badOperand h)),
      fun h => refusedWith_of_owner (owner := ownReadPath ⟨f, x⟩) taken rfl rfl rfl rfl
        (ownReadPath_noPath (by simpa using h))⟩,
    fun s l t x p taken h => refusedWith_of_owner (owner := ownReadContext x) taken rfl rfl rfl rfl
      (by simp only [ownReadContext, below_out_of_range (n := Config.contexts) h]),
    fun s l t x p taken h => refusedWith_of_owner (owner := ownReadBridge x) taken rfl rfl rfl rfl
      (by simp only [ownReadBridge, below_out_of_range (n := Config.bridges) h]),
    fun i e => ?extensionBytes, fun n => ⟨rfl, num16_eq n, num32_eq n, bytes32_eq_num32⟩,
    fun l d => ⟨by cases l <;> rfl, by cases l <;> rfl⟩, fun id p => ?pathBytes, fun d => ?directionBytes,
    fun s i c p found => ?contextBytes, fun b x => ?bridgeBytes, fun v => ?surveyBytes⟩
  case extension =>
    by_cases h : x.toNat < 2048
    · rw [if_pos h]
      refine exec_eq_answer_of_owner (owner := ownReadExtension x) taken rfl rfl rfl rfl ?_
      simp only [ownReadExtension, below_in_range (n := Config.extensions) h, State.taking_ext]
    · rw [if_neg h]
      refine refusedWith_of_owner (owner := ownReadExtension x) taken rfl rfl rfl rfl ?_
      simp only [ownReadExtension, below_out_of_range (n := Config.extensions) (Nat.not_lt.1 h)]
  case context =>
    cases found : find (settle s).ctxs x.toNat with
    | none =>
      refine refusedWith_of_owner (owner := ownReadContext x) taken rfl rfl rfl rfl ?_
      simp only [ownReadContext, below_in_range (n := Config.contexts) h, State.taking_ctxs, found]
    | some c =>
      refine exec_eq_answer_of_owner (owner := ownReadContext x) taken rfl rfl rfl rfl ?_
      have body : contextBytes (s.taking l p) x.toNat c = contextBytes (settle s) x.toNat c := by
        simp only [contextBytes, legIndication, State.taking_paths]
      simp only [ownReadContext, below_in_range (n := Config.contexts) h, State.taking_ctxs, found, body]
      rfl
  case bridge =>
    cases found : find (settle s).bridges x.toNat with
    | none =>
      refine refusedWith_of_owner (owner := ownReadBridge x) taken rfl rfl rfl rfl ?_
      simp only [ownReadBridge, below_in_range (n := Config.bridges) h, State.taking_bridges, found]
    | some y =>
      refine exec_eq_answer_of_owner (owner := ownReadBridge x) taken rfl rfl rfl rfl ?_
      simp only [ownReadBridge, below_in_range (n := Config.bridges) h, State.taking_bridges, found]
  case survey =>
    refine exec_eq_answer_of_owner (owner := ownReadSurvey) taken rfl rfl rfl rfl ?_
    rw [ownReadSurvey, State.taking_survey]
  case extensionBytes =>
    refine ⟨?_, ?_, fun r seed step => rfl⟩
    · simp only [extensionBytes, List.append_assoc]
      refine field_eq rfl (field_eq (standingByte_eq _) (field_eq rfl (field_eq rfl (field_eq rfl (field_eq ?locked
        (field_eq ?challenge (field_eq ?admission (field_eq ?path (lastField_eq ?stored)))))))))
      case locked => cases e.standing <;> rfl
      case challenge =>
        cases e.challenge with
        | none => rfl
        | some c => simp only [linkByte_eq]; rfl
      case admission =>
        cases e.standing with
        | admitted since k => simp only [linkByte_eq]; rfl
        | _ => rfl
      case path => cases e.path <;> rfl
      case stored =>
        cases e.stored with
        | none => rfl
        | some r => simp only [accessByte_eq]; rfl
    · have path : (optNum16 e.path).length = 3 := length_optNum16 _
      cases standing : e.standing <;> cases challenge : e.challenge <;> cases stored : e.stored <;>
        simp [extensionBytes, standing, challenge, stored, path, bytes32]
  case pathBytes =>
    obtain ⟨kind, controller, opened⟩ := p
    cases kind with
    | tie slot ext tie privacy => cases privacy <;> simp [pathBytes] <;> rfl
    | bridgeStation slot ext bridge => simp [pathBytes]; rfl
    | bridgeTie tie privacy bridge =>
      have none_ : num16 0 = [0, 0] := rfl
      cases privacy <;> simp [pathBytes, PathKind.station, PathKind.ext, none_] <;> rfl
  case directionBytes =>
    refine ⟨?_, fun seed gen step => rfl⟩
    simp only [directionBytes, List.append_assoc]
    refine field_eq rfl (field_eq rfl (field_eq rfl (field_eq rfl (lastField_eq ?_))))
    rw [stagedBytes]
    cases d.staged <;> rfl
  case contextBytes =>
    simp only [contextBytes, legIndication, found, List.append_assoc]
    refine field_eq rfl (field_eq rfl (field_eq rfl (field_eq ?leg (field_eq ?tx (field_eq rfl (field_eq ?rx
      (field_eq rfl (field_eq rfl (field_eq rfl (field_eq rfl (field_eq rfl (field_eq rfl (lastField_eq rfl)))))))))))))
    case leg => cases p.kind <;> rfl
    case tx => cases c.tx.phase <;> rfl
    case rx =>
      cases c.rx.phase with
      | hunt h => exact field_eq rfl (field_eq rfl (lastField_eq rfl))
      | running => rfl
  case bridgeBytes =>
    simp only [bridgeBytes, writeMany_eq_flatMap, List.append_assoc]
    refine field_eq rfl (field_eq rfl (field_eq rfl (field_eq rfl (field_eq ?staged (field_eq rfl (field_eq ?talker
      (field_eq rfl (lastField_eq ?legs))))))))
    case staged => cases x.staged <;> rfl
    case talker => cases x.talker <;> rfl
    case legs =>
      refine congrArg (x.legs.flatMap) (funext fun g => ?_)
      simp only [legBytes, List.append_assoc]
      refine field_eq rfl (field_eq ?slot (field_eq rfl (field_eq (modeByte_eq _)
        (field_eq ?stagedLeg (lastField_eq rfl)))))
      case slot =>
        cases g.slot with
        | station n => rfl
        | tie n privacy => cases privacy <;> rfl
      case stagedLeg =>
        cases g.staged with
        | none => rfl
        | some y => simp only [modeByte_eq]; rfl
  case surveyBytes =>
    simp only [surveyBytes, writeMany_eq_flatMap, resultList_eq, List.append_assoc]
    refine field_eq rfl (field_eq ?entries (field_eq rfl (field_eq ?trigger (field_eq rfl (field_eq rfl (field_eq rfl
      (field_eq ?report ?stateAndResults)))))))
    case entries =>
      refine congrArg (v.entries.flatMap) (funext fun e => field_eq ?_ (lastField_eq rfl))
      cases e.slot <;> rfl
    case trigger =>
      cases v.trigger with
      | immediate => rfl
      | rollover i d => cases d <;> rfl
      | syncLost i => rfl
    case report => cases v.report <;> rfl
    case stateAndResults =>
      rw [← List.append_assoc]
      refine field_eq ?state (lastField_eq ?results)
      case state => cases v.state <;> rfl
      case results =>
        refine congrArg ((v.entries.zipIdx 1).flatMap) (funext fun x => ?_)
        simp only [surveyResultBytes, List.append_assoc]
        refine field_eq rfl (field_eq ?slot (field_eq rfl (lastField_eq ?result)))
        case slot => cases x.1.slot <;> rfl
        case result => cases find v.results x.2 <;> rfl

end Sys2Proof.Machine
end

