-- ==== Sys2Proof/Proofs/Parameters.lean ====
section
/-! PROOF. The parameter commands (O48) and the commands on the extension table as they begin (O49). -/

namespace Sys2Proof.Machine

open Table (find del mapAll)

/-! ## The reading of operands -/

theorem clampTo_eq {lo hi : Nat} (h : lo ≤ hi) (n : Nat) : clampTo lo hi n = max lo (min hi n) := by
  unfold clampTo
  split_ifs <;> omega

theorem clampTo_zero (hi n : Nat) : clampTo 0 hi n = min hi n := by rw [clampTo_eq (Nat.zero_le hi), Nat.zero_max]

theorem yesNo_eq (b : Byte) :
    yesNo b = if b.toNat = 0 then some false else if b.toNat = 1 then some true else none := by
  have zero : (b = 0) = (b.toNat = 0) := propext (byte_eq_iff b (k := 0) (by omega))
  have one : (b = 1) = (b.toNat = 1) := propext (byte_eq_iff b (k := 1) (by omega))
  simp only [yesNo, zero, one]

/-- A yes-or-no value is one of the two, and reads as whether it is 1. -/
theorem yesNo_of_lt {b : Byte} (h : b.toNat < 2) : yesNo b = some (decide (b = 1)) := by
  have one : (b = 1) = (b.toNat = 1) := propext (byte_eq_iff b (k := 1) (by omega))
  rw [yesNo_eq]
  simp only [one]
  split_ifs with zero one_
  · rw [zero]; rfl
  · rw [one_]; rfl
  · omega

theorem yesNo_of_le {b : Byte} (h : 2 ≤ b.toNat) : yesNo b = none := by
  rw [yesNo_eq, if_neg (by omega), if_neg (by omega)]

theorem yesNo_lt {b : Byte} {v : Bool} (h : yesNo b = some v) : b.toNat < 2 := by
  by_contra large
  rw [yesNo_of_le (Nat.not_lt.1 large)] at h
  cases h

theorem yesNo_flag (v : Bool) : yesNo (if v then 1 else 0) = some v := by cases v <;> rfl

theorem tieAccess_eq (b : Byte) : tieAccess b =
    if 3 ≤ b.toNat then none else some (if b = 0 then .none else if b = 1 then .any else .privateOnly) := by
  have zero : (b = 0) = (b.toNat = 0) := propext (byte_eq_iff b (k := 0) (by omega))
  have one : (b = 1) = (b.toNat = 1) := propext (byte_eq_iff b (k := 1) (by omega))
  have two : (b = 2) = (b.toNat = 2) := propext (byte_eq_iff b (k := 2) (by omega))
  simp only [tieAccess, zero, one, two]
  by_cases large : 3 ≤ b.toNat
  · rw [if_pos large, if_neg (by omega), if_neg (by omega), if_neg (by omega)]
  · rw [if_neg large]
    split_ifs
    · rfl
    · rfl
    · rfl
    · omega

/-! ## Owners on the state with the command taken -/

section
variable {i : Instr} {s u : State} {l : Link} {p : Port} {kind tag : Byte} {ops : List Byte} {owner : State → Reply}

/-- A taken command on a link it is accepted on, whose owner leaves it waiting, is marked in progress (R168). -/
theorem exec_eq_await_of_owner (h : TakenBy i s l p) (x : exec i s = command i s owner) (w : i.wellFormed = true)
    (e : encodeOperands i = some (l, kind, tag, ops)) (ok : acceptedOn i l = true)
    (o : owner (s.taking l p) = .waits u) : exec i s = .next (u.await l kind tag) := by
  rw [x, command_taken owner w e h, if_pos ok, o, answerCommand_waits]

/-- A change to the port that has taken the command is a change to the port as it is then. -/
theorem taking_onPort (s : State) (l : Link) (p : Port) (f : Port → Port) :
    (s.taking l p).onPort l f = (settle s).setPort l (f p) := by
  rw [State.onPort, State.taking_port, State.taking, State.setPort_setPort]

end

/-! ## The parameters -/

/-- A new fail limit takes a LOCKED extension's count to the limit, and one that reaches it below it (R65). -/
theorem adjust_eq (limit : Nat) (e : Ext) :
    e.adjust limit = if e.standing.code = 3 ∨ limit ≤ e.failures then
      { e with failures := match e.standing with
        | .locked _ => limit
        | .vacant | .idle | .admitted _ _ => limit - 1 }
      else e := by
  unfold Ext.adjust
  cases h : e.standing <;> simp [Standing.code]

theorem setOwnHold_eq (p : Port) (hold : Bool) : p.setOwnHold hold = { p with
    ownHold := hold,
    lastControl := if p.ownHold = hold then p.lastControl else if hold then some .holdOn else some .holdOff } := by
  unfold Port.setOwnHold
  split_ifs with same
  · subst same; rfl
  · rfl
  · rfl

/-- Eight yes-or-no values are read as the enables whose bytes they are. -/
theorem readEnableFlags_of_bytes {o : EnableOps} {e : Enables}
    (h : [o.admission, o.path, o.key, o.sync, o.bridge, o.survey, o.highway, o.link]
      = [e.admission, e.path, e.key, e.sync, e.bridge, e.survey, e.highway, e.link].map (fun b => if b then 1 else 0)) :
    readEnableFlags o = some e := by
  simp only [List.map_cons, List.map_nil, List.cons.injEq] at h
  obtain ⟨admission, path, key, sync, bridge, survey, highway, link, -⟩ := h
  simp only [readEnableFlags, admission, path, key, sync, bridge, survey, highway, link, yesNo_flag]
  rfl

theorem readEnableFlags_of_bad {o : EnableOps}
    (h : ∃ b ∈ [o.admission, o.path, o.key, o.sync, o.bridge, o.survey, o.highway, o.link], 2 ≤ b.toNat) :
    readEnableFlags o = none := by
  refine Option.eq_none_iff_forall_ne_some.2 fun e read => ?_
  simp only [readEnableFlags, Option.bind_eq_bind, Option.bind_eq_some_iff] at read
  obtain ⟨_, h1, _, h2, _, h3, _, h4, _, h5, _, h6, _, h7, _, h8, -⟩ := read
  obtain ⟨b, m, large⟩ := h
  have small : ∀ b ∈ [o.admission, o.path, o.key, o.sync, o.bridge, o.survey, o.highway, o.link], b.toNat < 2 := by
    simp only [List.forall_mem_cons, List.not_mem_nil, false_imp_iff, implies_true, and_true]
    exact ⟨yesNo_lt h1, yesNo_lt h2, yesNo_lt h3, yesNo_lt h4, yesNo_lt h5, yesNo_lt h6, yesNo_lt h7, yesNo_lt h8⟩
  exact absurd (small b m) (Nat.not_lt.2 large)

/-- Settles O48: each owner's clamps are those of the rules, and it writes its values into the state with the command
taken. -/
theorem parametersAreClampedAndWritten : Obligations.ParametersAreClampedAndWritten := by
  unfold Obligations.ParametersAreClampedAndWritten
  refine ⟨fun s t x y z p taken => ?admission, fun s t x y z p taken => ?privacy, fun s t x p taken => ?orphan,
    fun s l t x p n taken clamped => ?link, fun s l t o p e taken bytes => ?events,
      fun s l t o p taken bad => ?badEvents⟩
  case admission =>
    refine ⟨mapAll (settle s).exts (Ext.adjust (max 1 (min 7 x.toNat))), ?_, fun i => ?_⟩
    · refine exec_eq_answer_of_owner (owner := ownSetAdmission ⟨x, y, z⟩) taken rfl rfl rfl rfl ?_
      simp only [ownSetAdmission, clampTo_eq (show 1 ≤ 7 by omega), clampTo_eq (show 1 ≤ 15 by omega),
        clampTo_eq (show 10 ≤ 600 by omega), State.taking_exts]
    · generalize settle s = u
      refine Eq.trans ?_ (adjust_eq _ _)
      rw [State.ext, Table.find_mapAll]
      cases find u.exts i with
      | some e => rfl
      | none => exact (vacant_adjust (Nat.le_max_left _ _)).symm
  case privacy =>
    refine exec_eq_answer_of_owner (owner := ownSetPrivacyDefaults ⟨x, y, z⟩) taken rfl rfl rfl rfl ?_
    simp only [ownSetPrivacyDefaults, clampTo_eq (show 1 ≤ 30 by omega), clampTo_eq (show 64 ≤ 3952 by omega),
      clampTo_eq (show 1 ≤ 15 by omega)]
  case orphan =>
    refine exec_eq_answer_of_owner (owner := ownSetOrphanHold x) taken rfl rfl rfl rfl ?_
    simp only [ownSetOrphanHold, clampTo_zero]
  case link =>
    subst clamped
    refine exec_eq_answer_of_owner (owner := ownSetLink l x) taken rfl rfl rfl rfl ?_
    simp only [ownSetLink, clampTo_eq (show 4 ≤ 15 by omega), taking_onPort, setOwnHold_eq, decide_eq_true_eq]
  case events =>
    refine exec_eq_answer_of_owner (owner := ownSetEvents l o) taken rfl rfl rfl rfl ?_
    simp only [ownSetEvents, readEnableFlags_of_bytes bytes, bytes, taking_onPort]
    rfl
  case badEvents =>
    refine refusedWith_of_owner (owner := ownSetEvents l o) taken rfl rfl rfl rfl ?_
    rw [ownSetEvents, readEnableFlags_of_bad bad]

/-! ## The change set of a link (R45) -/

theorem ownCollectChanges_taking (s : State) (l : Link) (p : Port) : ownCollectChanges l (s.taking l p) = .done .ok
    ([BitVec.ofNat 8 (p.changes.take 32).length] ++ (p.changes.take 32).flatMap num16
      ++ [if p.changes.length ≤ 32 then 0 else 1]) ((settle s).setPort l { p with changes := p.changes.drop 32 }) := by
  have left : flag8 (!(p.changes.drop 32).isEmpty) = [if p.changes.length ≤ 32 then 0 else 1] := by
    by_cases few : p.changes.length ≤ 32
    · simp [flag8, few]
    · have some_ : p.changes.drop 32 ≠ [] := by simpa using Nat.not_le.1 few
      simp [flag8, few]
  rw [ownCollectChanges, State.taking_port, left, numList16, writeMany_eq_flatMap, taking_onPort]
  rfl

/-! ## A store operation that begins (R36, R37) -/

theorem beginJob_eq (i : Nat) (job : Job) (s : State) : beginJob i job s =
    State.setExt { s with extStore := del s.extStore i, engine := some { job := job, remaining := 16 } }
      i { s.ext i with programming := true } := rfl

section
variable (s : State) (l : Link) (p : Port)

theorem beginJob_taking (i : Nat) (job : Job) : beginJob i job (s.taking l p) =
    State.setExt
      { s.taking l p with
        extStore := del (settle s).extStore i, engine := some { job := job, remaining := 16 } }
      i { (settle s).ext i with programming := true } := by
  rw [beginJob_eq, State.taking_extStore, State.taking_ext]

theorem checkRecord_taking (o : StoredOps) : checkRecord o (s.taking l p) = checkRecord o (settle s) := by
  simp only [checkRecord, State.taking_ext, State.taking_slotMap]

end

/-- The stored fields that operands in range give (R36). -/
def storedOf (o : StoredOps) : Stored :=
  { seed := o.seed, step := o.step, slot := o.slot.toNat, conference := decide (o.conference = 1),
    access := if o.access = 0 then .none else if o.access = 1 then .any else .privateOnly }

/-- A record is read where every field is in range (R36). -/
theorem readRecord_eq (o : StoredOps) : readRecord o =
    if 2048 ≤ o.ext.toNat ∨ 512 ≤ o.slot.toNat ∨ 3 ≤ o.access.toNat ∨ 2 ≤ o.conference.toNat then none
    else some (o.ext.toNat, (storedOf o)) := by
  by_cases ext : 2048 ≤ o.ext.toNat
  · simp [readRecord, ext, below_out_of_range (n := Config.extensions) ext]
  by_cases slot : 512 ≤ o.slot.toNat
  · simp [readRecord, slot, below_out_of_range (n := Config.stationSlots) slot]
  by_cases access : 3 ≤ o.access.toNat
  · simp [readRecord, access, tieAccess_eq]
  by_cases conference : 2 ≤ o.conference.toNat
  · simp [readRecord, conference, yesNo_of_le conference]
  simp [readRecord, ext, slot, access, conference, below_in_range (n := Config.extensions) (Nat.not_le.1 ext),
    below_in_range (n := Config.stationSlots) (Nat.not_le.1 slot), tieAccess_eq, yesNo_of_lt (Nat.not_le.1 conference),
    storedOf]

theorem checkRecord_eq (o : StoredOps) (s : State) : checkRecord o s =
    if 2048 ≤ o.ext.toNat ∨ 512 ≤ o.slot.toNat ∨ 3 ≤ o.access.toNat ∨ 2 ≤ o.conference.toNat then .error .badOperand
    else if (s.ext o.ext.toNat).isAdmitted = true ∨ (s.ext o.ext.toNat).challenge ≠ none then .error .inService
    else if find s.slotMap o.slot.toNat ≠ none ∧ find s.slotMap o.slot.toNat ≠ some o.ext.toNat then .error .slotTaken
    else .ok (o.ext.toNat, (storedOf o)) := by
  have busy_iff : ((s.ext o.ext.toNat).isAdmitted || (s.ext o.ext.toNat).challenge.isSome) = true ↔
      (s.ext o.ext.toNat).isAdmitted = true ∨ (s.ext o.ext.toNat).challenge ≠ none := by
    simp [Option.isSome_iff_ne_none]
  rw [checkRecord, readRecord_eq]
  split_ifs with bad busy taken
  · rfl
  · exact if_pos (busy_iff.2 busy)
  · obtain ⟨j, bound⟩ := Option.ne_none_iff_exists'.1 taken.1
    have other : j ≠ o.ext.toNat := fun e => taken.2 (e ▸ bound)
    exact (if_neg (mt busy_iff.1 busy)).trans (by simp [storedOf, bound, other])
  · refine (if_neg (mt busy_iff.1 busy)).trans ?_
    cases bound : find s.slotMap o.slot.toNat with
    | none => simp [storedOf, bound]
    | some j =>
      have own : j = o.ext.toNat := by
        by_contra other
        exact taken ⟨by simp [bound], by simpa [bound] using other⟩
      simp [storedOf, bound, own]

/-- The first entry of a load begins as a program does. -/
theorem loadTurn_first {o : StoredOps} {rest : List StoredOps} {s : State} {i : Nat} {r : Stored}
    (ok : checkRecord o s = .ok (i, r)) :
    loadTurn (o :: rest) 0 s = .begun (beginJob i (.load (o :: rest) 0 i r) s) := by
  simp [loadTurn, ok]

theorem loadTurn_first_refused {o : StoredOps} {rest : List StoredOps} {s : State} {why : Result}
    (no : checkRecord o s = .error why) : loadTurn (o :: rest) 0 s = .refused why := by
  simp [loadTurn, no]

theorem loadExtensions_formed {n : Byte} (t : Byte) (o : StoredOps) {rest : List StoredOps}
    (count : n.toNat = rest.length + 1) (few : n.toNat ≤ 16) :
    (Instr.loadExtensions .m t ⟨n, o :: rest⟩).wellFormed = true := by
  simp only [Instr.wellFormed, List.length_cons, Bool.and_eq_true, decide_eq_true_eq]
  omega

/-- A load whose first entry is refused has all its entries left. -/
theorem partialBody_first {n : Byte} (o : StoredOps) (rest : List StoredOps) (count : n.toNat = rest.length + 1)
    (why : Result) :
    partialBody (o :: rest) 0 why = [n, BitVec.ofNat 8 why.code] := by
  have whole : BitVec.ofNat 8 (rest.length + 1) = n := by rw [← count, BitVec.ofNat_toNat, BitVec.setWidth_eq]
  simp [partialBody, num8, whole]

/-- Settles O49: an accepted operation leaves its owner waiting on the engine, and the checks are those of
`checkRecord`. -/
theorem extensionTableCommandsBegin : Obligations.ExtensionTableCommandsBegin := by
  unfold Obligations.ExtensionTableCommandsBegin
  refine ⟨fun s l t p taken => exec_eq_answer_of_owner (owner := ownCollectChanges l) taken rfl rfl rfl rfl
      (ownCollectChanges_taking s l p),
    fun s t o p i r taken ok => ?set, fun s t x p taken inRange idle quiet => ?erase,
    fun s t n o rest p i r taken count few ok => ?load, fun s t n o rest p why taken count few no => ?loadRefused,
    fun s t o p why taken no => ?setRefused, fun s t x p taken => ⟨fun large => ?eraseBad,
      fun inRange busy => ?eraseBusy⟩,
    fun s t o p taken formed bad => ?loadBad, checkRecord_eq⟩
  case set =>
    refine exec_eq_await_of_owner (owner := ownSetExtension o) taken rfl rfl rfl rfl ?_
    simp only [ownSetExtension, checkRecord_taking, ok, beginJob_taking]
  case erase =>
    refine exec_eq_await_of_owner (owner := ownEraseExtension x) taken rfl rfl rfl rfl ?_
    simp only [ownEraseExtension, below_in_range (n := Config.extensions) inRange, State.taking_ext, idle, quiet,
      beginJob_taking]
    rfl
  case load =>
    have formed := loadExtensions_formed t o count few
    refine exec_eq_await_of_owner (owner := ownLoadExtensions ⟨n, o :: rest⟩) taken rfl formed rfl rfl ?_
    rw [ownLoadExtensions, if_neg (show ¬(n.toNat = 0 ∨ 16 < n.toNat) by omega),
      loadTurn_first ((checkRecord_taking s .m p o).trans ok), beginJob_taking]
  case loadRefused =>
    have formed := loadExtensions_formed t o count few
    refine exec_eq_answer_of_owner (owner := ownLoadExtensions ⟨n, o :: rest⟩) taken rfl formed rfl rfl ?_
    rw [ownLoadExtensions, if_neg (show ¬(n.toNat = 0 ∨ 16 < n.toNat) by omega),
      loadTurn_first_refused ((checkRecord_taking s .m p o).trans no)]
    exact congrArg (fun body => Reply.done .partial_ body (s.taking .m p)) (partialBody_first o rest count why)
  case setRefused =>
    refine refusedWith_of_owner (owner := ownSetExtension o) taken rfl rfl rfl rfl ?_
    simp only [ownSetExtension, checkRecord_taking, no]
  case eraseBad =>
    refine refusedWith_of_owner (owner := ownEraseExtension x) taken rfl rfl rfl rfl ?_
    simp only [ownEraseExtension, below_out_of_range (n := Config.extensions) large]
  case eraseBusy =>
    refine refusedWith_of_owner (owner := ownEraseExtension x) taken rfl rfl rfl rfl ?_
    have busy : (((settle s).ext x.toNat).isAdmitted || ((settle s).ext x.toNat).challenge.isSome) = true := by
      simpa [Option.isSome_iff_ne_none] using busy
    simp only [ownEraseExtension, below_in_range (n := Config.extensions) inRange, State.taking_ext, busy, if_true]
  case loadBad =>
    refine refusedWith_of_owner (owner := ownLoadExtensions o) taken rfl formed rfl rfl ?_
    rw [ownLoadExtensions, if_pos bad]

end Sys2Proof.Machine
end

