-- ==== Sys2Proof/Proofs/Challenge.lean ====
section
/-! PROOF. CHALLENGE and ANSWER (O50). -/

namespace Sys2Proof.Machine

/-! ## The response that is expected (R23) -/

theorem toNat_append_eq {n m : Nat} (x : BitVec n) (y : BitVec m) : (x ++ y).toNat = x.toNat * 2 ^ m + y.toNat := by
  rw [BitVec.toNat_append, ← Nat.shiftLeft_add_eq_or_of_lt y.isLt, Nat.shiftLeft_eq]

theorem expectedResponse_toNat (seed nonce : Word32) (step : Word16) :
    (expectedResponse seed step nonce).toNat =
      (keySteps step (seed + nonce) 1).toNat / 16777216 * 16777216
        + (keySteps step (seed + nonce) 2).toNat / 16777216 * 65536
        + (keySteps step (seed + nonce) 3).toNat / 16777216 * 256
        + (keySteps step (seed + nonce) 4).toNat / 16777216 := by
  simp only [expectedResponse, keySteps, toNat_append_eq, keyByte_toNat]
  ring

theorem nonceStep_eq (n : Word32) : nonceStep n = n * 743605 + 81007 := rfl

/-! ## CHALLENGE -/

/-- The checks of R50 in their order. -/
theorem challengeRefusal_eq (e : Ext) : challengeRefusal e =
    if e.programming = true then some .storeBusy
    else if e.standing = .vacant then some .noSecret
    else if e.standing.code = 3 then some .locked
    else if e.challenge ≠ none then some .challengePending
    else none := by
  unfold challengeRefusal
  cases standing : e.standing <;> simp [Standing.code, Option.isSome_iff_ne_none]

section
variable {s : State} {l : Link} {x : Word16} (inRange : x.toNat < 2048)
include inRange

theorem ownChallenge_refused {why : Result} (no : challengeRefusal (s.ext x.toNat) = some why) :
    ownChallenge l x s = refuse why s := by
  simp only [ownChallenge, below_in_range (n := Config.extensions) inRange, no]

/-- An accepted CHALLENGE hands out the current nonce and steps the generator (R27, R51). -/
theorem ownChallenge_accepted {n expiry : Word32} {e : Ext} (own : s.ext x.toNat = e) (ok : challengeRefusal e = none)
    (seeded : s.nonce = some n) (window : s.frameCount + BitVec.ofNat 32 (8000 * s.challengeWindow) = expiry) :
    ownChallenge l x s = .done .ok (bytes32 n ++ bytes32 expiry)
      (State.setExt { s with nonce := some (n * 743605 + 81007) } x.toNat
        { e with expired := false, challenge := some { nonce := n, issuer := l, expiry := expiry } }) := by
  simp only [ownChallenge, below_in_range (n := Config.extensions) inRange, own, ok, seeded, State.after, seconds_eq,
    nonceStep_eq, window]

end

/-! ## ANSWER -/

section
variable {s : State} {l : Link} {x : Word16} {y : Word32} {e : Ext} (inRange : x.toNat < 2048) (own : s.ext x.toNat = e)
include inRange own

theorem ownAnswer_unchallenged (quiet : e.challenge = none) :
    ownAnswer l ⟨x, y⟩ s = refuse (if e.expired = true then .tooLate else .noChallenge) s := by
  simp only [ownAnswer, below_in_range (n := Config.extensions) inRange, own, quiet]

theorem ownAnswer_match {c : Challenge} {r : Stored} (pending : e.challenge = some c) (stored : e.stored = some r)
    (same : y = expectedResponse r.seed r.step c.nonce) : ownAnswer l ⟨x, y⟩ s = answerMatch l x.toNat c s := by
  simp only [ownAnswer, below_in_range (n := Config.extensions) inRange, own, pending, stored, if_pos same]

theorem ownAnswer_mismatch {c : Challenge} {r : Stored} (pending : e.challenge = some c) (stored : e.stored = some r)
    (other : y ≠ expectedResponse r.seed r.step c.nonce) : ownAnswer l ⟨x, y⟩ s = answerMismatch x.toNat c s := by
  simp only [ownAnswer, below_in_range (n := Config.extensions) inRange, own, pending, stored, if_neg other]

end

section
variable {s : State} {l : Link} {i : Nat} {c : Challenge} {e : Ext} (own : s.ext i = e)
include own

/-- A re-check of an ADMITTED extension leaves it ADMITTED. -/
theorem answerMatch_recheck (was : e.isAdmitted = true) : answerMatch l i c s = .done .ok [2, 1]
    (s.setExt i { e with challenge := none, failures := 0, expired := false }) := by
  rw [answerMatch, own]
  exact if_pos was

theorem answerMatch_admits {now : Word32} (was : e.isAdmitted = false)
    (at_ : s.frameCount = now) : answerMatch l i c s = .done .ok [2, 0]
    (raiseOn (.admitted i l) (challengeLinks s c.issuer)
      (noteChange i (s.setExt i
        { e with challenge := none, failures := 0, expired := false, standing := .admitted now l }))) := by
  rw [answerMatch, own, at_]
  exact if_neg (show ¬e.isAdmitted = true by rw [was]; exact Bool.false_ne_true)

theorem answerMismatch_eq : answerMismatch i c s = .done .wrongAnswer
    [BitVec.ofNat 8 (e.failures + 1), if s.failLimit ≤ e.failures + 1 then 1 else 0]
    (failChallenge i c .wrongAnswer s) := by
  rw [answerMismatch, own]
  simp only [num8, flag8, decide_eq_true_eq]
  rfl

end

/-- Settles O50: the owners' cases on the state with the command taken. -/
theorem challengeAndAnswer : Obligations.ChallengeAndAnswer := by
  unfold Obligations.ChallengeAndAnswer
  have accepted {l : Link} (h : l ≠ .m) : decide (l ≠ .m) = true := decide_eq_true h
  refine ⟨fun s l t x p e n taken notM inRange own seeded => ?challenge,
    fun s l t x y p e c r taken notM inRange own pending stored =>
      ⟨fun same was => ?recheck, fun same was => ?admits, fun other => ?mismatch⟩,
    fun s l t x y p taken notM inRange quiet => ?unchallenged, expectedResponse_toNat,
    fun s l t x p taken notM large => ?challengeBad, fun s l t x y p taken notM large => ?answerBad⟩
  case challenge =>
    have refused {why : Result} (no : challengeRefusal e = some why) :
        exec (.challenge l t x) s = .next ((s.taking l p).answer l 9 t why []) :=
      refusedWith_of_owner (owner := ownChallenge l x) taken rfl rfl rfl (accepted notM)
        (ownChallenge_refused inRange (by rw [State.taking_ext, own]; exact no))
    have order := challengeRefusal_eq e
    split_ifs at order ⊢
    · exact refused order
    · exact refused order
    · exact refused order
    · exact refused order
    · exact exec_eq_answer_of_owner (owner := ownChallenge l x) taken rfl rfl rfl (accepted notM)
        (ownChallenge_accepted inRange ((State.taking_ext s l p x.toNat).trans own) order
          ((State.taking_nonce s l p).trans seeded) (by rw [State.taking_frameCount, State.taking_challengeWindow]))
  case recheck =>
    have own := (State.taking_ext s l p x.toNat).trans own
    exact exec_eq_answer_of_owner (owner := ownAnswer l ⟨x, y⟩) taken rfl rfl rfl (accepted notM)
      ((ownAnswer_match inRange own pending stored same).trans (answerMatch_recheck own was))
  case admits =>
    have own := (State.taking_ext s l p x.toNat).trans own
    exact exec_eq_answer_of_owner (owner := ownAnswer l ⟨x, y⟩) taken rfl rfl rfl (accepted notM)
      ((ownAnswer_match inRange own pending stored same).trans
        (answerMatch_admits own was (State.taking_frameCount s l p)))
  case mismatch =>
    have own := (State.taking_ext s l p x.toNat).trans own
    have done := (ownAnswer_mismatch (l := l) inRange own pending stored other).trans (answerMismatch_eq own)
    rw [State.taking_failLimit] at done
    exact exec_eq_answer_of_owner (owner := ownAnswer l ⟨x, y⟩) taken rfl rfl rfl (accepted notM) done
  case unchallenged =>
    exact refusedWith_of_owner (owner := ownAnswer l ⟨x, y⟩) taken rfl rfl rfl (accepted notM)
      (ownAnswer_unchallenged inRange (State.taking_ext s l p x.toNat) quiet)
  case challengeBad =>
    refine refusedWith_of_owner (owner := ownChallenge l x) taken rfl rfl rfl (accepted notM) ?_
    simp only [ownChallenge, below_out_of_range (n := Config.extensions) large]
  case answerBad =>
    refine refusedWith_of_owner (owner := ownAnswer l ⟨x, y⟩) taken rfl rfl rfl (accepted notM) ?_
    simp only [ownAnswer, below_out_of_range (n := Config.extensions) large]

end Sys2Proof.Machine
end

