-- ==== Sys2Proof/Proofs/OpenTie.lean ====
section
/-! PROOF. OPEN_TIE (O51). -/

namespace Sys2Proof.Machine

open Table (find put del)

/-! ## What an open takes (R73, R91) -/

theorem takeTiming_eq (t : TimingOps) : takeTiming t =
    { txEpoch := epochTaken t.txEpoch, rxEpoch := epochTaken t.rxEpoch, txLead := leadTaken t.txEpoch t.txLead,
      rxLead := leadTaken t.rxEpoch t.rxLead } := by
  simp only [takeTiming, clampTo_eq (show 1 ≤ 300 by omega), clampTo_zero]
  rfl

/-- A context is allocated as R91 starts it. -/
theorem openContext_eq (s : State) (id tie : Nat) (k : KeyBlock) (t : TimingOps) :
    openContext s id tie k (takeTiming t) = startedContext s id tie k t := by
  simp only [openContext, takeTiming_eq, DirState.opened, seconds_eq]
  rfl

theorem startedContext_taking (s : State) (l : Link) (p : Port) (id tie : Nat) (k : KeyBlock) (t : TimingOps) :
    startedContext (s.taking l p) id tie k t = startedContext (settle s) id tie k t := by
  simp only [startedContext, State.taking_guardCeiling, State.taking_guardStrikes]

theorem privateBytes_some (i : Nat) (t : TimingOps) : privateBytes (some i) (takeTiming t) = contextTakenBytes i t := by
  simp only [privateBytes, takeTiming_eq, Timing.bytes, contextTakenBytes, List.append_assoc]

theorem freeCtx_of_lowest {s : State} {i : Nat} (h : Lowest s.ctxs 192 i) : s.freeCtx = some i :=
  Table.lowestFree_eq_some.2 h

theorem freePath_of_lowest {s : State} {id : Nat} (h : Lowest s.paths 384 id) : s.freePath = some id :=
  Table.lowestFree_eq_some.2 h

theorem freeCtx_of_full {s : State} (h : ∀ i, i < 192 → find s.ctxs i ≠ none) : s.freeCtx = none :=
  Table.lowestFree_eq_none.2 h

theorem isAdmitted_eq_code (e : Ext) : e.isAdmitted = decide (e.standing.code = 2) := by
  unfold Ext.isAdmitted
  cases e.standing <;> rfl

theorem access_of_stored {e : Ext} {r : Stored} (h : e.stored = some r) : e.access = r.access := by
  rw [Ext.access, h]
  rfl

/-! ## The operands -/

section
variable {o : OpenTieOps}

theorem readOpenTieOps_good (station : o.station.toNat < 512) (privacy : o.privacy.toNat < 2) :
    readOpenTieOps o = some (o.station.toNat, o.tie.toNat, decide (o.privacy = 1)) := by
  simp [readOpenTieOps, below_in_range (n := Config.stationSlots) station, yesNo_of_lt privacy]

theorem readOpenTieOps_bad (h : 512 ≤ o.station.toNat ∨ 2 ≤ o.privacy.toNat) : readOpenTieOps o = none := by
  rcases h with station | privacy
  · simp [readOpenTieOps, below_out_of_range (n := Config.stationSlots) station]
  · simp [readOpenTieOps, yesNo_of_le privacy]

end

/-! ## The checks in their order (R74, R75) -/

section
variable {s : State} {station tie e : Nat} {priv : Bool}

theorem checkOpenTie_inUse (h : find s.stationOcc station ≠ none ∨ find s.tieOcc tie ≠ none) :
    checkOpenTie station tie priv s = .error .slotInUse := by
  have held : ¬(s.stationFree station && s.tieFree tie) = true := by
    simpa [State.stationFree, State.tieFree, Option.isNone_iff_eq_none, ← not_and_or] using h
  rw [checkOpenTie, if_neg held]

variable (stationFree : find s.stationOcc station = none) (tieFree : find s.tieOcc tie = none)
include stationFree tieFree

theorem slots_free : (s.stationFree station && s.tieFree tie) = true := by
  simp [State.stationFree, State.tieFree, stationFree, tieFree]

theorem checkOpenTie_unbound (unbound : find s.slotMap station = none) :
    checkOpenTie station tie priv s = .error .noExtension := by
  rw [checkOpenTie, if_pos (slots_free stationFree tieFree)]
  simp only [unbound]

variable (bound : find s.slotMap station = some e)
include bound

theorem checkOpenTie_notAdmitted (not : (s.ext e).standing.code ≠ 2) :
    checkOpenTie station tie priv s = .error .notAdmitted := by
  rw [checkOpenTie, if_pos (slots_free stationFree tieFree)]
  simp only [bound, isAdmitted_eq_code, decide_eq_true_eq, if_neg not]

variable (admitted : (s.ext e).standing.code = 2)
include admitted

theorem checkOpenTie_refused {why : Result} (no : tieRefusal (s.ext e).access priv = some why) :
    checkOpenTie station tie priv s = .error why := by
  rw [checkOpenTie, if_pos (slots_free stationFree tieFree)]
  simp only [bound, isAdmitted_eq_code, decide_eq_true_eq, if_pos admitted, no]

variable (permitted : tieRefusal (s.ext e).access priv = none)
include permitted

theorem checkOpenTie_permitted :
    checkOpenTie station tie priv s = if (priv && s.freeCtx.isNone) = true then .error .noContext else .ok e := by
  rw [checkOpenTie, if_pos (slots_free stationFree tieFree)]
  simp only [bound, isAdmitted_eq_code, decide_eq_true_eq, if_pos admitted, permitted]

end

theorem tieRefusal_private {a : TieAccess} (h : a ≠ .none) : tieRefusal a true = none := by
  cases a with
  | none => exact absurd rfl h
  | any => rfl
  | privateOnly => rfl

/-! ## The path as it is opened (R76, R77) -/

section
variable {s : State} {paths : Table Path} {stations ties : Table Nat} {now : Word32} {x : Ext} {id station e tie : Nat}
  (l : Link) (k : KeyBlock) (t : TimingOps)
  (hpaths : s.paths = paths) (hstations : s.stationOcc = stations) (hties : s.tieOcc = ties) (hnow : s.frameCount = now)
  (hext : s.ext e = x)
include hpaths hstations hties hnow hext

theorem openTiePath_clear : openTiePath l id station e tie false k (takeTiming t) s = .done .ok
    (num16 id ++ bytes32 now ++ noContextBytes)
    (State.setExt
      { s with
        paths := put paths id { kind := .tie station e tie .clear, controller := .control l, opened := now },
        stationOcc := put stations station id, tieOcc := put ties tie id }
      e { x with path := some id }) := by
  subst hpaths hstations hties hnow hext
  rfl

theorem openTiePath_private {ctxs : Table Context} {c : Context} {i : Nat} (hctxs : s.ctxs = ctxs)
    (free : s.freeCtx = some i) (started : startedContext s id tie k t = c) :
    openTiePath l id station e tie true k (takeTiming t) s = .done .ok
      (num16 id ++ bytes32 now ++ contextTakenBytes i t)
      (State.setExt
        { s with
          paths := put paths id { kind := .tie station e tie (.priv i), controller := .control l, opened := now },
          stationOcc := put stations station id, tieOcc := put ties tie id, ctxs := put ctxs i c }
        e { x with path := some id }) := by
  subst hpaths hstations hties hnow hext hctxs started
  have allocated : allocate true id tie k (takeTiming t) s
      = (s.setCtx i (startedContext s id tie k t), .priv i) := by
    simp only [allocate, free, openContext_eq, if_true]
  simp only [openTiePath, allocated]
  rw [show (Privacy.priv i).ctx = some i from rfl, privateBytes_some]
  rfl

end

/-! ## The obligation -/

section
variable {s : State} {l : Link} {t : Byte} {o : OpenTieOps} {p : Port} (taken : TakenBy (.openTie l t o) s l p)
  (notM : l ≠ .m)
include taken notM

theorem openTie_refused {why : Result} (no : ownOpenTie l o (s.taking l p) = refuse why (s.taking l p)) :
    RefusedWith (.openTie l t o) s l p 14 t why :=
  refusedWith_of_owner (owner := ownOpenTie l o) taken rfl rfl rfl (decide_eq_true notM) no

variable (station : o.station.toNat < 512) (privacy : o.privacy.toNat < 2)
include station privacy

theorem openTie_checked {why : Result}
    (no : checkOpenTie o.station.toNat o.tie.toNat (decide (o.privacy = 1)) (s.taking l p) = .error why) :
    exec (.openTie l t o) s = .next ((s.taking l p).answer l 14 t why []) :=
  openTie_refused taken notM (by simp only [ownOpenTie, readOpenTieOps_good station privacy, no])

theorem openTie_opens {e id : Nat} {body : List Byte} {u : State}
    (ok : checkOpenTie o.station.toNat o.tie.toNat (decide (o.privacy = 1)) (s.taking l p) = .ok e)
    (free : (s.taking l p).freePath = some id)
    (opened : openTiePath l id o.station.toNat e o.tie.toNat (decide (o.privacy = 1)) o.keys (takeTiming o.timing)
      (s.taking l p) = .done .ok body u) :
    exec (.openTie l t o) s = .next (u.answer l 14 t .ok body) :=
  exec_eq_answer_of_owner (owner := ownOpenTie l o) taken rfl rfl rfl (decide_eq_true notM)
    (by simp only [ownOpenTie, readOpenTieOps_good station privacy, ok, free, opened])

end

/-- Settles O51: the checks one after another on the state with the command taken, and the path that is opened when all
pass. -/
theorem openTieOpensOrRefuses : Obligations.OpenTieOpensOrRefuses := by
  unfold Obligations.OpenTieOpensOrRefuses
  refine ⟨fun s l t o p e id r taken notM station stationFree tieFree bound admitted stored lowest => ?opens,
    fun s l t o p taken notM => ?refuses⟩
  case opens =>
    have now := State.taking_frameCount s l p
    have record := State.taking_ext s l p e
    have lowestPath := lowest
    simp only [← State.taking_stationOcc s l p, ← State.taking_tieOcc s l p, ← State.taking_slotMap s l p,
      ← State.taking_ext s l p, ← State.taking_paths s l p] at stationFree tieFree bound admitted stored lowestPath
    refine ⟨fun clear any => ?_, fun i private_ some_ lowestCtx => ?_⟩
    · have notPrivate : decide (o.privacy = 1) = false := by rw [clear]; rfl
      have permitted : tieRefusal ((s.taking l p).ext e).access false = none := by
        rw [access_of_stored stored, any]; rfl
      refine openTie_opens taken notM station (by rw [clear]; decide) (e := e) ?_ (freePath_of_lowest lowestPath) ?_
      · rw [notPrivate, checkOpenTie_permitted stationFree tieFree bound admitted permitted]; rfl
      · rw [notPrivate]
        exact openTiePath_clear l o.keys o.timing (State.taking_paths s l p) (State.taking_stationOcc s l p)
          (State.taking_tieOcc s l p) now record
    · have isPrivate : decide (o.privacy = 1) = true := decide_eq_true private_
      have permitted : tieRefusal ((s.taking l p).ext e).access true = none := by
        rw [access_of_stored stored]; exact tieRefusal_private some_
      have free : (s.taking l p).freeCtx = some i := freeCtx_of_lowest (by rwa [State.taking_ctxs])
      refine openTie_opens taken notM station (by rw [private_]; decide) (e := e) ?_ (freePath_of_lowest lowestPath) ?_
      · rw [isPrivate, checkOpenTie_permitted stationFree tieFree bound admitted permitted, free]; rfl
      · rw [isPrivate]
        exact openTiePath_private l o.keys o.timing (State.taking_paths s l p) (State.taking_stationOcc s l p)
          (State.taking_tieOcc s l p) now record (State.taking_ctxs s l p) free (startedContext_taking ..)
  case refuses =>
    simp only [← State.taking_stationOcc s l p, ← State.taking_tieOcc s l p, ← State.taking_slotMap s l p,
      ← State.taking_ext s l p, ← State.taking_ctxs s l p]
    refine ⟨fun bad => openTie_refused taken notM (by simp only [ownOpenTie, readOpenTieOps_bad bad]),
      fun station privacy => ⟨fun held => ?held, fun stationFree tieFree => ⟨fun unbound => ?unbound,
        fun e bound => ⟨fun not => ?notAdmitted, fun r admitted stored =>
          ⟨fun none_ => ?class_, fun only clear => ?conflict, fun some_ private_ full => ?noContext⟩⟩⟩⟩⟩
    case held => exact openTie_checked taken notM station privacy (checkOpenTie_inUse held)
    case unbound => exact openTie_checked taken notM station privacy (checkOpenTie_unbound stationFree tieFree unbound)
    case notAdmitted =>
      exact openTie_checked taken notM station privacy (checkOpenTie_notAdmitted stationFree tieFree bound not)
    case class_ =>
      exact openTie_checked taken notM station privacy (checkOpenTie_refused stationFree tieFree bound admitted
        (by rw [access_of_stored stored, none_]; rfl))
    case conflict =>
      refine openTie_checked taken notM station privacy (checkOpenTie_refused stationFree tieFree bound admitted ?_)
      rw [access_of_stored stored, only, clear]
      rfl
    case noContext =>
      refine openTie_checked taken notM station privacy ?_
      have permitted : tieRefusal ((s.taking l p).ext e).access true = none := by
        rw [access_of_stored stored]; exact tieRefusal_private some_
      rw [show decide (o.privacy = 1) = true from decide_eq_true private_,
        checkOpenTie_permitted stationFree tieFree bound admitted permitted, freeCtx_of_full full]
      rfl

end Sys2Proof.Machine
end

