-- ==== Sys2Proof/Proofs/Clearing.lean ====
section
/-! PROOF. The clearing rule (O52), the commands that clear by it (O53), and RESET_TRAFFIC (O54). -/

namespace Sys2Proof.Machine

open Table (find put del)

/-! ## The clearing rule -/

/-- A path that is no leg: its record freed, then PATH_CLEARED. -/
theorem clearPath_tie {s : State} {id : Nat} {p : Path} (found : find s.paths id = some p) (tie : p.kind.bridge = none)
    (cause : ClearCause) : clearPath id cause s =
      raiseOn (.pathCleared id p.kind p.opened cause) p.controller.links (freePathRecord id p s) := by
  simp only [clearPath, found, tie]
  rfl

/-- A leg path: its leg leaves the bridge, and after PATH_CLEARED a talker that has left is told (R134). -/
theorem clearPath_leg {s : State} {id b : Nat} {p : Path} {x : Bridge} (found : find s.paths id = some p)
    (leg : p.kind.bridge = some b) (bridge : find s.bridges b = some x) (cause : ClearCause) : clearPath id cause s =
      (if x.talker = some id then raiseOn (.talker b none (some id) true) x.controller.links else fun u => u)
        (raiseOn (.pathCleared id p.kind p.opened cause) p.controller.links
          { freePathRecord id p s with
            bridges := put s.bridges b
              { x with
                legs := x.legs.filter fun g => decide (g.path ≠ id),
                talker := if x.talker = some id then none else x.talker } }) := by
  have bridges : (freePathRecord id p s).bridges = s.bridges := by rw [freePathRecord_eq]
  simp only [clearPath, found, leg, dropLeg, bridges, bridge]
  split_ifs <;> rfl

/-- Settles O52: the freed record, by the fields it frees, with the events of the rule. -/
theorem clearingFreesThePath : Obligations.ClearingFreesThePath := by
  unfold Obligations.ClearingFreesThePath
  refine ⟨fun l => rfl, fun l d => rfl, fun s id p cause found =>
    ⟨(freePathRecord id p s).exts, freePathRecord_ext id p s, fun tie => ?_, fun b x leg bridge => ?_⟩⟩
  · rw [clearPath_tie found tie, ← freePathRecord_eq]
  · rw [clearPath_leg found leg bridge, freePathRecord_eq]

/-! ## Who may clear -/

theorem mayClear_of {c : Controller} {l : Link} (h : c = .control l ∨ l = .m ∨ ∀ k, c ≠ .control k) :
    c.mayClear l = true := by
  cases c with
  | orphan f d => rfl
  | control k =>
    rcases h with own | manager | other
    · cases own; simp [Controller.mayClear]
    · simp [Controller.mayClear, manager]
    · exact absurd rfl (other k)

theorem mayClear_other {c : Controller} {k l : Link} (own : c = .control k) (other : k ≠ l) (notM : l ≠ .m) :
    ¬c.mayClear l = true := by
  simp [own, Controller.mayClear, other, notM]

theorem optNum8_eq (o : Option Nat) : optNum8 o = o.elim [0, 0] fun i => [1, BitVec.ofNat 8 i] := by cases o <;> rfl

/-- The leg that a list holds first on a path. -/
theorem controlledLeg_of_named {r : BridgeRefOps} {l : Link} {s : State} {b : Nat} {x : Bridge} {path : Word16}
    {before after : List Leg} {g : Leg} (h : path.toNat < 384) (n : BridgeNamed r s b x) (c : x.controller = .control l)
    (legs : x.legs = before ++ g :: after) (here : g.path = path.toNat) (first : ∀ k ∈ before, k.path ≠ path.toNat) :
    controlledLeg l r path s = .ok (b, x, g) := by
  have found : x.legs.find? (fun g => decide (g.path = path.toNat)) = some g := by
    rw [List.find?_eq_some_iff_append]
    exact ⟨decide_eq_true here, before, after, legs, fun k m => by simp [first k m]⟩
  simp only [controlledLeg, below_in_range (n := Config.paths) h, controlledBridge_of_named n c, found]

/-! ## The obligation of the clearing commands -/

theorem pathNamed_taking {r : PathRefOps} {s : State} {l : Link} {p : Port} {id : Nat} {q : Path} :
    PathNamed r (s.taking l p) id q ↔ PathNamed r (settle s) id q := by simp [PathNamed]

/-- An ADMITTED extension that is released goes IDLE, and its path is cleared (R61, R62). -/
theorem ownRelease_admitted {s : State} {x : Word16} {e : Ext} (inRange : x.toNat < 2048) (own : s.ext x.toNat = e)
    (admitted : e.isAdmitted = true) : ownRelease x s = .done .ok []
      (cascade x.toNat .release [.a, .b] e.path (noteChange x.toNat
        (s.setExt x.toNat { e with standing := .idle }))) := by
  simp only [ownRelease, below_in_range (n := Config.extensions) inRange, own, admitted, if_true]
  rfl

/-- Settles O53: each command's owner, by what its reference names and who controls it. -/
theorem clearingCommandsClear : Obligations.ClearingCommandsClear := by
  unfold Obligations.ClearingCommandsClear
  refine ⟨fun s l t o p id q taken named => ?clearPath, fun s l t o p b x before after g taken notM named
    own h legs here
      first => ?removeLeg,
    fun s l t o p b x taken named may => ?closeBridge, fun s l t x p since k taken inRange admitted => ?release,
    fun s l t o p why taken unnamed => ?pathUnnamed,
    fun s l t o p taken notM => ⟨fun large => ?legBad, fun h why no => ?legRefused,
      fun b x h named own absent => ?legAbsent⟩,
    fun s l t o p taken => ⟨fun why no => ?bridgeUnnamed, fun b x k named own other notM => ?bridgeOther⟩,
    fun s l t x p taken => ⟨fun large => ?releaseBad, fun inRange not => ?notAdmitted⟩⟩
  case clearPath =>
    have name := namedPath_of_named (pathNamed_taking (l := l) (p := p).2 named)
    refine ⟨fun may => ?_, fun k own other notM => ?_⟩
    · refine exec_eq_answer_of_owner (owner := ownClearPath l o) taken rfl rfl rfl rfl ?_
      simp only [ownClearPath, name, if_pos (mayClear_of may), optNum8_eq]
    · refine refusedWith_of_owner (owner := ownClearPath l o) taken rfl rfl rfl rfl ?_
      simp only [ownClearPath, name, if_neg (mayClear_other own other notM)]
  case removeLeg =>
    have leg := controlledLeg_of_named h (bridgeNamed_taking (l := l) (p := p).2 named) own legs here first
    have path : num16 g.path = bytes16 o.path := by rw [here, num16, BitVec.ofNat_toNat, BitVec.setWidth_eq]
    have context : optNum8 g.slot.ctx = match g.slot with | .tie _ (.priv i) => [1, BitVec.ofNat 8 i] | _ => [0, 0] := by
      cases g.slot with
      | station => rfl
      | tie n privacy => cases privacy <;> rfl
    refine exec_eq_answer_of_owner (owner := ownRemoveLeg l o) taken rfl rfl rfl (decide_eq_true notM) ?_
    simp only [ownRemoveLeg, leg, path]
    exact congrArg (fun bytes => Reply.done .ok (bytes16 o.path ++ bytes) _) context
  case closeBridge =>
    have named := bridgeNamed_taking (l := l) (p := p).2 named
    obtain ⟨-, -, found, -⟩ := id named
    refine exec_eq_answer_of_owner (owner := ownCloseBridge l o) taken rfl rfl rfl rfl ?_
    simp only [ownCloseBridge, namedBridge_of_named named, if_pos (mayClear_of may)]
    exact congrArg (Reply.done .ok _) (closeBridge_eq found .bridgeClosed)
  case release =>
    have own := State.taking_ext s l p x.toNat
    generalize (settle s).ext x.toNat = e at own admitted ⊢
    refine exec_eq_answer_of_owner (owner := ownRelease x) taken rfl rfl rfl rfl
      ((ownRelease_admitted inRange own (by simp [Ext.isAdmitted, admitted])).trans ?_)
    obtain ⟨stored, standing, programming, failures, challenge, expired, path⟩ := e
    cases path with
    | none => rfl
    | some id => rfl
  case pathUnnamed =>
    refine refusedWith_of_owner (owner := ownClearPath l o) taken rfl rfl rfl rfl ?_
    simp only [ownClearPath, namedPath_of_unnamed (pathUnnamed_taking (l := l) (p := p).2 unnamed)]
  case legBad =>
    refine refusedWith_of_owner (owner := ownRemoveLeg l o) taken rfl rfl rfl (decide_eq_true notM) ?_
    simp only [ownRemoveLeg, controlledLeg_out_of_range large]
  case legRefused =>
    refine refusedWith_of_owner (owner := ownRemoveLeg l o) taken rfl rfl rfl (decide_eq_true notM) ?_
    simp only [ownRemoveLeg, controlledLeg_of_refusal h (bridgeRefusal_taking (l := l) (p := p).2 no)]
  case legAbsent =>
    refine refusedWith_of_owner (owner := ownRemoveLeg l o) taken rfl rfl rfl (decide_eq_true notM) ?_
    simp only [ownRemoveLeg, controlledLeg_of_absent h (bridgeNamed_taking (l := l) (p := p).2 named) own absent]
  case bridgeUnnamed =>
    refine refusedWith_of_owner (owner := ownCloseBridge l o) taken rfl rfl rfl rfl ?_
    simp only [ownCloseBridge, namedBridge_of_unnamed (bridgeUnnamed_taking (l := l) (p := p).2 no)]
  case bridgeOther =>
    refine refusedWith_of_owner (owner := ownCloseBridge l o) taken rfl rfl rfl rfl ?_
    simp only [ownCloseBridge, namedBridge_of_named (bridgeNamed_taking (l := l) (p := p).2 named),
      if_neg (mayClear_other own other notM)]
  case releaseBad =>
    refine refusedWith_of_owner (owner := ownRelease x) taken rfl rfl rfl rfl ?_
    simp only [ownRelease, below_out_of_range (n := Config.extensions) large]
  case notAdmitted =>
    refine refusedWith_of_owner (owner := ownRelease x) taken rfl rfl rfl rfl ?_
    simp only [ownRelease, below_in_range (n := Config.extensions) inRange, State.taking_ext, isAdmitted_eq_code,
      decide_eq_true_eq, if_neg not]

/-! ## RESET_TRAFFIC (R88, R160) -/

theorem restart_eq (v : Survey) : v.restart = { v with
    state := match v.state with
      | .measuring _ _ _ _ => .measuring 1 0 0 0
      | .stopped => .stopped
      | .standby => .standby } := by
  obtain ⟨entries, repeating, trigger, window, low, high, report, state, results⟩ := v
  cases state <;> rfl

theorem ownResetTraffic_eq {s : State} {paths : Table Path} {bridges : Table Bridge} {exts : Table Ext} {v : Survey}
    (hpaths : s.paths = paths) (hbridges : s.bridges = bridges) (hexts : s.exts = exts) (hsurvey : s.survey = v) :
    ownResetTraffic s = .done .ok (num16 paths.length ++ num8 bridges.length) { s with
      paths := [], stationOcc := [], tieOcc := [], ctxs := [], bridges := [], exts := withoutPaths exts,
      survey := v.restart } := by
  subst hpaths hbridges hexts hsurvey
  rfl

theorem getD_withoutPaths {s : State} (rise : Table.sorted s.exts = true) (i : Nat) :
    (find (withoutPaths s.exts) i).getD Ext.vacant = { s.ext i with path := none } := withoutPaths_ext rise i

/-- Settles O54: the records freed, and the path in use taken from each extension's. -/
theorem resetTrafficFreesEverything : Obligations.ResetTrafficFreesEverything := by
  unfold Obligations.ResetTrafficFreesEverything
  intro s t p taken rise
  have done := ownResetTraffic_eq (State.taking_paths s .m p) (State.taking_bridges s .m p) (State.taking_exts s .m p)
    (State.taking_survey s .m p)
  refine ⟨withoutPaths (settle s).exts, fun i => getD_withoutPaths rise i, ?_⟩
  rw [restart_eq] at done
  generalize (settle s).survey = v at done ⊢
  exact exec_eq_answer_of_owner (owner := ownResetTraffic) taken rfl rfl rfl rfl done

end Sys2Proof.Machine
end

