-- ==== Sys2Proof/Proofs/Contexts.lean ====
section
/-! PROOF. STAGE_KEY (O55), RESYNC_TX and SET_GUARD (O56). -/

namespace Sys2Proof.Machine

open Table (find)

/-! ## The context a command names (R102) -/

theorem controlledContext_of_named {r : PathRefOps} {l : Link} {s : State} {id i : Nat} {q : Path} {c : Context}
    (named : PathNamed r s id q) (own : q.controller = .control l) (ctx : q.kind.ctx = some i)
    (found : find s.ctxs i = some c) : controlledContext l r s = .ok (i, c) := by
  simp [controlledContext, namedPath_of_named named, isLink_eq, own, ctx, found]

theorem controlledContext_taking {r : PathRefOps} {l : Link} {s : State} {p : Port} {id i : Nat}
    {q : Path} {c : Context}
    (named : PathNamed r (settle s) id q) (own : q.controller = .control l) (ctx : q.kind.ctx = some i)
    (found : find (settle s).ctxs i = some c) : controlledContext l r (s.taking l p) = .ok (i, c) :=
  controlledContext_of_named (pathNamed_taking.2 named) own ctx (by simpa using found)

theorem controlledContext_taking_refusal {r : PathRefOps} {l : Link} {s : State} {p : Port} {why : Result}
    (no : ContextRefusal r l (settle s) why) : controlledContext l r (s.taking l p) = .error why :=
  controlledContext_of_refusal (contextRefusal_taking.2 no)

/-! ## What a half stages (R103, R104) -/

/-- An optional operand's value, where it is present. -/
def Opt.given {n : Nat} (o : Opt n) : Option (BitVec n) := if o.present = 1 then some o.value else none

theorem optValue_of_le {n : Nat} {o : Opt n} (h : o.present.toNat ≤ 1) : optValue o = some (Opt.given o) := by
  by_cases absent : o.present = 0
  · simp [optValue, Opt.given, absent]
  · simp [optValue, Opt.given, present_eq_one (show o.present.toNat < 2 by omega) absent]

theorem optValue_of_bad {n : Nat} {o : Opt n} (h : 2 ≤ o.present.toNat) : optValue o = none := by
  rw [optValue_eq, if_neg (by omega), if_neg (by omega)]

/-- The half that a STAGE_KEY stages for a direction: none where it is absent. -/
def halfStaged (h : HalfOps) (d : DirState) : Option Staged :=
  if h.present = 0 then none else some (stageHalf h (Opt.given h.epoch) (Opt.given h.lead) d)

theorem readHalfOps_good {h : HalfOps} (present : h.present.toNat ≤ 1) (epoch : h.epoch.present.toNat ≤ 1)
    (lead : h.lead.present.toNat ≤ 1) :
    readHalfOps h = some (if h.present = 0 then none else some (Opt.given h.epoch, Opt.given h.lead)) := by
  by_cases absent : h.present = 0
  · simp [readHalfOps, absent]
  · simp [readHalfOps, present_eq_one (show h.present.toNat <
      2 by omega) absent, optValue_of_le epoch, optValue_of_le lead]

theorem readHalfOps_bad {h : HalfOps}
    (bad : 2 ≤ h.present.toNat ∨ (h.present = 1 ∧ (2 ≤ h.epoch.present.toNat ∨ 2 ≤ h.lead.present.toNat))) :
    readHalfOps h = none := by
  rcases bad with large | ⟨one, epoch | lead⟩
  · have not0 : h.present ≠ 0 := by rintro e; simp [e] at large
    have not1 : h.present ≠ 1 := by rintro e; simp [e] at large
    rw [readHalfOps, if_neg not0, if_neg not1]
  · simp [readHalfOps, one, optValue_of_bad epoch]
  · simp [readHalfOps, one, optValue_of_bad lead]

theorem stage_eq {h : HalfOps} (d : DirState) : d.stage h
      (if h.present = 0 then none else some (Opt.given h.epoch, Opt.given h.lead))
    = { d with staged := halfStaged h d } := by
  unfold DirState.stage halfStaged
  split_ifs <;> rfl

/-- A half's epoch length and lead, as R103 takes them. -/
theorem stageHalf_eq (h : HalfOps) (d : DirState) :
    (stageHalf h (Opt.given h.epoch) (Opt.given h.lead) d).length
        = (if h.epoch.present = 1 then some (8000 * epochTaken h.epoch.value) else none)
      ∧ (stageHalf h (Opt.given h.epoch) (Opt.given h.lead) d).lead
        = (if h.lead.present = 1 then
            some (8000 * min ((if h.epoch.present = 1 then epochTaken h.epoch.value else d.length / 8000) - 1)
              h.lead.value.toNat)
          else if h.epoch.present = 1 ∧ epochTaken h.epoch.value ≤ d.lead / 8000 then
            some (8000 * (epochTaken h.epoch.value - 1))
          else none) := by
  have epoch (x : Word16) : clampTo 1 300 x.toNat = epochTaken x := clampTo_eq (by omega) _
  by_cases e : h.epoch.present = 1 <;> by_cases x : h.lead.present = 1
  · simp only [stageHalf, Opt.given, if_pos e, if_pos x, Option.map_some, Option.getD_some, epoch,
      clampTo_zero, seconds_eq,
      and_self]
  · by_cases short : epochTaken h.epoch.value ≤ d.lead / 8000
    · have short_ : epochTaken h.epoch.value ≤ inSeconds d.lead := short
      simp only [stageHalf, Opt.given, if_pos e, if_neg x, Option.map_some, epoch, seconds_eq, if_pos short_,
        if_pos (And.intro e short), and_self]
    · have short_ : ¬epochTaken h.epoch.value ≤ inSeconds d.lead := short
      simp only [stageHalf, Opt.given, if_pos e, if_neg x, Option.map_some, Option.map_none, epoch, seconds_eq,
        if_neg short_, if_neg (fun both : _ ∧ _ => short both.2), and_self]
  · simp only [stageHalf, Opt.given, if_neg e, if_pos x, Option.map_some, Option.map_none,
      Option.getD_none, clampTo_zero,
      seconds_eq, true_and]
    rfl
  · simp only [stageHalf, Opt.given, if_neg x, Option.map_none, e, false_and, if_false, and_self]

theorem stagedBytes_eq (d : DirState) (g : Option Staged) : stagedBytes { d with staged := g } = match g with
    | none => [0, 0, 0, 0, 0]
    | some g => [1] ++ num16 (g.length.getD d.length / 8000) ++ num16 (g.lead.getD d.lead / 8000) := by
  cases g <;> rfl

section
variable {l : Link} {o : StageKeyOps} {s : State} {i : Nat} {c : Context}

/-- A STAGE_KEY whose halves are readable, of a context that the link controls. -/
theorem ownStageKey_ok
    (good : ∀ h ∈ [o.tx, o.rx], h.present.toNat ≤ 1 ∧ h.epoch.present.toNat ≤ 1 ∧ h.lead.present.toNat ≤ 1)
    (own : controlledContext l o.ref s = .ok (i, c)) :
    ownStageKey l o s = .done (if c.tx.dir.staged = none ∧ c.rx.dir.staged = none then .ok else .replaced)
      (num8 i ++ stagedBytes { c.tx.dir with staged := halfStaged o.tx c.tx.dir }
        ++ stagedBytes { c.rx.dir with staged := halfStaged o.rx c.rx.dir })
      (s.setCtx i
        { c with
          tx := { c.tx with dir := { c.tx.dir with staged := halfStaged o.tx c.tx.dir } },
          rx := { c.rx with dir := { c.rx.dir with staged := halfStaged o.rx c.rx.dir } } }) := by
  obtain ⟨tx1, tx2, tx3⟩ := good o.tx (by simp)
  obtain ⟨rx1, rx2, rx3⟩ := good o.rx (by simp)
  have answer : (if (c.tx.dir.staged.isSome || c.rx.dir.staged.isSome) = true then Result.replaced else .ok)
      = if c.tx.dir.staged = none ∧ c.rx.dir.staged = none then .ok else .replaced := by
    cases c.tx.dir.staged <;> cases c.rx.dir.staged <;> rfl
  simp only [ownStageKey, readHalfOps_good tx1 tx2 tx3, readHalfOps_good rx1 rx2 rx3, own, answer, stage_eq]
  rfl

theorem ownStageKey_bad (bad : ∃ h ∈ [o.tx, o.rx], 2 ≤ h.present.toNat
    ∨ (h.present = 1 ∧ (2 ≤ h.epoch.present.toNat ∨ 2 ≤ h.lead.present.toNat))) :
    ownStageKey l o s = refuse .badOperand s := by
  obtain ⟨h, m, bad⟩ := bad
  have unread := readHalfOps_bad bad
  simp only [List.mem_cons, List.not_mem_nil, or_false] at m
  rcases m with rfl | rfl
  · simp only [ownStageKey, unread]
  · simp only [ownStageKey, unread]
    cases readHalfOps o.tx <;> rfl

theorem ownStageKey_refused
    (good : ∀ h ∈ [o.tx, o.rx], h.present.toNat ≤ 1 ∧ h.epoch.present.toNat ≤ 1 ∧ h.lead.present.toNat ≤ 1)
    {why : Result} (no : controlledContext l o.ref s = .error why) : ownStageKey l o s = refuse why s := by
  obtain ⟨tx1, tx2, tx3⟩ := good o.tx (by simp)
  obtain ⟨rx1, rx2, rx3⟩ := good o.rx (by simp)
  simp only [ownStageKey, readHalfOps_good tx1 tx2 tx3, readHalfOps_good rx1 rx2 rx3, no]

end

/-- Settles O55: `halfStaged` is what is staged for a direction. -/
theorem stageKeyStagesTheHalves : Obligations.StageKeyStagesTheHalves := by
  unfold Obligations.StageKeyStagesTheHalves
  refine ⟨fun s l t o p id i q c taken notM named own ctx found good =>
      ⟨halfStaged, fun h d absent => if_pos absent, fun h d one => ?half, ?staged⟩,
    fun s l t o p taken notM => ⟨fun bad => ?bad, fun good why no => ?refused⟩⟩
  case half =>
    obtain ⟨length, lead⟩ := stageHalf_eq h d
    exact ⟨_, if_neg (by rw [one]; decide), rfl, rfl, length, lead⟩
  case staged =>
    have done := ownStageKey_ok good (controlledContext_taking (p := p) named own ctx found)
    refine exec_eq_answer_of_owner (owner := ownStageKey l o) taken rfl rfl rfl (decide_eq_true notM) (done.trans ?_)
    rw [stagedBytes_eq, stagedBytes_eq, List.append_assoc]
    simp only [List.flatMap_cons, List.flatMap_nil, List.append_nil]
    rfl
  case bad =>
    exact refusedWith_of_owner (owner := ownStageKey l o) taken rfl rfl rfl (decide_eq_true notM) (ownStageKey_bad bad)
  case refused =>
    exact refusedWith_of_owner (owner := ownStageKey l o) taken rfl rfl rfl (decide_eq_true notM)
      (ownStageKey_refused good (controlledContext_taking_refusal no))

/-! ## RESYNC_TX and SET_GUARD -/

section
variable {l : Link} {s : State} {i : Nat} {c : Context}

theorem ownResyncTx_ok {o : PathRefOps} (own : controlledContext l o s = .ok (i, c)) :
    ownResyncTx l o s = .done .ok
      ([BitVec.ofNat 8 i, if c.tx.phase = .running then 1 else 0] ++ num32 c.tx.dir.epoch ++ num32 c.tx.dir.f)
      (s.setCtx i
        { c with
          tx :=
            { phase := .preamble 0,
              dir := { c.tx.dir with f := 0, epoch := 0, gen := c.tx.dir.seed, owed := 0, warnDue := false } } }) := by
  simp only [ownResyncTx, own]
  cases c.tx.phase <;> rfl

theorem ownResyncTx_refused {o : PathRefOps} {why : Result} (no : controlledContext l o s = .error why) :
    ownResyncTx l o s = refuse why s := by simp only [ownResyncTx, no]

theorem ownSetGuard_ok {o : SetGuardOps} (enabled : o.enabled.toNat < 2)
    (own : controlledContext l o.ref s = .ok (i, c)) :
    ownSetGuard l o s = .done .ok
      ([BitVec.ofNat 8 i] ++ num16 (max 64 (min 3952 o.ceiling.toNat)) ++ num16 (max 1 (min 15 o.limit.toNat))
        ++ [o.enabled])
      (s.setCtx i
        { c with
          ceiling := max 64 (min 3952 o.ceiling.toNat), strikesLimit := max 1 (min 15 o.limit.toNat),
          guardOn := decide (o.enabled = 1), rx := { c.rx with guardSum := 0, guardCount := 0, strikes := 0 } }) := by
  have byte : flag8 (decide (o.enabled = 1)) = [o.enabled] := by
    by_cases off : o.enabled = 0
    · rw [off]; rfl
    · rw [present_eq_one enabled off]; rfl
  simp only [ownSetGuard, yesNo_of_lt enabled, own, clampTo_eq
    (show 64 ≤ 3952 by omega), clampTo_eq (show 1 ≤ 15 by omega),
    byte]
  rfl

theorem ownSetGuard_refused {o : SetGuardOps} {why : Result} (enabled : o.enabled.toNat < 2)
    (no : controlledContext l o.ref s = .error why) : ownSetGuard l o s = refuse why s := by
  simp only [ownSetGuard, yesNo_of_lt enabled, no]

end

/-- Settles O56: the context that the reference names is written as the rules say. -/
theorem resyncAndGuardReachTheContext : Obligations.ResyncAndGuardReachTheContext := by
  unfold Obligations.ResyncAndGuardReachTheContext
  have resyncRefused {s : State} {l : Link} {t : Byte} {o : PathRefOps} {p : Port} {why : Result}
      (taken : TakenBy (.resyncTx l t o) s l p) (notM : l ≠ .m) (no : ContextRefusal o l (settle s) why) :
      RefusedWith (.resyncTx l t o) s l p 20 t why :=
    refusedWith_of_owner (owner := ownResyncTx l o) taken rfl rfl rfl (decide_eq_true notM)
      (ownResyncTx_refused (controlledContext_taking_refusal no))
  refine ⟨fun s l t o p id i q c taken notM named own ctx found => ?resync,
    fun s l t o p id i q c taken notM named own ctx found enabled => ?guard,
    fun s l t o p id q taken notM named =>
      ⟨fun other => resyncRefused taken notM (.inr ⟨id, q, named, .inl ⟨rfl, other⟩⟩),
        fun own clear => resyncRefused taken notM (.inr ⟨id, q, named, .inr ⟨rfl, own, clear⟩⟩)⟩,
    fun s l t o p why taken notM no => resyncRefused taken notM no,
    fun s l t o p taken notM => ⟨fun bad => ?guardBad, fun enabled why no => ?guardRefused⟩⟩
  case resync =>
    exact exec_eq_answer_of_owner (owner := ownResyncTx l o) taken rfl rfl rfl (decide_eq_true notM)
      (ownResyncTx_ok (controlledContext_taking named own ctx found))
  case guard =>
    exact exec_eq_answer_of_owner (owner := ownSetGuard l o) taken rfl rfl rfl (decide_eq_true notM)
      (ownSetGuard_ok (Nat.lt_succ_of_le enabled) (controlledContext_taking named own ctx found))
  case guardBad =>
    refine refusedWith_of_owner (owner := ownSetGuard l o) taken rfl rfl rfl (decide_eq_true notM) ?_
    simp only [ownSetGuard, yesNo_of_le bad]
  case guardRefused =>
    exact refusedWith_of_owner (owner := ownSetGuard l o) taken rfl rfl rfl (decide_eq_true notM)
      (ownSetGuard_refused enabled (controlledContext_taking_refusal no))

end Sys2Proof.Machine
end

