-- ==== Sys2Proof/Proofs/BridgeCommands.lean ====
section
/-! PROOF. OPEN_BRIDGE, SET_LEG and SET_TALKER (O57). -/

namespace Sys2Proof.Machine

open Table (find put)

/-! ## Operands, and references on the state with the command taken -/

theorem legMode_of {b : Byte} {m : Mode} (h : b = 0 ∧ m = .talk ∨ b = 1 ∧ m = .listen) :
    legMode b = some m ∧ num8 m.code = [b] := by
  rcases h with ⟨rfl, rfl⟩ | ⟨rfl, rfl⟩
  · exact ⟨rfl, rfl⟩
  · exact ⟨rfl, rfl⟩

theorem legMode_of_lt {b : Byte} (h : b.toNat < 2) : ∃ m, legMode b = some m := by
  by_cases zero : b = 0
  · exact ⟨.talk, if_pos zero⟩
  · exact ⟨.listen, (if_neg zero).trans (if_pos (present_eq_one h zero))⟩

theorem legMode_of_bad {b : Byte} (h : 2 ≤ b.toNat) : legMode b = none := by
  have not0 : b ≠ 0 := by rintro rfl; simp at h
  have not1 : b ≠ 1 := by rintro rfl; simp at h
  exact (if_neg not0).trans (if_neg not1)

theorem controlledBridge_taking {r : BridgeRefOps} {l : Link} {s : State} {p : Port} {b : Nat} {x : Bridge}
    (named : BridgeNamed r (settle s) b x) (own : x.controller = .control l) :
    controlledBridge l r (s.taking l p) = .ok (b, x) := controlledBridge_of_named (bridgeNamed_taking.2 named) own

theorem controlledBridge_taking_refusal {r : BridgeRefOps} {l : Link} {s : State} {p : Port} {why : Result}
    (no : BridgeRefusal r l (settle s) why) : controlledBridge l r (s.taking l p) = .error why :=
  controlledBridge_of_refusal (bridgeRefusal_taking.2 no)

theorem replaced_eq {α : Type} (o : Option α) :
    (if o.isSome = true then Result.replaced else .ok) = if o = none then .ok else .replaced := by cases o <;> rfl

/-! ## What the owners write -/

section
variable {s : State} {bridges : Table Bridge} {l : Link}

theorem ownOpenBridge_ok {o : Opt 16} {b n : Nat} {now : Word32} (hbridges : s.bridges = bridges)
    (hnow : s.frameCount = now)
    (present : o.present.toNat ≤ 1) (lowest : Lowest bridges 32 b)
    (threshold : n = if o.present = 1 then min 3952 o.value.toNat else 200) :
    ownOpenBridge l o s = .done .ok ([BitVec.ofNat 8 b] ++ bytes32 now ++ num16 n)
      { s with
        bridges := put bridges b
          { controller := .control l, opened := now, threshold := n, staged := none, windowCount := 0, talker := none,
            legs := [] } } := by
  subst hbridges hnow
  have given : ((Opt.given o).map fun x => clampTo 0 3952 x.toNat).getD 200 = n := by
    rw [threshold, Opt.given]
    split_ifs
    · rw [Option.map_some, Option.getD_some, clampTo_zero]
    · rfl
  have free : s.freeBridge = some b := Table.lowestFree_eq_some.2 lowest
  simp only [ownOpenBridge, optValue_of_le present, free, given]
  rfl

/-- Of a leg list the one leg on the path is staged. -/
theorem map_stage {before after : List Leg} {g : Leg} {gain : Nat} {m : Mode}
    (others : ∀ k ∈ before ++ after, k.path ≠ g.path) :
    (before ++ g :: after).map (Leg.stage g.path gain m) = before ++ { g with staged := some (gain, m) } :: after := by
  have same {k : Leg} (h : k.path ≠ g.path) : Leg.stage g.path gain m k = k := if_neg h
  have here : Leg.stage g.path gain m g = { g with staged := some (gain, m) } := if_pos rfl
  rw [List.map_append, List.map_cons, here, List.map_congr_left fun k i => same (others k (List.mem_append_left _ i)),
    List.map_congr_left fun k i => same (others k (List.mem_append_right _ i)), List.map_id', List.map_id']

theorem ownSetLeg_ok {o : SetLegOps} {b : Nat} {x : Bridge} {before after : List Leg} {g : Leg} {m : Mode}
    (hbridges : s.bridges = bridges) (leg : controlledLeg l o.ref o.path s = .ok (b, x, g))
    (legs : x.legs = before ++ g :: after) (others : ∀ k ∈ before ++ after, k.path ≠ g.path)
    (mode : o.mode = 0 ∧ m = .talk ∨ o.mode = 1 ∧ m = .listen) :
    ownSetLeg l o s = .done (if g.staged = none then .ok else .replaced) (num8 (min 32 o.gain.toNat) ++ [o.mode])
      { s with
        bridges := put bridges b
          { x with legs := before ++ { g with staged := some (min 32 o.gain.toNat, m) } :: after } } := by
  subst hbridges
  obtain ⟨read, byte⟩ := legMode_of mode
  simp only [ownSetLeg, read, leg, clampTo_zero, replaced_eq, byte, legs, map_stage others]

theorem ownSetTalker_ok {o : SetTalkerOps} {b : Nat} {x : Bridge} (hbridges : s.bridges = bridges)
    (named : controlledBridge l o.ref s = .ok (b, x)) :
    ownSetTalker l o s = .done (if x.staged = none then .ok else .replaced) (num16 (min 3952 o.threshold.toNat))
      { s with bridges := put bridges b { x with staged := some (min 3952 o.threshold.toNat) } } := by
  subst hbridges
  simp only [ownSetTalker, named, clampTo_zero, replaced_eq]

end

/-! ## What SET_LEG refuses -/

section
variable {s : State} {l : Link} {o : SetLegOps}

theorem ownSetLeg_bad (h : 384 ≤ o.path.toNat ∨ 2 ≤ o.mode.toNat) : ownSetLeg l o s = refuse .badOperand s := by
  by_cases mode : 2 ≤ o.mode.toNat
  · simp only [ownSetLeg, legMode_of_bad mode]
  · obtain ⟨m, read⟩ := legMode_of_lt (Nat.not_le.1 mode)
    simp only [ownSetLeg, read, controlledLeg_out_of_range (h.resolve_right mode)]

theorem ownSetLeg_refused {why : Result} (mode : o.mode.toNat < 2) (no : controlledLeg l o.ref o.path s = .error why) :
    ownSetLeg l o s = refuse why s := by
  obtain ⟨m, read⟩ := legMode_of_lt mode
  simp only [ownSetLeg, read, no]

end

/-! ## The obligation -/

/-- Settles O57: the owners on the state with the command taken. -/
theorem bridgeIsOpenedAndStaged : Obligations.BridgeIsOpenedAndStaged := by
  unfold Obligations.BridgeIsOpenedAndStaged
  refine ⟨fun s l t o p b n taken notM present lowest threshold => ?openBridge,
    fun s l t o p b x before after g m taken notM named own inRange legs here others mode => ?setLeg,
    fun s l t o p b x taken notM named own => ?setTalker,
    fun s l t o p taken notM => ⟨fun bad => ?openBad, fun present full => ?openFull⟩,
    fun s l t o p taken notM => ⟨fun bad => ?legBad, fun inRange mode why no => ?legRefused,
      fun b x inRange mode named own absent => ?legAbsent⟩,
    fun s l t o p why taken notM no => ?talkerRefused⟩
  case openBridge =>
    exact exec_eq_answer_of_owner (owner := ownOpenBridge l o) taken rfl rfl rfl (decide_eq_true notM)
      (ownOpenBridge_ok (State.taking_bridges s l p) (State.taking_frameCount s l p) present lowest threshold)
  case setLeg =>
    have leg := controlledLeg_of_named inRange (bridgeNamed_taking (l := l) (p := p).2 named) own legs here
      fun k m => others k (List.mem_append_left _ m)
    exact exec_eq_answer_of_owner (owner := ownSetLeg l o) taken rfl rfl rfl (decide_eq_true notM)
      (ownSetLeg_ok (State.taking_bridges s l p) leg legs (by rwa [here]) mode)
  case setTalker =>
    exact exec_eq_answer_of_owner (owner := ownSetTalker l o) taken rfl rfl rfl (decide_eq_true notM)
      (ownSetTalker_ok (State.taking_bridges s l p) (controlledBridge_taking named own))
  case openBad =>
    refine refusedWith_of_owner (owner := ownOpenBridge l o) taken rfl rfl rfl (decide_eq_true notM) ?_
    simp only [ownOpenBridge, optValue_of_bad bad]
  case openFull =>
    have none_ : (s.taking l p).freeBridge = none := Table.lowestFree_eq_none.2 (by simpa [Config.bridges] using full)
    refine refusedWith_of_owner (owner := ownOpenBridge l o) taken rfl rfl rfl (decide_eq_true notM) ?_
    simp only [ownOpenBridge, optValue_of_le (Nat.le_of_lt_succ present), none_]
  case legBad =>
    exact refusedWith_of_owner (owner := ownSetLeg l o) taken rfl rfl rfl (decide_eq_true notM) (ownSetLeg_bad bad)
  case legRefused =>
    exact refusedWith_of_owner (owner := ownSetLeg l o) taken rfl rfl rfl (decide_eq_true notM)
      (ownSetLeg_refused mode (controlledLeg_of_refusal inRange (bridgeRefusal_taking.2 no)))
  case legAbsent =>
    exact refusedWith_of_owner (owner := ownSetLeg l o) taken rfl rfl rfl (decide_eq_true notM)
      (ownSetLeg_refused mode (controlledLeg_of_absent inRange (bridgeNamed_taking.2 named) own absent))
  case talkerRefused =>
    refine refusedWith_of_owner (owner := ownSetTalker l o) taken rfl rfl rfl (decide_eq_true notM) ?_
    simp only [ownSetTalker, controlledBridge_taking_refusal no]

end Sys2Proof.Machine
end

