-- ==== Sys2Proof/Proofs/AddLeg.lean ====
section
/-! PROOF. ADD_LEG (O58). -/

namespace Sys2Proof.Machine

open Table (find put)

/-! ## The operands (R130) -/

section
variable {o : AddLegOps}

theorem readNewLeg_station (kind : o.kind = 0) (station : o.station.toNat < 512) :
    readNewLeg o = some (.station o.station.toNat) := by
  rw [readNewLeg, if_pos kind, below_in_range (n := Config.stationSlots) station]
  rfl

theorem readNewLeg_tie (kind : o.kind = 1) (privacy : o.privacy.toNat < 2) :
    readNewLeg o = some (.tie o.tie.toNat (decide (o.privacy = 1))) := by
  rw [readNewLeg, if_neg (by rw [kind]; decide), if_pos kind, yesNo_of_lt privacy]
  rfl

theorem addLeg_read (h : AddLegReadable o) : ∃ g m, readNewLeg o = some g ∧ legMode o.mode = some m := by
  obtain ⟨⟨kind, station⟩ | ⟨kind, privacy⟩, mode⟩ := h
  · obtain ⟨m, read⟩ := legMode_of_lt mode
    exact ⟨_, m, readNewLeg_station kind station, read⟩
  · obtain ⟨m, read⟩ := legMode_of_lt mode
    exact ⟨_, m, readNewLeg_tie kind privacy, read⟩

theorem addLeg_unread (h : ¬AddLegReadable o) : readNewLeg o = none ∨ legMode o.mode = none := by
  by_cases mode : 2 ≤ o.mode.toNat
  · exact .inr (legMode_of_bad mode)
  refine .inl ?_
  have unread : ¬((o.kind = 0 ∧ o.station.toNat < 512) ∨ (o.kind = 1 ∧ o.privacy.toNat < 2)) :=
    fun legal => h ⟨legal, Nat.not_le.1 mode⟩
  obtain ⟨station, tie⟩ := not_or.1 unread
  by_cases kind : o.kind = 0
  · have large : Config.stationSlots ≤ o.station.toNat := Nat.not_lt.1 fun small => station ⟨kind, small⟩
    rw [readNewLeg, if_pos kind, below_out_of_range large]
    rfl
  rw [readNewLeg, if_neg kind]
  by_cases one : o.kind = 1
  · rw [if_pos one, yesNo_of_le (Nat.not_lt.1 fun small => tie ⟨one, small⟩)]
    rfl
  · exact if_neg one

end

/-! ## The legs that a bridge has -/

theorem leg_isTie_iff (g : Leg) : g.isTie = true ↔ ∀ n, g.slot ≠ .station n := by
  unfold Leg.isTie
  cases g.slot <;> simp

theorem leg_isClearTie_iff (g : Leg) : g.isClearTie = true ↔ ∃ n, g.slot = .tie n .clear := by
  unfold Leg.isClearTie
  cases g.slot with
  | station n => simp
  | tie n privacy => cases privacy <;> simp

/-- An access is among those of a bridge's station legs, by a leg's path and its extension. -/
theorem mem_stationAccesses {s : State} {x : Bridge} {a : TieAccess} : a ∈ stationAccesses s x ↔
    ∃ g ∈ x.legs, ∃ q e, find s.paths g.path = some q ∧ q.kind.ext = some e ∧ (s.ext e).access = a := by
  simp only [stationAccesses, List.mem_filterMap]
  refine exists_congr fun g => and_congr_right fun _ => ?_
  cases find s.paths g.path with
  | none => simp
  | some q => simp

section
variable {s : State} {x : Bridge}

/-- A bridge with a station leg of access `a`, as the checks see it. -/
theorem stationAccesses_any {a : TieAccess} (h : ∃ g ∈ x.legs, ∃ q e r,
    find s.paths g.path = some q ∧ q.kind.ext = some e
    ∧ (s.ext e).stored = some r ∧ r.access = a) : ((stationAccesses s x).any fun b => decide (b = a)) = true := by
  obtain ⟨g, m, q, e, r, found, ext, stored, access⟩ := h
  exact List.any_eq_true.2 ⟨a, mem_stationAccesses.2 ⟨g, m, q, e, found, ext, (access_of_stored stored).trans access⟩,
    decide_eq_true rfl⟩

theorem stationAccesses_not_any {a : TieAccess}
    (h : ∀ g ∈ x.legs, ∀ q e, find s.paths g.path = some q → q.kind.ext = some e →
      ∃ r, (s.ext e).stored = some r ∧ r.access ≠ a) : ((stationAccesses s x).any fun b => decide (b = a)) = false := by
  refine List.any_eq_false.2 fun b m => ?_
  obtain ⟨g, i, q, e, found, ext, rfl⟩ := mem_stationAccesses.1 m
  obtain ⟨r, stored, other⟩ := h g i q e found ext
  rw [access_of_stored stored]
  simpa using other

theorem tieLegRefusal_class {priv : Bool} (h : ∃ g ∈ x.legs, ∃ q e r, find s.paths g.path = some q ∧ q.kind.ext = some e
    ∧ (s.ext e).stored = some r ∧ r.access = .none) : tieLegRefusal s x priv = some .class_ :=
  if_pos (stationAccesses_any h)

variable (classes : ∀ g ∈ x.legs, ∀ q e, find s.paths g.path = some q → q.kind.ext = some e →
  ∃ r, (s.ext e).stored = some r ∧ r.access ≠ .none)
include classes

theorem tieLegRefusal_conflict (h : ∃ g ∈ x.legs, ∃ q e r, find s.paths g.path = some q ∧ q.kind.ext = some e
    ∧ (s.ext e).stored = some r ∧ r.access = .privateOnly) : tieLegRefusal s x false = some .privacyConflict := by
  rw [tieLegRefusal, stationAccesses_not_any classes, stationAccesses_any h]
  rfl

theorem tieLegRefusal_private : tieLegRefusal s x true = none := by
  rw [tieLegRefusal, stationAccesses_not_any classes]
  rfl

end

theorem tieLegRefusal_clear {s : State} {x : Bridge}
    (any : ∀ g ∈ x.legs, ∀ q e, find s.paths g.path = some q → q.kind.ext = some e →
      ∃ r, (s.ext e).stored = some r ∧ r.access = .any) : tieLegRefusal s x false = none := by
  have not {a : TieAccess} (other : .any ≠ a) : ((stationAccesses s x).any fun b => decide (b = a)) = false :=
    stationAccesses_not_any fun g m q e found ext => by
      obtain ⟨r, stored, access⟩ := any g m q e found ext
      exact ⟨r, stored, access ▸ other⟩
  rw [tieLegRefusal, not (by decide), not (by decide)]
  rfl

section
variable {x : Bridge} {e : Ext} {r : Stored} (stored : e.stored = some r)
include stored

theorem conference_of_stored : e.conference = r.conference := by
  rw [Ext.conference, stored]
  rfl

theorem stationLegRefusal_class (h : r.conference = false ∨ (r.access = .none ∧ ∃ g ∈ x.legs, ∀ n,
    g.slot ≠ .station n)) :
    stationLegRefusal x e = some .class_ := by
  rw [stationLegRefusal, conference_of_stored stored, access_of_stored stored]
  refine if_pos ?_
  rcases h with no | ⟨none_, g, m, tie⟩
  · simp [no]
  · have any : x.legs.any Leg.isTie = true := List.any_eq_true.2 ⟨g, m, (leg_isTie_iff g).2 tie⟩
    simp [none_, any]

theorem stationLegRefusal_conflict (conference : r.conference = true) (only : r.access = .privateOnly)
    (clear : ∃ g ∈ x.legs, ∃ n, g.slot = .tie n .clear) : stationLegRefusal x e = some .privacyConflict := by
  obtain ⟨g, m, tie⟩ := clear
  have any : x.legs.any Leg.isClearTie = true := List.any_eq_true.2 ⟨g, m, (leg_isClearTie_iff g).2 tie⟩
  rw [stationLegRefusal, conference_of_stored stored, access_of_stored stored, conference, only, any]
  rfl

theorem stationLegRefusal_none (conference : r.conference = true)
    (stations : r.access = .none → ∀ g ∈ x.legs, ∃ n, g.slot = .station n)
    (private_ : r.access = .privateOnly → ∀ g ∈ x.legs, ∀ n, g.slot ≠ .tie n .clear) :
      stationLegRefusal x e = none := by
  have class_ : ¬(!e.conference || (decide (e.access = .none) && x.legs.any Leg.isTie)) = true := by
    rw [conference_of_stored stored, access_of_stored stored, conference]
    simp only [Bool.not_true, Bool.false_or, Bool.and_eq_true, decide_eq_true_eq, List.any_eq_true, leg_isTie_iff]
    rintro ⟨none_, g, m, tie⟩
    obtain ⟨n, station⟩ := stations none_ g m
    exact tie n station
  have conflict : ¬(decide (e.access = .privateOnly) && x.legs.any Leg.isClearTie) = true := by
    rw [access_of_stored stored]
    simp only [Bool.and_eq_true, decide_eq_true_eq, List.any_eq_true, leg_isClearTie_iff]
    rintro ⟨only, g, m, n, clear⟩
    exact private_ only g m n clear
  rw [stationLegRefusal, if_neg class_, if_neg conflict]

end

/-! ## The checks in their order (R131, R132) -/

section
variable {s : State} {x : Bridge} {g : NewLeg}

theorem checkNewLeg_full (full : 8 ≤ x.legs.length) : checkNewLeg x g s = .error .bridgeFull := if_pos full

variable (room : x.legs.length < 8)
include room

theorem checkNewLeg_noLeg (full : 128 ≤ s.legsInUse) : checkNewLeg x g s = .error .noLeg :=
  (if_neg (Nat.not_le.2 room)).trans (if_pos full)

theorem bridge_room : ¬Config.legsPerBridge ≤ x.legs.length := Nat.not_le.2 room

omit room in
theorem pool_room (pool : s.legsInUse < 128) : ¬Config.legPool ≤ s.legsInUse := Nat.not_le.2 pool

end

section
variable {s : State} {x : Bridge} {slot e : Nat} (room : x.legs.length < 8) (pool : s.legsInUse < 128)
include room pool

theorem checkNewLeg_station_inUse (held : find s.stationOcc slot ≠ none) :
    checkNewLeg x (.station slot) s = .error .slotInUse := by
  have held : ¬s.stationFree slot = true := by simpa [State.stationFree, Option.isNone_iff_eq_none] using held
  simp only [checkNewLeg, if_neg (bridge_room room), if_neg (pool_room pool), if_neg held]

section
variable (free : find s.stationOcc slot = none)
include free

theorem checkNewLeg_unbound (unbound : find s.slotMap slot = none) :
    checkNewLeg x (.station slot) s = .error .noExtension := by
  have free : s.stationFree slot = true := by simp [State.stationFree, free]
  simp only [checkNewLeg, if_neg (bridge_room room), if_neg (pool_room pool), if_pos free, unbound]

variable (bound : find s.slotMap slot = some e)
include bound

theorem checkNewLeg_notAdmitted (not : (s.ext e).standing.code ≠ 2) :
    checkNewLeg x (.station slot) s = .error .notAdmitted := by
  have free : s.stationFree slot = true := by simp [State.stationFree, free]
  simp only [checkNewLeg, if_neg (bridge_room room), if_neg (pool_room pool), if_pos free, bound, isAdmitted_eq_code,
    decide_eq_true_eq, if_neg not]

variable (admitted : (s.ext e).standing.code = 2)
include admitted

theorem checkNewLeg_station_refused {why : Result} (no : stationLegRefusal x (s.ext e) = some why) :
    checkNewLeg x (.station slot) s = .error why := by
  have free : s.stationFree slot = true := by simp [State.stationFree, free]
  simp only [checkNewLeg, if_neg (bridge_room room), if_neg (pool_room pool), if_pos free, bound, isAdmitted_eq_code,
    decide_eq_true_eq, if_pos admitted, no]

theorem checkNewLeg_station_ok (ok : stationLegRefusal x (s.ext e) = none) :
    checkNewLeg x (.station slot) s = .ok (some e) := by
  have free : s.stationFree slot = true := by simp [State.stationFree, free]
  simp only [checkNewLeg, if_neg (bridge_room room), if_neg (pool_room pool), if_pos free, bound, isAdmitted_eq_code,
    decide_eq_true_eq, if_pos admitted, ok]

end

section
variable {priv : Bool}

theorem checkNewLeg_tie_inUse (held : find s.tieOcc slot ≠ none) :
    checkNewLeg x (.tie slot priv) s = .error .slotInUse := by
  have held : ¬s.tieFree slot = true := by simpa [State.tieFree, Option.isNone_iff_eq_none] using held
  simp only [checkNewLeg, if_neg (bridge_room room), if_neg (pool_room pool), if_neg held]

variable (free : find s.tieOcc slot = none)
include free

theorem checkNewLeg_tie_refused {why : Result} (no : tieLegRefusal s x priv = some why) :
    checkNewLeg x (.tie slot priv) s = .error why := by
  have free : s.tieFree slot = true := by simp [State.tieFree, free]
  simp only [checkNewLeg, if_neg (bridge_room room), if_neg (pool_room pool), if_pos free, no]

theorem checkNewLeg_tie_ok (ok : tieLegRefusal s x priv = none) : checkNewLeg x (.tie slot priv) s =
    if (priv && s.freeCtx.isNone) = true then .error .noContext else .ok none := by
  have free : s.tieFree slot = true := by simp [State.tieFree, free]
  simp only [checkNewLeg, if_neg (bridge_room room), if_neg (pool_room pool), if_pos free, ok]

end

end

/-! ## The leg as it joins (R78, R133) -/

section
variable {s : State} {paths : Table Path} {stations ties : Table Nat} {bridges : Table Bridge} {now : Word32} {l : Link}
  {b id slot gain : Nat} {x : Bridge} {m : Mode} (k : KeyBlock) (t : TimingOps)
  (hpaths : s.paths = paths) (hbridges : s.bridges = bridges) (hnow : s.frameCount = now)
    (own : x.controller = .control l)
include hpaths hbridges hnow own

theorem joinLeg_station {e : Nat} {y : Ext} (hstations : s.stationOcc = stations) (hext : s.ext e = y) :
    joinLeg b x id (.station slot) (some e) k (takeTiming t) gain m s = .done .ok
      (num16 id ++ bytes32 now ++ num8 (x.legs.length + 1) ++ num8 gain ++ noContextBytes)
      (State.setExt
        { s with
          paths := put paths id { kind := .bridgeStation slot e b, controller := .control l, opened := now },
          stationOcc := put stations slot id,
          bridges := put bridges b
            { x with
              legs := x.legs ++
                [{ path := id, slot := .station slot, gain := gain, mode := m, staged := none, sum := 0 }] } }
        e { y with path := some id }) := by
  subst hpaths hbridges hnow hstations hext
  rw [← own]
  rfl

theorem joinLeg_clear (hties : s.tieOcc = ties) :
    joinLeg b x id (.tie slot false) none k (takeTiming t) gain m s = .done .ok
      (num16 id ++ bytes32 now ++ num8 (x.legs.length + 1) ++ num8 gain ++ noContextBytes)
      { s with
        paths := put paths id { kind := .bridgeTie slot .clear b, controller := .control l, opened := now },
        tieOcc := put ties slot id,
        bridges := put bridges b
          { x with
            legs := x.legs ++
              [{ path := id, slot := .tie slot .clear, gain := gain, mode := m, staged := none, sum := 0 }] } } := by
  subst hpaths hbridges hnow hties
  rw [← own]
  rfl

theorem joinLeg_private {ctxs : Table Context} {c : Context} {i : Nat} (hties : s.tieOcc = ties) (hctxs : s.ctxs = ctxs)
    (free : s.freeCtx = some i) (started : startedContext s id slot k t = c) :
    joinLeg b x id (.tie slot true) none k (takeTiming t) gain m s = .done .ok
      (num16 id ++ bytes32 now ++ num8 (x.legs.length + 1) ++ num8 gain ++ contextTakenBytes i t)
      { s with
        paths := put paths id { kind := .bridgeTie slot (.priv i) b, controller := .control l, opened := now },
        tieOcc := put ties slot id, ctxs := put ctxs i c,
        bridges := put bridges b
          { x with
            legs := x.legs ++
              [{ path := id, slot := .tie slot (.priv i), gain := gain, mode := m, staged := none, sum := 0 }] } } := by
  subst hpaths hbridges hnow hties hctxs started
  have placed : placeLeg b id (.tie slot true) none k (takeTiming t) s
      = (s.setCtx i (startedContext s id slot k t), .bridgeTie slot (.priv i) b, .tie slot (.priv i)) := by
    simp only [placeLeg, allocate, free, openContext_eq, if_true]
  simp only [joinLeg, placed]
  rw [show (PathKind.bridgeTie slot (.priv i) b).ctx = some i from rfl, privateBytes_some, ← own]
  rfl

end

/-! ## The obligation -/

section
variable {s : State} {l : Link} {t : Byte} {o : AddLegOps} {p : Port} {b : Nat} {x : Bridge} {g : NewLeg} {m : Mode}
  (taken : TakenBy (.addLeg l t o) s l p) (notM : l ≠ .m)
include taken notM

theorem addLeg_refused {why : Result} (no : ownAddLeg l o (s.taking l p) = refuse why (s.taking l p)) :
    RefusedWith (.addLeg l t o) s l p 24 t why :=
  refusedWith_of_owner (owner := ownAddLeg l o) taken rfl rfl rfl (decide_eq_true notM) no

theorem addLeg_badOperand (bad : ¬AddLegReadable o) : RefusedWith (.addLeg l t o) s l p 24 t .badOperand := by
  refine addLeg_refused taken notM ?_
  rcases addLeg_unread bad with leg | mode
  · simp only [ownAddLeg, leg]
  · simp only [ownAddLeg, mode]
    cases readNewLeg o <;> rfl

theorem addLeg_bridgeRefused {why : Result} (read : AddLegReadable o) (no : BridgeRefusal o.ref l (settle s) why) :
    RefusedWith (.addLeg l t o) s l p 24 t why := by
  obtain ⟨g, m, leg, mode⟩ := addLeg_read read
  exact addLeg_refused taken notM (by simp only [ownAddLeg, leg, mode, controlledBridge_taking_refusal no])

variable (leg : readNewLeg o = some g) (mode : legMode o.mode = some m) (named : BridgeNamed o.ref (settle s) b x)
  (own : x.controller = .control l)
include leg mode named own

theorem addLeg_checked {why : Result} (no : checkNewLeg x g (s.taking l p) = .error why) :
    RefusedWith (.addLeg l t o) s l p 24 t why :=
  addLeg_refused taken notM (by simp only [ownAddLeg, leg, mode, controlledBridge_taking named own, no])

theorem addLeg_joins {e : Option Nat} {id : Nat} {body : List Byte} {u : State}
    (ok : checkNewLeg x g (s.taking l p) = .ok e) (free : (s.taking l p).freePath = some id)
    (joined : joinLeg b x id g e o.keys (takeTiming o.timing)
      (min 32 o.gain.toNat) m (s.taking l p) = .done .ok body u) :
    exec (.addLeg l t o) s = .next (u.answer l 24 t .ok body) :=
  exec_eq_answer_of_owner (owner := ownAddLeg l o) taken rfl rfl rfl (decide_eq_true notM)
    (by simp only [ownAddLeg, leg, mode, controlledBridge_taking named own, ok, free, clampTo_zero, joined])

end

/-- Settles O58: the checks one after another on the state with the command taken, and the leg that joins when all
pass. -/
theorem addLegJoinsTheBridge : Obligations.AddLegJoinsTheBridge := by
  unfold Obligations.AddLegJoinsTheBridge
  refine ⟨fun s l t o p b id x m taken notM named own mode room pool lowest => ?joins, fun s l t o p taken notM =>
    ⟨fun bad => addLeg_badOperand taken notM bad, fun read why no => addLeg_bridgeRefused taken notM read no,
      fun b x read named own => ?refuses⟩⟩
  case joins =>
    obtain ⟨mode, -⟩ := legMode_of mode
    have now := State.taking_frameCount s l p
    have paths := State.taking_paths s l p
    have bridges := State.taking_bridges s l p
    have lowestPath := lowest
    simp only [← State.taking_legsInUse s l p] at pool
    rw [← State.taking_paths s l p] at lowestPath
    refine ⟨fun e r kind station free bound admitted stored conference stations private_ => ?station,
      fun kind clear free any => ?clear, fun i kind private_ free some_ lowestCtx => ?private_⟩
    case station =>
      have record := State.taking_ext s l p e
      simp only [← State.taking_stationOcc s l p, ← State.taking_slotMap s l p, ← State.taking_ext s l p]
        at free bound admitted stored
      exact addLeg_joins taken notM (readNewLeg_station kind station) mode named own
        (checkNewLeg_station_ok room pool free bound admitted
          (stationLegRefusal_none stored conference stations private_))
        (freePath_of_lowest lowestPath)
        (joinLeg_station o.keys o.timing paths bridges now own (State.taking_stationOcc s l p) record)
    case clear =>
      simp only [← State.taking_tieOcc s l p, ← State.taking_paths s l p, ← State.taking_ext s l p] at free any
      have leg := readNewLeg_tie kind (show o.privacy.toNat < 2 by rw [clear]; decide)
      rw [show decide (o.privacy = 1) = false by rw [clear]; rfl] at leg
      exact addLeg_joins taken notM leg mode named own (checkNewLeg_tie_ok room pool free (tieLegRefusal_clear any))
        (freePath_of_lowest lowestPath)
        (joinLeg_clear o.keys o.timing paths bridges now own (State.taking_tieOcc s l p))
    case private_ =>
      simp only [← State.taking_tieOcc s l p, ← State.taking_paths s l p, ← State.taking_ext s l p] at free some_
      have leg := readNewLeg_tie kind (show o.privacy.toNat < 2 by rw [private_]; decide)
      rw [show decide (o.privacy = 1) = true from decide_eq_true private_] at leg
      have freeCtx : (s.taking l p).freeCtx = some i := freeCtx_of_lowest (by rwa [State.taking_ctxs])
      refine addLeg_joins taken notM leg mode named own (e := none) ?_ (freePath_of_lowest lowestPath)
        (joinLeg_private o.keys o.timing paths bridges now own (State.taking_tieOcc s l p) (State.taking_ctxs s l p)
          freeCtx (startedContext_taking ..))
      rw [checkNewLeg_tie_ok room pool free (tieLegRefusal_private some_), freeCtx]
      rfl
  case refuses =>
    simp only [← State.taking_stationOcc s l p, ← State.taking_tieOcc s l p, ← State.taking_slotMap s l p,
      ← State.taking_ext s l p, ← State.taking_ctxs s l p, ← State.taking_paths s l p, ← State.taking_legsInUse s l p]
    obtain ⟨g, m, leg, mode⟩ := addLeg_read read
    refine ⟨fun full => addLeg_checked taken notM leg mode named own (checkNewLeg_full full),
      fun room full => addLeg_checked taken notM leg mode named own (checkNewLeg_noLeg room full),
      fun room pool => ⟨fun kind => ?station, fun kind => ?tie⟩⟩
    case station =>
      have station : o.station.toNat < 512 := by
        rcases read.1 with ⟨-, small⟩ | ⟨one, -⟩
        · exact small
        · rw [kind] at one; cases one
      have leg := readNewLeg_station kind station
      refine ⟨fun held => addLeg_checked taken notM leg mode named own (checkNewLeg_station_inUse room pool held),
        fun free => ⟨fun unbound => addLeg_checked taken notM leg mode named own
          (checkNewLeg_unbound room pool free unbound),
          fun e bound => ⟨fun not =>
              addLeg_checked taken notM leg mode named own (checkNewLeg_notAdmitted room pool free bound not),
            fun r admitted stored => ⟨fun class_ => ?_, fun conference only clear => ?_⟩⟩⟩⟩
      · exact addLeg_checked taken notM leg mode named own
          (checkNewLeg_station_refused room pool free bound admitted (stationLegRefusal_class stored class_))
      · exact addLeg_checked taken notM leg mode named own
          (checkNewLeg_station_refused room pool free bound admitted
            (stationLegRefusal_conflict stored conference only clear))
    case tie =>
      have privacy : o.privacy.toNat < 2 := by
        rcases read.1 with ⟨zero, -⟩ | ⟨-, small⟩
        · rw [kind] at zero; cases zero
        · exact small
      have leg := readNewLeg_tie kind privacy
      refine ⟨fun held => addLeg_checked taken notM leg mode named own (checkNewLeg_tie_inUse room pool held),
        fun free => ⟨fun class_ => addLeg_checked taken notM leg mode named own
            (checkNewLeg_tie_refused room pool free (tieLegRefusal_class class_)),
          fun classes => ⟨fun clear conflict => ?_, fun private_ full => ?_⟩⟩⟩
      · rw [show decide (o.privacy = 1) = false by rw [clear]; rfl] at leg
        exact addLeg_checked taken notM leg mode named own
          (checkNewLeg_tie_refused room pool free (tieLegRefusal_conflict classes conflict))
      · rw [show decide (o.privacy = 1) = true from decide_eq_true private_] at leg
        refine addLeg_checked taken notM leg mode named own ?_
        rw [checkNewLeg_tie_ok room pool free (tieLegRefusal_private classes), freeCtx_of_full full]
        rfl

end Sys2Proof.Machine
end

