-- ==== Sys2Proof/Proofs/SurveyCommands.lean ====
section
/-! PROOF. SET_SURVEY, START_SURVEY and STOP_SURVEY (O59). -/

namespace Sys2Proof.Machine

/-! ## The entries as they are read -/

/-- An entry as a SET_SURVEY carries it. -/
def entryOps (e : SurveyEntry) : SurveyEntryOps :=
  { kind := match e.slot with | .station _ => 0 | .tie _ => 1,
    number := match e.slot with | .station n => BitVec.ofNat 16 n | .tie n => BitVec.ofNat 16 n,
    point := if e.clearPoint then 1 else 0 }

def InRange (e : SurveyEntry) : Prop := match e.slot with | .station n => n < 512 | .tie n => n < 256

theorem readEntry_entryOps {e : SurveyEntry} (h : InRange e) : readEntry (entryOps e) = some e := by
  obtain ⟨slot, point⟩ := e
  cases slot with
  | station n =>
    have number : (BitVec.ofNat 16 n).toNat = n := by
      rw [BitVec.toNat_ofNat]; exact Nat.mod_eq_of_lt (Nat.lt_trans (show n < 512 from h) (by decide))
    simp [readEntry, entryOps, number, below_in_range (n := Config.stationSlots) (show n < 512 from h)]
    cases point <;> rfl
  | tie n =>
    have number : (BitVec.ofNat 16 n).toNat = n := by
      rw [BitVec.toNat_ofNat]; exact Nat.mod_eq_of_lt (Nat.lt_trans (show n < 256 from h) (by decide))
    simp [readEntry, entryOps, number, below_in_range (n := Config.tieSlots) (show n < 256 from h)]
    cases point <;> rfl

theorem readEntries_entryOps {es : List SurveyEntry} (h : ∀ e ∈ es, InRange e) : readEntries
    (es.map entryOps) = some es := by
  induction es with
  | nil => rfl
  | cons e es ih =>
    obtain ⟨first, rest⟩ := List.forall_mem_cons.1 h
    simp [readEntries, readEntry_entryOps first, ih rest]

theorem hasDuplicate_of_nodup {es : List SurveyEntry} (h : es.Nodup) : hasDuplicate es = false := by
  induction es with
  | nil => rfl
  | cons e es ih =>
    obtain ⟨fresh, rest⟩ := List.nodup_cons.1 h
    have single : (es.any fun x => decide (x = e)) = false := by
      simp only [List.any_eq_false, decide_eq_true_eq]
      exact fun x m same => fresh (same ▸ m)
    rw [hasDuplicate, single, ih rest]
    rfl

/-! ## The settings as they are taken (R148, R149) -/

theorem readTrigger_of {kind ctx dir : Byte} {tr : Trigger}
    (h : (kind = 0 ∧ tr = .immediate)
      ∨ (kind = 1 ∧ ctx.toNat < 192 ∧ (dir = 0 ∧ tr = .rollover ctx.toNat .tx ∨ dir = 1 ∧ tr = .rollover ctx.toNat .rx))
      ∨ (kind = 2 ∧ ctx.toNat < 192 ∧ tr = .syncLost ctx.toNat)) : readTrigger kind ctx dir = some tr := by
  rcases h with ⟨rfl, rfl⟩ | ⟨rfl, inRange, ⟨rfl, rfl⟩ | ⟨rfl, rfl⟩⟩ | ⟨rfl, inRange, rfl⟩
  · rfl
  · simp [readTrigger, below_in_range (n := Config.contexts) inRange, yesNo]
  · simp [readTrigger, below_in_range (n := Config.contexts) inRange, yesNo]
  · simp [readTrigger, below_in_range (n := Config.contexts) inRange]

theorem readReport_of {b : Byte} (h : b.toNat ≤ 2) :
    readReport b = some (if b = 0 then .inside else if b = 1 then .outside else .all) := by
  have two : (b = 2) = (b.toNat = 2) := propext (byte_eq_iff b (k := 2) (by omega))
  have zero : (b = 0) = (b.toNat = 0) := propext (byte_eq_iff b (k := 0) (by omega))
  have one : (b = 1) = (b.toNat = 1) := propext (byte_eq_iff b (k := 1) (by omega))
  simp only [readReport, zero, one, two]
  split_ifs
  · rfl
  · rfl
  · rfl
  · omega

theorem surveyWindow_eq (n : Nat) :
    surveyWindow n = if n < 64 then 32 else if n < 128 then 64 else if n < 256 then 128 else 256 := by
  unfold surveyWindow
  split_ifs <;> omega

theorem stateAfterSettings_eq (before : SurveyState) (t : Trigger) : stateAfterSettings before t =
    if before = .stopped then .stopped else if t = .immediate then .measuring 1 0 0 0 else .standby := by
  cases before <;> simp [stateAfterSettings]

theorem surveyStateByte_eq (v : SurveyState) :
    num8 v.code = [match v with | .stopped => 0 | .standby => 1 | .measuring _ _ _ _ => 2] := by cases v <;> rfl

section
variable {o : SetSurveyOps} {v : Survey} {es : List SurveyEntry} {tr : Trigger}

theorem readSettings_ok (few : 1 ≤ o.count.toNat ∧ o.count.toNat ≤ 8) (entries : readEntries o.entries = some es)
    (nodup : es.Nodup) (mode : o.mode.toNat ≤ 1) (report : o.report.toNat ≤ 2)
    (trigger : readTrigger o.trigger o.ctx o.dir = some tr) :
    readSettings o v = some { v with
      entries := es, repeating := decide (o.mode = 1), trigger := tr,
      window := if o.window.toNat < 64 then 32 else if o.window.toNat < 128 then 64 else if
        o.window.toNat < 256 then 128
        else 256,
      low := min 3952 (min o.low.toNat o.high.toNat), high := min 3952 (max o.low.toNat o.high.toNat),
      report := if o.report = 0 then .inside else if o.report = 1 then .outside else .all } := by
  have count : ¬(o.count.toNat = 0 ∨ Config.surveyEntries < o.count.toNat) := by
    rw [Config.surveyEntries]; omega
  have low : min (min 3952 o.low.toNat) (min 3952 o.high.toNat) = min 3952 (min o.low.toNat o.high.toNat) := by omega
  have high : max (min 3952 o.low.toNat) (min 3952 o.high.toNat) = min 3952 (max o.low.toNat o.high.toNat) := by omega
  rw [readSettings, if_neg count]
  simp [entries, yesNo_of_lt (Nat.lt_succ_of_le mode), trigger, readReport_of report, hasDuplicate_of_nodup nodup,
    clampTo_zero, surveyWindow_eq, low, high]

/-- Each of R148's checks that fails leaves the settings unread. -/
theorem readSettings_bad
    (bad : o.count.toNat = 0 ∨ 8 < o.count.toNat
      ∨ (∃ e ∈ o.entries, 2 ≤ e.kind.toNat ∨ (e.kind = 0 ∧ 512 ≤ e.number.toNat)
        ∨ (e.kind = 1 ∧ 256 ≤ e.number.toNat) ∨ 2 ≤ e.point.toNat)
      ∨ ¬o.entries.Nodup ∨ 2 ≤ o.mode.toNat ∨ 3 ≤ o.trigger.toNat ∨ 3 ≤ o.report.toNat
      ∨ ((o.trigger = 1 ∨ o.trigger = 2) ∧ 192 ≤ o.ctx.toNat) ∨ (o.trigger = 1 ∧ 2 ≤ o.dir.toNat)) :
    readSettings o v = none := by
  refine Option.eq_none_iff_forall_ne_some.2 fun w read => ?_
  rw [readSettings] at read
  split_ifs at read with count
  simp only [Option.bind_eq_bind, Option.bind_eq_some_iff] at read
  obtain ⟨es, entries, _, mode, _, trigger, _, report, rest⟩ := read
  rcases bad with zero | many | ⟨e, m, field⟩ | alike | large | kind | large | applies | applies
  · exact count (.inl zero)
  · exact count (.inr many)
  · obtain ⟨_, -, read⟩ := readEntry_of_mem entries e m
    rw [readEntry_eq_none field] at read
    cases read
  · rw [if_pos (hasDuplicate_of_readEntries entries alike)] at rest
    cases rest
  · rw [yesNo_of_le large] at mode
    cases mode
  · rw [readTrigger_eq_none (.inl kind)] at trigger
    cases trigger
  · rw [readReport_eq_none large] at report
    cases report
  · rw [readTrigger_eq_none (.inr (.inl applies))] at trigger
    cases trigger
  · rw [readTrigger_eq_none (.inr (.inr applies))] at trigger
    cases trigger

end

/-! ## The owners -/

section
variable {s : State} {v : Survey} (hsurvey : s.survey = v)
include hsurvey

theorem ownSetSurvey_ok {o : SetSurveyOps} {w : Survey} (read : readSettings o v = some w) :
    ownSetSurvey o s = .done .ok
      (num16 w.window ++ num16 w.low ++ num16 w.high ++ num8 (stateAfterSettings v.state w.trigger).code)
      { s with survey := { w with results := [], state := stateAfterSettings v.state w.trigger } } := by
  subst hsurvey
  simp only [ownSetSurvey, read]

theorem ownStartSurvey_empty (none_ : v.entries = []) : ownStartSurvey s = refuse .emptyList s := by
  subst hsurvey
  rw [ownStartSurvey, none_]
  rfl

theorem ownStartSurvey_starts (some_ : v.entries ≠ []) : ownStartSurvey s = .done .ok
    (num8 (if v.trigger = .immediate then SurveyState.measuring 1 0 0 0 else .standby).code)
    { s with survey := { v with state := if v.trigger = .immediate then .measuring 1 0 0 0 else .standby } } := by
  subst hsurvey
  exact if_neg (by simpa using some_)

theorem ownStopSurvey_eq : ownStopSurvey s = .done .ok (num8 v.state.code)
    { s with survey := { v with state := .stopped } } := by
  subst hsurvey
  rfl

end

/-- Settles O59: the settings as they are read, the state they leave, and the two commands that run the survey. -/
theorem surveyCommandsSetAndRun : Obligations.SurveyCommandsSetAndRun := by
  unfold Obligations.SurveyCommandsSetAndRun
  refine ⟨fun s t o p es after w lo hi taken count some_ few entries ranges nodup mode report window low high
    tr kind state =>
      ?set,
    fun s t p taken => ?start, fun s t p taken => ?stop, fun s t o p taken formed bad => ?bad⟩
  case set =>
    have entries : o.entries = es.map entryOps := entries
    have length : o.entries.length = es.length := by rw [entries, List.length_map]
    have formed : (Instr.setSurvey .m t o).wellFormed = true := by
      simp only [Instr.wellFormed, Bool.and_eq_true, decide_eq_true_eq]
      omega
    have survey := State.taking_survey s .m p
    generalize (settle s).survey = v at survey state ⊢
    have read := readSettings_ok (v := v) (by omega) (entries ▸ readEntries_entryOps ranges) nodup mode report
      (readTrigger_of kind)
    rw [← window, ← low, ← high] at read
    have done := ownSetSurvey_ok survey read
    rw [stateAfterSettings_eq, ← state, surveyStateByte_eq] at done
    exact exec_eq_answer_of_owner (owner := ownSetSurvey o) taken rfl formed rfl rfl done
  case start =>
    have survey := State.taking_survey s .m p
    generalize (settle s).survey = v at survey ⊢
    split_ifs with empty immediate
    · exact refusedWith_of_owner (owner := ownStartSurvey) taken rfl rfl rfl rfl (ownStartSurvey_empty survey empty)
    · have done := ownStartSurvey_starts survey empty
      rw [if_pos immediate] at done
      exact exec_eq_answer_of_owner (owner := ownStartSurvey) taken rfl rfl rfl rfl done
    · have done := ownStartSurvey_starts survey empty
      rw [if_neg immediate] at done
      exact exec_eq_answer_of_owner (owner := ownStartSurvey) taken rfl rfl rfl rfl done
  case stop =>
    have survey := State.taking_survey s .m p
    generalize (settle s).survey = v at survey ⊢
    have done := ownStopSurvey_eq survey
    rw [surveyStateByte_eq] at done
    exact exec_eq_answer_of_owner (owner := ownStopSurvey) taken rfl rfl rfl rfl done
  case bad =>
    refine refusedWith_of_owner (owner := ownSetSurvey o) taken rfl formed rfl rfl ?_
    simp only [ownSetSurvey, readSettings_bad bad]

end Sys2Proof.Machine
end
